-- ==== Sys2Proof/Word.lean ====
section
/-!
DEFINITION. The word types of the device and its sparse tables.

Registers and memory cells are bit vectors (R4, R13, R16); everything indexed by a number that the
spec counts (cores, beds, queues, lanes) is kept in a sorted sparse table.
-/

namespace Sys2Proof

/-- One byte (R4). -/
abbrev Byte := BitVec 8
/-- A 32-bit text word, lane or FP32 pattern. -/
abbrev Word := BitVec 32
/-- A 64-bit register (R13). -/
abbrev Dword := BitVec 64
/-- A v register or a queue entry: 64 lanes of 32 bits, 256 bytes (R16, R28). -/
abbrev VReg := BitVec 2048
/-- A lane mask (R17). -/
abbrev Mask := BitVec 64

/-- A sparse table: entries by number, kept in rising order of the number. What an unlisted number
holds is given by the reader. -/
structure Tbl (α : Type) where
  entries : List (Nat × α)
deriving DecidableEq, Repr

namespace Tbl

/-- The table with nothing listed. -/
def empty {α : Type} : Tbl α := ⟨[]⟩

/-- The entry found first under `k` in a list of entries. -/
def findIn {α : Type} : List (Nat × α) → Nat → Option α
  | [], _ => none
  | (j, x) :: r, k => if j = k then some x else findIn r k

/-- The entry under `k`, if one is listed. -/
def get? {α : Type} (t : Tbl α) (k : Nat) : Option α := findIn t.entries k

/-- The entry under `k`, or `d` when none is listed. -/
def get {α : Type} (d : α) (t : Tbl α) (k : Nat) : α := (t.get? k).getD d

/-- Insert or replace in a rising list. -/
def putIn {α : Type} : List (Nat × α) → Nat → α → List (Nat × α)
  | [], k, x => [(k, x)]
  | (j, y) :: r, k, x =>
    if k < j then (k, x) :: (j, y) :: r
    else if k = j then (k, x) :: r
    else (j, y) :: putIn r k x

/-- The table with `x` under `k`. -/
def put {α : Type} (t : Tbl α) (k : Nat) (x : α) : Tbl α := ⟨putIn t.entries k x⟩

/-- The table with `f` applied to the entry under `k` (to `d` when none is listed). -/
def upd {α : Type} (d : α) (t : Tbl α) (k : Nat) (f : α → α) : Tbl α := t.put k (f (t.get d k))

/-- The table without an entry under `k`. -/
def erase {α : Type} (t : Tbl α) (k : Nat) : Tbl α := ⟨t.entries.filter fun e => e.1 != k⟩

/-- The numbers listed. -/
def keys {α : Type} (t : Tbl α) : List Nat := t.entries.map Prod.fst

/-- The values listed, in rising order of their numbers. -/
def vals {α : Type} (t : Tbl α) : List α := t.entries.map Prod.snd

/-- The table with `f` applied to every listed entry. -/
def mapVals {α β : Type} (t : Tbl α) (f : Nat → α → β) : Tbl β :=
  ⟨t.entries.map fun e => (e.1, f e.1 e.2)⟩

/-- The table with the entries that satisfy `p`. -/
def filter {α : Type} (t : Tbl α) (p : Nat → α → Bool) : Tbl α :=
  ⟨t.entries.filter fun e => p e.1 e.2⟩

end Tbl

end Sys2Proof
end

