-- ==== Sys2Proof/Syntax.lean ====
section
/-!
DEFINITION. The instruction set as data: engines, register specifiers, the amended template that an
issued word carries (R71 to R75), the things that the other agents' steps act on, and `Instr` with
one constructor for each row of the opcode table.
-/

namespace Sys2Proof

/-- The four engines of a core, by the E field of a patch word (R10, R71). -/
inductive Engine where
  /-- access -/
  | A
  /-- execute -/
  | X
  /-- matrix issue -/
  | M
  /-- store -/
  | S
deriving DecidableEq, Repr

/-- The special registers (R22). -/
inductive Spec where
  | z | scyc | core | stage
  | ix (i : Fin 4)
  | tl (i : Fin 8)
  | mbx | fflg | rin
deriving DecidableEq, Repr

/-- A register specifier (R13). -/
inductive Reg where
  | a (i : Fin 32)
  | s (i : Fin 32)
  | v (i : Fin 32)
  | g (i : Fin 8)
  /-- load queue, popped -/
  | lq (i : Fin 8)
  /-- store queue, pushed -/
  | sq (i : Fin 8)
  /-- load queue head, read without popping -/
  | lk (i : Fin 8)
  | m (i : Fin 16)
  | w (i : Fin 32)
  | sp (r : Spec)
deriving DecidableEq, Repr

/-- What an issued word carries: its template (R74) after the patch word's amendment (R72), the
token bits of the patch word (R71), and the 64-bit literal of LIT2 when there is one (R73). -/
structure Wrd where
  /-- E of the patch word and ENG of the template. -/
  eng : Engine
  /-- take a token from the previous engine -/
  wp : Bool
  /-- take a token from the next engine -/
  wn : Bool
  /-- signal the previous engine -/
  sp : Bool
  /-- signal the next engine -/
  sn : Bool
  /-- guard enable -/
  ge : Bool
  /-- guard invert -/
  gi : Bool
  /-- guard number -/
  gn : Fin 8
  dst : Reg
  sa : Reg
  sb : Reg
  sc : Reg
  mod : BitVec 8
  ac : BitVec 2
  /-- yield mark -/
  y : Bool
  rep : BitVec 8
  imm : Word
  off : BitVec 16
  lit2 : Option Dword
deriving DecidableEq, Repr

/-- The specifier byte 0, which an unused field holds (R74). -/
def Reg.unused : Reg := .a 0

/-- The word of engine `e` with every other field zero. -/
def Wrd.blank (e : Engine) : Wrd :=
  ⟨e, false, false, false, false, false, false, 0, .unused, .unused, .unused, .unused,
    0, 0, false, 0, 0, 0, none⟩

/-- What requests a seal (R379). -/
inductive SealWhy where
  | periodic | log | egress
  /-- a SEAL node of launch queue `q` of tenant `tid` -/
  | node (tid q : Nat)
  /-- `seal` or `irrv` of a launch -/
  | launch (lid : Nat)
deriving DecidableEq, Repr

/-- Where an uncorrectable error strikes (R387, R389 UNIT). `lost` says that it struck a live log
segment or the seal buffer of the last seal. `die` 255 names the trellis. The package is any of the domain. -/
structure ErrorSite where
  pkg : Nat
  unit : Nat
  die : Nat
  lost : Bool
deriving DecidableEq, Repr

/-- What a correctable error is counted on (R450). -/
inductive CountSite where
  | hbm (die channel : Nat)
  | llc (die slice : Nat)
  | near (core : Nat)
  | spad (core : Nat)
  | bedStore (bed : Nat)
deriving DecidableEq, Repr

/-- A host access through a tenant's memory aperture (R441): `data` none is a read of `len` bytes. -/
structure Aperture where
  tid : Nat
  va : Nat
  len : Nat
  data : Option (List Byte)
deriving DecidableEq, Repr

/-- A route schedule as loaded (R429): the header fields, the reservation entries of 128 bits and the
group entries as lists of 4-byte words (count first). `extra` is the OR of the header's other bytes. -/
structure Schedule where
  gen : Nat
  per : Nat
  extra : Nat
  entries : List (BitVec 128)
  groups : List (List Word)
deriving DecidableEq, Repr

/-- A register of the management window or a tenant window that has no behaviour of its own
(R373, R410, R445). -/
inductive MgmtReg where
  /-- connection-table entry -/
  | conn (i : Nat)
  | ctbase
  /-- interval length T_I of the domain, in wall cycles -/
  | interval
  /-- member packages of the domain: a bit for each of packages 64 · i to 64 · i + 63 -/
  | members (i : Nat)
  | domainId
  /-- a field of a tenant's queue block, by its offset in the block -/
  | queue (tid q off : Nat)
  /-- an MSI-X table word of the tenant window -/
  | msix (tid i : Nat)
  /-- an MSI-X table word of the physical function -/
  | pfMsix (i : Nat)
deriving DecidableEq, Repr

/-- What a cold start finds (R448): the first failing step (0 for none), the fused defect signature
and the fabric slot taken from the link partners. -/
structure ColdStart where
  failed : Nat
  signature : Dword
  fslot : Nat
deriving DecidableEq, Repr

/-- What a warm start finds (R449). -/
structure WarmStart where
  /-- 0, or the step of R448 that fails -/
  failed : Nat
  digestOk : Bool
  fslot : Nat
deriving DecidableEq, Repr

/-- A flit (R427): its data bytes, the first in the low bits, and its control word.
(DESIGN CHOICE, log 56) -/
structure Flit where
  data : BitVec 512
  ctl : Dword
deriving DecidableEq, Repr

/-- A packet as its receiver sees it (R427, R428). (DESIGN CHOICE, log 56) -/
structure Packet where
  /-- its flits as they arrive; the fields below are what their header, whose layout is not stated, says -/
  flits : List Flit
  src : Nat
  seq : Nat
  typ : Nat
  gen : Nat
  /-- linear index of the source core -/
  core : Nat
  tid : Nat
  /-- target physical address, or the virtual address for a multicast -/
  addr : Nat
  /-- store count of a store-release; index of a contribution; phase tag; round -/
  count : Nat
  /-- operation, size or group, by type -/
  op : Nat
  data : List Byte
deriving DecidableEq, Repr

/-- One row of the opcode table: a word of the instruction set, carrying its amended template, or a
step of another agent, carrying what it acts on. -/
inductive Instr where
  /-- IADD (R104): Integer add of a and b at width n, wrapping or saturating. -/
  | iadd (w : Wrd)
  /-- ISUB (R104): Integer subtract a minus b at width n. -/
  | isub (w : Wrd)
  /-- IMUL (R104): Low n bits of the integer product. -/
  | imul (w : Wrd)
  /-- IMULH (R104): High n bits of the full signed or natural product. -/
  | imulh (w : Wrd)
  /-- IMAD (R104): Integer multiply-add a*b+c with one wrap or saturation. -/
  | imad (w : Wrd)
  /-- IDIV (R106): Integer divide towards zero, reporting zero divisors into a condition bit or g register. -/
  | idiv (w : Wrd)
  /-- IREM (R106): Integer remainder with the sign of a, reporting zero divisors. -/
  | irem (w : Wrd)
  /-- IMIN (R104): Smaller of a and b compared by kind. -/
  | imin (w : Wrd)
  /-- IMAX (R104): Larger of a and b compared by kind. -/
  | imax (w : Wrd)
  /-- IABS (R104): Absolute value of a at width n. -/
  | iabs (w : Wrd)
  /-- INEG (R104): Negation of a at width n. -/
  | ineg (w : Wrd)
  /-- IAND (R104): Bitwise and. -/
  | iand (w : Wrd)
  /-- IOR (R104): Bitwise or. -/
  | ior (w : Wrd)
  /-- IXOR (R104): Bitwise exclusive or. -/
  | ixor (w : Wrd)
  /-- IANDN (R104): Bitwise a and not b. -/
  | iandn (w : Wrd)
  /-- ISHL (R104): Left shift by b mod n, optionally saturating. -/
  | ishl (w : Wrd)
  /-- ISHR (R104): Logical right shift by b mod n. -/
  | ishr (w : Wrd)
  /-- ISAR (R104): Arithmetic right shift by b mod n. -/
  | isar (w : Wrd)
  /-- IROT (R104): Rotate left by b mod n. -/
  | irot (w : Wrd)
  /-- ICLZ (R104): Count of leading zeros in n bits. -/
  | iclz (w : Wrd)
  /-- IPOP (R104): Count of one bits. -/
  | ipop (w : Wrd)
  /-- IBFX (R108): Extract a bit field of a, sign- or zero-extended. -/
  | ibfx (w : Wrd)
  /-- IBFI (R108): Insert low bits of b into a bit field of a. -/
  | ibfi (w : Wrd)
  /-- ICMP (R107): Integer compare by condition code into a condition bit, g register or s register. -/
  | icmp (w : Wrd)
  /-- ISEL (R104): Select a where c is nonzero, else b. -/
  | isel (w : Wrd)
  /-- IMOV (R109): Copy a at width n. -/
  | imov (w : Wrd)
  /-- ILI (R109): Load an immediate, extended and cut to width n, or a 64-bit literal. -/
  | ili (w : Wrd)
  /-- BR (R127): Record a taken decision to the immediate target for the branch group. -/
  | br (w : Wrd)
  /-- BRC (R127): Record taken to the target when an integer compare of two scalar registers holds. -/
  | brc (w : Wrd)
  /-- JMPI (R128): Record taken to the 64-bit register value, checked when control reaches it. -/
  | jmpi (w : Wrd)
  /-- CALL (R129): Record taken to the target and push the index after the group on the engine's return stack. -/
  | call (w : Wrd)
  /-- RET (R129): Pop the return stack and record taken to the popped index. -/
  | ret (w : Wrd)
  /-- LOOP (R130): Count form: decrement lcN and record taken while it is nonzero. -/
  | loop (w : Wrd)
  /-- LOOP_INIT (R130): Init form: set lcN to the count and record taken to exit when the count is zero. -/
  | loopInit (w : Wrd)
  /-- BRQ (R131): Pop a branch-outcome queue and record taken when the bit is 1. -/
  | brq (w : Wrd)
  /-- OBSEND (R131): Push whether a register is nonzero into the branch-outcome queue towards the other engine. -/
  | obsend (w : Wrd)
  /-- NOP (R132): Occupy slots with only the common word actions. -/
  | nop (w : Wrd)
  /-- HALT (R34): Control word whose agreeing group frees leases, commits pending writes and stops the core. -/
  | halt (w : Wrd)
  /-- CSRR (R123): Read a numbered control register into an engine register. -/
  | csrr (w : Wrd)
  /-- CSRW (R123): Write a numbered control register subject to privilege and ignored values. -/
  | csrw (w : Wrd)
  /-- FLGR (R122): Read FFLG into an s register and clear selected flag bits. -/
  | flgr (w : Wrd)
  /-- TKW (R198): Take or give n tokens on one directed token queue of the engine. -/
  | tkw (w : Wrd)
  /-- TKRD (R199): Read the count of a named directed token queue. -/
  | tkrd (w : Wrd)
  /-- FORK (R200): Split X into four cluster sequencers, each starting at f+1 or the target. -/
  | fork (w : Wrd)
  /-- JOIN (R202): Set a cluster's synchronisation bit; the fourth reunites the clusters and commits their writes. -/
  | join (w : Wrd)
  /-- ENDIT (R204): End the engine's part of the iteration; the last engine's endit ends the iteration. -/
  | endit (w : Wrd)
  /-- WFE (R207): Clear the event latch if set, otherwise hold the engine until it is set. -/
  | wfe (w : Wrd)
  /-- SEV (R206): Set event latches, and with .msg write MBX, of target cores by reach. -/
  | sev (w : Wrd)
  /-- FADD (R111): Floating-point add rounded by the word's mode. -/
  | fadd (w : Wrd)
  /-- FSUB (R111): Floating-point subtract. -/
  | fsub (w : Wrd)
  /-- FMUL (R111): Floating-point multiply. -/
  | fmul (w : Wrd)
  /-- FFMA (R111): Fused multiply-add rounded once. -/
  | ffma (w : Wrd)
  /-- FMIN (R112): Smaller operand with NaN and signed-zero rules. -/
  | fmin (w : Wrd)
  /-- FMAX (R112): Larger operand with NaN and signed-zero rules. -/
  | fmax (w : Wrd)
  /-- FDIV (R111): Floating-point divide. -/
  | fdiv (w : Wrd)
  /-- FSQRT (R111): Floating-point square root. -/
  | fsqrt (w : Wrd)
  /-- FCMP (R113): Floating-point compare by predicate into a g or s register. -/
  | fcmp (w : Wrd)
  /-- FCLASS (R114): Write a one-hot class mask of the operand without flags or traps. -/
  | fclass (w : Wrd)
  /-- FSCALE (R115): Multiply by a power of two given by an integer element, rounded once. -/
  | fscale (w : Wrd)
  /-- FEXPO (R115): Return floor(log2|x|) as an integer element. -/
  | fexpo (w : Wrd)
  /-- FRINT (R115): Round to an integral value in the same format. -/
  | frint (w : Wrd)
  /-- FNC (R67): Approximate function (exp2 to sigmoid) from ROM segment tables under FTV. -/
  | fnc (w : Wrd)
  /-- FNC_RND (R70): Per-lane 32 random bits from SEED, a counter and the lane number. -/
  | fncRnd (w : Wrd)
  /-- FNC_TAB (R116): Read ROM polynomial coefficients of a function table into lanes. -/
  | fncTab (w : Wrd)
  /-- CVT (R118): Convert each element between float and integer formats by the mode. -/
  | cvt (w : Wrd)
  /-- CVTS (R119): Stochastically rounded conversion using random bits from a vector. -/
  | cvts (w : Wrd)
  /-- CVTQ (R120): Quantise two 32-element FP32 blocks to a narrow format with E8M0 scales. -/
  | cvtq (w : Wrd)
  /-- CVTD (R120): Dequantise a packed block vector to 64 FP32 lanes. -/
  | cvtd (w : Wrd)
  /-- VMOV (R124): Copy or broadcast elements into a vector destination. -/
  | vmov (w : Wrd)
  /-- VBC (R124): Broadcast a scalar or one lane to every element. -/
  | vbc (w : Wrd)
  /-- VLIX (R124): Write global element number plus immediate into each element. -/
  | vlix (w : Wrd)
  /-- VPERM (R124): Permute elements by an index vector. -/
  | vperm (w : Wrd)
  /-- VROT (R124): Rotate elements by a shift. -/
  | vrot (w : Wrd)
  /-- VBFLY (R124): Butterfly exchange of elements by xor of the index. -/
  | vbfly (w : Wrd)
  /-- VSUM (R125): Sum enabled elements by the fixed pairwise tree into an s register. -/
  | vsum (w : Wrd)
  /-- VMAXR (R125): Maximum of enabled elements by the fixed tree. -/
  | vmaxr (w : Wrd)
  /-- VMINR (R125): Minimum of enabled elements by the fixed tree. -/
  | vminr (w : Wrd)
  /-- GOP (R126): Bitwise table operation on two g registers. -/
  | gop (w : Wrd)
  /-- GANY (R126): Whether any enabled bit of a g register is set. -/
  | gany (w : Wrd)
  /-- GALL (R126): Whether every enabled bit of a g register is set. -/
  | gall (w : Wrd)
  /-- GCNT (R126): Count of set enabled bits of a g register. -/
  | gcnt (w : Wrd)
  /-- GMOV (R126): Move between g and s registers or load a g register with an immediate. -/
  | gmov (w : Wrd)
  /-- LQDROP (R133): Pop and discard load-queue entries without waiting for their data. -/
  | lqdrop (w : Wrd)
  /-- LEASE (R154): Request a single or wide lease of the bed's matrix array, stalling until granted. -/
  | lease (w : Wrd)
  /-- FREE (R154): Give up every lease the core holds. -/
  | free (w : Wrd)
  /-- BLD (R155): Load rows of a B bank in the active format from scratchpad or memory. -/
  | bld (w : Wrd)
  /-- SLD_COL (R156): Load FP32 column scales of a bank. -/
  | sldCol (w : Wrd)
  /-- SLD_BLK (R156): Load E8M0 block scales of a bank's row groups. -/
  | sldBlk (w : Wrd)
  /-- FMTLD (R157): Write a format-table entry from a register or immediate. -/
  | fmtld (w : Wrd)
  /-- FMTIX (R157): Set the format base and clear the pin, or pin an entry. -/
  | fmtix (w : Wrd)
  /-- MMA (R158): Add a product of A rows and the B bank into a link of a chain and decrement its REM. -/
  | mma (w : Wrd)
  /-- CHBUILD (R160): Read a chain descriptor and open the chain and its links. -/
  | chbuild (w : Wrd)
  /-- MCLOSE (R161): Put a chain into closing so that its tile is written once the tail is ready. -/
  | mclose (w : Wrd)
  /-- MZERO (R162): Return a chain to its built state and reopen it. -/
  | mzero (w : Wrd)
  /-- CHSTAT (R163): Read chain state, link state, flag word and REM of a hop. -/
  | chstat (w : Wrd)
  /-- LD (R271): Local load into a load-queue entry. -/
  | ld (w : Wrd)
  /-- LDA (R271): Local load into an a register. -/
  | lda (w : Wrd)
  /-- LDG (R271): Global load into a load-queue entry, optionally with acquire. -/
  | ldg (w : Wrd)
  /-- LDGA (R271): Global load into an a register, optionally with acquire. -/
  | ldga (w : Wrd)
  /-- PF (R287): Prefetch a line into the near cache or home LLC without faulting. -/
  | pf (w : Wrd)
  /-- INVAL_PAGE (R288): Remove cached translations covering one page in the scope. -/
  | invalPage (w : Wrd)
  /-- INVAL_CTX (R288): Remove every non-global translation of the context. -/
  | invalCtx (w : Wrd)
  /-- INVAL_ALL (R288): Remove every translation of the context, supervisor only. -/
  | invalAll (w : Wrd)
  /-- CARVE (R286): Grow or shrink the launch's die-store grant on its die. -/
  | carve (w : Wrd)
  /-- ATADD (R275): Atomic add returning the old value. -/
  | atadd (w : Wrd)
  /-- ATMIN (R275): Atomic minimum returning the old value. -/
  | atmin (w : Wrd)
  /-- ATMAX (R275): Atomic maximum returning the old value. -/
  | atmax (w : Wrd)
  /-- ATAND (R275): Atomic and returning the old value. -/
  | atand (w : Wrd)
  /-- ATOR (R275): Atomic or returning the old value. -/
  | ator (w : Wrd)
  /-- ATXOR (R275): Atomic exclusive or returning the old value. -/
  | atxor (w : Wrd)
  /-- ATXCH (R275): Atomic exchange returning the old value. -/
  | atxch (w : Wrd)
  /-- ATCAS (R275): Atomic compare-and-swap returning the old value. -/
  | atcas (w : Wrd)
  /-- RDO (R277): Send an indexed ordered contribution to a memory-side target. -/
  | rdo (w : Wrd)
  /-- PHASE (R279): Boundary with acquire, release or both halves of a scope. -/
  | phase (w : Wrd)
  /-- FENCE (R280): Order the engine's accesses before and after it. -/
  | fence (w : Wrd)
  /-- RCLAIM (R282): Claim the next ring slot, waiting while the ring is full. -/
  | rclaim (w : Wrd)
  /-- RFILL (R283): Release at bed scope and then mark a claimed ring slot filled. -/
  | rfill (w : Wrd)
  /-- RFREE (R283): Release at bed scope and then mark a filled ring slot freed. -/
  | rfree (w : Wrd)
  /-- RWAITF (R284): Wait until ring slot count k is filled, acquire, and return its address. -/
  | rwaitf (w : Wrd)
  /-- RWAITE (R284): Wait until the freed count passes k, then acquire. -/
  | rwaite (w : Wrd)
  /-- ST (R273): Local store of a popped store-queue entry. -/
  | st (w : Wrd)
  /-- STW (R273): Store the low bytes of a w register, local or global. -/
  | stw (w : Wrd)
  /-- STG (R273): Global store of a popped store-queue entry, optionally with release. -/
  | stg (w : Wrd)
  /-- BTCPY (R322): Check a copy descriptor, take a buffer entry and number, and hand the copy to the barrow. -/
  | btcpy (w : Wrd)
  /-- BTQ (R323): Return the completion cycle of a numbered copy. -/
  | btq (w : Wrd)
  /-- WAITC (R324): Hold the engine until SCYC reaches a target, optionally then acquire. -/
  | waitc (w : Wrd)
  /-- TLWAIT (R325): Wait until a timeline view's done count reaches n, then acquire. -/
  | tlwait (w : Wrd)
  /-- BARINIT (R326): Initialise a transaction barrier with an arrival count. -/
  | barinit (w : Wrd)
  /-- BARARR (R326): Local relaxed or release arrival at a transaction barrier. -/
  | bararr (w : Wrd)
  /-- BARARR_REM (R327): Remote release arrival at a barrier in another bed's store. -/
  | bararrRem (w : Wrd)
  /-- BAREXP (R326): Declare expected sectors to a barrier phase. -/
  | barexp (w : Wrd)
  /-- BARWAIT (R316): Wait until a barrier phase has completed, then acquire. -/
  | barwait (w : Wrd)
  /-- GDEF (R328): Read, check and install a grid descriptor in the hedges. -/
  | gdef (w : Wrd)
  /-- GSTEP (R329): Publish a partition's step so the hedge fills neighbours' ghosts. -/
  | gstep (w : Wrd)
  /-- LDGS (R330): Tag-checked load of grid box elements into a load queue. -/
  | ldgs (w : Wrd)
  /-- RDXGO (R333): Check a parameter block and start a parameter-block reduction. -/
  | rdxgo (w : Wrd)
  /-- PGMIG (R334): Start a page transplant of a range to a new physical base. -/
  | pgmig (w : Wrd)
  /-- STGS (R331): Tagged store into the interior of an owned grid partition. -/
  | stgs (w : Wrd)
  /-- LDR (R454): Bulk copy from remote memory into a local range in 1,024-byte units. -/
  | ldr (w : Wrd)
  /-- MMAR (R455): mma with A rows fetched from possibly remote memory. -/
  | mmar (w : Wrd)
  /-- STGR (R456): Bulk store of local bytes to remote memory in the store sequence. -/
  | stgr (w : Wrd)
  /-- STREL (R457): Machine-scope release then a counted release store. -/
  | strel (w : Wrd)
  /-- SSEND (R459): Send bytes into the next slot of a tensor stream on an adjacent stage. -/
  | ssend (w : Wrd)
  /-- SRECV (R460): Wait for stream slot k, acquire, and return its address. -/
  | srecv (w : Wrd)
  /-- SRECV_LEN (R460): Wait for stream slot k, acquire, and return its length. -/
  | srecvLen (w : Wrd)
  /-- SRECV_FREE (R460): Mark stream slot k freed. -/
  | srecvFree (w : Wrd)
  /-- MCAST (R461): Multicast up to 1,024 bytes to every member of a group. -/
  | mcast (w : Wrd)
  /-- CMB (R462): Contribute 256 bytes to a combining round and receive the root value. -/
  | cmb (w : Wrd)
  /-- TRAP (R394): Take a precise trap fault carrying a code. -/
  | trap (w : Wrd)
  /-- SYSC (R394): Take a system-call fault; at supervisor level it ends the launch. -/
  | sysc (w : Wrd)
  /-- ERET (R395): Check and restore the served context's image and resume it. -/
  | eret (w : Wrd)
  /-- MSPILL (R397): Spill a link slot's state to the owning context's save area and retag it. -/
  | mspill (w : Wrd)
  /-- MFILL_LINK (R397): Restore a context's spilled link state into an idle slot. -/
  | mfillLink (w : Wrd)
  /-- MFILL_BANK (R397): Clear, retag and reload a bank from the context's source records. -/
  | mfillBank (w : Wrd)
  /-- CHFRZ (R398): Freeze a chain. -/
  | chfrz (w : Wrd)
  /-- CHFRZ_THAW (R398): Thaw a frozen chain with no failed link. -/
  | chfrzThaw (w : Wrd)
  /-- CHGRAFT (R399): Replace a failed hop of a frozen chain with a spare slot. -/
  | chgraft (w : Wrd)
  /-- SEAL (R400): Request an early seal and return the interval it closes, optionally waiting for commit. -/
  | seal (w : Wrd)
  /-- IRRV (R401): Irrevocable store sent after the commit of a requested seal. -/
  | irrv (w : Wrd)
  /-- TBANK (R402): Switch the engine's active template bank after 24 slots. -/
  | tbank (w : Wrd)
  /-- MARK (R403): One-slot word whose Y bit makes a yield point. -/
  | mark (w : Wrd)
  /-- SLIP_DEADLOCK (R171): Take the slip-deadlock fault when every running engine waits inside the core. -/
  | slipDeadlock (core : Nat)
  /-- QUEUE_ENTRY_VALID (R29): Data of an allocated queue entry arrives and the entry becomes valid. -/
  | queueEntryValid (core q entry : Nat)
  /-- REGISTER_LOAD_DATA (R270): Data of a register load or atomic arrives, ending a stall at its due boundary. -/
  | registerLoadData (core stream seq : Nat)
  /-- RAKE_HANDOUT (R179): The rake hands the next iteration to a free core and loads its launch values. -/
  | rakeHandout (launch : Nat)
  /-- LAUNCH_COMPLETE (R180): The launch completes when all iterations have ended and their writes are released. -/
  | launchComplete (launch : Nat)
  /-- LEASE_GRANT (R182): Grant a waiting lease request in cyclic CRN order once no conflict holds. -/
  | leaseGrant (bed : Nat)
  /-- PARTIAL_ARRIVAL (R420): A forwarded partial arrives at the next link, is added and sets its incoming mark. -/
  | partialArrival (flight : Nat)
  /-- CLOSE (R150): A closing chain with a ready tail rounds and writes its tile and commits tl3. -/
  | close (launch ch : Nat)
  /-- FAULT_DELIVERY (R346): Once queues and array commands settle, write the context image and start the supervisor handler. -/
  | faultDelivery (core : Nat)
  /-- IMPRECISE_REPORT (R343): An outside agent's fault report arrives and is taken at the next slot boundary or kept. -/
  | impreciseReport (flight : Nat)
  /-- PREEMPTION_REQUEST (R362): Streams run to yield points and the core saves its image or retries the attempt. -/
  | preemptionRequest (core : Nat)
  /-- PREEMPT_RESUME (R364): A saved context resumes on its cores when its beds are released. -/
  | preemptResume (core : Nat)
  /-- LINK_FAILURE (R370): An uncorrectable error in a link slot fails the link, freezes its chain and reports link-failed. -/
  | linkFailure (bed slot : Nat)
  /-- GLOBAL_STALL (R188): SCYC stops package-wide when an engine cannot issue at its scheduled cycle or the power cap inserts a stall. -/
  | globalStall (cycles : Nat)
  /-- COPY_ACCEPT (R296): The barrow accepts a copy and fixes its start cycle and channel. -/
  | copyAccept (die : Nat)
  /-- COPY_COMPLETE (R297): A copy completes when SCYC reaches S+T, updating its view and freeing its buffer entry. -/
  | copyComplete (die entry : Nat)
  /-- REMOTE_ARRIVAL (R317): A remote arrival is applied at its barrier after the arriver's release. -/
  | remoteArrival (flight : Nat)
  /-- HALO_FILL_COMPLETE (R305): The hedge completes a step's fill of a ghost region, updating its held set. -/
  | haloFillComplete (fill : Nat)
  /-- HALO_FILL_BEGIN (R305): The hedge begins a step's fill and drops step g-2D from the held set. -/
  | haloFillBegin (fill : Nat)
  /-- STALE_HALO_TIMEOUT (R306): An ldgs waiting past HWAIT for its tag takes the stale-halo fault. -/
  | staleHaloTimeout (core : Nat)
  /-- CONTRIBUTION_ARRIVAL (R310): An ordered contribution reaches the reduction engine and is applied, held or discarded. -/
  | contributionArrival (flight : Nat)
  /-- GAP_TIMEOUT (R311): A contribution held longer than the gap bound is discarded with cause GAP. -/
  | gapTimeout (die held : Nat)
  /-- REDUCTION_START (R313): The engine begins a parameter-block reduction after the issuer's release and earlier overlaps complete. -/
  | reductionStart (die waiting : Nat)
  /-- REDUCTION_COMPLETE (R313): After the last sum, STATUS and the flag are written with a release and the view counts. -/
  | reductionComplete (die running : Nat)
  /-- RELEASE_COMPLETE (R245): Every home acknowledges a release half's publications and the release completes. -/
  | releaseComplete (core : Nat)
  /-- TRANSPLANT_STEP_DONE (R422): A step of the transplant sequence finishes and the next begins; the last completes tl4. -/
  | transplantStepDone (transplant : Nat)
  /-- ACCESS_BOUNCE (R423): An access reaching a tombstoned old home is bounced to the new address and reissued. -/
  | accessBounce (core va : Nat)
  /-- SEV_ARRIVAL (R206): A sev's latch set and message reach a target core. -/
  | sevArrival (flight : Nat)
  /-- SEAL_REQUEST (R379): A seal is requested; SCYC stops and cores quiesce, publish and write images. -/
  | sealRequest (why : SealWhy)
  /-- PERIODIC_SEAL_TIMER (R379): T_I expires and requests a periodic seal unless the interval was idle. -/
  | periodicSealTimer
  /-- SEAL_OPEN (R380): On the first domain message every package raises n and resumes, starting the drain. -/
  | sealOpen
  /-- SEAL_COMMIT (R380): On the second message k:=n, the log segment is freed and egress is sent. -/
  | sealCommit
  /-- UNCORRECTABLE_ERROR (R388): An uncorrectable error rolls the domain back to seal k, or stops it with E_DOMAIN. -/
  | uncorrectableError (site : ErrorSite)
  /-- BOUND_EXPIRY (R193): A launch still running when its bound B elapses is stopped as BOUND_EXCEEDED. -/
  | boundExpiry (launch : Nat)
  /-- ITER_BOUND_EXPIRY (R193): An iteration exceeding ITB schedule cycles stops the launch with cause ITER. -/
  | iterBoundExpiry (core : Nat)
  /-- QUEUE_ENTRY_TAKE (R445): The command processor takes a launch queue entry and starts its graph. -/
  | queueEntryTake (tid q : Nat)
  /-- KERNEL (R191): Graph node that computes the bound, admits or refuses, loads the code object and launches. -/
  | kernel (tid q : Nat)
  /-- COPY (R184): Graph node that copies LEN bytes. -/
  | copy (tid q : Nat)
  /-- COND (R184): Graph node choosing NEXT or ALT by a masked word test. -/
  | cond (tid q : Nat)
  /-- LOOP_NODE (R184): Graph node running its body a count of times or while a word is nonzero. -/
  | loopNode (tid q : Nat)
  /-- SWITCH (R184): Graph node picking a successor from a table by an index word. -/
  | switch (tid q : Nat)
  /-- SEAL_NODE (R477): Graph node requesting a seal and continuing when it has completed. -/
  | sealNode (tid q : Nat)
  /-- SIGNAL (R184): Graph node raising a tenant interrupt or setting an event bit. -/
  | signal (tid q : Nat)
  /-- WAITEV (R185): Graph node waiting for an event bit and clearing it. -/
  | waitev (tid q : Nat)
  /-- COMPLETION_RECORD_WRITE (R445): Write a completion record into the ring when room exists and raise the vector. -/
  | completionRecordWrite (tid q : Nat)
  /-- QWPTR_WRITE (R445): Host doorbell write of the queue write pointer, stopping the queue on overflow. -/
  | qwptrWrite (tid q : Nat) (value : Word)
  /-- CRPTR_WRITE (R445): Host write of the completion read pointer, discarded if it would overrun. -/
  | crptrWrite (tid q : Nat) (value : Word)
  /-- EVSET (R445): Host write setting tenant event bits. -/
  | evset (tid : Nat) (bits : Dword)
  /-- APERTURE_ACCESS (R441): Host access through a tenant's memory aperture, translated as ingress. -/
  | apertureAccess (acc : Aperture)
  /-- RING_GEOM_STORE (R219): Store to a ring's GEOM, taking effect only when the ring is empty and aligned, else setting ERR. -/
  | ringGeomStore (bed ring off : Nat) (data : List Byte)
  /-- RING_CNTB_STORE (R219): Store to a ring's CNTB that can only clear ERR. -/
  | ringCntbStore (bed ring off : Nat) (data : List Byte)
  /-- STREAM_SGEOM_STORE (R414): Store to a stream's SGEOM, discarded and setting ERR unless the stream is idle and unbound. -/
  | streamSgeomStore (die launch sid off : Nat) (data : List Byte)
  /-- STREAM_SERR_STORE (R414): Store to a stream's SERR that can only clear ERR. -/
  | streamSerrStore (die launch sid off : Nat) (data : List Byte)
  /-- STREAM_SLOT_ARRIVAL (R415): All bytes of a stream slot land and FC advances. -/
  | streamSlotArrival (die sid : Nat)
  /-- EC_MIRROR_UPDATE (R415): An advance of the receiver's EC reaches the sender's mirror EC'. -/
  | ecMirrorUpdate (die sid : Nat)
  /-- CONNTAB_APPLY (R411): Management command applying a new connection table, refused if invalid or busy. -/
  | conntabApply
  /-- ROUTE_LOAD (R430): Management command loading a route schedule into the inactive bank, or refusing it. -/
  | routeLoad (schedule : Schedule)
  /-- ROUTE_SWITCH (R434): Management command naming a new generation and a switch fabric slot. -/
  | routeSwitch (gen slot : Nat)
  /-- SWITCH_SLOT_REACHED (R434): At fabric slot F first departures use the new generation. -/
  | switchSlotReached
  /-- GENERATION_DRAINED (R434): The old generation's packets are all acknowledged or faulted and its bank becomes inactive. -/
  | generationDrained
  /-- TENANT_CONFIG (R444): Write a tenant configuration record, refused on reserved fields or overlapping beds. -/
  | tenantConfig (record : List Byte)
  /-- REGISTER_WRITE (R410): Write to a management or window register with no behaviour of its own. -/
  | registerWrite (reg : MgmtReg) (value : Dword)
  /-- LOCK (R442): Trusted-interface command freezing the configuration. -/
  | lock (tid : Nat)
  /-- START (R442): Trusted-interface command enabling the queues. -/
  | start (tid : Nat)
  /-- STOP (R442): Trusted-interface command stopping launches, discarding entries and scrubbing. -/
  | stop (tid : Nat)
  /-- GET_REPORT (R443): Return a signed interface report. -/
  | getReport (tid : Nat) (nonce : BitVec 256)
  /-- INTERFACE_ERROR (R442): An IDE failure, foreign request or locked write puts the interface in ERROR. -/
  | interfaceError (tid : Nat)
  /-- GET_COUNTERS (R450): Read lifetime counters over MCTP. -/
  | getCounters (off len : Nat)
  /-- COLD_START (R448): Self-test, defect map, training, calibration and signature checks, or E_BOOT. -/
  | coldStart (c : ColdStart)
  /-- WARM_START (R449): Shortened start that restores memory to seal k and ends running launches. -/
  | warmStart (c : WarmStart)
  /-- PACKET_DEPARTURE (R431): A reservation's packet departs at its DEP or RTY slot, or takes departure-missed. -/
  | packetDeparture (flight : Nat)
  /-- PACKET_RECEIVE (R432): A receiver checks, applies or discards a packet and acknowledges it. -/
  | packetReceive (p : Packet)
  /-- ACK_RECEIVE (R432): An acknowledgement reaches the sender and confirms the packet. -/
  | ackReceive (pkg seq : Nat)
  /-- ACK_TIMEOUT (R432): No acknowledgement by t+2H schedules the retry or, after the retry, takes departure-missed. -/
  | ackTimeout (flight : Nat)
  /-- PORT_WIDTH_CHANGE (R433): A port's width changes at its next packet boundary on request or wavelength loss. -/
  | portWidthChange (port width : Nat)
  /-- CORRECTABLE_ERROR (R212): A correctable error at any level is corrected before use, stalls the access without a slot, and raises a lifetime counter. -/
  | correctableError (site : CountSite)
  /-- SHUTDOWN (R450): At shutdown the lifetime counters are written to non-volatile memory. -/
  | shutdown
  /-- WAITC_TARGET_REACHED (R324): The first slot boundary at which SCYC reaches a waitc target releases the held engine. -/
  | waitcTargetReached (core stream : Nat)
deriving DecidableEq, Repr

/-- What happens at one step of the device: a stream of a core tries its next slot, another agent takes
a step, or one part of a step that lasts comes about. -/
inductive Move where
  | issue (core stream : Nat)
  | agent (i : Instr)
  /-- a home publishes one 64-byte block of a release that is under way (R245) -/
  | publish (core block : Nat)
  /-- the barrow reads, or writes, one 64-byte block of a copy (R298, R299) -/
  | copyBlock (die entry block : Nat)
  /-- a reduction engine sums one 64-byte block (R313) -/
  | sumBlock (die id block : Nat)
  /-- a context begins the release half of a seal (R380) -/
  | sealPublish (core : Nat)
deriving DecidableEq, Repr, Inhabited

/-- A move and the wall cycles that pass before it. -/
structure Turn where
  dt : Nat
  move : Move
deriving DecidableEq, Repr, Inhabited

end Sys2Proof
end

