-- ==== Sys2Proof/Config.lean ====
section
/-!
DEFINITION. What an implementation fixes and the free values: constants with no body, about which
nothing can be proved.
-/

namespace Sys2Proof

namespace Config

/-- What happens at the step drawn with counter `n` once `State.agenda` is empty (log 1).
(DESIGN CHOICE, log 1) -/
opaque schedule : Nat → Turn

/-- A free choice, drawn with the counter `State.draws` (log 4): which of several allowed values an
access returns where the spec allows more than one. (DESIGN CHOICE, log 4) -/
opaque pick : Nat → Nat

/-- A free value of any width, drawn with `State.draws`: a value that the spec does not state.
(DESIGN CHOICE, log 4) -/
opaque freeValue : Nat → VReg

/-- ROM coefficients of the approximate functions (R67): version, function code, segment,
coefficient number, to FP32 patterns. The coefficients that R67 itself fixes are not read here.
(DESIGN CHOICE, log 4; DEDUCED, log 38) -/
opaque rom : Nat → Nat → Nat → Nat → Word

/-- The byte that the host returns for a bus address, by draw (R226, R262).
(DESIGN CHOICE, log 4) -/
opaque hostByte : Nat → Nat → Byte

/-- The byte that a package of another address range returns for a physical address, by draw.
(DESIGN CHOICE, log 4) -/
opaque remoteByte : Nat → Nat → Byte

/-- The package at the other end of an external port, by package and port (R430).
(DESIGN CHOICE, log 4) -/
opaque portPeer : Nat → Nat → Nat

/-- The width of an external port of another package, by package and port; 0 when it is down (R430).
(DESIGN CHOICE, log 4) -/
opaque portWidth : Nat → Nat → Nat

/-- SHAKE256 with 32 bytes of output (R443, R449, R450). (DESIGN CHOICE, log 4) -/
opaque shake256 : List Byte → BitVec 256

/-- The Falcon-1024 signature over a digest under the identity key (R443).
(DESIGN CHOICE, log 4) -/
opaque falconSign : BitVec 256 → List Byte

/-- Where the supervisor puts a save area of a context (R347), by draw, kind (0 core, 1 bed, 2 link) and
number: the die and the 64-byte block. (DESIGN CHOICE, log 11) -/
opaque saveArea : Nat → Nat → Nat → Nat

/-- The virtual address of a core save area (R346), by draw and core. (DESIGN CHOICE, log 11) -/
opaque saveVa : Nat → Nat → Dword

/-- The number that reports a cause of E_NOADMIT, of the four that R192 lists in order (R192, R447).
(DEDUCED, log 20) -/
opaque admitCause : Nat → BitVec 8

/-- The device identity in an interface report (R443). (DESIGN CHOICE, log 4) -/
opaque deviceIdentity : BitVec 256

/-- The digest of the firmware in an interface report (R443). (DESIGN CHOICE, log 4) -/
opaque firmwareDigest : BitVec 256

/-- The header of a packet from what it carries, in flit 0 (R428): its layout is not stated.
(DESIGN CHOICE, log 56) -/
opaque packetHeader : List Nat → BitVec 512

/-- The bytes of the frozen configuration that an interface report digests, from its fields (R443).
(DESIGN CHOICE, log 68) -/
opaque frozenForm : List Byte → List Byte

/-- A byte of the counts of LLC slices, near caches, scratchpads and bed stores, from the counts (R450).
(DESIGN CHOICE, log 68) -/
opaque countForm : List (Nat × Nat) → Nat → Byte

/-- How often a temperature bin (0 to 255) or the voltage droop of a die (256 to 263) has come about since the last
write of the counters, by draw (R450). (DESIGN CHOICE, log 68) -/
opaque sensorCount : Nat → Nat → Nat

/-- The vector of the physical function that tells the driver of something (R389, R433, R441).
(DESIGN CHOICE, log 68) -/
opaque driverVector : Nat → Nat

end Config

end Sys2Proof
end

