-- ==== Sys2Proof/Machine/Shapes.lean ====
section
/-!
DEFINITION. Which fields each operation uses and the static limits of its template (R14, R18, R74 to
R80, R97, R103, R107 to R110, R116 to R127, R130, R153, R196, R266, R267, R319, R393, R452).
-/

namespace Sys2Proof.Machine

open Sys2Proof

/-- The fields that an operation uses (R74). -/
structure Uses where
  dst : Bool
  sa : Bool
  sb : Bool
  sc : Bool
  imm : Bool
  off : Bool
  mod : Bool
deriving DecidableEq, Repr

/-- A general register of the engine, of scalar class (R13). -/
def isScalar : Engine → Reg → Bool
  | .A, .a _ => true
  | .X, .s _ => true
  | .M, .m _ => true
  | .S, .w _ => true
  | _, _ => false

/-- The special register z. -/
def isZ : Reg → Bool
  | .sp .z => true
  | _ => false

/-- A special register that the engine may read (R22). -/
def isSpecial (e : Engine) : Reg → Bool
  | .sp .fflg => e == .X
  | .sp _ => true
  | _ => false

/-- A scalar source: a register of the engine, a special register or z. -/
def srcScalar (e : Engine) (r : Reg) : Bool := isScalar e r || isSpecial e r

/-- A scalar destination: a register of the engine or z. -/
def dstScalar (e : Engine) (r : Reg) : Bool := isScalar e r || isZ r

/-- Class v or q: what makes an X word a vector word (R97). -/
def isVecReg : Reg → Bool
  | .v _ => true
  | .lq _ => true
  | .sq _ => true
  | .lk _ => true
  | _ => false

/-- A g register. -/
def isG : Reg → Bool
  | .g _ => true
  | _ => false

/-- A vector source: v, lq or lk. -/
def isVecSrc : Reg → Bool
  | .v _ => true
  | .lq _ => true
  | .lk _ => true
  | _ => false

/-- A vector destination: v or sq (R97). (DEDUCED, log 80) -/
def isVecDst : Reg → Bool
  | .v _ => true
  | .sq _ => true
  | _ => false

/-- A value source of the engine (R14): on X also v, g and queue heads. -/
def srcVal (e : Engine) (r : Reg) : Bool :=
  srcScalar e r || (e == .X && (isVecSrc r || isG r))

/-- An X word is a vector word when a specifier is of class v or q (R97). -/
def isVector (w : Wrd) : Bool :=
  w.eng == .X && (isVecReg w.dst || isVecReg w.sa || isVecReg w.sb || isVecReg w.sc)

/-- A destination that takes the word's value: on X a v or sq register of a vector word, and an s or g
register of a scalar word, but not z (R97). -/
def dstVal (w : Wrd) : Bool :=
  if w.eng == .X then
    if isVector w then isVecDst w.dst else isScalar .X w.dst || isG w.dst
  else dstScalar w.eng w.dst

/-- A destination of a compare on X (R107, R113). -/
def dstCmp (w : Wrd) : Bool :=
  isG w.dst || (!isVector w && isScalar .X w.dst)

/-- The destination of `csrr` (R97, R123): an s register on X, and on the other engines a register of the
engine or z. (DEDUCED, log 80) -/
def dstCsr (e : Engine) (r : Reg) : Bool := if e == .X then isScalar .X r else dstScalar e r

/-- The source of `vmov` and of `vbc` (R124): v, q, s or special. -/
def moveSrc (r : Reg) : Bool := isVecSrc r || srcScalar .X r

/-- The opcode is one of the list. -/
def opIn (opc : Nat) (l : List Nat) : Bool := l.any (· == opc)

/-- The fields that opcode `opc` uses in this word (R74, R103). -/
def usesOf (opc : Nat) (w : Wrd) : Uses :=
  let i := bit w.mod 3
  if opIn opc [0x000, 0x001, 0x002, 0x003, 0x005, 0x006, 0x007, 0x008, 0x010, 0x011, 0x012, 0x013,
      0x014, 0x015, 0x016, 0x017] then ⟨true, true, !i, false, i, false, true⟩
  else if opIn opc [0x004, 0x021] then ⟨true, true, !i, true, i, false, true⟩
  else if opIn opc [0x009, 0x00A, 0x018, 0x019, 0x022] then
    ⟨true, true, false, false, false, false, true⟩
  else if opc = 0x020 then ⟨w.eng == .X, true, !i, false, i, w.eng != .X, true⟩
  else if opc = 0x01A then ⟨true, true, false, false, true, false, true⟩
  else if opc = 0x01B then ⟨true, true, true, false, true, false, true⟩
  else if opc = 0x023 then ⟨true, false, false, false, true, false, true⟩
  else if opIn opc [0x030, 0x033, 0x036] then ⟨false, false, false, false, true, false, false⟩
  else if opc = 0x031 then ⟨false, true, true, false, true, false, true⟩
  else if opIn opc [0x032, 0x037] then ⟨false, true, false, false, false, false, false⟩
  else if opc = 0x035 then
    ⟨false, bit w.mod 2, false, false, true, bit w.mod 2, true⟩
  else if opIn opc [0x040, 0x042] then ⟨true, false, false, false, true, false, false⟩
  else if opc = 0x041 then ⟨false, true, false, false, true, false, false⟩
  else if opc = 0x050 then ⟨false, false, false, false, true, false, true⟩
  else if opc = 0x051 then ⟨true, false, false, false, false, false, true⟩
  else if opc = 0x052 then ⟨false, true, false, false, true, false, false⟩
  else if opc = 0x056 then
    ⟨false, bits w.mod 1 0 == 0, bit w.mod 2, false, false, false, true⟩
  else if opIn opc [0x100, 0x101, 0x102, 0x104, 0x105, 0x106, 0x108, 0x10A, 0x123] then
    ⟨true, true, true, false, false, false, true⟩
  else if opc = 0x103 then ⟨true, true, true, true, false, false, true⟩
  else if opIn opc [0x107, 0x109, 0x10B, 0x10C, 0x120, 0x126, 0x127, 0x128] then
    ⟨true, true, false, false, false, false, true⟩
  else if opIn opc [0x10D, 0x110, 0x112, 0x113, 0x121] then
    ⟨true, true, false, false, true, false, true⟩
  else if opIn opc [0x111, 0x124, 0x125] then ⟨true, true, true, false, true, false, true⟩
  else if opc = 0x122 then ⟨true, false, false, false, true, false, true⟩
  else if opc = 0x130 then ⟨true, true, true, false, true, false, false⟩
  else if opIn opc [0x131, 0x132, 0x133] then ⟨true, true, false, false, false, false, false⟩
  else if opc = 0x134 then ⟨true, true, false, false, true, false, false⟩
  else if opc = 0x138 then ⟨false, true, false, false, false, false, false⟩
  else if opc = 0x200 then ⟨false, false, false, false, false, false, true⟩
  else if opc = 0x202 then ⟨false, true, true, false, true, true, true⟩
  else if opc = 0x203 then ⟨false, true, bit w.imm 0, false, true, true, true⟩
  else if opc = 0x204 then ⟨false, !bit w.mod 4, false, false, bit w.mod 4, false, true⟩
  else if opc = 0x205 then ⟨false, false, false, false, true, false, true⟩
  else if opc = 0x206 then ⟨false, true, false, false, true, true, true⟩
  else if opc = 0x207 then ⟨false, true, false, false, true, false, false⟩
  else if opc = 0x208 then ⟨false, true, true, false, true, true, true⟩
  else if opc = 0x209 then ⟨false, false, false, false, true, false, false⟩
  else if opc = 0x20A then ⟨true, false, false, false, true, false, false⟩
  else if opIn opc [0x280, 0x282, 0x284, 0x285, 0x300, 0x302] then
    ⟨false, true, false, false, true, true, true⟩
  else if opIn opc [0x281, 0x283] then ⟨true, true, false, false, true, true, true⟩
  else if opc = 0x286 then ⟨true, true, false, false, false, false, false⟩
  else if opIn opc [0x290, 0x291, 0x292, 0x293, 0x294, 0x295, 0x296] then
    ⟨true, true, true, false, true, true, true⟩
  else if opc = 0x297 then ⟨true, true, true, true, true, true, true⟩
  else if opc = 0x298 then ⟨false, true, true, true, true, true, true⟩
  else if opIn opc [0x2A0, 0x2A1] then ⟨false, false, false, false, false, false, true⟩
  else if opc = 0x2A2 then ⟨true, false, false, false, true, false, false⟩
  else if opIn opc [0x2A3, 0x2A5, 0x2A6] then ⟨false, true, false, false, true, false, false⟩
  else if opc = 0x2A4 then ⟨true, true, false, false, true, false, false⟩
  else if opc = 0x301 then ⟨false, true, true, false, true, true, true⟩
  else if opIn opc [0x2B0, 0x2B1] then ⟨true, true, false, false, true, false, false⟩
  else if opc = 0x2B2 then ⟨false, true, false, false, true, false, true⟩
  else if opc = 0x2B3 then ⟨false, true, false, false, true, false, false⟩
  else if opIn opc [0x2B4, 0x2B7] then ⟨false, true, true, false, false, false, false⟩
  else if opc = 0x2B5 then ⟨false, true, bit w.imm 0, true, true, false, true⟩
  else if opc = 0x2B6 then ⟨false, true, true, true, false, false, false⟩
  else if opc = 0x2B8 then ⟨false, true, false, false, true, false, false⟩
  else if opc = 0x2B9 then ⟨true, true, true, false, true, false, false⟩
  else if opIn opc [0x2BA, 0x303] then ⟨false, true, true, true, true, false, true⟩
  else if opc = 0x2BB then ⟨true, true, false, false, true, false, false⟩
  else if opc = 0x2BC then ⟨true, true, true, true, true, false, false⟩
  else if opIn opc [0x340, 0x342] then ⟨false, true, true, true, true, true, true⟩
  else if opc = 0x341 then ⟨false, true, true, false, true, true, false⟩
  else if opc = 0x343 then ⟨false, true, true, false, true, true, true⟩
  else if opc = 0x344 then ⟨true, true, true, false, true, false, true⟩
  else if opc = 0x345 then
    ⟨bits w.imm 6 5 != 2, true, false, false, true, false, false⟩
  else if opc = 0x346 then ⟨false, true, true, true, true, false, false⟩
  else if opc = 0x347 then ⟨false, true, true, false, true, false, false⟩
  else if opIn opc [0x380, 0x381, 0x389] then ⟨false, false, false, false, true, false, false⟩
  else if opc = 0x384 then ⟨false, false, false, false, false, false, true⟩
  else if opc = 0x385 then ⟨false, false, false, false, true, false, true⟩
  else if opc = 0x386 then ⟨false, false, false, false, true, false, false⟩
  else if opc = 0x387 then ⟨true, false, false, false, false, false, true⟩
  else if opc = 0x388 then ⟨false, true, true, false, true, true, true⟩
  else ⟨false, false, false, false, false, false, false⟩

/-- Unused fields are zero (R74). -/
def unusedZero (u : Uses) (w : Wrd) : Bool :=
  (u.dst || w.dst == .unused) && (u.sa || w.sa == .unused) && (u.sb || w.sb == .unused) &&
  (u.sc || w.sc == .unused) && (u.imm || (w.imm == 0 && w.lit2.isNone)) &&
  (u.off || w.off == 0) && (u.mod || w.mod == 0)

/-- Scope, order and size codes of the memory layout (R75). -/
def mScope (w : Wrd) : Nat := bits w.mod 7 5
/-- Order code: 0 relaxed, 1 acquire, 2 release, 3 both. -/
def mOrder (w : Wrd) : Nat := bits w.mod 4 3
/-- Size code. -/
def mSizeCode (w : Wrd) : Nat := bits w.mod 2 0
/-- Bytes of a size code (R75). -/
def sizeBytes (c : Nat) : Nat :=
  match c with
  | 0 => 8 | 1 => 1 | 2 => 2 | 3 => 4 | 4 => 16 | 5 => 32 | 6 => 64 | _ => 256

/-- A format-table entry is valid (R140). -/
def validFmt (x : Word) : Bool :=
  let af := bits x 31 28; let bf := bits x 27 24; let sk := bits x 23 22; let s := bits x 19 16
  decide (af ≤ 7) && decide (bf ≤ 7) && ((af == 7) == (bf == 7)) && bits x 21 20 == 0 &&
  bits x 15 0 == 0 &&
  (if af == 7 then decide (3 ≤ s) && decide (s ≤ 8) && sk == 0 else s == 0)

/-- The static limits of the integer and control words (R103 to R109, R123, R127, R130, R196).
(DESIGN CHOICE, log 102) -/
def checkLow (opc : Nat) (w : Wrd) : Bool :=
  let e := w.eng
  let m := w.mod
  let bOk := if bit m 3 then true else srcVal e w.sb
  let satOk := !bit m 4 || opIn opc [0x000, 0x001, 0x002, 0x004, 0x005, 0x009, 0x00A, 0x014]
  let width := if bits m 7 6 = 0 then 64 else if bits m 7 6 = 1 then 32 else
    if bits m 7 6 = 2 then 16 else 8
  if opIn opc [0x000, 0x001, 0x002, 0x003, 0x007, 0x008, 0x010, 0x011, 0x012, 0x013, 0x014, 0x015,
      0x016, 0x017] then
    dstVal w && srcVal e w.sa && bOk && satOk && bits m 2 0 == 0
  else if opIn opc [0x005, 0x006] then
    dstVal w && srcVal e w.sa && bOk && satOk && (e == .X || decide (bits m 2 0 < 4))
  else if opIn opc [0x004, 0x021] then
    dstVal w && srcVal e w.sa && bOk && srcVal e w.sc && satOk && bits m 2 0 == 0
  else if opIn opc [0x009, 0x00A, 0x018, 0x019, 0x022] then
    dstVal w && srcVal e w.sa && satOk && bits m 3 0 == 0
  else if opc = 0x020 then
    (if e == .X then dstCmp w else decide (w.off.toNat < 4)) && srcVal e w.sa && bOk && satOk &&
      decide (bits m 2 0 ≤ 5)
  else if opIn opc [0x01A, 0x01B] then
    dstVal w && srcVal e w.sa && (opc == 0x01A || srcVal e w.sb) && bits m 4 0 == 0 &&
      bits w.imm 31 16 == 0 && bits w.imm 15 8 != 0 &&
      decide (bits w.imm 7 0 + bits w.imm 15 8 ≤ width)
  else if opc = 0x023 then dstVal w && bits m 4 0 == 0
  else if opIn opc [0x030, 0x033, 0x036] then bits w.imm 31 24 == 0
  else if opc = 0x031 then
    srcScalar e w.sa && srcScalar e w.sb && bits m 4 3 == 0 && decide (bits m 2 0 ≤ 5) &&
      bits w.imm 31 24 == 0
  else if opIn opc [0x032, 0x037] then srcScalar e w.sa
  else if opc = 0x035 then
    bits m 7 3 == 0 && bits w.imm 31 24 == 0 &&
      (!bit m 2 || (srcScalar e w.sa && (isZ w.sa || w.off == 0)))
  else if opc = 0x040 then dstCsr e w.dst && bits w.imm 31 12 == 0
  else if opc = 0x041 then srcScalar e w.sa && bits w.imm 31 12 == 0
  else if opc = 0x042 then isScalar e w.dst && bits w.imm 31 5 == 0
  else if opc = 0x050 then
    decide (bits m 7 0 < 4) && decide (1 ≤ w.imm.toNat) && decide (w.imm.toNat ≤ 15) && !w.ge
  else if opc = 0x051 then isScalar e w.dst && decide (m.toNat < 8)
  else if opc = 0x052 then
    (isG w.sa || isZ w.sa) && bits w.imm 31 24 == 0 && (!isZ w.sa || w.imm == 0) && !w.ge
  else if opc = 0x053 then !w.ge
  else if opc = 0x056 then
    decide (m.toNat < 8) && (bits m 1 0 != 0 || srcScalar e w.sa) && (!bit m 2 || srcScalar e w.sb)
  else true

/-- Bits of a float format code or an integer kind (R117). -/
def kindBits (k : Nat) : Nat :=
  match k with
  | 0 => 32 | 1 => 64 | 2 => 16 | 3 => 16 | 4 => 8 | 5 => 8 | 6 => 8 | 7 => 6
  | 8 => 8 | 9 => 16 | 10 => 32 | 11 => 64 | 12 => 8 | 13 => 16 | 14 => 32 | _ => 64

/-- The static limits of the X families (R110, R116, R117, R119, R120, R124 to R126, R133).
(DEDUCED, log 80) -/
def checkX (opc : Nat) (w : Wrd) : Bool :=
  let m := w.mod
  let f := bits m 7 5
  let rm := bits m 4 2
  let a := srcVal .X w.sa
  let b := srcVal .X w.sb
  if opIn opc [0x100, 0x101, 0x102, 0x106, 0x10A] then
    dstVal w && a && b && decide (f ≤ 3) && decide (rm ≤ 5)
  else if opc = 0x103 then dstVal w && a && b && srcVal .X w.sc && decide (f ≤ 3) && decide (rm ≤ 5)
  else if opIn opc [0x104, 0x105] then dstVal w && a && b && decide (f ≤ 3) && bits m 4 1 == 0
  else if opIn opc [0x107, 0x10B, 0x10C] then dstVal w && a && decide (f ≤ 3) && decide (rm ≤ 5)
  else if opc = 0x108 then dstCmp w && a && b && decide (f ≤ 3) && !bit m 1
  else if opc = 0x109 then dstVal w && a && decide (f ≤ 3) && bits m 4 1 == 0
  else if opc = 0x10D then
    dstVal w && f == 0 && decide (rm ≤ 5) &&
    (if bits w.imm 3 0 ≤ 8 then a && bits w.imm 31 4 == 0
     else if bits w.imm 3 0 = 9 then srcScalar .X w.sa && bits w.imm 31 4 == 0 && rm == 0
     else if bits w.imm 3 0 = 10 then
       a && decide (bits w.imm 7 4 ≤ 8) && decide (bits w.imm 9 8 ≤ 2) && bits w.imm 31 10 == 0
     else false)
  else if opc = 0x110 then
    dstVal w && a && decide (rm ≤ 5) && bits w.imm 31 5 == 0 &&
      (!bit w.imm 4 || decide (8 ≤ bits w.imm 3 0))
  else if opc = 0x111 then
    dstVal w && a && b && rm == 0 && bits w.imm 31 4 == 0 && decide (bits w.imm 3 0 ≤ 1) &&
      decide (kindBits f < kindBits (bits w.imm 3 0))
  else if opIn opc [0x112, 0x113] then
    isVecSrc w.sa && isVecReg w.dst && isVecDst w.dst && f == 0 && decide (rm ≤ 5) && !w.ge &&
      decide (4 ≤ w.imm.toNat) && decide (w.imm.toNat ≤ 8)
  else if opc = 0x120 then isVecDst w.dst && moveSrc w.sa && decide (f ≤ 3) && bits m 4 0 == 0
  else if opc = 0x121 then
    isVecDst w.dst && moveSrc w.sa && decide (f ≤ 3) && bits m 4 0 == 0
  else if opc = 0x122 then isVecDst w.dst && decide (f ≤ 3) && bits m 4 0 == 0
  else if opc = 0x123 then isVecDst w.dst && a && b && decide (f ≤ 3) && bits m 4 0 == 0
  else if opIn opc [0x124, 0x125] then
    isVecDst w.dst && a && srcScalar .X w.sb && decide (f ≤ 3) && bits m 4 0 == 0
  else if opIn opc [0x126, 0x127, 0x128] then
    isScalar .X w.dst && isVecSrc w.sa && decide (f ≤ 3) && decide (rm ≤ 5)
  else if opc = 0x130 then isG w.dst && isG w.sa && isG w.sb && decide (w.imm.toNat < 16)
  else if opIn opc [0x131, 0x132, 0x133] then isScalar .X w.dst && isG w.sa
  else if opc = 0x134 then
    (isG w.dst && (isZ w.sa || ((isG w.sa || isScalar .X w.sa) && w.imm == 0))) ||
    (isScalar .X w.dst && isG w.sa && w.imm == 0)
  else if opc = 0x138 then (match w.sa with | .lq _ => true | _ => false)
  else true

/-- An m register or z (R153). -/
def mOrZ (r : Reg) : Bool := isScalar .M r || isZ r

/-- The static limits of the matrix words (R153) and of `mmar` (R452). (DEDUCED, log 80) -/
def checkM (opc : Nat) (w : Wrd) : Bool :=
  let m := w.mod
  let i := w.imm
  let segOk (mem : Bool) : Bool := bits w.off 15 8 == 0 && (mem || w.off == 0)
  if opc = 0x200 then decide (m.toNat < 2)
  else if opc = 0x202 then
    mOrZ w.sa && mOrZ w.sb && bits m 6 0 == 0 && bits i 31 29 == 0 && segOk (bit m 7) &&
      decide (bits i 8 0 + (w.rep.toNat + 1) * (bits i 17 9 + 1) ≤ 512)
  else if opc = 0x203 then
    mOrZ w.sa && (!bit i 0 || mOrZ w.sb) && bits m 6 0 == 0 && bits i 31 16 == 0 &&
      segOk (bit m 7) && (bit i 0 || w.rep == 0)
  else if opc = 0x204 then
    bits m 7 5 == 0 && (if bit m 4 then validFmt i else mOrZ w.sa)
  else if opc = 0x205 then (m == 0 || m == 16) && decide (i.toNat < 16)
  else if opIn opc [0x206, 0x341] then
    (if opc = 0x206 then mOrZ w.sa && bits m 6 3 == 0 && (!bit m 7 || isZ w.sa)
     else srcScalar .M w.sa && srcScalar .M w.sb && m == 0) && bits i 31 26 == 0 &&
      decide (bits w.off 8 0 + (w.rep.toNat + 1) * (bits i 15 7 + 1) ≤ 512)
  else if opc = 0x207 then mOrZ w.sa && decide (i.toNat < 32)
  else if opc = 0x208 then
    mOrZ w.sa && mOrZ w.sb && decide (bits m 4 2 ≤ 5) && !bit m 0 && decide (i.toNat < 64) &&
      segOk (bit i 5)
  else if opc = 0x209 then decide (i.toNat < 32)
  else if opc = 0x20A then isScalar .M w.dst && decide (i.toNat < 512)
  else true

/-- The static limits of the memory, asynchronous and many-die words (R266, R267, R277, R319,
R452). -/
def checkMem (opc : Nat) (w : Wrd) : Bool :=
  let e := w.eng
  let i := w.imm
  let sc := mScope w
  let o := mOrder w
  let z := mSizeCode w
  let a := srcScalar e w.sa
  let b := srcScalar e w.sb
  let c := srcScalar e w.sc
  let d := dstScalar e w.dst
  let relaxed := sc == 0 && o == 0
  let ordered (k : Nat) : Bool := relaxed || (o == k && decide (sc ≤ 4))
  let small := decide (z ≤ 3)
  let rsv := bits i 15 14 == 0 && bits i 12 12 == 0
  if opc = 0x280 then a && relaxed && rsv && bits i 13 13 == 0 && bits i 8 0 == 0
  else if opc = 0x281 then
    isScalar e w.dst && a && relaxed && small && rsv && bits i 13 13 == 0 && bits i 11 9 == 0 &&
      bits i 7 0 == 0
  else if opc = 0x282 then a && ordered 1 && rsv && bits i 13 13 == 0 && bits i 8 8 == 0
  else if opc = 0x283 then
    isScalar e w.dst && a && ordered 1 && small && rsv && bits i 13 13 == 0 && bits i 11 9 == 0
  else if opc = 0x284 then
    a && (sc == 0 || sc == 2) && o == 0 && z == 6 && rsv && bits i 13 13 == 0 && bits i 11 8 == 0
  else if opc = 0x285 then
    a && decide (sc ≤ 3) && o == 0 && z == 0 && bits i 31 10 == 0 && bits i 9 8 != 0
  else if opc = 0x286 then isScalar e w.dst && a
  else if opIn opc [0x290, 0x291, 0x292, 0x293, 0x294, 0x295, 0x296, 0x297] then
    d && a && b && (opc != 0x297 || c) && (z == 0 || z == 3) && rsv && bits i 11 9 == 0 &&
      (relaxed || (o != 0 && decide (sc ≤ 4))) && (!bit i 13 || bits i 7 0 == 0)
  else if opc = 0x298 then
    a && b && c && rsv && bits i 13 13 == 0 && decide (bits i 10 8 ≤ 4) &&
      (if bits i 10 8 = 0 ∨ bits i 10 8 = 3 then z == 3 else z == 0) &&
      (relaxed || (o != 0 && decide (sc ≤ 4)))
  else if opc = 0x2A0 then z == 0 && o != 0 && decide (sc ≤ 4)
  else if opc = 0x2A1 then z == 0 && o == 0 && decide (sc ≤ 4)
  else if opc = 0x2A2 then isScalar e w.dst && decide (i.toNat < 16)
  else if opIn opc [0x2A3, 0x2A5, 0x2A6] then a && decide (i.toNat < 16)
  else if opc = 0x2A4 then isScalar e w.dst && a && decide (i.toNat < 16)
  else if opc = 0x300 then a && relaxed && rsv && bits i 13 13 == 0 && bits i 8 0 == 0
  else if opc = 0x301 then
    a && b && small && rsv && bits i 11 8 == 0 &&
      (if bit i 13 then ordered 2 else relaxed && bits i 7 0 == 0)
  else if opc = 0x302 then a && ordered 2 && rsv && bits i 13 13 == 0 && bits i 8 8 == 0
  else if opc = 0x2B0 then d && a && bits i 31 14 == 0 && bits i 11 0 == 0
  else if opc = 0x2B1 then isScalar e w.dst && a && bits i 31 14 == 0 && bits i 11 0 == 0
  else if opc = 0x2B2 then a && sc == 0 && z == 0 && decide (o ≤ 1)
  else if opc = 0x2B3 then a && decide (i.toNat < 8)
  else if opIn opc [0x2B4, 0x2B7] then a && b
  else if opc = 0x2B5 then
    a && (!bit i 0 || b) && c && sc == 0 && z == 0 && (o == 0 || o == 2) && decide (i.toNat < 2)
  else if opc = 0x2B6 then a && b && c
  else if opc = 0x2B8 then a && decide (i.toNat < 2 ^ 12)
  else if opc = 0x2B9 then
    d && a && b && bits i 31 14 == 0 && bits i 11 4 == 0
  else if opIn opc [0x2BA, 0x303] then
    a && b && c && relaxed && bits i 15 12 == 0 && bits i 8 4 == 0
  else if opc = 0x2BB then d && a && bits i 31 14 == 0 && bits i 11 8 == 0
  else if opc = 0x2BC then d && a && b && c && bits i 31 8 == 0
  else if opc = 0x340 then
    a && b && c && z == 0 && (relaxed || (o == 1 && sc == 4)) && bits i 15 8 == 0
  else if opc = 0x342 then a && b && c && w.mod == 0 && bits i 15 8 == 0
  else if opc = 0x343 then a && b && sc == 4 && o == 2 && small && bits i 31 8 == 0
  else if opc = 0x344 then
    d && a && b && z == 0 && (relaxed || (o == 2 && sc == 3)) && bits i 31 15 == 0 &&
      (bit i 14 || bits i 7 0 == 0)
  else if opc = 0x345 then
    (bits i 6 5 == 2 || d) && a && bits i 31 7 == 0 && bits i 6 5 != 3
  else if opc = 0x346 then a && b && c && bits i 31 13 == 0
  else if opc = 0x347 then
    a && b && bits i 31 16 == 0 && bits i 13 13 == 0 && bits i 7 0 == 0 && bits i 15 14 != 3
  else true

/-- The static limits of the system words (R393). -/
def checkSys (opc : Nat) (w : Wrd) : Bool :=
  let i := w.imm
  if opIn opc [0x380, 0x381] then bits i 31 16 == 0
  else if opc = 0x384 then decide (w.mod.toNat < 2)
  else if opc = 0x385 then decide (w.mod.toNat < 2) && decide (i.toNat < 32)
  else if opc = 0x386 then decide (i.toNat < 2 ^ 15)
  else if opc = 0x387 then decide (w.mod.toNat < 2) && dstScalar .S w.dst
  else if opc = 0x388 then
    srcScalar .S w.sa && srcScalar .S w.sb && decide (w.mod.toNat < 4) && bits i 31 8 == 0
  else if opc = 0x389 then decide (i.toNat < 16)
  else if opc = 0x38A then w.y
  else true

/-- AC may be nonzero only in the memory words and the many-die and grid words that list it (R76,
R319, R452). -/
def acAllowed (opc : Nat) : Bool :=
  (decide (0x280 ≤ opc) && decide (opc < 0x2B0)) || opIn opc [0x2BA, 0x300, 0x301, 0x302, 0x303,
    0x340, 0x342, 0x343]

/-- The static limits of every word that do not depend on its opcode's row (R14, R18, R76). -/
def checkCommon (opc : Nat) (w : Wrd) : Bool :=
  unusedZero (usesOf opc w) w && (w.eng == .X || decide (w.gn.val < 4)) &&
  (acAllowed opc || w.ac == 0) && (w.lit2.isNone || opc == 0x023)

/-- Every check of R80 on an amended template with this opcode, rows of R78 apart. -/
def checkWord (opc : Nat) (w : Wrd) : Bool :=
  checkCommon opc w &&
  (if opc < 0x100 then checkLow opc w
   else if opc < 0x200 then checkX opc w
   else if opc < 0x280 ∨ opc = 0x341 then checkM opc w
   else if opc < 0x380 then checkMem opc w
   else checkSys opc w)

end Sys2Proof.Machine
end

