-- ==== Sys2Proof/Decode.lean ====
section
/-!
DEFINITION. Decoding of a text word under its template (R71 to R82), and the encoder.

A word of the instruction set is a template of 128 bits, the patch word that amends it, and its
literal words. `decode` reads them and answers the instruction, or nothing where R72, R80 or R82
reject them.
-/

namespace Sys2Proof

open Sys2Proof.Machine

/-- A row of the opcode map (R78): opcode, engines, whether it may repeat, and the instruction. -/
structure Row where
  opc : Nat
  engines : List Engine
  rep : Bool
  make : Wrd → Instr

/-- Any engine. -/
def anyE : List Engine := [.A, .X, .M, .S]

/-- Opcodes 0x000 to 0x0FF (R78). -/
def rowsLow : List Row := [
  ⟨0x000, anyE, true, .iadd⟩,
  ⟨0x001, anyE, true, .isub⟩,
  ⟨0x002, anyE, true, .imul⟩,
  ⟨0x003, anyE, true, .imulh⟩,
  ⟨0x004, anyE, true, .imad⟩,
  ⟨0x005, anyE, true, .idiv⟩,
  ⟨0x006, anyE, true, .irem⟩,
  ⟨0x007, anyE, true, .imin⟩,
  ⟨0x008, anyE, true, .imax⟩,
  ⟨0x009, anyE, true, .iabs⟩,
  ⟨0x00A, anyE, true, .ineg⟩,
  ⟨0x010, anyE, true, .iand⟩,
  ⟨0x011, anyE, true, .ior⟩,
  ⟨0x012, anyE, true, .ixor⟩,
  ⟨0x013, anyE, true, .iandn⟩,
  ⟨0x014, anyE, true, .ishl⟩,
  ⟨0x015, anyE, true, .ishr⟩,
  ⟨0x016, anyE, true, .isar⟩,
  ⟨0x017, anyE, true, .irot⟩,
  ⟨0x018, anyE, true, .iclz⟩,
  ⟨0x019, anyE, true, .ipop⟩,
  ⟨0x01A, anyE, true, .ibfx⟩,
  ⟨0x01B, anyE, true, .ibfi⟩,
  ⟨0x020, anyE, true, .icmp⟩,
  ⟨0x021, anyE, true, .isel⟩,
  ⟨0x022, anyE, true, .imov⟩,
  ⟨0x023, anyE, true, .ili⟩,
  ⟨0x030, anyE, false, .br⟩,
  ⟨0x031, anyE, false, .brc⟩,
  ⟨0x032, anyE, false, .jmpi⟩,
  ⟨0x033, anyE, false, .call⟩,
  ⟨0x034, anyE, false, .ret⟩,
  ⟨0x035, anyE, false, fun w => if bit w.mod 2 then .loopInit w else .loop w⟩,
  ⟨0x036, [.A, .X], false, .brq⟩,
  ⟨0x037, [.A, .X], false, .obsend⟩,
  ⟨0x038, anyE, true, .nop⟩,
  ⟨0x039, anyE, false, .halt⟩,
  ⟨0x040, anyE, false, .csrr⟩,
  ⟨0x041, anyE, false, .csrw⟩,
  ⟨0x042, [.X], false, .flgr⟩,
  ⟨0x050, anyE, false, .tkw⟩,
  ⟨0x051, anyE, false, .tkrd⟩,
  ⟨0x052, [.X], false, .fork⟩,
  ⟨0x053, [.X], false, .join⟩,
  ⟨0x054, anyE, false, .endit⟩,
  ⟨0x055, anyE, false, .wfe⟩,
  ⟨0x056, anyE, false, .sev⟩]

/-- Opcodes 0x100 to 0x1FF (R78). -/
def rowsX : List Row := [
  ⟨0x100, [.X], true, .fadd⟩,
  ⟨0x101, [.X], true, .fsub⟩,
  ⟨0x102, [.X], true, .fmul⟩,
  ⟨0x103, [.X], true, .ffma⟩,
  ⟨0x104, [.X], true, .fmin⟩,
  ⟨0x105, [.X], true, .fmax⟩,
  ⟨0x106, [.X], true, .fdiv⟩,
  ⟨0x107, [.X], true, .fsqrt⟩,
  ⟨0x108, [.X], true, .fcmp⟩,
  ⟨0x109, [.X], true, .fclass⟩,
  ⟨0x10A, [.X], true, .fscale⟩,
  ⟨0x10B, [.X], true, .fexpo⟩,
  ⟨0x10C, [.X], true, .frint⟩,
  ⟨0x10D, [.X], true, fun w => if bits w.imm 3 0 = 9 then .fncRnd w else if bits w.imm 3 0 = 10 then .fncTab w else .fnc w⟩,
  ⟨0x110, [.X], true, .cvt⟩,
  ⟨0x111, [.X], true, .cvts⟩,
  ⟨0x112, [.X], true, .cvtq⟩,
  ⟨0x113, [.X], true, .cvtd⟩,
  ⟨0x120, [.X], true, .vmov⟩,
  ⟨0x121, [.X], true, .vbc⟩,
  ⟨0x122, [.X], true, .vlix⟩,
  ⟨0x123, [.X], true, .vperm⟩,
  ⟨0x124, [.X], true, .vrot⟩,
  ⟨0x125, [.X], true, .vbfly⟩,
  ⟨0x126, [.X], true, .vsum⟩,
  ⟨0x127, [.X], true, .vmaxr⟩,
  ⟨0x128, [.X], true, .vminr⟩,
  ⟨0x130, [.X], true, .gop⟩,
  ⟨0x131, [.X], true, .gany⟩,
  ⟨0x132, [.X], true, .gall⟩,
  ⟨0x133, [.X], true, .gcnt⟩,
  ⟨0x134, [.X], true, .gmov⟩,
  ⟨0x138, [.X], true, .lqdrop⟩]

/-- Opcodes 0x200 to 0x27F (R78). -/
def rowsM : List Row := [
  ⟨0x200, [.M], false, .lease⟩,
  ⟨0x201, [.M], false, .free⟩,
  ⟨0x202, [.M], true, .bld⟩,
  ⟨0x203, [.M], true, fun w => if bit w.imm 0 then .sldBlk w else .sldCol w⟩,
  ⟨0x204, [.M], false, .fmtld⟩,
  ⟨0x205, [.M], false, .fmtix⟩,
  ⟨0x206, [.M], true, .mma⟩,
  ⟨0x207, [.M], false, .chbuild⟩,
  ⟨0x208, [.M], false, .mclose⟩,
  ⟨0x209, [.M], false, .mzero⟩,
  ⟨0x20A, [.M], false, .chstat⟩]

/-- Opcodes 0x280 to 0x33F (R78). -/
def rowsMem : List Row := [
  ⟨0x280, [.A], true, .ld⟩,
  ⟨0x281, [.A], true, .lda⟩,
  ⟨0x282, [.A], true, .ldg⟩,
  ⟨0x283, [.A], true, .ldga⟩,
  ⟨0x284, [.A], true, .pf⟩,
  ⟨0x285, [.A], true, fun w => if bits w.imm 9 8 = 1 then .invalPage w else if bits w.imm 9 8 = 2 then .invalCtx w else .invalAll w⟩,
  ⟨0x286, [.A], false, .carve⟩,
  ⟨0x290, [.A], true, .atadd⟩,
  ⟨0x291, [.A], true, .atmin⟩,
  ⟨0x292, [.A], true, .atmax⟩,
  ⟨0x293, [.A], true, .atand⟩,
  ⟨0x294, [.A], true, .ator⟩,
  ⟨0x295, [.A], true, .atxor⟩,
  ⟨0x296, [.A], true, .atxch⟩,
  ⟨0x297, [.A], true, .atcas⟩,
  ⟨0x298, [.A], true, .rdo⟩,
  ⟨0x2A0, [.A, .S], false, .phase⟩,
  ⟨0x2A1, [.A, .S], false, .fence⟩,
  ⟨0x2A2, [.A], false, .rclaim⟩,
  ⟨0x2A3, [.A], false, .rfill⟩,
  ⟨0x2A4, [.A], false, .rwaitf⟩,
  ⟨0x2A5, [.A], false, .rwaite⟩,
  ⟨0x2A6, [.A], false, .rfree⟩,
  ⟨0x2B0, [.A], false, .btcpy⟩,
  ⟨0x2B1, [.A], false, .btq⟩,
  ⟨0x2B2, anyE, false, .waitc⟩,
  ⟨0x2B3, anyE, false, .tlwait⟩,
  ⟨0x2B4, [.A], false, .barinit⟩,
  ⟨0x2B5, [.A], false, fun w => if bit w.imm 0 then .bararrRem w else .bararr w⟩,
  ⟨0x2B6, [.A], false, .barexp⟩,
  ⟨0x2B7, anyE, false, .barwait⟩,
  ⟨0x2B8, [.A], false, .gdef⟩,
  ⟨0x2B9, [.A], false, .gstep⟩,
  ⟨0x2BA, [.A], true, .ldgs⟩,
  ⟨0x2BB, [.A], false, .rdxgo⟩,
  ⟨0x2BC, [.A], false, .pgmig⟩,
  ⟨0x300, [.S], true, .st⟩,
  ⟨0x301, [.S], true, .stw⟩,
  ⟨0x302, [.S], true, .stg⟩,
  ⟨0x303, [.S], true, .stgs⟩]

/-- Opcodes 0x340 to 0x3BF (R78). -/
def rowsHigh : List Row := [
  ⟨0x340, [.A], true, .ldr⟩,
  ⟨0x341, [.M], true, .mmar⟩,
  ⟨0x342, [.S], true, .stgr⟩,
  ⟨0x343, [.S], false, .strel⟩,
  ⟨0x344, [.S], false, .ssend⟩,
  ⟨0x345, [.A], false, fun w => if bits w.imm 6 5 = 0 then .srecv w else if bits w.imm 6 5 = 1 then .srecvLen w else .srecvFree w⟩,
  ⟨0x346, [.S], false, .mcast⟩,
  ⟨0x347, [.S], false, .cmb⟩,
  ⟨0x380, anyE, false, .trap⟩,
  ⟨0x381, anyE, false, .sysc⟩,
  ⟨0x382, [.S], false, .eret⟩,
  ⟨0x383, [.M], false, .mspill⟩,
  ⟨0x384, [.M], false, fun w => if bit w.mod 0 then .mfillBank w else .mfillLink w⟩,
  ⟨0x385, [.M], false, fun w => if bit w.mod 0 then .chfrzThaw w else .chfrz w⟩,
  ⟨0x386, [.M], false, .chgraft⟩,
  ⟨0x387, [.S], false, .seal⟩,
  ⟨0x388, [.S], false, .irrv⟩,
  ⟨0x389, anyE, false, .tbank⟩,
  ⟨0x38A, anyE, false, .mark⟩]

/-- The opcode map. -/
def opcodeMap : List Row := rowsLow ++ rowsX ++ rowsM ++ rowsMem ++ rowsHigh

/-- The row with this opcode. -/
def findRow (opc : Nat) (l : List Row) : Option Row :=
  match l with
  | [] => none
  | r :: t => if r.opc = opc then some r else findRow opc t

/-- The opcode and the amended template of a word; none for a step of another agent. -/
def opcOf (i : Instr) : Option (Nat × Wrd) :=
  match i with
  | .iadd w => some (0x000, w)
  | .isub w => some (0x001, w)
  | .imul w => some (0x002, w)
  | .imulh w => some (0x003, w)
  | .imad w => some (0x004, w)
  | .idiv w => some (0x005, w)
  | .irem w => some (0x006, w)
  | .imin w => some (0x007, w)
  | .imax w => some (0x008, w)
  | .iabs w => some (0x009, w)
  | .ineg w => some (0x00A, w)
  | .iand w => some (0x010, w)
  | .ior w => some (0x011, w)
  | .ixor w => some (0x012, w)
  | .iandn w => some (0x013, w)
  | .ishl w => some (0x014, w)
  | .ishr w => some (0x015, w)
  | .isar w => some (0x016, w)
  | .irot w => some (0x017, w)
  | .iclz w => some (0x018, w)
  | .ipop w => some (0x019, w)
  | .ibfx w => some (0x01A, w)
  | .ibfi w => some (0x01B, w)
  | .icmp w => some (0x020, w)
  | .isel w => some (0x021, w)
  | .imov w => some (0x022, w)
  | .ili w => some (0x023, w)
  | .br w => some (0x030, w)
  | .brc w => some (0x031, w)
  | .jmpi w => some (0x032, w)
  | .call w => some (0x033, w)
  | .ret w => some (0x034, w)
  | .loop w => some (0x035, w)
  | .loopInit w => some (0x035, w)
  | .brq w => some (0x036, w)
  | .obsend w => some (0x037, w)
  | .nop w => some (0x038, w)
  | .halt w => some (0x039, w)
  | .csrr w => some (0x040, w)
  | .csrw w => some (0x041, w)
  | .flgr w => some (0x042, w)
  | .tkw w => some (0x050, w)
  | .tkrd w => some (0x051, w)
  | .fork w => some (0x052, w)
  | .join w => some (0x053, w)
  | .endit w => some (0x054, w)
  | .wfe w => some (0x055, w)
  | .sev w => some (0x056, w)
  | .fadd w => some (0x100, w)
  | .fsub w => some (0x101, w)
  | .fmul w => some (0x102, w)
  | .ffma w => some (0x103, w)
  | .fmin w => some (0x104, w)
  | .fmax w => some (0x105, w)
  | .fdiv w => some (0x106, w)
  | .fsqrt w => some (0x107, w)
  | .fcmp w => some (0x108, w)
  | .fclass w => some (0x109, w)
  | .fscale w => some (0x10A, w)
  | .fexpo w => some (0x10B, w)
  | .frint w => some (0x10C, w)
  | .fnc w => some (0x10D, w)
  | .fncRnd w => some (0x10D, w)
  | .fncTab w => some (0x10D, w)
  | .cvt w => some (0x110, w)
  | .cvts w => some (0x111, w)
  | .cvtq w => some (0x112, w)
  | .cvtd w => some (0x113, w)
  | .vmov w => some (0x120, w)
  | .vbc w => some (0x121, w)
  | .vlix w => some (0x122, w)
  | .vperm w => some (0x123, w)
  | .vrot w => some (0x124, w)
  | .vbfly w => some (0x125, w)
  | .vsum w => some (0x126, w)
  | .vmaxr w => some (0x127, w)
  | .vminr w => some (0x128, w)
  | .gop w => some (0x130, w)
  | .gany w => some (0x131, w)
  | .gall w => some (0x132, w)
  | .gcnt w => some (0x133, w)
  | .gmov w => some (0x134, w)
  | .lqdrop w => some (0x138, w)
  | .lease w => some (0x200, w)
  | .free w => some (0x201, w)
  | .bld w => some (0x202, w)
  | .sldCol w => some (0x203, w)
  | .sldBlk w => some (0x203, w)
  | .fmtld w => some (0x204, w)
  | .fmtix w => some (0x205, w)
  | .mma w => some (0x206, w)
  | .chbuild w => some (0x207, w)
  | .mclose w => some (0x208, w)
  | .mzero w => some (0x209, w)
  | .chstat w => some (0x20A, w)
  | .ld w => some (0x280, w)
  | .lda w => some (0x281, w)
  | .ldg w => some (0x282, w)
  | .ldga w => some (0x283, w)
  | .pf w => some (0x284, w)
  | .invalPage w => some (0x285, w)
  | .invalCtx w => some (0x285, w)
  | .invalAll w => some (0x285, w)
  | .carve w => some (0x286, w)
  | .atadd w => some (0x290, w)
  | .atmin w => some (0x291, w)
  | .atmax w => some (0x292, w)
  | .atand w => some (0x293, w)
  | .ator w => some (0x294, w)
  | .atxor w => some (0x295, w)
  | .atxch w => some (0x296, w)
  | .atcas w => some (0x297, w)
  | .rdo w => some (0x298, w)
  | .phase w => some (0x2A0, w)
  | .fence w => some (0x2A1, w)
  | .rclaim w => some (0x2A2, w)
  | .rfill w => some (0x2A3, w)
  | .rwaitf w => some (0x2A4, w)
  | .rwaite w => some (0x2A5, w)
  | .rfree w => some (0x2A6, w)
  | .btcpy w => some (0x2B0, w)
  | .btq w => some (0x2B1, w)
  | .waitc w => some (0x2B2, w)
  | .tlwait w => some (0x2B3, w)
  | .barinit w => some (0x2B4, w)
  | .bararr w => some (0x2B5, w)
  | .bararrRem w => some (0x2B5, w)
  | .barexp w => some (0x2B6, w)
  | .barwait w => some (0x2B7, w)
  | .gdef w => some (0x2B8, w)
  | .gstep w => some (0x2B9, w)
  | .ldgs w => some (0x2BA, w)
  | .rdxgo w => some (0x2BB, w)
  | .pgmig w => some (0x2BC, w)
  | .st w => some (0x300, w)
  | .stw w => some (0x301, w)
  | .stg w => some (0x302, w)
  | .stgs w => some (0x303, w)
  | .ldr w => some (0x340, w)
  | .mmar w => some (0x341, w)
  | .stgr w => some (0x342, w)
  | .strel w => some (0x343, w)
  | .ssend w => some (0x344, w)
  | .srecv w => some (0x345, w)
  | .srecvLen w => some (0x345, w)
  | .srecvFree w => some (0x345, w)
  | .mcast w => some (0x346, w)
  | .cmb w => some (0x347, w)
  | .trap w => some (0x380, w)
  | .sysc w => some (0x381, w)
  | .eret w => some (0x382, w)
  | .mspill w => some (0x383, w)
  | .mfillLink w => some (0x384, w)
  | .mfillBank w => some (0x384, w)
  | .chfrz w => some (0x385, w)
  | .chfrzThaw w => some (0x385, w)
  | .chgraft w => some (0x386, w)
  | .seal w => some (0x387, w)
  | .irrv w => some (0x388, w)
  | .tbank w => some (0x389, w)
  | .mark w => some (0x38A, w)
  | .slipDeadlock _ => none
  | .queueEntryValid _ _ _ => none
  | .registerLoadData _ _ _ => none
  | .rakeHandout _ => none
  | .launchComplete _ => none
  | .leaseGrant _ => none
  | .partialArrival _ => none
  | .close _ _ => none
  | .faultDelivery _ => none
  | .impreciseReport _ => none
  | .preemptionRequest _ => none
  | .preemptResume _ => none
  | .linkFailure _ _ => none
  | .globalStall _ => none
  | .copyAccept _ => none
  | .copyComplete _ _ => none
  | .remoteArrival _ => none
  | .haloFillComplete _ => none
  | .haloFillBegin _ => none
  | .staleHaloTimeout _ => none
  | .contributionArrival _ => none
  | .gapTimeout _ _ => none
  | .reductionStart _ _ => none
  | .reductionComplete _ _ => none
  | .releaseComplete _ => none
  | .transplantStepDone _ => none
  | .accessBounce _ _ => none
  | .sevArrival _ => none
  | .sealRequest _ => none
  | .periodicSealTimer => none
  | .sealOpen => none
  | .sealCommit => none
  | .uncorrectableError _ => none
  | .boundExpiry _ => none
  | .iterBoundExpiry _ => none
  | .queueEntryTake _ _ => none
  | .kernel _ _ => none
  | .copy _ _ => none
  | .cond _ _ => none
  | .loopNode _ _ => none
  | .switch _ _ => none
  | .sealNode _ _ => none
  | .signal _ _ => none
  | .waitev _ _ => none
  | .completionRecordWrite _ _ => none
  | .qwptrWrite _ _ _ => none
  | .crptrWrite _ _ _ => none
  | .evset _ _ => none
  | .apertureAccess _ => none
  | .ringGeomStore _ _ _ _ => none
  | .ringCntbStore _ _ _ _ => none
  | .streamSgeomStore _ _ _ _ _ => none
  | .streamSerrStore _ _ _ _ _ => none
  | .streamSlotArrival _ _ => none
  | .ecMirrorUpdate _ _ => none
  | .conntabApply => none
  | .routeLoad _ => none
  | .routeSwitch _ _ => none
  | .switchSlotReached => none
  | .generationDrained => none
  | .tenantConfig _ => none
  | .registerWrite _ _ => none
  | .lock _ => none
  | .start _ => none
  | .stop _ => none
  | .getReport _ _ => none
  | .interfaceError _ => none
  | .getCounters _ _ => none
  | .coldStart _ => none
  | .warmStart _ => none
  | .packetDeparture _ => none
  | .packetReceive _ => none
  | .ackReceive _ _ => none
  | .ackTimeout _ => none
  | .portWidthChange _ _ => none
  | .correctableError _ => none
  | .shutdown => none
  | .waitcTargetReached _ _ => none

/-- The engine of a two-bit code (R10). -/
def engineOf (c : Nat) : Engine :=
  match c with
  | 0 => .A
  | 1 => .X
  | 2 => .M
  | _ => .S

/-- The two-bit code of an engine (R10). -/
def engineCode : Engine → Nat
  | .A => 0
  | .X => 1
  | .M => 2
  | .S => 3

/-- The special register of an index (R22). -/
def specOf (i : Nat) : Option Spec :=
  if i = 0 then some .z else if i = 1 then some .scyc else if i = 2 then some .core
  else if i = 3 then some .stage
  else if i < 8 then some (.ix (Fin.ofNat 4 (i - 4)))
  else if i < 16 then some (.tl (Fin.ofNat 8 (i - 8)))
  else if i = 16 then some .mbx else if i = 17 then some .fflg else if i = 18 then some .rin
  else none

/-- The index of a special register (R22). -/
def specCode : Spec → Nat
  | .z => 0
  | .scyc => 1
  | .core => 2
  | .stage => 3
  | .ix i => 4 + i.val
  | .tl i => 8 + i.val
  | .mbx => 16
  | .fflg => 17
  | .rin => 18

/-- The register that a specifier byte names; none for a reserved index (R13). -/
def regOf (b : Nat) : Option Reg :=
  let i := b % 32
  let c := b / 32
  if c = 0 then some (.a (Fin.ofNat 32 i))
  else if c = 1 then some (.s (Fin.ofNat 32 i))
  else if c = 2 then some (.v (Fin.ofNat 32 i))
  else if c = 3 then if i < 8 then some (.g (Fin.ofNat 8 i)) else none
  else if c = 4 then
    if i < 8 then some (.lq (Fin.ofNat 8 i))
    else if i < 16 then some (.sq (Fin.ofNat 8 (i - 8)))
    else if i < 24 then some (.lk (Fin.ofNat 8 (i - 16))) else none
  else if c = 5 then if i < 16 then some (.m (Fin.ofNat 16 i)) else none
  else if c = 6 then some (.w (Fin.ofNat 32 i))
  else if c = 7 then (specOf i).map .sp
  else none

/-- The specifier byte of a register (R13). -/
def regCode : Reg → Nat
  | .a i => i.val
  | .s i => 32 + i.val
  | .v i => 64 + i.val
  | .g i => 96 + i.val
  | .lq i => 128 + i.val
  | .sq i => 136 + i.val
  | .lk i => 144 + i.val
  | .m i => 160 + i.val
  | .w i => 192 + i.val
  | .sp r => 224 + specCode r

/-- The fields of a template without its token bits: opcode and word (R74). None when a specifier is
reserved or a bit of [11:0] is set. -/
def parseTemplate (t : BitVec 128) : Option (Nat × Wrd) :=
  match regOf (bits t 110 103), regOf (bits t 102 95), regOf (bits t 94 87),
      regOf (bits t 86 79) with
  | some d, some a, some b, some c =>
    if bits t 11 0 = 0 then
      some (bits t 127 118,
        { eng := engineOf (bits t 117 116), wp := false, wn := false, sp := false, sn := false,
          ge := bit t 115, gi := bit t 114, gn := Fin.ofNat 8 (bits t 113 111), dst := d, sa := a,
          sb := b, sc := c, mod := BitVec.ofNat 8 (bits t 78 71),
          ac := BitVec.ofNat 2 (bits t 70 69), y := bit t 68,
          rep := BitVec.ofNat 8 (bits t 67 60), imm := BitVec.ofNat 32 (bits t 59 28),
          off := BitVec.ofNat 16 (bits t 27 12), lit2 := none })
    else none
  | _, _, _, _ => none

/-- The checks of R80: the instruction of an opcode and its amended template. -/
def instrOf (opc : Nat) (w : Wrd) : Option Instr :=
  match findRow opc opcodeMap with
  | none => none
  | some r =>
    if r.engines.any (· == w.eng) && (r.rep || w.rep == 0) && checkWord opc w then some (r.make w)
    else none

/-- The operation may repeat (R78), that is, it uses REP. -/
def mayRepeat (opc : Nat) : Bool :=
  match findRow opc opcodeMap with
  | some r => r.rep
  | none => false

/-- Both opcodes lie in one 16-code block and their words use the same fields, REP and AC among them (R72,
F = 11). (DEDUCED, log 39) -/
def sameUse (o1 o2 : Nat) (w : Wrd) : Bool :=
  o1 / 16 == o2 / 16 && usesOf o1 w == usesOf o2 w && mayRepeat o1 == mayRepeat o2 &&
    acAllowed o1 == acAllowed o2

/-- The amendment of F and V on a template of opcode `opc` (R72). None when it is not valid. -/
def amend (opc : Nat) (w : Wrd) (f v : Nat) (l0 l1 : Word) : Option (Nat × Wrd) :=
  let u := usesOf opc w
  let hi := v / 256 == 0
  match f with
  | 0 => if v = 0 then some (opc, w) else none
  | 1 => if u.imm then
      some (opc, { w with imm := BitVec.ofNat 32 (bits w.imm 31 16 * 65536 + v) }) else none
  | 2 => if u.imm then
      some (opc, { w with imm := BitVec.ofNat 32 (v * 65536 + bits w.imm 15 0) }) else none
  | 3 => if u.dst && hi then (regOf v).map fun r => (opc, { w with dst := r }) else none
  | 4 => if u.sa && hi then (regOf v).map fun r => (opc, { w with sa := r }) else none
  | 5 => if u.sb && hi then (regOf v).map fun r => (opc, { w with sb := r }) else none
  | 6 => if u.sc && hi then (regOf v).map fun r => (opc, { w with sc := r }) else none
  | 7 => if u.off then some (opc, { w with off := BitVec.ofNat 16 v }) else none
  | 8 => match findRow opc opcodeMap with
    | some r => if r.rep && hi then some (opc, { w with rep := BitVec.ofNat 8 v }) else none
    | none => none
  | 9 => if u.mod && hi then some (opc, { w with mod := BitVec.ofNat 8 v }) else none
  | 10 => if v / 32 = 0 then
      some (opc, { w with ge := v / 16 % 2 == 1, gi := v / 8 % 2 == 1, gn := Fin.ofNat 8 v })
    else none
  | 11 =>
    let o2 := opc / 16 * 16 + v
    if v < 16 && sameUse opc o2 w then some (o2, w) else none
  | 12 => if u.imm && v == 0 then some (opc, { w with imm := l0 }) else none
  | 13 => if opc == 0x023 && v == 0 then
      some (opc, { w with lit2 := some (l1 ++ l0) }) else none
  | _ => none

/-- Literal words of a patch word (R73). -/
def litCount (pw : Word) : Nat :=
  if bits pw 19 16 = 12 then 1 else if bits pw 19 16 = 13 then 2 else 0

/-- The instruction of a template under a patch word and its literals. The template itself must pass
R80, the amendment R72, and the amended template R80 again. -/
def decode (t : BitVec 128) (pw l0 l1 : Word) : Option Instr :=
  match parseTemplate t with
  | none => none
  | some (o, w) =>
    match instrOf o w with
    | none => none
    | some _ =>
      match amend o w (bits pw 19 16) (bits pw 15 0) l0 l1 with
      | none => none
      | some (o2, w2) =>
        instrOf o2 { w2 with wp := bit pw 23, wn := bit pw 22, sp := bit pw 21, sn := bit pw 20 }

/-- The instruction of the text word `pw` of engine E: the template must be one of that engine's
table (R81, R82). -/
def decodeText (t : BitVec 128) (pw l0 l1 : Word) : Option Instr :=
  if bits t 117 116 = bits pw 31 30 then decode t pw l0 l1 else none

/-- The template of a word (R74). -/
def encodeTemplate (opc : Nat) (w : Wrd) : BitVec 128 :=
  BitVec.ofNat 128 (opc <<< 118 + engineCode w.eng <<< 116 + w.ge.toNat <<< 115 +
    w.gi.toNat <<< 114 + w.gn.val <<< 111 + regCode w.dst <<< 103 + regCode w.sa <<< 95 +
    regCode w.sb <<< 87 + regCode w.sc <<< 79 + w.mod.toNat <<< 71 + w.ac.toNat <<< 69 +
    w.y.toNat <<< 68 + w.rep.toNat <<< 60 + w.imm.toNat <<< 28 + w.off.toNat <<< 12)

/-- The patch word that issues a template at index 0 as it stands, under LIT2 when the word has a
64-bit literal (R71, R73). -/
def encodePatch (w : Wrd) : Word :=
  BitVec.ofNat 32 (engineCode w.eng <<< 30 + w.wp.toNat <<< 23 + w.wn.toNat <<< 22 +
    w.sp.toNat <<< 21 + w.sn.toNat <<< 20 + (if w.lit2.isSome then 13 else 0) <<< 16)

/-- Template, patch word and literal words of an instruction of the set. -/
def encode (i : Instr) : Option (BitVec 128 × Word × Word × Word) :=
  match opcOf i with
  | none => none
  | some (o, w) =>
    let l := w.lit2.getD 0
    some (encodeTemplate o w, encodePatch w, l.setWidth 32, (l >>> 32).setWidth 32)

/-- The instruction of a table word: bits [127:0] the template, [159:128] the patch word (its E and
T are not looked at: the template's ENG names the engine), then the two literal words. -/
def decodeTableWord (nbits w : Nat) : Option Instr :=
  if nbits = 0 then none else
    decode (BitVec.ofNat 128 w) (BitVec.ofNat 32 (w >>> 128)) (BitVec.ofNat 32 (w >>> 160))
      (BitVec.ofNat 32 (w >>> 192))

/-! ### Steps of other agents -/

/-- A site at which errors are counted exists (R389, R450). -/
def siteOk : CountSite → Bool
  | .hbm d c => decide (d < 8) && decide (c < 64)
  | .llc d _ => decide (d < 8)
  | .near c => decide (c < 1024)
  | .spad c => decide (c < 1024)
  | .bedStore b => decide (b < 128)

/-- A register of a window exists (R410, R445). -/
def mgmtOk : MgmtReg → Bool
  | .conn i => decide (i < 64)
  | .queue t q off => decide (t < 16) && decide (q < 16) && decide (off < 64)
  | .msix t i => decide (t < 16) && decide (i < 128)
  | .pfMsix i => decide (i < 16)
  | _ => true

/-- The fields of a packet lie in their ranges (R427, R428). -/
def packetOk (p : Packet) : Bool :=
  decide (p.src < 4096) && decide (p.seq < 65536) && decide (p.typ < 16) && decide (p.gen < 16) &&
  decide (p.core < 1024) && decide (p.tid < 16) && decide (p.data.length ≤ 1024)

/-- What a step of another agent names exists: cores, beds, dies, tenants, queues and ports in their
ranges, and records of their lengths (R10, R175, R413, R427, R441, R444, R445, R450).
(DEDUCED, log 9) -/
def eventOk : Instr → Bool
  | .slipDeadlock c => decide (c < 1024)
  | .queueEntryValid c q _ => decide (c < 1024) && decide (q < 16)
  | .registerLoadData c e _ => decide (c < 1024) && decide (e < 7)
  | .leaseGrant b => decide (b < 128)
  | .close _ ch => decide (ch < 256)
  | .faultDelivery c => decide (c < 1024)
  | .preemptionRequest c => decide (c < 1024)
  | .preemptResume c => decide (c < 1024)
  | .linkFailure b j => decide (b < 128) && decide (j < 4)
  | .copyAccept d => decide (d < 8)
  | .copyComplete d _ => decide (d < 8)
  | .staleHaloTimeout c => decide (c < 1024)
  | .gapTimeout d _ => decide (d < 8)
  | .reductionStart d _ => decide (d < 8)
  | .reductionComplete d _ => decide (d < 8)
  | .releaseComplete c => decide (c < 1024)
  | .accessBounce c va => decide (c < 1024) && decide (va < 2 ^ 72)
  | .uncorrectableError x => decide (x.pkg < 4096) && decide (x.unit ≤ 8) && (decide (x.die < 8) || x.die == 255)
  | .iterBoundExpiry c => decide (c < 1024)
  | .queueEntryTake t q => decide (t < 16) && decide (q < 16)
  | .kernel t q => decide (t < 16) && decide (q < 16)
  | .copy t q => decide (t < 16) && decide (q < 16)
  | .cond t q => decide (t < 16) && decide (q < 16)
  | .loopNode t q => decide (t < 16) && decide (q < 16)
  | .switch t q => decide (t < 16) && decide (q < 16)
  | .sealNode t q => decide (t < 16) && decide (q < 16)
  | .signal t q => decide (t < 16) && decide (q < 16)
  | .waitev t q => decide (t < 16) && decide (q < 16)
  | .completionRecordWrite t q => decide (t < 16) && decide (q < 16)
  | .qwptrWrite t q _ => decide (t < 16) && decide (q < 16)
  | .crptrWrite t q _ => decide (t < 16) && decide (q < 16)
  | .evset t _ => decide (t < 16)
  | .apertureAccess a => decide (a.tid < 16) && decide (a.va + a.len ≤ 2 ^ 36) &&
    (match a.data with
     | some l => l.length == a.len
     | none => true)
  | .ringGeomStore b r off l =>
    decide (b < 128) && decide (r < 16) && decide (off + l.length ≤ 64) && decide (1 ≤ l.length)
  | .ringCntbStore b r off l =>
    decide (b < 128) && decide (r < 16) && decide (off + l.length ≤ 64) && decide (1 ≤ l.length)
  | .streamSgeomStore d _ j off l =>
    decide (d < 8) && decide (j < 32) && decide (off + l.length ≤ 64) && decide (1 ≤ l.length)
  | .streamSerrStore d _ j off l =>
    decide (d < 8) && decide (j < 32) && decide (off + l.length ≤ 64) && decide (1 ≤ l.length)
  | .streamSlotArrival d _ => decide (d < 8)
  | .ecMirrorUpdate d _ => decide (d < 8)
  | .routeSwitch g _ => decide (g < 16)
  | .tenantConfig l => l.length == 256
  | .registerWrite r _ => mgmtOk r
  | .lock t => decide (t < 16)
  | .start t => decide (t < 16)
  | .stop t => decide (t < 16)
  | .getReport t _ => decide (t < 16)
  | .interfaceError t => decide (t < 16)
  | .getCounters off n => decide (n ≤ 1024) && decide (off + n ≤ 262144)
  | .coldStart x => decide (x.failed ≤ 5)
  | .warmStart x => decide (x.failed ≤ 5)
  | .packetReceive p => packetOk p
  | .ackReceive p q => decide (p < 4096) && decide (q < 65536)
  | .portWidthChange p w => decide (p < 144) && decide (w ≤ 8)
  | .correctableError x => siteOk x
  | .waitcTargetReached c e => decide (c < 1024) && decide (e < 7)
  | _ => true

/-- A step of an agent other than a core's streams, which names what exists. (DEDUCED, log 9) -/
def agentOk (i : Instr) : Bool := (opcOf i).isNone && eventOk i

end Sys2Proof
end

