-- ==== Sys2Proof/Machine/State.lean ====
section
/-!
DEFINITION. The state of one package: its cores, beds, dies, launches and contexts, the command
processor, the recovery machinery, the fabric, the host interface, and the state after reset.

Numbered things (registers, cores, beds, dies, launches) are kept in sparse tables; what an unlisted
number holds is given by the named default beside each type.
-/

namespace Sys2Proof.Machine

/-- Bytes by address, in rising order of the address, with no entry equal to zero: an unlisted byte
reads as 0 (R448, R215, R223). -/
abbrev Memory := List Host.Cell

/-- How many words of each engine are known to precede a point (R169). -/
structure Clk where
  a : Nat
  x : Nat
  m : Nat
  s : Nat
deriving DecidableEq, Repr

/-- What a pending write writes (R354 KIND). -/
inductive PTarget where
  | reg (r : Reg)
  | cond (i : Nat)
  | lc (i : Nat)
  /-- push of a return-stack entry -/
  | rs
  | csr (n : Nat)
  /-- bits of FFLG to clear (R122) -/
  | fflgClear
deriving DecidableEq, Repr

/-- Where bytes lie, as an access finds them (R211, R213, R225, R226). -/
inductive Place where
  | spad (off : Nat)
  | bedStore (off : Nat)
  | dieStore (off : Nat)
  /-- memory of this package; `ms` a memory-side line -/
  | home (pa : Nat) (ms : Bool)
  /-- a host bus address (R226) -/
  | host (ba : Nat)
  /-- memory of another package -/
  | remote (pa : Nat) (ms : Bool)
deriving DecidableEq, Repr

/-- A run of an access: its offset in the access, its length, the level of its translation (15 for a
local address, R237) and its place. -/
structure Chunk where
  off : Nat
  len : Nat
  level : Nat
  place : Place
deriving DecidableEq, Repr

/-- Where the bytes of an outstanding load come from (R248): a run of bytes of one 64-byte block. -/
structure Seg where
  off : Nat
  len : Nat
  pa : Nat
  /-- a store of the core is ignored in a race: the value is a published one, and no phase copy (R252) -/
  raw : Bool
deriving DecidableEq, Repr

/-- An outstanding load: what its still open bytes may return, and the word that it belongs to (its
engine, its number within that engine and its alias class, R252). (DEDUCED, log 32) -/
structure LoadSrc where
  segs : List Seg
  /-- lowest instant that it may see -/
  floor : Nat
  /-- acquire order (R272) -/
  acq : Bool
  /-- all its bytes are read at one instant (R330) -/
  one : Bool
  /-- bytes and sign extension of a register load (R271); size 0 for a queue load -/
  size : Nat
  sx : Bool
  eng : Engine
  n : Nat
  cls : BitVec 2
deriving DecidableEq, Repr

/-- A pending write (R36, R354). -/
structure Pend where
  /-- the slot before which it commits -/
  due : Nat
  /-- issue order within the stream -/
  seq : Nat
  tgt : PTarget
  mask : Mask
  data : VReg
  flg : BitVec 5
  /-- false while the data of a register load or atomic has not arrived (R270) -/
  ready : Bool
  src : Option LoadSrc
deriving DecidableEq, Repr

/-- What a stream that does not issue waits for, beyond its WAIT code. -/
inductive Hold where
  | none
  /-- a release half of its core, by its number -/
  | release (id : Nat)
  /-- the first boundary at which the latch is set (R207) -/
  | latch
  /-- the same, while the word's signals have still to be made (R207) -/
  | wfe
  /-- such a boundary has come, at a wall cycle and a count of the core's slots, and the stream has issued
  nothing since (R205, R207) -/
  | woken (wcyc moves : Nat)
  /-- the boundary at which SCYC reaches a target (R324), acquiring when the flag says so -/
  | cycle (target : Nat) (acq : Bool)
  /-- the commit of seal `n` (R400) -/
  | seal (n : Nat)
  /-- the commit of seal `n` and then the write of an irrevocable store, whose word has still to end (R386,
  R401) -/
  | irrv (n : Nat) (place : Place) (data : List Byte) (word : Wrd)
  /-- nothing more: the write of an irrevocable store has been handed over, and its word ends (R401) -/
  | handed
  /-- a claim on a full ring (R218, R220) -/
  | claim (ring : Nat)
  /-- a copy-buffer entry, with the order of waiting (R294) -/
  | copyEntry (since : Nat)
  /-- room in a stream of a die, with the wall cycle at which the wait began (R415) -/
  | send (die sid since : Nat)
  /-- a ghost tag, with the slot-times passed that the engine could have issued (R306) -/
  | halo (passed : Nat)
  /-- a remote unit, with the packet that requests it (R454, R455) -/
  | unit (id : Nat)
  /-- nothing more: a remote unit that was asked for is to be asked for again (R465) -/
  | again
  /-- the root of a combining round (R462) -/
  | round (grp r : Nat)
deriving DecidableEq, Repr

/-- What a control word decides (R34): to go on after its group, to halt, or to go to a target. -/
inductive Decision where
  | fall
  | halt
  | goto (target : Nat)
deriving DecidableEq, Repr

/-- A record of an agreement log (R168). -/
structure LogRec where
  pos : Nat
  taken : Bool
  target : Nat
deriving DecidableEq, Repr

/-- A sequencing stream of a core (R351, R353): 0 A, 1 X or cluster 0, 2 M, 3 S, 4 to 6 clusters 1
to 3. -/
structure Stream where
  valid : Bool
  slot : Nat
  pc : Nat
  /-- the word in progress -/
  fpc : Option Nat
  repd : Nat
  prog : Nat
  /-- WAIT code of R353 -/
  wait : Nat
  /-- how far the core had come when the wait was found (R171) -/
  waitAt : Nat
  bank : Nat
  /-- the bank under which the word in progress was read (R86, R402) -/
  wordBank : Nat
  lc : Tbl Word
  /-- return stack, oldest first -/
  rs : List Nat
  cond : Tbl Bool
  tkd : Bool
  latch : Bool
  joinb : Bool
  pend : List Pend
  nseq : Nat
  /-- text words issued or skipped since launch (R166) -/
  progress : Nat
  log : List LogRec
  /-- a decision that takes effect at the end of its branch group, and the index after the group
  (R166, R168) -/
  dec : Option (Decision × Nat)
  /-- literal words of the last word passed that this stream has still to pass (R73, R166) -/
  lit : Nat
  hold : Hold
  clock : Clk
  /-- at a yield point: the last word carried Y or the wait is one of R360 -/
  yielded : Bool
  /-- base register as committed before the first slot of the word (R269), or the g register of a
  `fork` (R200) -/
  base : Dword
  /-- operands of a slot of several units, as they stood when it began (R37) -/
  opnd : List Dword
  /-- a `fence` stands before the next access of the engine (R280) -/
  fence : Bool
deriving DecidableEq, Repr

/-- An entry of a data queue (R28, R29). -/
structure QEntry where
  id : Nat
  data : VReg
  valid : Bool
  /-- clusters that have popped their slice (load queues) or written it (store queues) (R173) -/
  slices : BitVec 4
  src : Option LoadSrc
  /-- ordering clock of the producer's word (R167) -/
  clock : Clk
deriving DecidableEq, Repr

/-- A store of a core in its current phase that a load may race with (R252): where it stored (a
physical address, or a scratchpad offset), its bytes, and what the core held there before. -/
structure StoreRec where
  spad : Bool
  addr : Nat
  data : List Byte
  old : List (Option Byte)
  eng : Engine
  n : Nat
  cls : BitVec 2
deriving DecidableEq, Repr

/-- A block that another agent has written for the core and that the core has not yet observed
(R257): the operation, its barrier (space and offset) and its completion cycle. -/
structure Arrived where
  view : Nat
  num : Nat
  bar : Option (Nat × Nat)
  cycle : Nat
  /-- how far the core had come when it issued the operation -/
  begun : Nat
  pa : Nat
  data : List Byte
deriving DecidableEq, Repr

/-- What is done when a release half has completed (R242, R245). -/
inductive Cont where
  | none
  /-- a store with release order: bytes by place (R274) -/
  | store (runs : List (Place × List Byte))
  /-- fill mark or free mark of a ring slot of a launch (R283) -/
  | ringFill (launch bed ring slot : Nat)
  | ringFree (launch bed ring slot : Nat)
  /-- an arrival of a launch at a barrier in another bed's store (R317, R327) -/
  | remoteArrive (launch pkg bed off : Nat) (tag : Option Nat)
  /-- a published grid step (R303) -/
  | gstep (launch grid part step view num : Nat)
  /-- a parameter-block reduction (R313) -/
  | reduce (launch : Nat) (die job : Nat)
  /-- a release store counted at the target (R457) -/
  | strel (pkg pa : Nat) (data : List Byte) (count : Nat)
deriving DecidableEq, Repr

/-- A release half under way (R245). -/
structure Release where
  id : Nat
  scope : Nat
  /-- how far the core had come when it began -/
  begun : Nat
  /-- the one package whose store sequence it completes, for an atomic there (R276) -/
  seq : Option Nat
  /-- owned bytes still to publish, by physical address -/
  bytes : Tbl Byte
  cont : Cont
deriving DecidableEq, Repr

/-- An access whose acquire half acts once it has been performed: the answer to a packet, or the
completion of an operation of a view (R242, R276, R277). -/
inductive Acq where
  | packet (id : Nat)
  | number (view num : Nat)
deriving DecidableEq, Repr

/-- A data queue. -/
structure Queue where
  entries : List QEntry
deriving DecidableEq, Repr

/-- A copy's completion cycle by its number (R323): `none` before acceptance. -/
structure CopyRec where
  num : Nat
  done : Option Nat
deriving DecidableEq, Repr

/-- A fault frame (R352). -/
structure Frame where
  fcode : Nat
  fstr : Nat
  prec : Bool
  fork : Bool
  priv : Nat
  repn : Nat
  aux : Nat
  kind : Nat
  deferred : Nat
  ovf : Bool
  mfa : Dword
  mfb : Dword
  faux0 : Dword
  faux1 : Dword
deriving DecidableEq, Repr

/-- A kept imprecise report (R343). -/
structure Report where
  fcode : Nat
  aux : Nat
  faux0 : Dword
  faux1 : Dword
  /-- MFA and MFB of a memory fault (R237, R352) -/
  mfa : Dword
  mfb : Dword
deriving DecidableEq, Repr

/-- What a core does. -/
inductive Mode where
  /-- takes no part in a launch, or between launches -/
  | idle
  /-- of a raked launch and without an iteration (R179) -/
  | free
  | running
  /-- a fault frame waits to be delivered (R346) -/
  | faulted
  /-- saved by a pre-emption (R362) -/
  | saved
  /-- has halted: out of the launch (R180) -/
  | halted
  /-- out of service until the launch's release (R345) -/
  | stopped
deriving DecidableEq, Repr

/-- A served context beneath a handler (R346, R395). -/
structure Served where
  frame : Frame
  launch : Nat
  /-- physical address of the core save area, when one is registered -/
  area : Option Nat
deriving DecidableEq, Repr

/-- A pre-emption request (R362): the attempts that failed, and at the last of them how far the core had come
and how many words each stream had issued. -/
structure Preempt where
  failed : Nat
  moves : Nat
  marks : List (Nat × Nat)
deriving DecidableEq, Repr

/-- A store-sequence tracker (R436, R458). -/
structure Tracker where
  pkg : Nat
  count : Nat
  /-- the sequence is broken, with FAUX0 of the fault that reports it (R458) -/
  broken : Option Dword
  /-- a store that no release has covered, or its release at the target, is still to come -/
  used : Bool
  /-- stores were sent that no release has covered (R261, R456) -/
  units : Bool
  /-- its last store was a release store: the tracker is free once all of them have been applied (R436) -/
  rel : Bool
deriving DecidableEq, Repr

/-- A cached translation (R232). -/
structure Xlat where
  ctx : Nat
  seg : Nat
  va : Nat
  size : Nat
  leaf : Dword
deriving DecidableEq, Repr

/-- One core (R10 to R39). -/
structure Core where
  mode : Mode
  launch : Nat
  a : Tbl Dword
  m : Tbl Dword
  w : Tbl Dword
  /-- s banks: register i of bank c is entry 32 * c + i (R15) -/
  s : Tbl Dword
  v : Tbl VReg
  g : Tbl Mask
  fflg : BitVec 5
  ix : Tbl Dword
  mbx : Dword
  csr : Tbl Dword
  lq : Tbl Queue
  sq : Tbl Queue
  /-- token queues by the code of R199: the clocks of the tokens held, oldest first -/
  tok : Tbl (List Clk)
  /-- branch-outcome queues, oldest first (R131) -/
  obAX : List (Bool × Clk)
  obXA : List (Bool × Clk)
  /-- decisions of the open branch group (R34); none of an engine that has ended its part of the
  iteration (R204) -/
  group : List (Option Decision)
  /-- agreement records compared so far (R168) -/
  agreed : Nat
  /-- fork region (first and last word) while X is forked (R172) -/
  fork : Option (Nat × Nat)
  streams : Tbl Stream
  fmt : Tbl Word
  fb : Nat
  pin : Option Nat
  tlIssued : Tbl Nat
  tlDone : Tbl Nat
  /-- numbers completed above the done count, per view (R292) -/
  tlOut : List (Nat × Nat)
  /-- copies of views 0, 5, 6, 7 (R323) -/
  copies : Tbl (List CopyRec)
  /-- number of the last close completed (R152, R364) -/
  closeNum : Nat
  /-- lease: none, single or wide (R138) -/
  lease : Option Bool
  /-- a waiting lease request -/
  leaseWant : Option Bool
  spad : Memory
  scr : Nat
  owned : Tbl Byte
  /-- how far the core had come at its last store to each owned byte (R257) -/
  wrote : Tbl Nat
  near : Tbl Byte
  /-- the instant at which the phase reads a 64-byte block (R241, R248) -/
  instants : Tbl Nat
  floor : Nat
  /-- the instants at which the core's own writes of bytes were published since its floor (R248) -/
  floors : Tbl Nat
  stores : List StoreRec
  /-- accesses whose acquire half is still to act -/
  acquires : List Acq
  arrived : List Arrived
  /-- the highest cycle that a `waitc` has waited for (R257) -/
  counted : Nat
  releases : List Release
  nextId : Nat
  tlb : List Xlat
  trackers : List Tracker
  rounds : Tbl Nat
  /-- the virtual address of each 64 KiB page of another package that the core has reached (R458) -/
  farVa : Tbl Nat
  /-- the fault frame being delivered (R352) -/
  frame : Option Frame
  reports : List Report
  reportOvf : Bool
  /-- the oldest report has come while the core runs: a precise fault at the same boundary is taken
  first (R344) -/
  tie : Bool
  /-- a mismatch of the agreement logs: each stream stops at its next word boundary (R168) -/
  mismatch : Option Report
  served : Option Served
  /-- the wall cycle of the fault being delivered or served (R193, R346) -/
  faultAt : Nat
  /-- what the core does after its fault: it goes on, or it had halted or was free (R343) -/
  back : Mode
  preempt : Option Preempt
  deferred : Nat
  /-- slots, words and passes of the streams so far (R171) -/
  moves : Nat
  iter : Nat
  iterStart : Nat
deriving DecidableEq, Repr

/-- An element of a link (R60). -/
structure Elem where
  acc : BitVec 112
  op : Bool
  on : Bool
deriving DecidableEq, Repr

/-- A link slot (R136, R148, R366). -/
structure Link where
  state : Nat
  owner : Nat
  launch : Nat
  chain : Nat
  hop : Nat
  anchor : Int
  rem : Nat
  incoming : Bool
  /-- it has sent its partial (R369, R371) -/
  sent : Bool
  flags : BitVec 5
  elems : Tbl Elem
  rowScale : Tbl Word
  rowExp : Tbl Int
  lastBank : Nat
  hasLast : Bool
  /-- SK of the last contribution -/
  lastSk : Nat
  /-- the last contribution was under DSPLIT -/
  lastSplit : Bool
  /-- the columns of a bank that the last contribution could use (R140) -/
  lastN : Nat
  /-- the launch for the rest of which it is out of service; 0 for none (R371) -/
  retired : Nat
deriving DecidableEq, Repr

/-- A recorded `bld` or `sld` (R136, R367). -/
structure BankSrc where
  /-- 0 `bld`, 1 `sld.col`, 2 `sld.blk` -/
  kind : Nat
  sa : Dword
  sb : Dword
  seg : Nat
  mem : Bool
  row0 : Nat
  rows : Nat
  cols : Nat
  fmt : Word
  /-- FTZ[0] as committed -/
  ftz : Bool
  /-- under a wide lease -/
  wide : Bool
  core : Nat
deriving DecidableEq, Repr

/-- A B bank (R136, R144). -/
structure Bank where
  cells : Tbl Byte
  /-- format code and slice count -/
  tag : Option (Nat × Nat)
  owner : Option Nat
  colScale : Tbl Word
  blkScale : Tbl Byte
  colExp : Tbl Int
deriving DecidableEq, Repr

/-- Marks of a ring (R218): fill marks and free marks by slot, and the CRN of the last claim served
(R220). -/
structure Marks where
  fill : List Nat
  free : List Nat
  last : Nat
  /-- the wall cycle of the last claim, and the last core served before that cycle (R220) -/
  served : Option (Nat × Nat)
deriving DecidableEq, Repr

/-- One bed. -/
structure Bed where
  store : Memory
  marks : Tbl Marks
  banks : Tbl Bank
  links : Tbl Link
  turn : Option Nat
  turnCount : Nat
  lastGrant : Nat
  /-- cores of the bed with a command waiting for a turn -/
  waiting : List Nat
deriving DecidableEq, Repr

/-- A copy in the barrow's buffer (R294 to R299). -/
structure Copy where
  entry : Nat
  core : Nat
  launch : Nat
  view : Nat
  num : Nat
  /-- translated source and destination (R295) -/
  src : List Chunk
  dst : List Chunk
  len : Nat
  cyc : Nat
  /-- barrier: space and offset -/
  bar : Option (Nat × Nat)
  tag : Option Nat
  dur : Nat
  /-- start cycle and channel once accepted -/
  start : Option (Nat × Nat)
  /-- wall cycle at which it reached the barrow (R296) -/
  since : Nat
  /-- how far the core had come when it issued the copy -/
  begun : Nat
  /-- blocks read and not yet written, and the numbers of those written (R298) -/
  got : Tbl (List Byte)
  written : List Nat
  /-- a block of it lay above the grant of the die store, and the fault has been reported (R238) -/
  cut : Bool
deriving DecidableEq, Repr

/-- An ordered contribution (R277, R310). -/
structure Contrib where
  id : Nat
  /-- the package and the core of the contributor; of another package, `launch` is 0 and `num` its SEQ -/
  pkg : Nat
  core : Nat
  launch : Nat
  num : Nat
  op : Nat
  last : Bool
  pa : Nat
  va : Nat
  seg : Nat
  index : Nat
  value : Dword
  since : Nat
  /-- its alias class (R254) -/
  cls : BitVec 2
deriving DecidableEq, Repr

/-- A parameter-block reduction (R312, R313, R332). -/
structure Reduce where
  id : Nat
  core : Nat
  launch : Nat
  view : Nat
  num : Nat
  /-- physical addresses of the block and the flag -/
  block : Nat
  flag : Nat
  dst : List Chunk
  bufs : List (List Chunk)
  fval : Dword
  count : Nat
  fmt : Nat
  released : Bool
  running : Bool
  /-- instant of its start -/
  floor : Nat
  /-- 64-byte blocks summed so far, and the flags of their additions -/
  summed : List Nat
  flags : Nat
deriving DecidableEq, Repr

/-- A tensor stream's counts and marks on its receiving die and its sender end (R413, R415). -/
structure TStream where
  free : List Nat
  lens : Tbl Nat
  cc : Nat
  ecMirror : Nat
  /-- slots departed and not arrived, in order, with the core of an `ssend` -/
  flight : List (Option Nat × List Byte)
  /-- the wall cycle and the core of the last send (R415) -/
  sent : Option (Nat × Nat)
  /-- slots of a partial that wait for room (R420) -/
  queue : List (List Byte)
deriving DecidableEq, Repr

/-- One die. -/
structure Die where
  xlat : List Xlat
  copies : List Copy
  nextEntry : Nat
  /-- open targets of the reduction engine: expected index by address (R310) -/
  targets : Tbl Nat
  /-- the launch that opened each of them (R277) -/
  openers : Tbl Nat
  held : List Contrib
  input : List Contrib
  reductions : List Reduce
  tstreams : Tbl TStream
deriving DecidableEq, Repr

/-- A hop of a chain (R146, R418). -/
structure Hop where
  cnt : Nat
  stream : Bool
  hf : Nat
  anchor : Int
  die : Nat
  bed : Nat
  slot : Nat
  sid : Nat
deriving DecidableEq, Repr

/-- A chain descriptor (R146). -/
structure ChainDesc where
  mt : Nat
  nc : Nat
  wide : Bool
  hops : List Hop
deriving DecidableEq, Repr

/-- A close asked for by `mclose` (R150, R152). -/
structure CloseReq where
  core : Nat
  num : Nat
  /-- how far the core had come when it issued the close -/
  begun : Nat
  fmt : Nat
  rm : Nat
  sat : Bool
  ftzOut : Bool
  mem : Bool
  /-- destination, and its translated runs with `.mem` (R161) -/
  addr : Nat
  pitch : Nat
  runs : List Chunk
deriving DecidableEq, Repr

/-- A chain table entry (R136, R148, R369). -/
structure Chain where
  state : Nat
  kept : Nat
  desc : ChainDesc
  flags : BitVec 5
  builder : Nat
  close : Option CloseReq
deriving DecidableEq, Repr

/-- A grid (R300 to R308). -/
structure Grid where
  base : Nat
  ext : List Nat
  ndim : Nat
  fmt : Nat
  dep : Nat
  rad : Nat
  pax0 : Nat
  pax1 : Nat
  np0 : Nat
  np1 : Nat
  seg : Nat
  rule : List Nat
  fval : Dword
  owners : List Nat
  pstr : Nat
  /-- physical base of each 64 KiB page of the storage, by VA page (R301) -/
  pages : Tbl Nat
  /-- latest published step of each partition -/
  published : Tbl Nat
  /-- latest filled step of each ghost region, by 8 * partition + face -/
  latest : Tbl Nat
  heldSet : Tbl (List Nat)
deriving DecidableEq, Repr

/-- A `gstep` under way: faces still to fill, in order (R303). -/
structure Fill where
  id : Nat
  launch : Nat
  grid : Nat
  part : Nat
  step : Nat
  view : Nat
  num : Nat
  core : Nat
  faces : List Nat
  begun : Bool
  /-- instant at which the fill of the first of them began -/
  since : Nat
deriving DecidableEq, Repr

/-- A loop-nest record (R176). -/
structure Nest where
  code : Nat
  entry : Nat
  var : Nat
  depth : Nat
  tt : Bool
  serp : Bool
  stages : Nat
  plots : Nat
  cmask : Nat
  scr : Nat
  rings : Nat
  chains : Nat
  win : Nat
  itb : Nat
  ttlen : Nat
  start : List Dword
  count : List Nat
  step : List Word
  ord : List Nat
deriving DecidableEq, Repr

/-- A template bank (R79, R94). -/
structure TBank where
  mask : Dword
  tm : Tbl (BitVec 128)
deriving DecidableEq, Repr

/-- A loaded code object variant (R93, R94). -/
structure Code where
  text : List Word
  /-- banks by 16 * engine + number -/
  banks : Tbl TBank
  /-- bank counts of A, X, M, S -/
  nbank : List Nat
  entry : Nat
  ymax : Nat
  timetable : List Dword
  /-- branch groups (R34): first index and index after the group -/
  groups : List (Nat × Nat)
  /-- fork regions (R172): index of the `fork` and of its `join` -/
  regions : List (Nat × Nat)
deriving DecidableEq, Repr

/-- How a launch stands. -/
inductive LStatus where
  | running
  | completed
  /-- stopped with a code of R96 or R193 and its cause, whether a supervisor context stopped it (R345), and
  what else the report names -/
  | stopped (code cause : Nat) (sup : Bool) (info : List Nat)
deriving DecidableEq, Repr

/-- What launched a launch: the queue as 16 * tid + q, the entries that it had given, the node's address
and how many KERNEL nodes the graph had reached (R388). -/
structure Origin where
  queue : Nat
  serial : Nat
  node : Nat
  nth : Nat
deriving DecidableEq, Repr

/-- An accepted launch (R176 to R193). -/
structure Launch where
  tid : Nat
  ctx : Nat
  cls : Nat
  nest : Nest
  code : Code
  handler : Bool
  seed : Dword
  cores : List Nat
  accepted : Nat
  bound : Nat
  work : Nat
  var : Nat
  total : Nat
  handed : Nat
  ended : Nat
  lastServed : Option Nat
  ways : Tbl Nat
  dieStore : Tbl Memory
  /-- chain tables, by 32 * die + chain id (R136) -/
  chains : Tbl Chain
  grids : Tbl Grid
  rollbacks : Nat
  stalls : Nat
  faultTime : Nat
  startCycle : Nat
  status : LStatus
  /-- what launched it: the queue, the count of its entries, the node and which KERNEL of the graph -/
  origin : Origin
  /-- the releases of its end have begun (R180) -/
  lastRelease : Bool
  /-- its cores, beds and ways have been given back -/
  closed : Bool
deriving DecidableEq, Repr

/-- A context (R228, R347). -/
structure Ctx where
  pgroot : Tbl Dword
  keyset : BitVec 16
  supervisor : Bool
  /-- physical addresses of the save areas: by core, by bed, by 4 * bed + slot -/
  coreArea : Tbl Nat
  bedArea : Tbl Nat
  linkArea : Tbl Nat
  /-- virtual addresses of the core save areas -/
  coreVa : Tbl Dword
  /-- what a link save area has no field for, by 4 * bed + slot -/
  spilled : Tbl Link
  /-- source records by 2 * bed + bank (R367) -/
  srcs : Tbl (List BankSrc)
deriving DecidableEq, Repr

/-- A partial on its way to a link (R149, R420). -/
structure Partial where
  id : Nat
  launch : Nat
  chain : Nat
  hop : Nat
  /-- the die of that hop -/
  die : Nat
  fp32 : Bool
  anchor : Int
  flags : BitVec 5
  /-- resolved elements: by position, a value, or none for poison -/
  elems : Tbl (Option Int)
  fpElems : Tbl Word
deriving DecidableEq, Repr

/-- A set of latches on its way to a core (R206). -/
structure Sev where
  id : Nat
  src : Nat
  core : Nat
  launch : Nat
  msg : Option Dword
deriving DecidableEq, Repr

/-- A remote arrival on its way (R317, R327). -/
structure RemoteArr where
  id : Nat
  /-- the package and the core that issued it, and its SEQ when the package is another -/
  pkg : Nat
  core : Nat
  seq : Nat
  /-- the launch that issued it; 0 in another package, which names the tenant alone (R428) -/
  launch : Nat
  tid : Nat
  bed : Nat
  off : Nat
  tag : Option Nat
deriving DecidableEq, Repr

/-- An imprecise report on its way to a core (R343). -/
structure ReportFlight where
  id : Nat
  core : Nat
  launch : Nat
  rep : Report
deriving DecidableEq, Repr

/-- A page transplant (R422 to R424). -/
structure Transplant where
  id : Nat
  core : Nat
  launch : Nat
  ctx : Nat
  num : Nat
  va : Nat
  len : Nat
  dst : Nat
  step : Nat
  /-- pages copied so far -/
  copied : Nat
  /-- leaf address, old page base, page size and new base of each page -/
  pages : List (Nat × Nat × Nat × Nat)
deriving DecidableEq, Repr

/-- What a graph waits for before it goes on (R184, R185). -/
inductive GWait where
  | none
  /-- a launch of the graph, by its number -/
  | launch (n : Nat)
  /-- a copy of the graph -/
  | copy (id : Nat)
  /-- the commit of a seal -/
  | seal (n : Nat)
  /-- an event bit of the tenant -/
  | event (num : Nat)
deriving DecidableEq, Repr

/-- A COPY node at work: addresses in segment 0, the instant of its start, and the numbers of the
64-byte blocks copied (R184). -/
structure GCopy where
  id : Nat
  node : Nat
  src : Nat
  dst : Nat
  len : Nat
  floor : Nat
  copied : List Nat
deriving DecidableEq, Repr

/-- A graph that runs on a queue (R184, R185). -/
structure Graph where
  /-- the node to reach next; none returns to the innermost LOOP, or ends the graph -/
  cur : Option Nat
  /-- the node reached last -/
  node : Nat
  wait : GWait
  /-- the node that follows the wait -/
  next : Option Nat
  cls : Nat
  tag : Dword
  want : Bool
  /-- LOOP stack, innermost first: node address and passes left -/
  loops : List (Nat × Nat)
  /-- launches that the graph does not wait for, with their nodes -/
  async : List (Nat × Nat)
  copies : List GCopy
  /-- bound and variant of the last KERNEL node reached -/
  bound : Nat
  var : Nat
  /-- KERNEL nodes reached so far -/
  kernels : Nat
deriving DecidableEq, Repr

/-- A completion record (R447), with what its 32 bytes have no field for: the supervisor flag (R345), and
the engine, bank and word or the byte offset that a refusal names (R96). (DEDUCED, log 91) -/
structure CRec where
  tag : Dword
  code : Nat
  cause : Nat
  var : Nat
  node : Nat
  bound : Nat
  sup : Bool
  info : List Nat
deriving DecidableEq, Repr

/-- A tenant launch queue (R445). -/
structure TQueue where
  qbase : Nat
  qsize : Nat
  qwptr : BitVec 32
  qrptr : BitVec 32
  cbase : Nat
  csize : Nat
  cwptr : BitVec 32
  crptr : BitVec 32
  cvec : BitVec 32
  stopped : Bool
  graph : Option Graph
  /-- records due and not yet written -/
  due : List CRec
  /-- the record written last -/
  last : Option CRec
deriving DecidableEq, Repr

/-- A combining round of one package (R438, R462). -/
structure Round where
  grp : Nat
  r : Nat
  op : Nat
  /-- the launch of the contributions; 0 before the first of them -/
  launch : Nat
  contribs : List (Nat × VReg)
  /-- values of the other member packages, by member index -/
  others : List (Nat × VReg)
  root : Option VReg
deriving DecidableEq, Repr

/-- Everything that a seal records and a rollback restores (R381), memory apart. -/
structure Dom where
  cores : Tbl Core
  beds : Tbl Bed
  dies : Tbl Die
  launches : Tbl Launch
  nextLaunch : Nat
  ctxs : Tbl Ctx
  /-- queues by 16 * tid + q -/
  queues : Tbl TQueue
  /-- 64 tenant event bits per tenant (R185) -/
  events : Tbl Dword
  partials : List Partial
  sevs : List Sev
  remote : List RemoteArr
  contribs : List Contrib
  reports : List ReportFlight
  fills : List Fill
  transplants : List Transplant
  /-- cores of served and saved contexts, by 1024 * launch + core (R346, R362) -/
  saved : Tbl Core
  /-- bed stores of pre-empted launches, by 128 * launch + bed (R362) -/
  savedBeds : Tbl Bed
  rounds : List Round
  /-- the tenant whose pool request was served last, and how many of its requests in succession (R190) -/
  poolLast : Nat
  poolCount : Nat
  nextId : Nat
deriving DecidableEq, Repr

/-- Step of a seal under way (R380). -/
inductive SealPhase where
  | idle
  /-- steps 1 to 4 of the seal of interval `n`, and who asked for it -/
  | quiesce (n : Nat) (whys : List SealWhy)
  /-- steps 6 and 7: draining seal `n` -/
  | draining (n : Nat)
deriving DecidableEq, Repr

/-- An egress entry (R385): an address of the host or of another package. -/
structure Egress where
  interval : Nat
  core : Nat
  /-- the launch that the core ran -/
  launch : Nat
  addr : Nat
  data : List Byte
  /-- completion records and interrupts are held with egress (R447) -/
  kind : Nat
deriving DecidableEq, Repr

/-- A write from outside the domain that a rollback applies again (R388). -/
inductive Ingress where
  /-- bytes at a physical address -/
  | mem (pa : Nat) (data : List Byte)
  /-- event bits of a tenant (R445) -/
  | events (tid : Nat) (bits : Dword)
deriving DecidableEq, Repr

/-- A seal: its state, the schedule cycle and the wall cycle of its resume (R381, R390).
(DEDUCED, log 48) -/
structure Seal where
  dom : Dom
  scyc : Nat
  wcyc : Nat
deriving DecidableEq, Repr

/-- The first reading of a launch that a rollback may take in again: acceptance cycle, bound, and the
rollbacks and stalls that it has met (R388, R391). -/
structure First where
  origin : Origin
  accepted : Nat
  bound : Nat
  rollbacks : Nat
  stalls : Nat
deriving DecidableEq, Repr

/-- The recovery machinery (R373 to R391). (DEDUCED, log 48) -/
structure Recov where
  n : Nat
  k : Nat
  phase : SealPhase
  /-- the requests that the next seal merges -/
  want : List SealWhy
  /-- checkpoints by seal number; an unlisted seal 0 is the empty state -/
  seals : Tbl Seal
  firsts : List First
  ti : Nat
  lastResume : Nat
  wrote : Bool
  /-- a launch has been accepted or running in the open interval (R379) -/
  busy : Bool
  sealStart : Nat
  /-- member packages, 64 by 64 (R373) -/
  members : Tbl Dword
  domainId : Nat
  /-- undo segments: interval, line address, old bytes by offset (R376) -/
  undo : List (Nat × Nat × List Byte)
  egress : List Egress
  /-- ingress since seal k, with its interval (R388) -/
  ingress : List (Nat × Ingress)
deriving DecidableEq, Repr

/-- Trusted-interface state of a virtual function (R442). -/
inductive Tsm where
  | unlocked | locked | run | error
deriving DecidableEq, Repr

/-- A tenant configuration record (R444). -/
structure TConf where
  valid : Bool
  keyset : BitVec 16
  qn : Nat
  vn : Nat
  weight : Nat
  seed : Dword
  beds : Nat
  pgroot : Tbl Dword
  raw : List Byte
deriving DecidableEq, Repr

/-- What leaves the device towards the host (R385, R389, R445, R447). -/
inductive HostOut where
  | write (addr : Nat) (data : List Byte)
  | interrupt (tid vec : Nat)
  /-- an interrupt of the physical function (R441) -/
  | pfInterrupt (vec : Nat)
  /-- a rollback report (R389) -/
  | report (data : List Byte)
  /-- an answer of the management window: code and cause -/
  | mgmt (code cause : Nat)
  | data (bytes : List Byte)
  | tdisp (report : List Byte)
  /-- a packet: its package, its type, what it carries with the addresses, and its flits (R427) -/
  | packet (pkg typ : Nat) (data : List Host.Cell) (flits : List Flit)
  | notify (port : Nat)
  /-- a warm start that became a cold start (R449) -/
  | coldStarted
deriving DecidableEq, Repr

/-- The host interface (R441 to R447). -/
structure HostIf where
  confs : Tbl TConf
  vf : Tbl Tsm
  msix : Tbl Dword
  /-- MSI-X table words of the physical function (R441) -/
  pfMsix : Tbl Dword
  out : List HostOut
deriving DecidableEq, Repr

/-- A packet sent (R427 to R432). (DESIGN CHOICE, log 56) -/
structure Sent where
  id : Nat
  pkg : Nat
  seq : Nat
  typ : Nat
  gen : Nat
  core : Nat
  /-- the launch that the core ran -/
  launch : Nat
  addr : Nat
  count : Nat
  /-- operation and index of a contribution -/
  op : Nat
  index : Nat
  data : List Host.Cell
  grp : Nat
  /-- 0 waits for DEP, 1 sent once, 2 waits for RTY, 3 sent twice, 4 delivered: its answer is to come -/
  stage : Nat
  /-- the context and the virtual address of its target, where they are known -/
  va : Option (Nat × Nat)
  /-- bounced: it walks again before it departs (R423, R435) -/
  bounced : Bool
  /-- the fabric slot from which its first departure counts (R431, R432) -/
  ready : Nat
  /-- fabric slot of the last departure -/
  at_ : Nat
  hops : Nat
  dep : Nat
  rty : Nat
  /-- members of a multicast that have not acknowledged -/
  members : List Nat
deriving DecidableEq, Repr

/-- A schedule bank (R429, R430). -/
structure RBank where
  gen : Nat
  per : Nat
  entries : List (BitVec 128)
  groups : List (List Word)
  draining : Bool
deriving DecidableEq, Repr

/-- An acknowledgement that waits for its slot (R432). -/
structure Ack where
  id : Nat
  pkg : Nat
  /-- number and generation of the packet that it answers -/
  seq : Nat
  gen : Nat
  /-- the member has discarded the payload (R461) -/
  bad : Bool
  /-- the fabric slot at which it departs -/
  slot : Nat
deriving DecidableEq, Repr

/-- The fabric side of the package (R426 to R438). -/
structure Fabric where
  banks : Tbl RBank
  active : Nat
  /-- the fabric slot from which it has been in force -/
  since : Nat
  /-- pending switch: generation and slot -/
  switch : Option (Nat × Nat)
  widths : Tbl Nat
  sent : List Sent
  /-- packets sent so far, by package: SEQ is this modulo 65,536 -/
  nextSeq : Tbl Nat
  accepted : Tbl (List Nat)
  /-- accepted multicast payloads that were discarded, by package and number (R461) -/
  refused : List (Nat × Nat)
  /-- inbound store counts by 1024 * package + core -/
  inbound : Tbl Nat
  /-- store-releases and remote arrivals held for their count -/
  heldRel : List Packet
  /-- stores of sequences that no release has covered yet (R261) -/
  inStores : List Packet
  /-- acknowledgements that have not departed -/
  acks : List Ack
  /-- packets accepted that wait for the room or the page that they need (R378, R423) -/
  waiting : List Packet
deriving DecidableEq, Repr

/-- Lifetime counters (R450), by counter number. -/
structure Life where
  ecc : Tbl Nat
  ecc2 : Tbl Nat
  rollbacks : Nat
  sealStalls : Tbl Nat
  temps : Tbl Nat
  retrans : Tbl Nat
  grafts : Tbl Nat
  droops : Tbl Nat
  /-- the non-volatile copy, as bytes of R450 from offset 0x40, and when it was written -/
  written : Memory
  writtenAt : Nat
  /-- the counts of units without a stated layout in that copy -/
  kept : Tbl Nat
deriving DecidableEq, Repr

/-- Whether the package is in service. -/
inductive Power where
  | on
  /-- a start failed at this step (R448) -/
  | refused (step : Nat)
  | off
deriving DecidableEq, Repr

/-- What identifies the part. -/
structure Ident where
  pkg : Nat
  signature : Dword
deriving DecidableEq, Repr

/-- The clocks (R25, R188, R426). -/
structure Clocks where
  wcyc : Nat
  scyc : Nat
  /-- SCYC is stopped for a seal (R380) -/
  hold : Bool
  /-- stall cycles still to pass (R188) -/
  stall : Nat
  stalls : Nat
  fslot0 : Nat
deriving DecidableEq, Repr

/-- The installed supervisor (R346). (DESIGN CHOICE, log 5) -/
structure Sup where
  code : Code
  ctx : Nat
deriving DecidableEq, Repr

/-- The stream that issues. -/
structure Cur where
  core : Nat
  stream : Nat
deriving DecidableEq, Repr

/-- The package. `agenda`, `draws` and `cur` are the model's own (log 1, log 4): the turns to come,
the counter of free values and the stream that issues. -/
structure State where
  ident : Ident
  power : Power
  clk : Clocks
  agenda : List Turn
  draws : Nat
  cur : Cur
  /-- the number of publications so far (R240) -/
  now : Nat
  mem : Memory
  /-- superseded values: instant of the publication, address, old byte (R240) -/
  hist : List (Nat × Nat × Byte)
  dom : Dom
  recov : Recov
  conn : Tbl Word
  ctbase : Nat
  connNext : Tbl Word
  ctbaseNext : Nat
  sup : Option Sup
  host : HostIf
  fab : Fabric
  life : Life
deriving DecidableEq, Repr

/-- Why the machine stops. -/
inductive Fault where
  /-- Raised by every step of a package whose start failed or that has been shut down: it is not in
  service (R448, R450). Safe: nothing is claimed of such a package until it is started. -/
  | outOfService
deriving DecidableEq, Repr

/-- Why an instruction is not run. -/
inductive Refusal where
  /-- Raised by an arm of `exec` for an instruction that has no meaning yet. Safe. -/
  | notModelled (mnemonic : String)
deriving DecidableEq, Repr

/-! ### Defaults -/

/-- No word precedes. -/
def Clk.zero : Clk := ⟨0, 0, 0, 0⟩

/-- A stream at launch (R39). -/
def Stream.init : Stream :=
  { valid := false, slot := 0, pc := 0, fpc := none, repd := 0, prog := 0, wait := 0, waitAt := 0, bank := 0, wordBank := 0,
    lc := .empty, rs := [], cond := .empty, tkd := false, latch := false, joinb := false,
    pend := [], nseq := 0, progress := 0, log := [], dec := none, lit := 0, hold := .none, clock := .zero,
    yielded := false, base := 0, opnd := [], fence := false }

/-- The empty queue. -/
def Queue.init : Queue := ⟨[]⟩

/-- Control registers that are not zero at reset (R25). -/
def Core.csrReset : Tbl Dword :=
  ⟨[(0x000, 1), (0x002, 2048), (0x010, 3), (0x013, 8), (0x021, 16), (0x030, 4096)]⟩

/-- A core after reset (R25, R136; log 2 for the registers without a reset value).
(DESIGN CHOICE, log 2) -/
def Core.init : Core :=
  { mode := .idle, launch := 0, a := .empty, m := .empty, w := .empty, s := .empty, v := .empty,
    g := .empty, fflg := 0, ix := .empty, mbx := 0, csr := Core.csrReset, lq := .empty,
    sq := .empty, tok := .empty, obAX := [], obXA := [], group := [], agreed := 0, fork := none,
    streams := .empty, fmt := .empty, fb := 0, pin := some 0, tlIssued := .empty,
    tlDone := .empty, tlOut := [], copies := .empty, closeNum := 0, lease := none,
    leaseWant := none, spad := [], scr := 10, owned := .empty, wrote := .empty, near := .empty,
    instants := .empty, floor := 0,
    floors := .empty, acquires := [],
    stores := [], arrived := [], counted := 0, releases := [], nextId := 0, tlb := [], trackers := [],
    rounds := .empty, farVa := .empty, frame := none, reports := [], reportOvf := false, tie := false, mismatch := none,
    served := none, faultAt := 0, back := .running, preempt := none, deferred := 0, moves := 0, iter := 0, iterStart := 0 }

/-- The zero element. -/
def Elem.zero : Elem := ⟨0, false, false⟩

/-- An idle link slot (R136). (DESIGN CHOICE, log 2) -/
def Link.init : Link :=
  { state := 0, owner := 0, launch := 0, chain := 0, hop := 0, anchor := 0, rem := 0,
    incoming := false, sent := false, flags := 0, elems := .empty, rowScale := .empty, rowExp := .empty,
    lastBank := 0, hasLast := false, lastSk := 0, lastSplit := false, lastN := 512, retired := 0 }

/-- A bank at launch (R136): unlisted cells are 0, column scales 1.0, block scales 0x7F. -/
def Bank.init : Bank :=
  { cells := .empty, tag := none, owner := none, colScale := .empty, blkScale := .empty,
    colExp := .empty }

/-- No marks. (DESIGN CHOICE, log 2) -/
def Marks.init : Marks := ⟨[], [], 7, none⟩

/-- A bed after reset. (DESIGN CHOICE, log 2) -/
def Bed.init : Bed :=
  { store := [], marks := .empty, banks := .empty, links := .empty,
    turn := none, turnCount := 0, lastGrant := 7, waiting := [] }

/-- A stream end at launch (R413). -/
def TStream.init : TStream :=
  { free := [], lens := .empty, cc := 0, ecMirror := 0, flight := [], sent := none, queue := [] }

/-- A die after reset. (DESIGN CHOICE, log 2) -/
def Die.init : Die :=
  { xlat := [], copies := [], nextEntry := 0, targets := .empty, openers := .empty, held := [], input := [],
    reductions := [], tstreams := .empty }

/-- No chain descriptor. -/
def ChainDesc.empty : ChainDesc := ⟨0, 0, false, []⟩

/-- An unbuilt chain (R136). -/
def Chain.init : Chain :=
  { state := 0, kept := 0, desc := .empty, flags := 0, builder := 0, close := none }

/-- The empty code object. -/
def Code.empty : Code :=
  { text := [], banks := .empty, nbank := [1, 1, 1, 1], entry := 0, ymax := 2048,
    timetable := [], groups := [], regions := [] }

/-- The record with every field zero but DEPTH 1 and SCR 10. -/
def Nest.init : Nest :=
  { code := 0, entry := 0xFFFFFFFF, var := 0xFF, depth := 1, tt := false, serp := false,
    stages := 0, plots := 0, cmask := 0, scr := 10, rings := 0, chains := 0, win := 0, itb := 1,
    ttlen := 0, start := [0, 0, 0, 0], count := [1, 0, 0, 0], step := [0, 0, 0, 0],
    ord := [0, 0, 0, 0] }

/-- No launch: completed and empty. -/
def Launch.init : Launch :=
  { tid := 0, ctx := 0, cls := 0, nest := .init, code := .empty, handler := false, seed := 0,
    cores := [], accepted := 0, bound := 0, work := 0, var := 0, total := 0, handed := 0,
    ended := 0, lastServed := none, ways := .empty, dieStore := .empty, chains := .empty,
    grids := .empty, rollbacks := 0, stalls := 0, faultTime := 0, startCycle := 0,
    status := .completed, origin := ⟨0, 0, 0, 0⟩, lastRelease := false,
    closed := true }

/-- A context with no root slot. -/
def Ctx.init : Ctx :=
  { pgroot := .empty, keyset := 0, supervisor := false, coreArea := .empty, bedArea := .empty,
    linkArea := .empty, coreVa := .empty, spilled := .empty, srcs := .empty }

/-- A queue after reset (R445). -/
def TQueue.init : TQueue :=
  { qbase := 0, qsize := 0, qwptr := 0, qrptr := 0, cbase := 0, csize := 0, cwptr := 0,
    crptr := 0, cvec := 0, stopped := false, graph := none, due := [], last := none }

/-- The empty state that precedes every launch: seal 0 (R374). (DESIGN CHOICE, log 2) -/
def Dom.init : Dom :=
  { cores := .empty, beds := .empty, dies := .empty, launches := .empty, nextLaunch := 1,
    ctxs := .empty, queues := .empty, events := .empty, partials := [], sevs := [], remote := [],
    contribs := [], reports := [], fills := [], transplants := [],
    saved := .empty, savedBeds := .empty, rounds := [], poolLast := 15, poolCount := 0, nextId := 0 }

/-- The recovery state after a cold start (R374, R448; log 3 for the domain).
(DESIGN CHOICE, log 3) -/
def Recov.init : Recov :=
  { n := 1, k := 0, phase := .idle, want := [], seals := .empty, firsts := [], ti := 8750000, lastResume := 0,
    wrote := false, busy := false, sealStart := 0, members := ⟨[(0, 1)]⟩, domainId := 0, undo := [], egress := [],
    ingress := [] }

/-- A tenant without a record. -/
def TConf.init : TConf :=
  { valid := false, keyset := 0, qn := 1, vn := 1, weight := 0, seed := 0, beds := 0,
    pgroot := .empty, raw := [] }

/-- The host interface after reset (R442). (DESIGN CHOICE, log 2) -/
def HostIf.init : HostIf := ⟨.empty, .empty, .empty, .empty, []⟩

/-- The fabric after a cold start: no schedule is loaded. (DESIGN CHOICE, log 2) -/
def Fabric.init : Fabric :=
  { banks := .empty, active := 0, since := 0, switch := none, widths := .empty, sent := [],
    nextSeq := .empty, accepted := .empty, refused := [], inbound := .empty, heldRel := [], inStores := [], acks := []
    waiting := [] }

/-- Counters of a new part. -/
def Life.init : Life :=
  { ecc := .empty, ecc2 := .empty, rollbacks := 0, sealStalls := .empty, temps := .empty,
    retrans := .empty, grafts := .empty, droops := .empty, written := [], writtenAt := 0, kept := .empty }

/-- The connection-table entry i of a cold start (R411). -/
def connEntry (i : Nat) : Word :=
  BitVec.ofNat 32 (2 ^ 31 + 2 ^ 30 + i * 2 ^ 24 + ((i + 1) % 8) * 2 ^ 20 + 16 * 2 ^ 8)

/-- The connection table of a cold start (R411). -/
def connReset : Tbl Word :=
  ⟨[(0, connEntry 0), (1, connEntry 1), (2, connEntry 2), (3, connEntry 3), (4, connEntry 4),
    (5, connEntry 5), (6, connEntry 6), (7, connEntry 7)]⟩

/-- The machine right after reset: a cold start that found no failure (R448).
(DESIGN CHOICE, log 2; DESIGN CHOICE, log 3) -/
def State.reset : State :=
  { ident := ⟨0, 0⟩, power := .on, clk := ⟨0, 0, false, 0, 0, 0⟩, agenda := [], draws := 0,
    cur := ⟨0, 0⟩, now := 0, mem := [], hist := [], dom := .init, recov := .init,
    conn := connReset, ctbase := 0, connNext := connReset, ctbaseNext := 0, sup := none,
    host := .init, fab := .init, life := .init }

end Sys2Proof.Machine
end

