-- ==== Sys2Proof/Machine/Ops.lean ====
section
/-!
DEFINITION. Named operations over the state: cores and streams, special registers, tokens, guards,
pending writes, taking a fault, and the frame of one slot of a word (R10 to R40, R83 to R85, R166 to
R174, R341 to R346).
-/

namespace Sys2Proof.Machine

open Sys2Proof

/-- A fault as the word that causes it reports it (R341, R352). `keep` says that the units recorded
in the stream's PROG stand (R236). (DEDUCED, log 35) -/
structure FaultInfo where
  code : Nat
  aux : Nat := 0
  mfa : Dword := 0
  mfb : Dword := 0
  faux0 : Dword := 0
  faux1 : Dword := 0
  keep : Bool := false
deriving DecidableEq, Repr

/-- Why a word does not complete its slot: it waits with a WAIT code of R353, or takes a fault. -/
inductive Stop where
  | stall (code : Nat) (s : State)
  | fault (f : FaultInfo) (s : State)
deriving DecidableEq, Repr

/-- What a part of a word does to the state. -/
abbrev Act := StateT State (Except Stop)

/-- The word waits: no slot, with the state as it stands. -/
def stall {α : Type} (code : Nat) : Act α := fun s => .error (.stall code s)

/-- The word takes a fault. -/
def raise {α : Type} (f : FaultInfo) : Act α := fun s => .error (.fault f s)

/-- The word takes the fault with this code and nothing else in its frame. -/
def raiseCode {α : Type} (code : Nat) : Act α := raise { code := code }

/-- Raise when the condition holds. -/
def raiseIf (b : Bool) (code : Nat) : Act Unit := if b then raiseCode code else pure ()

/-! ### Cores, streams, beds, dies and launches -/

/-- Core `c` (R175). -/
def State.core (s : State) (c : Nat) : Core := s.dom.cores.get .init c

/-- The state with core `c` replaced. -/
def State.setCore (s : State) (c : Nat) (k : Core) : State :=
  { s with dom := { s.dom with cores := s.dom.cores.put c k } }

/-- Stream `e` of a core (R351). -/
def Core.stream (k : Core) (e : Nat) : Stream := k.streams.get .init e

/-- The core with stream `e` replaced. -/
def Core.setStream (k : Core) (e : Nat) (t : Stream) : Core :=
  { k with streams := k.streams.put e t }

/-- The core that issues. -/
def State.cc (s : State) : Core := s.core s.cur.core

/-- The stream that issues. -/
def State.cs (s : State) : Stream := s.cc.stream s.cur.stream

/-- Change the issuing core. -/
def State.modCore (s : State) (f : Core → Core) : State := s.setCore s.cur.core (f s.cc)

/-- Change the issuing stream. -/
def State.modStream (s : State) (f : Stream → Stream) : State :=
  s.modCore fun k => k.setStream s.cur.stream (f (k.stream s.cur.stream))

/-- Bed `b`: 16 * die + 4 * plot + bed. -/
def State.bed (s : State) (b : Nat) : Bed := s.dom.beds.get .init b

/-- The state with bed `b` replaced. -/
def State.setBed (s : State) (b : Nat) (x : Bed) : State :=
  { s with dom := { s.dom with beds := s.dom.beds.put b x } }

/-- Die `d`. -/
def State.die (s : State) (d : Nat) : Die := s.dom.dies.get .init d

/-- The state with die `d` replaced. -/
def State.setDie (s : State) (d : Nat) (x : Die) : State :=
  { s with dom := { s.dom with dies := s.dom.dies.put d x } }

/-- Launch `l`. -/
def State.launch (s : State) (l : Nat) : Launch := s.dom.launches.get .init l

/-- The state with launch `l` replaced. -/
def State.setLaunch (s : State) (l : Nat) (x : Launch) : State :=
  { s with dom := { s.dom with launches := s.dom.launches.put l x } }

/-- Context `c`. -/
def State.ctx (s : State) (c : Nat) : Ctx := s.dom.ctxs.get .init c

/-- The launch of the issuing core. -/
def State.cl (s : State) : Launch := s.launch s.cc.launch

/-- The core of a context: the live core while it runs the launch, else the saved one (R292, R364). -/
def State.ctxCore (s : State) (launch c : Nat) : Core :=
  if (s.core c).launch = launch then s.core c
  else (s.dom.saved.get? (1024 * launch + c)).getD (s.core c)

/-- Change the core of a context, wherever it stands; nothing when the context is gone. -/
def State.onCtxCore (launch c : Nat) (f : Core → Core) (s : State) : State :=
  if (s.core c).launch = launch then s.setCore c (f (s.core c))
  else match s.dom.saved.get? (1024 * launch + c) with
    | none => s
    | some k => { s with dom := { s.dom with saved := s.dom.saved.put (1024 * launch + c) (f k) } }

/-- Read something of the state. -/
def look {α : Type} (f : State → α) : Act α := fun s => .ok (f s, s)

/-- Change the state. -/
def change (f : State → State) : Act Unit := fun s => .ok ((), f s)

/-- Change the issuing core. -/
def changeCore (f : Core → Core) : Act Unit := change fun s => s.modCore f

/-- Change the issuing stream. -/
def changeStream (f : Stream → Stream) : Act Unit := change fun s => s.modStream f

/-- A free choice among `n` (log 4): the number drawn, below n. (DESIGN CHOICE, log 4) -/
def State.drawN (s : State) (n : Nat) : Nat × State :=
  if n ≤ 1 then (0, s) else (Config.pick s.draws % n, { s with draws := s.draws + 1 })

/-- A free choice of the word at hand. -/
def draw (n : Nat) : Act Nat := fun s => .ok (s.drawN n)

/-! ### Places (R23, R175, R410 to R412) -/

/-- The die after `d` in the ring of the connection table. -/
def nextDie (conn : Tbl Word) (d : Nat) : Nat :=
  match conn.vals.find? (fun e => bit e 31 && bit e 30 && bits e 26 24 == d) with
  | some e => bits e 22 20
  | none => (d + 1) % 8

/-- The die of stage `n`. -/
def stageDie (conn : Tbl Word) (base : Nat) : Nat → Nat
  | 0 => base % 8
  | n + 1 => nextDie conn (stageDie conn base n)

/-- The die on which core `c` lies. -/
def State.dieOf (s : State) (c : Nat) : Nat := stageDie s.conn s.ctbase (c / 128)

/-- The stage of die `d`. -/
def State.stageOf (s : State) (d : Nat) : Nat :=
  ((span 0 8).find? fun n => stageDie s.conn s.ctbase n == d).getD 0

/-- Plot and bed of a core, as 4 * PLOT + BED. -/
def bedInDie (c : Nat) : Nat := c / 8 % 16

/-- The next core to serve, after core number `last` of its bed, in cyclic CRN order (R182, R220). -/
def nextCrn (last : Nat) (l : List Nat) : Option Nat :=
  (span 1 8).findSome? fun i => l.find? fun c => c % 8 == (last + i) % 8

/-- The bed of core `c`. -/
def State.bedOf (s : State) (c : Nat) : Nat := 16 * s.dieOf c + bedInDie c

/-- The value of CORE (R23). -/
def coreWord (s : State) (c : Nat) : Dword :=
  BitVec.ofNat 64 (s.ident.pkg <<< 32 + s.dieOf c <<< 8 + (c / 32 % 4) <<< 5 + (c / 8 % 4) <<< 3 +
    c % 8)

/-! ### Sequencing -/

/-- How a core is sequenced (R11, R166, R186). -/
inductive Seqn where
  | joint | slip | timed
deriving DecidableEq, Repr

/-- A control register (R25). -/
def Core.csrN (k : Core) (n : Nat) : Dword := k.csr.get 0 n

/-- The sequencing of core `c`. -/
def State.seqn (s : State) (c : Nat) : Seqn :=
  if (s.launch (s.core c).launch).nest.tt then .timed
  else if ((s.core c).csrN 1).toNat % 256 = 0 then .joint else .slip

/-- A word cannot proceed now: under slip it waits with the WAIT code, in joint sequencing it takes
the fault, and in timetabled mode the timetable-violation fault (R31, R33, R131, R167, R189). -/
def cannot {α : Type} (fcode wait : Nat) : Act α := fun s =>
  match s.seqn s.cur.core with
  | .joint => raiseCode fcode s
  | .slip => stall wait s
  | .timed => raiseCode 0x0D s

/-- The cluster of a stream of X (R351). -/
def clusterOf (stream : Nat) : Nat := if stream = 1 then 0 else stream - 3

/-- The stream of an engine. -/
def streamOf (e : Engine) : Nat := engineCode e

/-- X is forked (R172). -/
def Core.forked (k : Core) : Bool := k.fork.isSome

/-- The clusters whose lanes a word of the issuing stream acts on: one while forked, else all. -/
def State.cluster (s : State) : Option Nat :=
  if s.cc.forked && (s.cur.stream == 1 || 4 ≤ s.cur.stream) then some (clusterOf s.cur.stream)
  else none

/-- The lanes of the issuing stream (R100). -/
def State.laneMask (s : State) : Mask :=
  match s.cluster with
  | none => BitVec.allOnes 64
  | some c => BitVec.ofNat 64 (0xFFFF <<< (16 * c))

/-! ### Special registers (R22) -/

/-- The value of a special register as the issuing stream reads it. -/
def specVal (s : State) (r : Spec) : Dword :=
  let k := s.cc
  match r with
  | .z => 0
  | .scyc => BitVec.ofNat 64 s.clk.scyc
  | .core => coreWord s s.cur.core
  | .stage => BitVec.ofNat 64 (s.cur.core / 128)
  | .ix i => k.ix.get 0 i.val
  | .tl i => BitVec.ofNat 64 (k.tlDone.get 0 i.val)
  | .mbx => k.mbx
  | .fflg => k.fflg.setWidth 64
  | .rin => BitVec.ofNat 64 s.recov.n

/-- The 64-bit value of a scalar register, as committed (R13, R15). -/
def regVal (s : State) (r : Reg) : Dword :=
  let k := s.cc
  match r with
  | .a i => k.a.get 0 i.val
  | .s i => k.s.get 0 (32 * (s.cluster.getD 0) + i.val)
  | .g i => k.g.get 0 i.val
  | .m i => k.m.get 0 i.val
  | .w i => k.w.get 0 i.val
  | .sp r => specVal s r
  | .v i => (k.v.get 0 i.val).setWidth 64
  | .lq _ => 0
  | .sq _ => 0
  | .lk _ => 0

/-! ### Pending writes (R36) -/

/-- Merge lanes of a v register under a lane mask. -/
def mergeLanes (mask : Mask) (old new : VReg) : VReg :=
  BitVec.ofNat 2048 ((span 0 64).foldl (fun acc i =>
    acc + (if bit mask i then bits new (32 * i + 31) (32 * i) else bits old (32 * i + 31) (32 * i))
      <<< (32 * i)) 0)

/-- Merge the bits of a mask. -/
def mergeBits (mask old new : Mask) : Mask := (new &&& mask) ||| (old &&& ~~~mask)

/-- The value that a write leaves in a control register: unused bits read zero and a value outside
the range is ignored (R25). -/
def csrStore (old : Dword) (n : Nat) (x : Dword) : Dword :=
  let v := x.toNat
  match n with
  | 0x000 => BitVec.ofNat 64 (if v % 4 ≤ 1 then v % 4 else old.toNat)
  | 0x002 => BitVec.ofNat 64 (if v % 4096 ≤ 2048 then v % 4096 else old.toNat)
  | 0x010 => BitVec.ofNat 64 (if 1 ≤ v % 256 ∧ v % 256 ≤ 3 then v % 256 else old.toNat)
  | 0x011 => BitVec.ofNat 64 (if v % 8 ≤ 4 then v % 8 else old.toNat)
  | 0x012 => BitVec.ofNat 64 (v % 4)
  | 0x013 => BitVec.ofNat 64 (v % 16)
  | 0x014 => x
  | 0x020 => BitVec.ofNat 64 (v % 4)
  | 0x021 => BitVec.ofNat 64 (if 1 ≤ v % 128 ∧ v % 128 ≤ 64 then v % 128 else old.toNat)
  | 0x030 => BitVec.ofNat 64 (v % 2 ^ 32)
  | _ => old

/-- Apply one pending write of stream `e` to its core: the value, and its flags (R24, R36). -/
def applyPend (e : Nat) (p : Pend) (k : Core) : Core :=
  let c := clusterOf e
  let d := p.data.setWidth 64
  let k := { k with fflg := k.fflg ||| p.flg }
  match p.tgt with
  | .reg (.a i) => { k with a := k.a.put i.val d }
  | .reg (.m i) => { k with m := k.m.put i.val d }
  | .reg (.w i) => { k with w := k.w.put i.val d }
  | .reg (.s i) =>
    if k.forked then { k with s := k.s.put (32 * c + i.val) d }
    else
      let b01 := (k.s.put i.val d).put (32 + i.val) d
      { k with s := (b01.put (64 + i.val) d).put (96 + i.val) d }
  | .reg (.v i) => { k with v := k.v.put i.val (mergeLanes p.mask (k.v.get 0 i.val) p.data) }
  | .reg (.g i) => { k with g := k.g.put i.val (mergeBits p.mask (k.g.get 0 i.val) d) }
  | .reg _ => k
  | .cond i => k.setStream e { k.stream e with cond := (k.stream e).cond.put i (bit d 0) }
  | .lc i => k.setStream e { k.stream e with lc := (k.stream e).lc.put i (d.setWidth 32) }
  | .rs => k.setStream e { k.stream e with rs := (k.stream e).rs ++ [d.toNat] }
  | .csr n => { k with csr := k.csr.put n (csrStore (k.csr.get 0 n) n d) }
  | .fflgClear => { k with fflg := (k.fflg &&& ~~~(d.setWidth 5)) ||| p.flg }

/-- Insert a pending write in the order of commit: by due slot, then by issue (R36). -/
def insPend (p : Pend) : List Pend → List Pend
  | [] => [p]
  | q :: r => if p.due < q.due then p :: q :: r else q :: insPend p r

/-- The pending writes due by a slot come first: flag clears before the writes that OR flags at the
same boundary (R122). -/
def duePends (slot : Nat) (l : List Pend) : List Pend :=
  (l.filter fun p => decide (p.due ≤ slot) && p.tgt == .fflgClear) ++
  (l.filter fun p => decide (p.due ≤ slot) && p.tgt != .fflgClear)

/-- Commit what is due at the boundary before the next slot of stream `e` (R36). -/
def commitStream (e : Nat) (k : Core) : Core :=
  let t := k.stream e
  let k := k.setStream e { t with pend := t.pend.filter fun p => decide (t.slot < p.due) }
  (duePends t.slot t.pend).foldl (fun k p => applyPend e p k) k

/-- Commit what is due at the boundary where every stream of the core stands: an interruption falls
between slots, and a write saved with it has slots still to pass (R38, R354). (DEDUCED, log 13) -/
def Core.atBoundary (k : Core) : Core := (span 0 7).foldl (fun k e => commitStream e k) k

/-- Commit every pending write of stream `e`, in due order. -/
def flushStream (e : Nat) (k : Core) : Core :=
  let t := k.stream e
  (t.pend).foldl (fun k p => applyPend e p k) (k.setStream e { t with pend := [] })

/-- Every write due is there; otherwise the stream stalls at the boundary (R270). -/
def boundaryReady (t : Stream) : Bool := t.pend.all fun p => decide (t.slot < p.due) || p.ready

/-- The boundary before a slot of the issuing stream. -/
def boundary : Act Unit := fun s =>
  if boundaryReady s.cs then .ok ((), s.modCore (commitStream s.cur.stream)) else stall 9 s

/-- Issue a write with latency L (R36). -/
def addPend (tgt : PTarget) (mask : Mask) (data : VReg) (flg : BitVec 5) (L : Nat) (ready : Bool)
    (src : Option LoadSrc) : Act Unit :=
  changeStream fun t => { t with
    pend := insPend ⟨t.slot + L, t.nseq, tgt, mask, data, flg, ready, src⟩ t.pend
    nseq := t.nseq + 1 }

/-- Issue a write of a scalar register; a write of z is ignored (R22). -/
def writeReg (r : Reg) (x : Dword) (L : Nat) : Act Unit :=
  if r = .sp .z then pure ()
  else addPend (.reg r) (BitVec.allOnes 64) (x.setWidth 2048) 0 L true none

/-! ### Tokens (R32, R33, R198) -/

/-- The previous engine in the ring (R32). -/
def prevE : Engine → Engine
  | .A => .S
  | .X => .A
  | .M => .X
  | .S => .M

/-- The next engine in the ring (R32). -/
def nextE : Engine → Engine
  | .A => .X
  | .X => .M
  | .M => .S
  | .S => .A

/-- The code of the queue from an engine towards its next engine, or its previous one (R199). -/
def tokQ (e : Engine) (toNext : Bool) : Nat := 2 * engineCode e + (if toNext then 0 else 1)

/-- The queue that a take reads: from the previous engine, or from the next one. -/
def takeQ (e : Engine) (prev : Bool) : Nat := if prev then tokQ (prevE e) true else tokQ (nextE e) false

/-- The larger of two clocks (R169). -/
def Clk.max (x y : Clk) : Clk := ⟨Nat.max x.a y.a, Nat.max x.x y.x, Nat.max x.m y.m, Nat.max x.s y.s⟩

/-- The entry of an engine in a clock. -/
def Clk.of (x : Clk) : Engine → Nat
  | .A => x.a
  | .X => x.x
  | .M => x.m
  | .S => x.s

/-- The clock after one more word of the engine. -/
def Clk.tick (x : Clk) : Engine → Clk
  | .A => { x with a := x.a + 1 }
  | .X => { x with x := x.x + 1 }
  | .M => { x with m := x.m + 1 }
  | .S => { x with s := x.s + 1 }

/-- The engine of a stream (R351). -/
def engOf (stream : Nat) : Engine :=
  if stream = 0 then .A else if stream = 2 then .M else if stream = 3 then .S else .X

/-- The ordering clock of what the word at hand gives: it counts the word itself (R169). -/
def State.stamp (s : State) : Clk := s.cs.clock.tick (engOf s.cur.stream)

/-- Join a clock into that of the issuing stream: the other word precedes this one (R169). -/
def joinClock (c : Clk) : Act Unit := changeStream fun t => { t with clock := t.clock.max c }

/-- Tokens of a queue. -/
def Core.tokens (k : Core) (q : Nat) : List Clk := k.tok.get [] q

/-- Take `n` tokens of queue `q`, or wait or fault (R33, R198). -/
def takeN (q n : Nat) : Act Unit := fun s =>
  let l := s.cc.tokens q
  if l.length < n then cannot 0x03 1 s
  else
    let s := s.modCore fun k => { k with tok := k.tok.put q (l.drop n) }
    joinClock ((l.take n).foldl Clk.max .zero) s

/-- Give `n` tokens to queue `q`, or wait or fault (R33, R198). -/
def giveN (q n : Nat) : Act Unit := fun s =>
  let l := s.cc.tokens q
  if 15 < l.length + n then cannot 0x04 1 s
  else .ok ((), s.modCore fun k => { k with tok := k.tok.put q (l ++ List.replicate n s.stamp) })

/-- The token waits of a word (R33), once: TKD records that they have been taken. A cluster above 0
performs no token action (R173). (DEDUCED, log 39) -/
def takeTokens (w : Wrd) : Act Unit := do
  let s ← get
  if s.cs.tkd then pure ()
  else
    let any := w.wp || w.wn || w.sp || w.sn
    raiseIf (any && decide (4 ≤ s.cur.stream)) 0x01
    if w.wp && (s.cc.tokens (takeQ w.eng true)).isEmpty then cannot 0x03 1
    if w.wn && (s.cc.tokens (takeQ w.eng false)).isEmpty then cannot 0x03 1
    if w.wp then takeN (takeQ w.eng true) 1
    if w.wn then takeN (takeQ w.eng false) 1
    changeStream fun t => { t with tkd := true, fpc := some t.pc, yielded := false }

/-! ### Guards (R18, R99, R201) -/

/-- The effective mask of a repetition: on X the lanes of the issuing clusters that the guard
enables; on A, M and S all ones or none. -/
def guardMask (w : Wrd) (s : State) : Mask :=
  if !w.ge then s.laneMask
  else if w.eng = .X then
    let g := s.cc.g.get 0 w.gn.val
    (if w.gi then ~~~g else g) &&& s.laneMask
  else if s.cs.cond.get false w.gn.val != w.gi then BitVec.allOnes 64 else 0

/-- The repetition is guarded off (R18). -/
def guardOff (w : Wrd) (s : State) : Bool := guardMask w s == 0

/-- The scalar result of a word is written (R18, R201): bit 0, or bit 16c of a cluster, of the
effective mask on X. -/
def scalarOn (w : Wrd) (s : State) : Bool :=
  if w.eng = .X then bit (guardMask w s) (16 * s.cluster.getD 0) else !guardOff w s

/-! ### Taking a fault (R342, R344 to R346) -/

/-- The frame of a fault taken by stream `e` of a core (R352). -/
def frameOf (k : Core) (e : Nat) (f : FaultInfo) : Frame :=
  { fcode := f.code, fstr := e, prec := true, fork := k.forked, priv := (k.csrN 0).toNat,
    repn := (k.stream e).repd, aux := f.aux, kind := 0, deferred := k.deferred, ovf := k.reportOvf,
    mfa := f.mfa, mfb := f.mfb, faux0 := f.faux0, faux1 := f.faux1 }

/-- Take a precise fault in the issuing stream: the frame is recorded, the stream's FPC names the
word, and every stream of the core stops (R342). The image is written and the handler started when
the fault is delivered (R346). (DEDUCED, log 6; DEDUCED, log 35) -/
def takeFault (f : FaultInfo) (s : State) : State :=
  s.modCore fun k =>
    let t := k.stream s.cur.stream
    let k := k.setStream s.cur.stream { t with fpc := some t.pc, wait := 0, hold := .none }
    { k with
      frame := some (frameOf k s.cur.stream f), mode := .faulted, faultAt := s.clk.wcyc, back := .running }

/-- Take a fault whose word is complete (R394): FPC names the word, REPD is 1 and PC is the next
word. -/
def takeTrap (f : FaultInfo) (pc : Nat) (s : State) : State :=
  s.modCore fun k =>
    let t := k.stream s.cur.stream
    let fr := { frameOf k s.cur.stream f with repn := 0 }
    let k := k.setStream s.cur.stream { t with fpc := some pc, repd := 1, wait := 0, tkd := true }
    { k with frame := some fr, mode := .faulted, faultAt := s.clk.wcyc, back := .running }

/-- The core runs no iteration: it has halted, or has none (R179, R180). -/
def Mode.resting (m : Mode) : Bool := m == .halted || m == .free

/-- Take an imprecise fault (R343): no stream is named. A core that had halted, or was free, is so again after it.
(DEDUCED, log 36; DEDUCED, log 44) -/
def takeImprecise (c : Nat) (r : Report) (s : State) : State :=
  let k := s.core c
  let fr : Frame :=
    { fcode := r.fcode, fstr := 15, prec := false, fork := k.forked,
      priv := (k.csrN 0).toNat, repn := 0, aux := r.aux, kind := 0, deferred := k.deferred,
      ovf := k.reportOvf, mfa := r.mfa, mfb := r.mfb, faux0 := r.faux0, faux1 := r.faux1 }
  s.setCore c { k with
    frame := some fr, mode := .faulted, faultAt := s.clk.wcyc, back := if k.mode.resting then k.mode else .running }

/-- A report that core `c` has still to take (R343): kept in the order of arrival, the oldest lost beyond
16. (DEDUCED, log 44) -/
def Core.keep (r : Report) (k : Core) : Core :=
  if k.reports.length < 16 then { k with reports := k.reports ++ [r] }
  else { k with reports := k.reports.drop 1 ++ [r], reportOvf := true }

/-- A core that runs no iteration takes the oldest report that it has kept at once: every boundary of it is one
at which no slot issues (R343). (DEDUCED, log 44) -/
def takeKept (c : Nat) (s : State) : State :=
  let k := s.core c
  match k.mode.resting, k.reports with
  | true, r :: rest => takeImprecise c r (s.setCore c { k with reports := rest, tie := false })
  | _, _ => s

/-- The stream stands at a word boundary: it has no word in progress, or waits at one before its first
repetition. -/
def Stream.atWord (t : Stream) : Bool :=
  !t.valid || t.fpc.isNone || (t.wait != 0 && t.repd == 0 && t.prog == 0)

/-- The stream waits inside the core, and the core has not come further since (R171, R353). -/
def Stream.stuck (t : Stream) (moves : Nat) : Bool :=
  t.joinb || (t.valid && decide (1 ≤ t.wait) && decide (t.wait ≤ 6) && t.waitAt == moves)

/-- A mismatch of the agreement logs is taken once every stream of the core stands at a word boundary, or
waits in its word on one that has stopped there (R168). (DEDUCED, log 36) -/
def takeMismatch (c : Nat) (s : State) : State :=
  let k := s.core c
  match k.mismatch with
  | none => s
  | some r =>
    if k.streams.vals.all (fun t => t.atWord || t.stuck k.moves) then takeImprecise c r (s.setCore c { k with mismatch := none })
    else s

/-! ### Text positions -/

/-- The literal words of the text word at an index (R73). -/
def litsAt (c : Code) (pc : Nat) : Nat :=
  match c.text[pc]? with
  | some w => litCount w
  | none => 0

/-- The index after the branch group that holds `pc` (R34); after the word itself when no group
does. -/
def groupEnd (c : Code) (pc : Nat) : Nat :=
  match c.groups.find? (fun g => decide (g.1 ≤ pc) && decide (pc < g.2)) with
  | some g => g.2
  | none => pc + 1 + litsAt c pc

/-- The target that the record of a halt names, as not taken: R34 gives a halt no target, and no other
record that is not taken names one. (DESIGN CHOICE, log 81) -/
def haltTarget : Nat := 0xFFFFFF

/-- Set the pc of the four engines' streams: joint sequencing has one program counter (R11). -/
def Core.setPc (k : Core) (pc : Nat) : Core :=
  [0, 1, 2, 3].foldl (fun k e => k.setStream e { k.stream e with pc := pc }) k

/-- Move past a word of the issuing stream (R39, R166, R173): joint sequencing moves the one program
counter; under slip and timetable the stream moves its own and has the literals still to pass; a
cluster moves its own. -/
def nextWord : Act Unit := fun s =>
  let n := litsAt s.cl.code s.cs.pc
  if s.cluster.isSome then .ok ((), s.modStream fun t => { t with pc := t.pc + 1 + n })
  else match s.seqn s.cur.core with
    | .joint => .ok ((), s.modCore fun k => k.setPc (s.cs.pc + 1 + n))
    | _ => .ok ((), s.modStream fun t =>
        { t with pc := t.pc + 1, progress := t.progress + 1, lit := n })

/-- What a stream waits for after its word: a seal (R400), or its latch (R207). Every other wait ends with
the slot. -/
def Hold.after : Hold → Hold
  | .seal n => .seal n
  | .wfe => .wfe
  | _ => .none

/-- The core has come further. -/
def Core.moved (k : Core) : Core := { k with moves := k.moves + 1 }

/-- The end of a slot: the slot is counted and the repetition done (R35). -/
def endSlot : Act Unit := do
  changeCore Core.moved
  changeStream fun t => { t with
    slot := t.slot + 1, repd := t.repd + 1, prog := 0, opnd := [], wait := 0, hold := t.hold.after, yielded := false }

/-- The end of a word: nothing is in progress, and a Y mark makes a yield point (R360). -/
def endWord (w : Wrd) : Act Unit := do
  changeCore Core.moved
  changeStream fun t => { t with
    fpc := none, repd := 0, prog := 0, tkd := false, yielded := w.y, clock := t.clock.tick w.eng }

/-- A signal cannot be made: the fault is taken after the word's repetitions, which stand (R33).
(DEDUCED, log 17) -/
def signalFull : Act Unit := fun s =>
  match s.seqn s.cur.core with
  | .joint => raise { code := 0x04, keep := true } s
  | .slip => stall 1 s
  | .timed => raise { code := 0x0D, keep := true } s

/-- The signals of a word, after its repetitions (R33, R84). (DEDUCED, log 108) -/
def giveTokens (w : Wrd) : Act Unit := do
  let s ← get
  let full (q : Nat) : Bool := decide (15 ≤ (s.cc.tokens q).length)
  if (w.sp && full (tokQ w.eng false)) || (w.sn && full (tokQ w.eng true)) then signalFull
  if w.sp then giveN (tokQ w.eng false) 1
  if w.sn then giveN (tokQ w.eng true) 1

/-- The slot at hand has begun with no unit and no wait of its own: a wait on a latch that has ended is that
of an earlier word. -/
def Hold.fresh : Hold → Bool
  | .none => true
  | .woken _ _ => true
  | _ => false

/-- The base register of a memory word, as committed before its first slot (R37, R269). -/
def latchBase (w : Wrd) : Act Unit := fun s =>
  if s.cs.repd = 0 ∧ s.cs.prog = 0 ∧ s.cs.hold.fresh then
    .ok ((), s.modStream fun t => { t with base := regVal s w.sa })
  else .ok ((), s)

/-- The operands of a slot that waits for units, or for a release half of its own, as they stand when it begins
(R37): the slot sees no write of a special register committed since (R452). -/
def slotOpnds (l : List Reg) : Act (List Dword) := fun s =>
  if s.cs.prog = 0 ∧ s.cs.hold.fresh then
    let v := l.map (regVal s)
    .ok (v, s.modStream fun t => { t with opnd := v })
  else .ok (s.cs.opnd, s)

/-- Operand `i` of a slot. -/
def opndAt (l : List Dword) (i : Nat) : Nat := ((l[i]?).getD 0).toNat

/-- One slot of a word: the boundary, the token waits, one repetition, and after the last one the
signals and `fin`, which moves the program counter (R39, R83, R84). A word whose repetitions are all
done has only its signals to make. (DEDUCED, log 8) -/
def slot (w : Wrd) (body fin : Act Unit) : Act Unit := do
  boundary
  takeTokens w
  let s ← get
  if s.cs.repd ≤ w.rep.toNat then do
    body
    endSlot
  let s ← get
  if w.rep.toNat < s.cs.repd then do
    giveTokens w
    fin
    endWord w

/-- One slot of a word with an invalid-patch check of its own, which comes before the token waits and
has no effect (R83). -/
def checkedSlot (w : Wrd) (bad : State → Bool) (body fin : Act Unit) : Act Unit := fun s =>
  if bad s then raiseCode 0x01 s else slot w body fin s

/-- What becomes of the state when a word does not complete: a wait is recorded, a fault is taken
with no effect of the word beyond the repetitions and units done (R83, R342).
(DEDUCED, log 8; DEDUCED, log 35) -/
def stopped (s : State) : Stop → State
  | .stall code t => t.modStream fun x => { x with wait := code, waitAt := t.cc.moves }
  | .fault f t => takeFault f (if f.keep then t else { s with draws := t.draws })

/-- Run a part of a word and answer the state that it leaves. -/
def settle (a : Act Unit) (s : State) : State :=
  match a s with
  | .ok (_, t) => t
  | .error e => stopped s e

/-- A stream that is held issues nothing (R207, R324, R386, R400, R462). -/
def Stream.held (t : Stream) : Bool :=
  match t.hold with
  | .latch => true
  | .cycle _ _ => true
  | .seal _ => true
  | .irrv _ _ _ _ => true
  | _ => false

/-! ### Yield points (R360, R362, R380) -/

/-- A seal is in its steps 1 to 4 (R380). -/
def sealing (s : State) : Bool :=
  match s.recov.phase with
  | .quiesce _ _ => true
  | _ => false

/-- The stream stands at a yield point (R360), or issues no further word. -/
def Stream.atYield (t : Stream) : Bool :=
  !t.valid || t.yielded || t.joinb || [5, 6, 7, 9, 10].any (· == t.wait)

/-- The stream stops for a request: at a yield point, or for a seal at any wait (R362, R380). -/
def Stream.parked (forSeal : Bool) (t : Stream) : Bool := t.atYield || (forSeal && t.wait != 0)

/-- The wait of the word at the one program counter holds up every stream of a joint core: a wait at
which a request stops (R360, R380). -/
def Stream.holdsUp (forSeal : Bool) (t : Stream) : Bool :=
  if forSeal then t.wait != 0 && !([5, 6, 10].any (· == t.wait)) else t.wait == 7 || t.wait == 9

/-- The numbers of the streams in use (R351). -/
def Core.inUse (k : Core) : List Nat := if k.forked then span 0 7 else span 0 4

/-- Every stream of core `c` stands where a request stops it. -/
def State.quiet (s : State) (c : Nat) (forSeal : Bool) : Bool :=
  let k := s.core c
  let ts := k.inUse.map k.stream
  ts.all (·.parked forSeal) || (s.seqn c == .joint && ts.any (·.holdsUp forSeal))

/-- A request stops the issuing stream: a pre-emption or a seal (R362, R380). Joint sequencing has one
program counter, so its streams stop together; a timetabled core stops for a seal at once. -/
def State.stoppedFor (s : State) (forSeal : Bool) : Bool :=
  match s.seqn s.cur.core with
  | .joint => s.quiet s.cur.core forSeal
  | .slip => s.cs.parked forSeal
  | .timed => forSeal

/-- A request stops the issuing stream now. -/
def State.stopAsked (s : State) : Bool :=
  (s.cc.preempt.isSome && s.stoppedFor false) || (sealing s && s.stoppedFor true)

/-- The issuing stream may issue: its core runs, and it is neither held, ended nor stopped. -/
def State.canIssue (s : State) : Bool :=
  decide (s.cc.mode = .running) && s.cs.valid && s.cs.wait != 6 && s.cs.wait != 10 && !s.cs.joinb &&
  !s.cs.held && !s.stopAsked

/-- A word issues on the issuing stream, if it may; a package out of service runs nothing.
(DEDUCED, log 10) -/
def issueWord (a : Act Unit) (s : State) : Host.Outcome State Fault Refusal :=
  if s.power ≠ .on then .fault .outOfService
  else .next (if s.canIssue then settle a s else s)

/-- An agent's step changes the state; a package out of service runs nothing.
(DEDUCED, log 9; DEDUCED, log 10) -/
def agentStep (f : State → State) (s : State) : Host.Outcome State Fault Refusal :=
  if s.power ≠ .on then .fault .outOfService else .next (f s)

/-- An ordinary word with an invalid-patch check of its own (R83). -/
def checkedWord (w : Wrd) (bad : State → Bool) (body : Act Unit) (s : State) :
    Host.Outcome State Fault Refusal :=
  issueWord (checkedSlot w bad body nextWord) s

/-- An ordinary word: one repetition each slot, then the next word. -/
def word (w : Wrd) (body : Act Unit) (s : State) : Host.Outcome State Fault Refusal :=
  issueWord (slot w body nextWord) s

end Sys2Proof.Machine
end

