-- ==== Sys2Proof/Machine/Operands.lean ====
section
/-!
DEFINITION. Operand forms: data queues (R28 to R31, R173), elements of vectors (R16, R98, R100), the
integer second operand (R103), and the destinations of X words (R97, R99).
-/

namespace Sys2Proof.Machine

open Sys2Proof

/-! ### Data queues -/

/-- Load queue `q` of a core. -/
def Core.loadQ (k : Core) (q : Nat) : Queue := k.lq.get .init q

/-- Store queue `q` of a core. -/
def Core.storeQ (k : Core) (q : Nat) : Queue := k.sq.get .init q

/-- The entry that the issuing clusters would pop next: the head, or for a cluster the first entry
whose slice it has not popped (R173). -/
def headOf (cl : Option Nat) (q : Queue) : Option QEntry :=
  match cl with
  | none => q.entries.head?
  | some c => q.entries.find? fun e => !bit e.slices c

/-- Entries whose four slices have been popped are freed (R173). -/
def dropPopped : List QEntry → List QEntry
  | [] => []
  | e :: r => if e.slices == 15 then dropPopped r else e :: r

/-- Mark the slice of cluster `c` popped in the first entry that has it. -/
def popSlice (c : Nat) : List QEntry → List QEntry
  | [] => []
  | e :: r =>
    if bit e.slices c then e :: popSlice c r
    else { e with slices := e.slices ||| BitVec.ofNat 4 (1 <<< c) } :: r

/-- The queue after a pop. -/
def popped (cl : Option Nat) (q : Queue) : Queue :=
  match cl with
  | none => ⟨q.entries.drop 1⟩
  | some c => ⟨dropPopped (popSlice c q.entries)⟩

/-- The head of load queue `q`: it must be allocated, and valid when its data is read (R31). -/
def lqHead (q : Nat) (read : Bool) : Act QEntry := fun s =>
  match headOf s.cluster (s.cc.loadQ q) with
  | none => cannot 0x05 2 s
  | some e => if read && !e.valid then stall 2 s else .ok (e, s)

/-- Pop load queue `q` (R30). -/
def popLq (q : Nat) : Act Unit := do
  let e ← lqHead q false
  let s ← get
  changeCore fun k => { k with lq := k.lq.put q (popped s.cluster (k.loadQ q)) }
  joinClock e.clock

/-- Room for one more entry in a queue of this length (R29, R31). -/
def needRoom (len : Nat) : Act Unit := if 16 ≤ len then cannot 0x06 2 else pure ()

/-- Allocate an entry at the tail of load queue `q`, with its data or the source of its data (R271). -/
def pushLq (q : Nat) (data : VReg) (valid : Bool) (src : Option LoadSrc) : Act Unit := do
  let s ← get
  needRoom (s.cc.loadQ q).entries.length
  changeCore fun k => { k with
    lq := k.lq.put q ⟨(k.loadQ q).entries ++ [⟨k.nextId, data, valid, 0, src, s.stamp⟩]⟩
    nextId := k.nextId + 1 }

/-- The lanes of cluster `c` as a 64-lane mask. -/
def clusterLanes (c : Nat) : Mask := BitVec.ofNat 64 (0xFFFF <<< (16 * c))

/-- Write slice `c` into the first entry that lacks it (R173). -/
def fillSlice (c : Nat) (data : VReg) : List QEntry → Option (List QEntry)
  | [] => none
  | e :: r =>
    if bit e.slices c then (fillSlice c data r).map (e :: ·)
    else
      let sl := e.slices ||| BitVec.ofNat 4 (1 <<< c)
      some ({ e with data := mergeLanes (clusterLanes c) e.data data, slices := sl,
                     valid := sl == 15 } :: r)

/-- An X word allocates an entry of store queue `q` (R30); a cluster writes its slice of its own next
entry (R173). The data of a joined word exists when QUEUE_ENTRY_VALID says so (R29). -/
def pushSq (q : Nat) (data : VReg) : Act Unit := do
  let s ← get
  let l := (s.cc.storeQ q).entries
  match s.cluster with
  | none => do
    needRoom l.length
    changeCore fun k => { k with
      sq := k.sq.put q ⟨l ++ [⟨k.nextId, data, false, 15, none, s.stamp⟩]⟩
      nextId := k.nextId + 1 }
  | some c =>
    match fillSlice c data l with
    | some l' => changeCore fun k => { k with sq := k.sq.put q ⟨l'⟩ }
    | none => do
      needRoom l.length
      let d := mergeLanes (clusterLanes c) 0 data
      changeCore fun k => { k with
        sq := k.sq.put q ⟨l ++ [⟨k.nextId, d, false, BitVec.ofNat 4 (1 <<< c), none, s.stamp⟩]⟩
        nextId := k.nextId + 1 }

/-- The head of store queue `q`, which must be allocated and valid (R31, R273). -/
def sqHead (q : Nat) : Act QEntry := fun s =>
  match (s.cc.storeQ q).entries.head? with
  | none => cannot 0x05 2 s
  | some e => if e.valid then .ok (e, s) else stall 2 s

/-- Pop store queue `q` (R273). -/
def popSq (q : Nat) : Act QEntry := do
  let e ← sqHead q
  changeCore fun k => { k with sq := k.sq.put q ⟨(k.storeQ q).entries.drop 1⟩ }
  joinClock e.clock
  pure e

/-! ### X operands -/

/-- Sum of 2^(32 i) for i below 64: a lane value times this is its broadcast. -/
def unit32 : Nat := (2 ^ 2048 - 1) / (2 ^ 32 - 1)

/-- Sum of 2^(64 i) for i below 32. -/
def unit64 : Nat := (2 ^ 2048 - 1) / (2 ^ 64 - 1)

/-- A scalar value in every element (R98). -/
def broadcast (wide : Bool) (x : Nat) : VReg :=
  if wide then BitVec.ofNat 2048 (x % 2 ^ 64 * unit64) else BitVec.ofNat 2048 (x % 2 ^ 32 * unit32)

/-- Element k of a vector: a lane, or a lane pair (R16). -/
def elem (wide : Bool) (v : VReg) (k : Nat) : Nat :=
  if wide then bits v (64 * k + 63) (64 * k) else bits v (32 * k + 31) (32 * k)

/-- The number of elements. -/
def elemCount (wide : Bool) : Nat := if wide then 32 else 64

/-- Pack elements into a vector. -/
def packElems (wide : Bool) (f : Nat → Nat) : VReg :=
  let n := if wide then 64 else 32
  BitVec.ofNat 2048 ((span 0 (elemCount wide)).foldl (fun acc k => acc + (f k % 2 ^ n) <<< (n * k)) 0)

/-- Element k is enabled: lane k, or the even lane of pair k (R17). -/
def elemOn (wide : Bool) (m : Mask) (k : Nat) : Bool := bit m (if wide then 2 * k else k)

/-- The lanes that the enabled elements cover. -/
def elemLanes (wide : Bool) (m : Mask) : Mask :=
  if wide then
    let e := m &&& BitVec.ofNat 64 0x5555555555555555
    e ||| (e <<< 1)
  else m

/-- The lane that governs element k. -/
def laneOf (wide : Bool) (k : Nat) : Nat := if wide then 2 * k else k

/-- The lanes of element k, as bits: one, or both of a pair (R16). -/
def lanesOf (wide : Bool) (k : Nat) : Nat := if wide then 3 <<< (2 * k) else 1 <<< k

/-- Read a source of an X word: a vector as it stands, a scalar broadcast in a vector word.
(DESIGN CHOICE, log 102) -/
def xSrc (w : Wrd) (wide : Bool) (r : Reg) : Act VReg := do
  let s ← get
  match r with
  | .v i => pure (s.cc.v.get 0 i.val)
  | .lq i => do let e ← lqHead i.val true; pure e.data
  | .lk i => do let e ← lqHead i.val true; pure e.data
  | r =>
    if isVector w then pure (broadcast wide (regVal s r).toNat)
    else pure ((regVal s r).setWidth 2048)

/-- The load queue that a used source pops, added to a list. -/
def addLq (b : Bool) (r : Reg) (l : List Nat) : List Nat :=
  match r with
  | .lq i => if b then insertN i.val l else l
  | _ => l

/-- The load queues that a word pops, each once (R30). -/
def lqsOf (w : Wrd) (u : Uses) : List Nat := addLq u.sa w.sa (addLq u.sb w.sb (addLq u.sc w.sc []))

/-- Pop every load queue that the word names (R30, R85). -/
def popNamed : List Nat → Act Unit
  | [] => pure ()
  | q :: r => do popLq q; popNamed r

/-- The check of one source: a queue that it pops or peeks has a head. -/
def srcCheck (read b : Bool) (r : Reg) : Act Unit :=
  match r with
  | .lq i => if b then do let _ ← lqHead i.val read; pure () else pure ()
  | .lk i => if b && read then do let _ ← lqHead i.val read; pure () else pure ()
  | _ => pure ()

/-- Every queue that the word pops or peeks has a head, and its store queue has room; nothing is
changed (R31). -/
def queueCheck (w : Wrd) (u : Uses) (read : Bool) : Act Unit := do
  srcCheck read u.sa w.sa
  srcCheck read u.sb w.sb
  srcCheck read u.sc w.sc
  match w.dst with
  | .sq i => do
    let s ← get
    let l := (s.cc.storeQ i.val).entries
    match s.cluster with
    | none => needRoom l.length
    | some c => if (fillSlice c 0 l).isSome then pure () else needRoom l.length
  | _ => pure ()

/-- What a guarded-off repetition of an X word still does (R85): the pops, and an sq entry of zeros. -/
def guardedOffX (w : Wrd) (u : Uses) : Act Unit := do
  queueCheck w u true
  popNamed (lqsOf w u)
  match w.dst with
  | .sq i => pushSq i.val 0
  | _ => pure ()

/-- Write the vector result of a word (R97, R99): lanes that are off keep their value in a v
register and hold zero in an sq entry (R85). -/
def putVec (w : Wrd) (wide : Bool) (v : VReg) (flg : BitVec 5) (L : Nat) : Act Unit := do
  let s ← get
  let m := elemLanes wide (guardMask w s)
  match w.dst with
  | .v _ => addPend (.reg w.dst) m v flg L true none
  | .sq i => do
    pushSq i.val (mergeLanes m 0 v)
    if flg ≠ 0 then addPend (.reg w.dst) m 0 flg L true none
  | _ => if flg ≠ 0 then addPend (.reg (.sp .z)) m 0 flg L true none else pure ()

/-- Write the scalar result of an X word (R18, R97, R201). (DESIGN CHOICE, log 114) -/
def putScalar (w : Wrd) (x : Nat) (flg : BitVec 5) (L : Nat) : Act Unit := do
  let s ← get
  let m : Mask := s.laneMask
  let d : VReg := BitVec.ofNat 2048 (x % 2 ^ 64)
  if scalarOn w s then addPend (.reg w.dst) m d flg L true none else pure ()

/-- Write the result of a compare on X (R107, R113): bits of a g register, or 1 or 0 in an s
register. `v` has the result of element k in bit k. -/
def putCmp (w : Wrd) (wide : Bool) (v : Nat) (flg : BitVec 5) (L : Nat) : Act Unit := do
  let s ← get
  if isVector w then
    let m := elemLanes wide (guardMask w s)
    let d := (span 0 (elemCount wide)).foldl (fun acc k =>
      if v.testBit k then acc + (if wide then 3 <<< (2 * k) else 1 <<< k) else acc) 0
    addPend (.reg w.dst) m (BitVec.ofNat 2048 d) flg L true none
  else if isG w.dst then
    putScalar w (if v.testBit 0 then 2 ^ 64 - 1 else 0) flg L
  else putScalar w (v % 2) flg L

/-- The value of a source: 0 when the word does not use it. -/
def srcRead (w : Wrd) (wide b : Bool) (r : Reg) : Act VReg := if b then xSrc w wide r else pure 0

/-- A repetition of an X word: guarded off, or the queue checks, `body` on the three sources, and the
pops. The body's writes are issued after the pops. -/
def xRep (w : Wrd) (u : Uses) (wide : Bool) (body : VReg → VReg → VReg → Act Unit) : Act Unit := do
  let s ← get
  if guardOff w s then guardedOffX w u
  else do
    queueCheck w u true
    let a ← srcRead w wide u.sa w.sa
    let b ← srcRead w wide u.sb w.sb
    let c ← srcRead w wide u.sc w.sc
    popNamed (lqsOf w u)
    body a b c

end Sys2Proof.Machine
end

