-- ==== Sys2Proof/Machine/Control.lean ====
section
/-!
DEFINITION. Control flow, branch groups, the end of an iteration, and the flag and control registers
(R21, R25, R34, R122, R123, R127 to R132, R168, R180, R204).
-/

namespace Sys2Proof.Machine

open Sys2Proof

/-! ### Decisions (R34, R127, R168, R172) -/

/-- The index after the branch group of the word at hand; after the word itself in a fork region
(R172). -/
def afterGroup (s : State) : Nat :=
  if s.cluster.isSome then s.cs.pc + 1 + litsAt s.cl.code s.cs.pc
  else groupEnd s.cl.code s.cs.pc

/-- A decision: to the target when there is one, else to go on (R34). -/
def Decision.of : Option Nat → Decision
  | none => .fall
  | some t => .goto t

/-- Record a decision (R34). Under slip and in a fork region it is the stream's own. -/
def decideAs (d : Decision) : Act Unit := fun s =>
  if s.cluster.isNone && s.seqn s.cur.core == .joint then
    .ok ((), s.modCore fun k => { k with group := k.group ++ [some d] })
  else .ok ((), s.modStream fun t => { t with dec := some (d, afterGroup s) })

/-- Record a decision: taken to a target, or not taken (R34). -/
def decide' (d : Option Nat) : Act Unit := decideAs (.of d)

/-- Every pending write of the core's streams has its data (R34, R180). -/
def Core.pendReady (k : Core) : Bool := k.streams.vals.all fun t => t.pend.all (·.ready)

/-- Commit every pending write of the core, stream by stream in due order (R34, R180). -/
def Core.commitAll (k : Core) : Core := k.streams.keys.foldl (fun k e => flushStream e k) k

/-- Core `c` holds no lease and asks for none; a turn that it holds ends (R139, R154, R183). -/
def dropLease (c : Nat) (s : State) : State :=
  let k := s.core c
  let s := s.setCore c { k with lease := none, leaseWant := none }
  let off (s : State) (b : Nat) : State :=
    let x := s.bed b
    s.setBed b { x with
      turn := if x.turn = some c then none else x.turn
      waiting := x.waiting.filter (· != c) }
  if k.lease.isNone then s
  else off (off s (s.bedOf c)) (s.bedOf c ^^^ 1)

/-- What an ended run leaves: pending writes committed, leases given up, unpopped entries, tokens and
outcome bits discarded (R34, R180). -/
def clearRun (c : Nat) (mode : Mode) (s : State) : State :=
  let k := (s.core c).commitAll
  let k := { k with
    mode := mode, lq := .empty, sq := .empty, tok := .empty, obAX := [], obXA := [], group := [],
    agreed := 0, fork := none
    streams := k.streams.mapVals fun _ t => { t with
      pend := [], log := [], dec := none, lit := 0, fpc := none, hold := .none, tkd := false } }
  dropLease c (s.setCore c k)

/-- The run of core `c` has ended: its iteration counts as ended (R180, R187). -/
def endRun (c : Nat) (mode : Mode) (s : State) : State :=
  let s := clearRun c mode s
  let l := (s.core c).launch
  s.setLaunch l { s.launch l with ended := (s.launch l).ended + 1 }

/-- The core stops: the halt of all its engines (R34, R180). -/
def haltCore : Act Unit := change fun s => endRun s.cur.core .halted s

/-- The iteration of the core ends: it becomes free in raked mode and has run in timetabled mode
(R180, R204). -/
def endIteration : Act Unit :=
  change fun s => endRun s.cur.core (if s.cl.nest.tt then .halted else .free) s

/-- A word that may end the run waits for the data of pending loads (R34, R180, R270). -/
def needPends : Act Unit := fun s => if s.cc.pendReady then .ok ((), s) else stall 9 s

/-- Resolve the branch group once four words have passed (R34, R204). (DEDUCED, log 15) -/
def resolveGroup : Act Unit := do
  let s ← get
  if s.cc.group.length < 4 then nextWord
  else
    match s.cc.group.filterMap id with
    | [] => nextWord
    | d :: r =>
      if r.all (· == d) then
        let after := groupEnd s.cl.code s.cs.pc
        match d with
        | .fall => changeCore fun k => { k.setPc after with group := [] }
        | .halt => haltCore
        | .goto t => changeCore fun k => { k.setPc t with group := [] }
      else raise { code := 0x0B, keep := true }

/-- The engines' streams that have not ended their part of the iteration (R204). -/
def Core.liveStreams (k : Core) : List Nat :=
  (span 0 4).filter fun e => (k.stream e).wait != 6

/-- The four progress positions of a disagreement, 16 bits each (R352). -/
def logPositions (k : Core) : Dword :=
  BitVec.ofNat 64 ((span 0 4).foldl (fun acc e =>
    acc + ((((k.stream e).log.head?).map (·.pos)).getD 0 % 65536) <<< (16 * e)) 0)

/-- Compare the oldest records of the agreement logs while every engine that has not ended has one
(R168, R204). -/
def compareLogs : Nat → State → State
  | 0, s => s
  | n + 1, s =>
    let k := s.cc
    let live := k.liveStreams
    let heads := live.map fun e => (k.stream e).log.head?
    if live.isEmpty || heads.any (·.isNone) then s
    else
      let hs := heads.filterMap id
      let key (r : LogRec) : Bool × Nat := (r.taken, r.target)
      let same := match hs with
        | [] => true
        | h :: r => r.all fun x => key x == key h
      if same then
        let k := live.foldl (fun k e =>
          k.setStream e { k.stream e with log := (k.stream e).log.drop 1 }) k
        compareLogs n (s.modCore fun _ => { k with agreed := k.agreed + 1 })
      else
        takeMismatch s.cur.core (s.modCore fun k => { k with
          mismatch := some ⟨0x0B, 0, BitVec.ofNat 64 k.agreed, logPositions k, 0, 0⟩ })

/-- The record of a decision at a progress position (R168). -/
def Decision.record (pos : Nat) : Decision → LogRec
  | .fall => ⟨pos, false, 0⟩
  | .halt => ⟨pos, false, haltTarget⟩
  | .goto t => ⟨pos, true, t⟩

/-- The end of a control word (R34, R166, R168, R172). A `halt` of a cluster stands in no group of four, and
takes the branch-disagreement fault (R132). -/
def finControl : Act Unit := do
  let s ← get
  if s.cluster.isSome then
    match s.cs.dec with
    | some (.goto p, _) => changeStream fun t => { t with pc := p, dec := none }
    | some (.halt, _) => do
      changeStream fun t => { t with dec := none }
      raise { code := 0x0B, keep := true }
    | some (.fall, after) => changeStream fun t => { t with pc := after, dec := none }
    | none => nextWord
  else if s.seqn s.cur.core == .joint then resolveGroup
  else do
    let d := (s.cs.dec.map (·.1)).getD .fall
    changeStream fun t => { t with log := t.log ++ [d.record t.progress] }
    nextWord

/-- Compare the logs after a control word has been counted (R168). -/
def compareAfter : Act Unit := do
  let s ← get
  if s.cluster.isNone && s.seqn s.cur.core != .joint then change (compareLogs 64)

/-- A control word: its decision and effects happen in its one slot (R127). -/
def controlWord (w : Wrd) (body : Act Unit) (s : State) : Host.Outcome State Fault Refusal :=
  issueWord (do slot w body finControl; compareAfter) s

/-- The target of a word: IMM[23:0] (R127). -/
def target (w : Wrd) : Nat := bits w.imm 23 0

/-- A scalar control word is guarded off (R18, R99). -/
def wordOff (w : Wrd) (s : State) : Bool := !scalarOn w s

/-- BR (R127). -/
def execBr (w : Wrd) (s : State) : Host.Outcome State Fault Refusal :=
  controlWord w (do
    let s ← get
    decide' (if wordOff w s then none else some (target w))) s

/-- The compare of `brc`: width and kind by MOD[7:5], condition by MOD[2:0] (R107, R127). -/
def brcHolds (w : Wrd) (s : State) : Bool :=
  let c := bits w.mod 7 6
  let n := if c = 0 then 64 else if c = 1 then 32 else if c = 2 then 16 else 8
  let val (r : Reg) : Int :=
    let x := (regVal s r).toNat
    if bit w.mod 5 then ((x % 2 ^ n : Nat) : Int) else toSigned n x
  let x := val w.sa
  let y := val w.sb
  match bits w.mod 2 0 with
  | 0 => decide (x = y)
  | 1 => decide (x ≠ y)
  | 2 => decide (x < y)
  | 3 => decide (x ≤ y)
  | 4 => decide (y < x)
  | _ => decide (y ≤ x)

/-- BRC (R127). -/
def execBrc (w : Wrd) (s : State) : Host.Outcome State Fault Refusal :=
  controlWord w (do
    let s ← get
    decide' (if wordOff w s then none else if brcHolds w s then some (target w) else none)) s

/-- JMPI (R127, R128): the target is looked at when control reaches it. -/
def execJmpi (w : Wrd) (s : State) : Host.Outcome State Fault Refusal :=
  controlWord w (do
    let s ← get
    decide' (if wordOff w s then none else some (regVal s w.sa).toNat)) s

/-- CALL (R21, R127, R129). -/
def execCall (w : Wrd) (s : State) : Host.Outcome State Fault Refusal :=
  controlWord w (do
    let s ← get
    if wordOff w s then decide' none
    else do
      raiseIf (decide (8 ≤ s.cs.rs.length)) 0x09
      addPend .rs (BitVec.allOnes 64) (BitVec.ofNat 2048 (afterGroup s)) 0 1 true none
      decide' (some (target w))) s

/-- RET (R21, R127, R129): the entry popped is the one pushed last. -/
def execRet (w : Wrd) (s : State) : Host.Outcome State Fault Refusal :=
  controlWord w (do
    let s ← get
    if wordOff w s then decide' none
    else
      match s.cs.rs.getLast? with
      | none => raiseCode 0x0A
      | some t => do
        changeStream fun x => { x with rs := x.rs.dropLast }
        decide' (some t)) s

/-- LOOP (R130): the count form. -/
def execLoop (w : Wrd) (s : State) : Host.Outcome State Fault Refusal :=
  controlWord w (do
    let s ← get
    if wordOff w s then decide' none
    else do
      let n := bits w.mod 1 0
      let v : Word := s.cs.lc.get 0 n - 1
      addPend (.lc n) (BitVec.allOnes 64) (v.setWidth 2048) 0 1 true none
      decide' (if v = 0 then none else some (target w))) s

/-- LOOP_INIT (R130): the init form. -/
def execLoopInit (w : Wrd) (s : State) : Host.Outcome State Fault Refusal :=
  controlWord w (do
    let s ← get
    if wordOff w s then decide' none
    else do
      let n := bits w.mod 1 0
      let v : Word := if isZ w.sa then w.off.setWidth 32 else (regVal s w.sa).setWidth 32
      addPend (.lc n) (BitVec.allOnes 64) (v.setWidth 2048) 0 1 true none
      decide' (if v = 0 then some (target w) else none)) s

/-- BRQ (R131): X pops the A → X queue, A pops the X → A queue; guarded off it pops and records not
taken. Clusters 1 to 3 take the invalid-patch fault (R173). -/
def execBrq (w : Wrd) (s : State) : Host.Outcome State Fault Refusal :=
  controlWord w (do
    let s ← get
    raiseIf (decide (4 ≤ s.cur.stream)) 0x01
    match (if w.eng = .X then s.cc.obAX else s.cc.obXA) with
    | [] => cannot 0x07 3
    | (b, c) :: r => do
      changeCore fun k => if w.eng = .X then { k with obAX := r } else { k with obXA := r }
      joinClock c
      decide' (if !wordOff w s && b then some (target w) else none)) s

/-- OBSEND (R131): A pushes into the A → X queue, X into the X → A queue; guarded off it pushes 0.
Clusters 1 to 3 take the invalid-patch fault (R173). -/
def execObsend (w : Wrd) (s : State) : Host.Outcome State Fault Refusal :=
  word w (do
    let s ← get
    raiseIf (decide (4 ≤ s.cur.stream)) 0x01
    let l := if w.eng = .X then s.cc.obXA else s.cc.obAX
    if 16 ≤ l.length then cannot 0x08 3
    else
      let e := [(!wordOff w s && regVal s w.sa != 0, s.stamp)]
      changeCore fun k =>
        if w.eng = .X then { k with obXA := k.obXA ++ e } else { k with obAX := k.obAX ++ e }) s

/-- NOP (R132). (DEDUCED, log 42) -/
def execNop (w : Wrd) (s : State) : Host.Outcome State Fault Refusal := word w (pure ()) s

/-- HALT (R34, R132, R154): leases are freed before the group resolves. -/
def execHalt (w : Wrd) (s : State) : Host.Outcome State Fault Refusal :=
  controlWord w (do
    let s ← get
    if wordOff w s then decide' none
    else do
      needPends
      change (dropLease s.cur.core)
      decideAs .halt) s

/-! ### Control registers and flags (R25, R122, R123) -/

/-- Numbers of the core's own control registers (R25). -/
def csrList : List Nat :=
  [0x000, 0x001, 0x002, 0x010, 0x011, 0x012, 0x013, 0x014, 0x020, 0x021, 0x030, 0x040, 0x100, 0x101,
    0x102, 0x103, 0x104]

/-- The number is assigned (R25). -/
def csrKnown (n : Nat) : Bool := csrList.any (· == n)

/-- A user program may write the register (R25). -/
def csrUser (n : Nat) : Bool :=
  [0x010, 0x011, 0x012, 0x013, 0x020, 0x030, 0x100, 0x101, 0x102, 0x103].any (· == n)

/-- The registers that no `csrw` writes: WIN, WCYC and RSD (R25). -/
def csrFixed (n : Nat) : Bool := [0x001, 0x040, 0x104].any (· == n)

/-- The value that `csrr` reads (R25, R123). -/
def csrRead (s : State) (n : Nat) : Dword :=
  if n = 0x040 then BitVec.ofNat 64 s.clk.wcyc
  else if n = 0x104 then BitVec.ofNat 64 s.cs.rs.length
  else if 0x100 ≤ n ∧ n ≤ 0x103 then (s.cs.lc.get 0 (n - 0x100)).setWidth 64
  else s.cc.csrN n

/-- CSRR (R123). -/
def execCsrr (w : Wrd) (s : State) : Host.Outcome State Fault Refusal :=
  word w (do
    let s ← get
    if wordOff w s then pure ()
    else do
      let n := bits w.imm 11 0
      raiseIf (!csrKnown n) 0x0F
      writeReg w.dst (csrRead s n) 1) s

/-- CSRW (R25, R123): the privilege checks, then the write at latency 1; a value out of range is
ignored when the write commits. -/
def execCsrw (w : Wrd) (s : State) : Host.Outcome State Fault Refusal :=
  word w (do
    let s ← get
    if wordOff w s then pure ()
    else do
      let n := bits w.imm 11 0
      raiseIf (!csrKnown n) 0x0F
      raiseIf (s.cc.csrN 0 == 0 && !csrUser n) 0x0E
      if csrFixed n then pure ()
      else
        let tgt := if 0x100 ≤ n then PTarget.lc (n - 0x100) else PTarget.csr n
        addPend tgt (BitVec.allOnes 64) ((regVal s w.sa).setWidth 2048) 0 1 true none) s

/-- FLGR (R122): the clear is committed at the boundary after the slot. -/
def execFlgr (w : Wrd) (s : State) : Host.Outcome State Fault Refusal :=
  word w (do
    let s ← get
    if wordOff w s then pure ()
    else do
      writeReg w.dst (s.cc.fflg.setWidth 64) 1
      addPend .fflgClear (BitVec.allOnes 64) (BitVec.ofNat 2048 (bits w.imm 4 0)) 0 1 true none) s

end Sys2Proof.Machine
end

