-- ==== Sys2Proof/Machine/Memory.lean ====
section
/-!
DEFINITION. The levels of memory and phase consistency: published values, translation, places, the
control blocks of rings and streams, loads, stores and read-modify-writes, boundaries and fences
(R211 to R264, R384, R385, R413, R414).
-/

namespace Sys2Proof.Machine

open Sys2Proof

/-! ### Bytes by address -/

/-- The byte at an address: 0 when none is listed. (DEDUCED, log 76) -/
def memGet : Memory → Nat → Byte
  | [], _ => 0
  | (j, x) :: r, a => if j = a then x else memGet r a

/-- Write one byte; a zero is not listed. (DEDUCED, log 76) -/
def memPut : Memory → Nat → Byte → Memory
  | [], a, b => if b = 0 then [] else [(a, b)]
  | (j, x) :: r, a, b =>
    if a < j then (if b = 0 then (j, x) :: r else (a, b) :: (j, x) :: r)
    else if a = j then (if b = 0 then r else (a, b) :: r)
    else (j, x) :: memPut r a b

/-- Every listed address is above `lo` and in rising order, and no listed byte is zero. -/
def memWfFrom : Nat → Memory → Bool
  | _, [] => true
  | lo, (j, x) :: r => decide (lo ≤ j) && x != 0 && memWfFrom (j + 1) r

/-- The canonical form of a memory: strictly rising addresses and no entry equal to 0.
(DEDUCED, log 76) -/
def Memory.wf (m : Memory) : Bool := memWfFrom 0 m

/-- `n` bytes from an address up. -/
def memRead (m : Memory) (a n : Nat) : List Byte := (span a n).map (memGet m)

/-- Write bytes from an address up. -/
def memWrite : Memory → Nat → List Byte → Memory
  | m, _, [] => m
  | m, a, b :: r => memWrite (memPut m a b) (a + 1) r

/-- The little-endian number in `n` bytes. -/
def memNat (m : Memory) (a n : Nat) : Nat := ofBytes (memRead m a n)

/-- Bytes in runs that lie in one 64-byte block each: the address and the bytes of each run. -/
def blocks64 : Nat → List Byte → List (Nat × List Byte)
  | _, [] => []
  | a, b :: r =>
    match blocks64 (a + 1) r with
    | [] => [(a, [b])]
    | (j, l) :: t => if a / 64 = j / 64 then (a, b :: l) :: t else (a, [b]) :: (j, l) :: t

/-! ### Publication, the home order and the undo log (R240, R241, R376, R378) -/

/-- The die of a physical address (R225). -/
def dieBits (pa : Nat) : Nat := pa / 2 ^ 45 % 8

/-- The package of a physical address (R225). -/
def pkgBits (pa : Nat) : Nat := pa / 2 ^ 48 % 4096

/-- The open interval has logged the line. -/
def logged (s : State) (line : Nat) : Bool :=
  s.recov.undo.any fun e => e.1 == s.recov.n && e.2.1 == line

/-- Append the undo entry of a line at its first write of the open interval (R376).
(DEDUCED, log 48) -/
def logLine (s : State) (line : Nat) : State :=
  if logged s line then s
  else { s with recov := { s.recov with
    undo := s.recov.undo ++ [(s.recov.n, line, memRead s.mem (64 * line) 64)] } }

/-- Entries in the live segments of a die's log (R378). (DEDUCED, log 48) -/
def logFill (s : State) (die : Nat) : Nat :=
  (s.recov.undo.filter fun e => dieBits (64 * e.2.1) == die).length

/-- A write to the line stalls at its home: it would append an entry and the log is at 15/16 (R378). -/
def logStall (s : State) (line : Nat) : Bool :=
  !logged s line && decide (31457280 ≤ logFill s (dieBits (64 * line)))

/-- The same for a write that a seal performs itself, of its releases and of the fills that it awaits: it
has the reserve of the log (R378, R380, R382). -/
def sealStall (s : State) (line : Nat) : Bool := !sealing s && logStall s line

/-- Publish bytes at one instant (R240, R241): the undo entries, the superseded values, the memory. -/
def publishBytes (l : List (Nat × Byte)) (s : State) : State :=
  if l.isEmpty then s
  else
    let s := l.foldl (fun s e => logLine s (e.1 / 64)) s
    { s with
      now := s.now + 1
      hist := s.hist ++ l.map (fun e => (s.now + 1, e.1, memGet s.mem e.1))
      mem := l.foldl (fun m e => memPut m e.1 e.2) s.mem
      recov := { s.recov with wrote := true } }

/-- Bytes from an address up, with their addresses. -/
def atAddr : Nat → List Byte → List (Nat × Byte)
  | _, [] => []
  | a, b :: r => (a, b) :: atAddr (a + 1) r

/-- Publish a run of bytes, each 64-byte block at one instant, in address order (R241). -/
def publishRun (pa : Nat) (data : List Byte) (s : State) : State :=
  (blocks64 pa data).foldl (fun s b => publishBytes (atAddr b.1 b.2) s) s

/-- The published value of a location at an instant (R240). (DEDUCED, log 77) -/
def valueAt (s : State) (a t : Nat) : Byte :=
  match s.hist.find? fun h => decide (t < h.1) && h.2.1 == a with
  | some h => h.2.2
  | none => memGet s.mem a

/-- The byte of a run of bytes at an address. -/
def runByte (base : Nat) (data : List Byte) (a : Nat) : Option Byte :=
  if base ≤ a then data[a - base]? else none

/-- The byte that a store held behind its release will write at a physical address (R274). -/
def contByte (c : Cont) (a : Nat) : Option Byte :=
  match c with
  | .store runs => runs.reverse.findSome? fun r =>
    match r.1 with
    | .home pa _ => runByte pa r.2 a
    | .remote pa _ => runByte pa r.2 a
    | _ => none
  | .strel _ pa data _ => runByte pa data a
  | _ => none

/-- The unpublished byte of a release half at an address: the store behind it comes last. -/
def Release.byte (r : Release) (a : Nat) : Option Byte :=
  match contByte r.cont a with
  | some b => some b
  | none => r.bytes.get? a

/-- The core's own unpublished value of a location: the latest (R240, R248, R251). -/
def Core.ownByte (k : Core) (a : Nat) : Option Byte :=
  match k.owned.get? a with
  | some b => some b
  | none => k.releases.reverse.findSome? fun r => r.byte a

/-- A value of the core for a location in its phase: its own, or its phase copy (R248). -/
def Core.phaseByte (k : Core) (a : Nat) : Option Byte :=
  match k.ownByte a with
  | some b => some b
  | none => k.near.get? a

/-! ### Memory faults (R237) -/

/-- The word MFA. -/
def mfaWord (prog vah lvl acc cause : Nat) : Dword :=
  BitVec.ofNat 64 (prog <<< 40 + vah <<< 32 + lvl <<< 20 + acc <<< 12 + cause)

/-- Take a memory fault; the units done stand in PROG (R236). (DEDUCED, log 17; DEDUCED, log 40) -/
def raiseMem {α : Type} (vah lvl acc cause addr : Nat) : Act α := fun s =>
  raise { code := 0x11, mfa := mfaWord s.cs.prog vah lvl acc cause, mfb := BitVec.ofNat 64 addr } s

/-- The MFB of a memory fault whose access names no byte: a free value. (DEDUCED, log 17) -/
def freeAddr : Act Nat := fun s =>
  .ok (bits (Config.freeValue s.draws) 63 0, { s with draws := s.draws + 1 })

/-! ### Translation (R228 to R233) -/

/-- How a walk ends. -/
inductive WalkRes where
  | leaf (e : Dword) (level : Nat)
  | stop (cause level : Nat)
deriving DecidableEq, Repr

/-- The size of a page whose leaf stands at a level (R229). -/
def pageSize (level : Nat) : Nat := if level = 1 then 2 ^ 42 else if level = 2 then 2 ^ 29 else 2 ^ 16

/-- Bits [59:16] of an entry as an address. -/
def entryPa (e : Dword) : Nat := bits e 59 16 * 65536

/-- A reserved bit of an entry is set (R230). -/
def entryRsv (e : Dword) : Bool := bits e 62 60 != 0 || bits e 11 9 != 0

/-- A non-leaf entry is malformed, or its node lies outside the package (R229, R231). -/
def badNode (pkg : Nat) (e : Dword) : Bool :=
  entryRsv e || bits e 8 2 != 0 || bits e 15 12 != 0 || bit e 63 || pkgBits (entryPa e) != pkg

/-- A leaf is malformed (R231). -/
def badLeaf (sup : Bool) (level : Nat) (e : Dword) : Bool :=
  entryRsv e || (bit e 63 && bit e 5) || (bit e 7 && !sup) || entryPa e % pageSize level != 0

/-- An address of the package that no memory backs: the recovery reserve, or beyond the stack (R225). -/
def unbacked (pa : Nat) : Bool := decide (0xE80000000 ≤ pa % 2 ^ 45)

/-- The level of the entry that names a node read at a level: a root slot before level 0 (R237). -/
def nodeLevel (level : Nat) : Nat := if level = 0 then 4 else level - 1

/-- The walk from a node at a level (R229, R231). A node at an unbacked address is not read (R225). -/
def walkAt (m : Memory) (pkg : Nat) (sup : Bool) (va : Nat) : Nat → Nat → Nat → WalkRes
  | 0, level, _ => .stop 4 level
  | fuel + 1, level, node =>
    if unbacked node then .stop 5 (nodeLevel level) else
    let e : Dword := BitVec.ofNat 64 (memNat m (node + 8 * (va / 2 ^ (55 - 13 * level) % 8192)) 8)
    if !bit e 0 then .stop 1 level
    else if bit e 1 then
      if level = 0 || badLeaf sup level e then .stop 4 level else .leaf e level
    else if level = 3 || badNode pkg e then .stop 4 level
    else walkAt m pkg sup va fuel (level + 1) (entryPa e)

/-- The walk of a 72-bit virtual address from its root slot (R228, R231). -/
def walk (s : State) (x : Ctx) (va : Nat) : WalkRes :=
  let r := x.pgroot.get 0 (va / 2 ^ 68 % 16)
  if !bit r 0 then .stop 1 4
  else if bit r 1 || badNode s.ident.pkg r then .stop 4 4
  else walkAt s.mem s.ident.pkg x.supervisor va 4 0 (entryPa r)

/-- The fault of a leaf for an access kind: key, then permission (R231). -/
def leafStop (x : Ctx) (e : Dword) (acc : Nat) : Option Nat :=
  if !bit x.keyset (bits e 15 12) then some 3
  else if match acc with
    | 0 => bit e 2
    | 1 => bit e 3
    | 2 => bit e 2 && bit e 3
    | _ => bit e 4
  then none else some 2

/-- A cached translation serves an address of a context (R233). -/
def Xlat.covers (x : Xlat) (ctx va : Nat) : Bool :=
  (x.ctx == ctx || bit x.leaf 7) && decide (x.va ≤ va) && decide (va < x.va + x.size)

/-- The level of a page size. -/
def levelOf (size : Nat) : Nat := if size = 2 ^ 42 then 1 else if size = 2 ^ 29 then 2 else 3

/-- Add a translation to a cache of `cap` entries; the oldest goes first. -/
def cacheXlat (cap : Nat) (x : Xlat) (l : List Xlat) : List Xlat :=
  if l.any (· == x) then l else (l.drop (l.length + 1 - cap)) ++ [x]

/-- Cached translations of an address that differ from the entry as it stands: the core may use any
of them until they are invalidated (R232). -/
def staleLeaves (s : State) (core ctx va : Nat) (fresh : WalkRes) : List WalkRes :=
  (((s.core core).tlb ++ (s.die (s.dieOf core)).xlat).filter (·.covers ctx va)).map
    (fun x => .leaf x.leaf (levelOf x.size)) |>.filter (· != fresh)

/-- Keep a translation in the core's and the die's caches (R232, R233). -/
def keepXlat (core ctx va : Nat) (e : Dword) (level : Nat) (s : State) : State :=
  let x : Xlat := ⟨ctx, va / 2 ^ 64, va / pageSize level * pageSize level, pageSize level, e⟩
  let d := s.dieOf core
  let s := s.setCore core { s.core core with tlb := cacheXlat 256 x (s.core core).tlb }
  s.setDie d { s.die d with xlat := cacheXlat 32768 x (s.die d).xlat }

/-- A physical address lies in a range that a transplant has marked busy: its old home bounces the
access (R423). (DEDUCED, log 47) -/
def tombstone (s : State) (pa : Nat) : Bool :=
  s.dom.transplants.any fun t =>
    decide (1 ≤ t.step) && t.pages.any fun p => decide (p.2.1 ≤ pa) && decide (pa < p.2.1 + p.2.2.1)

/-- The page that a transplant fills: it takes no access before the transplant is done (R423). -/
def pageFilling (s : State) (pa : Nat) : Bool :=
  s.dom.transplants.any fun t => t.pages.any fun p =>
    decide (p.2.2.2 ≤ pa) && decide (pa < p.2.2.2 + p.2.2.1)

/-- A page is being moved: accesses there wait (R263, R423). While a seal is in its steps 1 to 4 a transplant
holds between two pages, and what the seal waits for is performed where the page stands (R380, R382).
(DEDUCED, log 47) -/
def underMove (s : State) (pa : Nat) : Bool := !sealing s && (tombstone s pa || pageFilling s pa)

/-- Translate VA[63:0] in a segment for an access by the issuing core: the leaf and its level (R227 to
R233). -/
def translate (seg addr acc : Nat) : Act (Dword × Nat) := do
  let s ← get
  let ctx := s.cl.ctx
  let va := seg % 256 * 2 ^ 64 + addr % 2 ^ 64
  let fresh := walk s (s.ctx ctx) va
  let stale := staleLeaves s s.cur.core ctx va fresh
  let i ← draw (stale.length + 1)
  match (if i = 0 then fresh else (stale[i - 1]?).getD fresh) with
  | .stop cause level => raiseMem seg level acc cause addr
  | .leaf e level =>
    match leafStop (s.ctx ctx) e acc with
    | some cause => raiseMem seg level acc cause addr
    | none => do
      let pa := entryPa e + addr % pageSize level
      if bit e 8 || (!bit e 63 && (tombstone s pa || pageFilling s pa)) then stall 9
      if i = 0 then change (keepXlat s.cur.core ctx va e level)
      pure (e, level)

/-! ### Places -/

/-- The place `n` bytes further on. -/
def Place.plus : Place → Nat → Place
  | .spad o, n => .spad (o + n)
  | .bedStore o, n => .bedStore (o + n)
  | .dieStore o, n => .dieStore (o + n)
  | .home a m, n => .home (a + n) m
  | .host a, n => .host (a + n)
  | .remote a m, n => .remote (a + n) m

/-- An address modulo 64, by which a place is cut in blocks. -/
def Place.addr : Place → Nat
  | .spad o => o
  | .bedStore o => o
  | .dieStore o => o
  | .home a _ => a
  | .host a => a
  | .remote a _ => a

/-- Cut a run at the 64-byte blocks of its place; `fuel` bounds the number of blocks. -/
def cutBlocks : Nat → Chunk → List Chunk
  | 0, _ => []
  | fuel + 1, c =>
    let n := 64 - c.place.addr % 64
    if c.len = 0 then []
    else if c.len ≤ n then [c]
    else ⟨c.off, n, c.level, c.place⟩ ::
      cutBlocks fuel ⟨c.off + n, c.len - n, c.level, c.place.plus n⟩

/-- The blocks of an access. -/
def blocksOf (l : List Chunk) : List Chunk := l.flatMap fun c => cutBlocks (c.len / 64 + 2) c

/-- The fabric slot: 32 ns are 56 wall cycles (R426). -/
def State.fslot (s : State) : Nat := s.clk.fslot0 + s.clk.wcyc / 56

/-- The bank that a switch brings in force: the one that holds its generation and is not active. -/
def nextBank (s : State) (gen : Nat) : Option Nat :=
  (s.fab.banks.entries.find? fun e =>
    e.1 != s.fab.active && e.2.gen == gen && e.2.per != 0 && !e.2.draining).map (·.1)

/-- The number of no bank: a switch found its generation nowhere (R434). -/
def noBank : Nat := 2

/-- The bank in force and the fabric slot from which it is: from the slot of a pending switch on, its own (R434). -/
def State.inForce (s : State) : Nat × Nat :=
  match s.fab.switch with
  | some (gen, slot) => if slot ≤ s.fslot then ((nextBank s gen).getD noBank, slot) else (s.fab.active, s.fab.since)
  | none => (s.fab.active, s.fab.since)

/-- The active route schedule (R429). -/
def State.route (s : State) : RBank := s.fab.banks.get ⟨0, 0, [], [], false⟩ s.inForce.1

/-- The package lacks the generation that a switch has named: it departs nothing, and what it would send takes
departure-missed (R434). -/
def State.lapsed (s : State) : Bool := s.inForce.1 == noBank

/-- The destination package of a reservation (R429). -/
def resPkg (e : BitVec 128) : Nat := bits e 119 108

/-- A package can be reached: it is the destination of some reservation (R225, R431). -/
def State.reach (s : State) (pkg : Nat) : Bool := s.lapsed || s.route.entries.any fun e => resPkg e == pkg

/-- The core has a reservation of a kind towards a package (R435). -/
def State.reserved (s : State) (kind core pkg : Nat) : Bool :=
  s.lapsed || s.route.entries.any fun e =>
    bits e 127 120 == kind && resPkg e == pkg && bits e 107 98 == core

/-- A package belongs to the seal domain (R373). -/
def State.inDomain (s : State) (pkg : Nat) : Bool :=
  pkg == s.ident.pkg || bit (s.recov.members.get 0 (pkg / 64)) (pkg % 64)

/-- The physical address of a leaf and an address (R229, R231). (DEDUCED, log 40) -/
def physOf (e : Dword) (level addr : Nat) : Nat := entryPa e + addr % pageSize level

/-- The place that a leaf gives an address, after the check of R225. -/
def placeOf (e : Dword) (level seg addr acc : Nat) : Act Place := do
  let s ← get
  let pa := physOf e level addr
  if bit e 63 then pure (.host pa)
  else if unbacked pa ∨ (pkgBits pa ≠ s.ident.pkg ∧ s.reach (pkgBits pa) = false) then
    raiseMem seg level acc 5 addr
  else if pkgBits pa = s.ident.pkg then pure (.home pa (bit e 5))
  else do
    changeCore fun k => { k with farVa := k.farVa.put (pa / 65536) (addr / 65536 * 65536) }
    pure (.remote pa (bit e 5))

/-- Translate and check a range of a segment, page by page of 64 KiB, in order (R235, R236). -/
def resolveRange (seg acc : Nat) : Nat → Nat → Nat → Nat → Act (List Chunk)
  | 0, _, _, _ => pure []
  | fuel + 1, off, addr, len => do
    let n := Nat.min len (65536 - addr % 65536)
    let (e, level) ← translate seg addr acc
    let p ← placeOf e level seg addr acc
    if len ≤ n then pure [⟨off, len, level, p⟩]
    else do
      let r ← resolveRange seg acc fuel (off + n) ((addr + n) % 2 ^ 64) (len - n)
      pure (⟨off, n, level, p⟩ :: r)

/-- The required alignment of an access: natural up to 64 bytes, 64 for a queue entry (R214, R235). -/
def alignOf (size : Nat) : Nat := if size ≤ 64 then size else 64

/-- A global access of one repetition: alignment, then translation (R235, R269). -/
def resolveGlobal (seg addr size acc : Nat) : Act (List Chunk) := do
  if addr % alignOf size ≠ 0 then raiseMem seg 15 acc 6 addr
  resolveRange seg acc (size / 65536 + 2) 0 addr size

/-- Bytes of die store that the launch holds on the issuing core's die (R223). -/
def State.dieGrant (s : State) : Nat := s.cl.ways.get 0 (s.dieOf s.cur.core) * 8388608

/-- A run of the bed store or die store: range, then alignment (R213, R214).
(DESIGN CHOICE, log 16) -/
def resolveStore (limit off addr size acc : Nat) (p : Place) (align : Nat) : Act (List Chunk) := do
  if limit < off + size then raiseMem 0 15 acc 7 (if off < limit then addr + (limit - off) else addr)
  if off % align ≠ 0 then raiseMem 0 15 acc 6 addr
  pure [⟨0, size, 15, p⟩]

/-- A local range of any length (R213, R214); `align` is what the access requires of a direct store.
(DESIGN CHOICE, log 16) -/
def resolveLocalRange (addr size acc align : Nat) : Act (List Chunk) := do
  let s ← get
  let off := addr % 2 ^ 62
  match addr / 2 ^ 62 % 4 with
  | 0 => pure [⟨0, size, 15, .spad (off % 2 ^ s.cc.scr)⟩]
  | 1 => resolveStore 2097152 off addr size acc (.bedStore off) align
  | 2 => resolveStore s.dieGrant off addr size acc (.dieStore off) align
  | _ => raiseMem 0 15 acc 7 addr

/-- A local access of one repetition (R213, R214, R269). (DESIGN CHOICE, log 16) -/
def resolveLocal (addr size acc : Nat) : Act (List Chunk) :=
  resolveLocalRange addr size acc (alignOf size)

/-! ### Scratchpad, bed store and die store -/

/-- Scratchpad bytes from an offset, wrapping (R214). -/
def spadRead (k : Core) (off n : Nat) : List Byte :=
  (span off n).map fun i => memGet k.spad (i % 2 ^ k.scr)

/-- Write scratchpad bytes, wrapping (R214). -/
def spadWrite (k : Core) (off : Nat) (data : List Byte) : Core :=
  { k with spad := (atAddr off data).foldl (fun m e => memPut m (e.1 % 2 ^ k.scr) e.2) k.spad }

/-- A field of a control block at an offset of a store (R217, R413). -/
def ctlWord (m : Memory) (at_ n : Nat) : Nat := memNat m at_ n

/-- Set or clear ERR at offset 0x14 of a control block. -/
def setErr (m : Memory) (blk : Nat) (b : Bool) : Memory := memPut m (blk + 20) (if b then 1 else 0)

/-- A store to a control block, `rel` being its offset there: a 1 in bit 32 of the error word clears
ERR, then a store that touches the geometry takes effect when `ok` holds, under its mask, and is
otherwise discarded and sets ERR; every other byte is ignored (R219, R414). -/
def ctlStore (m : Memory) (blk rel : Nat) (data : List Byte) (ok : Bool) (mask : Nat) : Memory :=
  let clears := match (atAddr rel data).find? fun e => e.1 = 20 with
    | some e => bit e.2 0
    | none => false
  let m := if clears then setErr m blk false else m
  if rel < 8 then
    if ok then memWrite m blk (toBytes 8 (ofBytes data &&& mask)) else setErr m blk true
  else m

/-- The fields of GEOM that a store writes: LSZ, NSL and BASE (R217). -/
def geomMask : Nat := 0xFF_FF1F_FFFF

/-- The marks of ring `n` of a bed. -/
def Bed.ring (b : Bed) (n : Nat) : Marks := b.marks.get .init n

/-- Counts of ring `n` (R217): freed, filled and claimed. -/
def ringEC (b : Bed) (n : Nat) : Nat := ctlWord b.store (64 * n + 8) 4
/-- Filled count. -/
def ringFC (b : Bed) (n : Nat) : Nat := ctlWord b.store (64 * n + 12) 4
/-- Claimed count. -/
def ringCC (b : Bed) (n : Nat) : Nat := ctlWord b.store (64 * n + 16) 4

/-- One run of a store to a bed store: plain bytes, or a ring's control block (R219). `whole` says
that the store is an aligned one of 8 bytes. -/
def bedRun (whole : Bool) (b : Bed) (e : Nat × List Byte) : Bed :=
  if 0x400 ≤ e.1 then { b with store := memWrite b.store e.1 e.2 }
  else
    let n := e.1 / 64
    let idle := ringCC b n == ringEC b n && (b.ring n).fill.isEmpty && (b.ring n).free.isEmpty
    { b with store := ctlStore b.store (64 * n) (e.1 % 64) e.2 (whole && idle) geomMask }

/-- A store to a bed store (R219). -/
def bedWrite (off : Nat) (data : List Byte) (b : Bed) : Bed :=
  (blocks64 off data).foldl (bedRun (data.length == 8 && off % 8 == 0)) b

/-- The die store of a launch on a die. -/
def Launch.store (l : Launch) (die : Nat) : Memory := l.dieStore.get [] die

/-- The key of stream `sid` of a launch on its receiving die. -/
def streamKey (launch sid : Nat) : Nat := 32 * launch + sid

/-- The sender's end and the marks of a stream. -/
def State.tstream (s : State) (die launch sid : Nat) : TStream :=
  (s.die die).tstreams.get .init (streamKey launch sid)

/-- Replace a stream's ends. -/
def State.setTstream (s : State) (die launch sid : Nat) (t : TStream) : State :=
  s.setDie die { s.die die with tstreams := (s.die die).tstreams.put (streamKey launch sid) t }

/-- The fields of SGEOM that a store writes: DIR, NSL and BASE (R413). -/
def sgeomMask : Nat := 0x80_FF00_07FF_0000

/-- A store to SGEOM may take effect: no slot is filled or sent and the stream is unbound (R414). -/
def sgeomIdle (m : Memory) (t : TStream) (sid : Nat) : Bool :=
  ctlWord m (64 * sid + 8) 4 == ctlWord m (64 * sid + 12) 4 && t.cc == t.ecMirror &&
  t.flight.isEmpty && !bit (BitVec.ofNat 32 (ctlWord m (64 * sid + 16) 4)) 31

/-- One run of a store to a die store: plain bytes, or a stream's control block (R414). -/
def dieRun (s : State) (die launch : Nat) (whole : Bool) (m : Memory) (e : Nat × List Byte) : Memory :=
  if 0x800 ≤ e.1 then memWrite m e.1 e.2
  else
    let n := e.1 / 64
    let ok := whole && sgeomIdle m (s.tstream die launch n) n
    ctlStore m (64 * n) (e.1 % 64) e.2 ok sgeomMask

/-- A store to the die store of a launch (R223, R414). Bytes above the grant as it stands are not there
(R238). (DEDUCED, log 85) -/
def dieWrite (die launch off : Nat) (data : List Byte) (s : State) : State :=
  let l := s.launch launch
  let data := data.take (l.ways.get 0 die * 8388608 - off)
  let m := (blocks64 off data).foldl (dieRun s die launch (data.length == 8 && off % 8 == 0))
    (l.store die)
  s.setLaunch launch { l with dieStore := l.dieStore.put die m }

/-- Bytes of a local place as they stand, for core `c`. -/
def localRead (s : State) (c : Nat) (p : Place) (n : Nat) : List Byte :=
  match p with
  | .spad o => spadRead (s.core c) o n
  | .bedStore o => memRead (s.bed (s.bedOf c)).store o n
  | .dieStore o => memRead ((s.launch (s.core c).launch).store (s.dieOf c)) o n
  | _ => []

/-- Write bytes of a local place, for core `c`. -/
def localWrite (c : Nat) (p : Place) (data : List Byte) (s : State) : State :=
  match p with
  | .spad o => s.setCore c (spadWrite (s.core c) o data)
  | .bedStore o => s.setBed (s.bedOf c) (bedWrite o data (s.bed (s.bedOf c)))
  | .dieStore o => dieWrite (s.dieOf c) (s.core c).launch o data s
  | _ => s

/-! ### Outstanding loads (R248, R252, R270, R271) -/

/-- A number drawn from lo to hi. (DEDUCED, log 77) -/
def drawIn (lo hi : Nat) (s : State) : Nat × State :=
  let r := s.drawN (hi - lo + 1)
  (lo + r.1, r.2)

/-- The value of an open byte at an instant: the core's phase copy when it has one, except for an
acquire load, or for a load that ignores a store of the core in a race (R246, R248, R252). -/
def openByte (s : State) (c a t : Nat) (acq : Bool) : Byte :=
  match (if acq then none else (s.core c).near.get? a) with
  | some b => b
  | none => valueAt s a t

/-- The floor of a run of bytes: the core's, or the publication of its own last write there (R248). -/
def Core.floorAt (k : Core) (lo pa n : Nat) : Nat :=
  (span pa n).foldl (fun m a => Nat.max m (k.floors.get 0 a)) lo

/-- Replace `n` bytes of a vector from byte `off`. -/
def putBytes (v : VReg) (off : Nat) (data : List Byte) : VReg :=
  (atAddr off data).foldl (fun v e =>
    BitVec.ofNat 2048 (v.toNat - bits v (8 * e.1 + 7) (8 * e.1) <<< (8 * e.1) +
      e.2.toNat <<< (8 * e.1))) v

/-- The floor of the open segments of a load that are read at the instant of its next one: those of the
same block, or all of them (R241, R330). -/
def segsFloor (k : Core) (src : LoadSrc) (blk : Nat) (l : List Seg) : Nat :=
  l.foldl (fun m g => if src.one || g.pa / 64 = blk then k.floorAt m g.pa g.len else m) src.floor

/-- The instant at which the phase of a core has read the block of a load, or a block of a load that reads
them all at one (R241, R248). An acquire load reads anew. -/
def segsInstant (k : Core) (src : LoadSrc) (blk : Nat) (l : List Seg) : Option Nat :=
  if src.acq then none
  else if src.one then l.findSome? fun g => k.instants.get? (g.pa / 64)
  else k.instants.get? blk

/-- The instant of the open segments of a load that are read next: that of the phase, when it is not below
their floor, or a new one. -/
def takeInstant (k : Core) (src : LoadSrc) (blk : Nat) (l : List Seg) (s : State) : Nat × State :=
  let lo := segsFloor k src blk l
  match segsInstant k src blk l with
  | some t => if lo ≤ t then (t, s) else drawIn lo s.now s
  | none => drawIn lo s.now s

/-- The open bytes of a load take their values, by their offsets: one instant for each 64-byte block
(R241), or for all of them. They also become phase copies, and the instant that of the phase for the block
(R248). (DEDUCED, log 77) -/
def takeSegs (c : Nat) (src : LoadSrc) : List Seg → Option (Nat × Nat) → State → List (Nat × Byte) × State
  | [], _, s => ([], s)
  | g :: r, last, s =>
    let fresh := takeInstant (s.core c) src (g.pa / 64) (g :: r) s
    let ts := match last with
      | some (blk, t) => if src.one || blk = g.pa / 64 then (t, s) else fresh
      | none => fresh
    let data := (span g.pa g.len).map fun a => openByte ts.2 c a ts.1 (src.acq || g.raw)
    let k := ts.2.core c
    let k := if g.raw then k
      else { k with near := (atAddr g.pa data).foldl (fun t e => t.put e.1 e.2) k.near }
    let k := if src.acq then k else { k with instants := k.instants.put (g.pa / 64) ts.1 }
    let y := takeSegs c src r (some (g.pa / 64, ts.1)) (ts.2.setCore c k)
    (atAddr g.off data ++ y.1, y.2)

/-- The open bytes of a load take their values in a vector. -/
def settleSegs (c : Nat) (src : LoadSrc) (l : List Seg) (v : VReg) (s : State) : VReg × State :=
  let r := takeSegs c src l none s
  (r.1.foldl (fun v e => putBytes v e.1 [e.2]) v, r.2)

/-- A register result of a load: extended by SX (R271). -/
def finishReg (src : LoadSrc) (v : VReg) : VReg :=
  if src.size = 0 then v
  else BitVec.ofNat 2048 (extend (8 * src.size) (!src.sx) (v.toNat % 2 ^ (8 * src.size)))

/-- Settle one outstanding load of core `c`. -/
def settleOne (c : Nat) (src : LoadSrc) (v : VReg) (s : State) : VReg × State :=
  let r := settleSegs c src src.segs v s
  (finishReg src r.1, r.2)

/-- Settle the entries of a queue whose loads satisfy `p`. -/
def settleEntries (c : Nat) (p : LoadSrc → Bool) : List QEntry → State → List QEntry × State
  | [], s => ([], s)
  | e :: r, s =>
    let x := match e.src with
      | some src =>
        if p src then
          let y := settleOne c src e.data s
          ({ e with data := y.1, src := none }, y.2)
        else (e, s)
      | none => (e, s)
    let t := settleEntries c p r x.2
    (x.1 :: t.1, t.2)

/-- Settle the pending writes whose loads satisfy `p`. -/
def settlePends (c : Nat) (p : LoadSrc → Bool) : List Pend → State → List Pend × State
  | [], s => ([], s)
  | e :: r, s =>
    let x := match e.src with
      | some src =>
        if p src then
          let y := settleOne c src e.data s
          ({ e with data := y.1, src := none }, y.2)
        else (e, s)
      | none => (e, s)
    let t := settlePends c p r x.2
    (x.1 :: t.1, t.2)

/-- Settle the outstanding loads of core `c` that satisfy `p`: their values are decided, whenever
their data arrives. -/
def settleLoads (c : Nat) (p : LoadSrc → Bool) (s : State) : State :=
  let s := (span 0 8).foldl (fun s q =>
    let r := settleEntries c p ((s.core c).lq.get .init q).entries s
    if r.1 = ((s.core c).lq.get .init q).entries then s
    else r.2.setCore c { r.2.core c with lq := (r.2.core c).lq.put q ⟨r.1⟩ }) s
  let r := settlePends c p ((s.core c).stream 0).pend s
  if r.1 = ((s.core c).stream 0).pend then s
  else r.2.setCore c ((r.2.core c).setStream 0 { (r.2.core c).stream 0 with pend := r.1 })

/-- The sources of the outstanding loads of a core. -/
def Core.openLoads (k : Core) : List LoadSrc :=
  ((span 0 8).flatMap fun q => (k.lq.get .init q).entries.filterMap (·.src)) ++
  (k.stream 0).pend.filterMap (·.src)

/-- A run of bytes meets an open segment of a load. -/
def LoadSrc.meets (src : LoadSrc) (pa n : Nat) : Bool :=
  src.segs.any fun g => decide (g.pa < pa + n) && decide (pa < g.pa + g.len)

/-! ### Boundaries (R242 to R250, R257) -/

/-- Bytes that the core has read or written become its phase copies (R248). -/
def Core.keepNear (k : Core) (l : List (Nat × Byte)) : Core :=
  { k with near := l.foldl (fun t e => t.put e.1 e.2) k.near }

/-- Own a byte written for the core: it is also the phase value (R248). -/
def ownByteAt (k : Core) (e : Nat × Byte) : Core :=
  { k with owned := k.owned.put e.1 e.2, near := k.near.put e.1 e.2, wrote := k.wrote.put e.1 k.moves }

/-- The bytes of the 4-byte words of a run that a write leaves out and the core does not own (R221,
R240). -/
def wordRest (k : Core) (pa n : Nat) : List Nat :=
  (span (pa / 4 * 4) ((pa + n + 3) / 4 * 4 - pa / 4 * 4)).filter fun a =>
    (decide (a < pa) || decide (pa + n ≤ a)) && (k.ownByte a).isNone

/-- The other bytes of a written word in another package: its phase copies, or what the package returns
for the line. -/
def foreignRest (a d : Nat) (k : Core) : Byte := (k.near.get? a).getD (Config.remoteByte a d)

/-- The rest of the words of a run of `n` bytes that is written for core `c`, as the core's line holds it: a word
is registered, and later published, as a whole (R221, R240). (DEDUCED, log 86) -/
def wordCells (c pa n : Nat) (s : State) : List (Nat × Byte) × State :=
  let rest := wordRest (s.core c) pa n
  if rest.isEmpty then ([], s)
  else if pkgBits pa = s.ident.pkg then
    let src : LoadSrc := ⟨rest.map fun a => ⟨a, 1, a, false⟩, (s.core c).floor, false, false, 0, false, .S, 0, 0⟩
    takeSegs c src src.segs none s
  else (rest.map fun a => (a, foreignRest a s.draws (s.core c)), { s with draws := s.draws + 1 })

/-- Core `c` owns the words of a run that is written for it (R221, R240). (DEDUCED, log 86) -/
def ownRun (c pa : Nat) (data : List Byte) (s : State) : State :=
  let r := wordCells c pa data.length s
  r.2.setCore c ((r.1 ++ atAddr pa data).foldl ownByteAt (r.2.core c))

/-- Publish the words of a run that is written for core `c`. -/
def publishWords (c pa : Nat) (data : List Byte) (s : State) : State :=
  let r := wordCells c pa data.length s
  if r.1.isEmpty then publishRun pa data r.2 else publishBytes (r.1 ++ atAddr pa data) r.2

/-- The core has stored to a byte since it had come a number of slots. -/
def Core.wroteAfter (k : Core) (begun a : Nat) : Bool := decide (begun < k.wrote.get 0 a)

/-- The core has stored to an owned byte since it issued an operation. -/
def Core.wroteSince (k : Core) (begun a : Nat) : Bool := (k.owned.get? a).isSome && k.wroteAfter begun a

/-- The core observes a block written for it: it owns it. Of the bytes that the core has stored to since
it issued the operation, either value stands (R152, R257). -/
def observeOne (c : Nat) (s : State) (x : Arrived) : State :=
  let k := s.core c
  let l := atAddr x.pa x.data
  let mine := l.any fun e => k.wroteSince x.begun e.1
  let d := s.drawN (if mine then 2 else 1)
  let runs := if d.1 = 0 then [(x.pa, x.data)]
    else (l.filter fun e => !k.wroteSince x.begun e.1).map fun e => (e.1, [e.2])
  runs.foldl (fun s r => ownRun c r.1 r.2 s) d.2

/-- The core observes the completions that satisfy `p` (R257). (DEDUCED, log 77) -/
def observe (c : Nat) (p : Arrived → Bool) (s : State) : State :=
  let l := (s.core c).arrived.filter p
  let s := s.setCore c { s.core c with arrived := (s.core c).arrived.filter fun x => !p x }
  l.foldl (observeOne c) s

/-- An acquire half of core `c` (R246, R248, R257): its outstanding loads are decided, copies are
discarded and the floor rises to the values published now. (DEDUCED, log 32) -/
def acquireHalf (c : Nat) (s : State) : State :=
  let s := settleLoads c (fun _ => true) s
  let k := s.core c
  let s := s.setCore c { k with near := .empty, instants := .empty, floor := s.now, floors := .empty, stores := [] }
  observe c (fun x => decide (x.cycle ≤ (s.core c).counted)) s

/-- Begin a release half (R245): it publishes the owned bytes of this package and, at machine scope,
of others. -/
def startRelease (c scope : Nat) (cont : Cont) (s : State) : State :=
  let k := s.core c
  let covered (a : Nat) : Bool := scope == 4 || pkgBits a == s.ident.pkg
  s.setCore c { k with
    releases := k.releases ++ [⟨k.nextId, scope, k.moves, none, k.owned.filter fun a _ => covered a, cont⟩]
    owned := k.owned.filter fun a _ => !covered a
    nextId := k.nextId + 1 }

/-- Begin the release before an atomic on another package (R276): it completes the store sequence to that
package, beside what the word's own release half covers. -/
def startSequence (c pkg : Nat) (own : Option Nat) (s : State) : State :=
  let k := s.core c
  let covered (a : Nat) : Bool := pkgBits a == pkg ||
    (match own with
     | some scope => scope == 4 || pkgBits a == s.ident.pkg
     | none => false)
  s.setCore c { k with
    releases := k.releases ++
      [⟨k.nextId, own.getD 0, k.moves, some pkg, k.owned.filter fun a _ => covered a, .none⟩]
    owned := k.owned.filter fun a _ => !covered a
    nextId := k.nextId + 1 }

/-- Wait for a release half that the word's first attempt begins. -/
def awaitStarted (start : State → State) : Act Unit := fun s =>
  match s.cs.hold with
  | .release id =>
    if s.cc.releases.any fun r => r.id == id then stall 9 s else .ok ((), s)
  | _ =>
    let id := s.cc.nextId
    stall 9 ((start s).modStream fun t => { t with hold := .release id })

/-- Wait for a release half of the word's own: the first attempt begins it (R249, R275). -/
def awaitRelease (scope : Nat) : Act Unit := awaitStarted fun s => startRelease s.cur.core scope .none s

/-- An access with an acquire half still to act is outstanding: later accesses wait for it (R272). -/
def acqOpen (s : State) : Bool := s.cc.openLoads.any (·.acq) || !s.cc.acquires.isEmpty

/-- A store held behind a release of the core (R274). -/
def storeHeld (k : Core) : Bool :=
  k.releases.any fun r =>
    match r.cont with
    | .store _ => true
    | .strel _ _ _ _ => true
    | _ => false

/-- Packets of a core that have not been acknowledged and hold an access of A: requests and
contributions (R428). -/
def readsSent (s : State) (c : Nat) : Bool := s.fab.sent.any fun p => p.core == c && p.stage != 4 && (p.typ == 0 || p.typ == 1 || p.typ == 4)

/-- Store packets of a core that have not been acknowledged (R428). -/
def storesSent (s : State) (c : Nat) : Bool := s.fab.sent.any fun p => p.core == c && (p.typ == 2 || p.typ == 3)

/-- A ring mark of the core is still behind its release (R281). -/
def marksOpen (k : Core) : Bool :=
  k.releases.any fun r =>
    match r.cont with
    | .ringFill _ _ _ _ => true
    | .ringFree _ _ _ _ => true
    | _ => false

/-- Loads, contributions and ring marks of A have still to be performed at their targets (R253). -/
def loadsUnperformed (s : State) : Bool :=
  !s.cc.openLoads.isEmpty || readsSent s s.cur.core || marksOpen s.cc ||
    s.dom.contribs.any fun x => x.core == s.cur.core && x.launch == s.cc.launch

/-- Held stores and store packets of S have still to be performed at their targets (R253). -/
def storesUnperformed (s : State) : Bool := storeHeld s.cc || storesSent s s.cur.core

/-- Accesses that the engine issued before have still to be performed (R253). -/
def unperformed (s : State) : Bool :=
  if engOf s.cur.stream = .A then loadsUnperformed s else storesUnperformed s

/-- The `fence` before the next access of the engine: it stands until every earlier access has been
performed (R280). -/
def passFence : Act Unit := fun s =>
  if !s.cs.fence then .ok ((), s)
  else if unperformed s then stall 9 s
  else .ok ((), s.modStream fun t => { t with fence := false })

/-- An access of the issuing core may be performed now: no acquire is outstanding, no `fence` holds it
and, for a memory-side line or a direct store, no release is under way (R254, R255, R272, R280).
(DEDUCED, log 33) -/
def accessReady (l : List Chunk) : Act Unit := fun s =>
  let direct := l.any fun c =>
    match c.place with
    | .bedStore _ => true
    | .dieStore _ => true
    | .home _ ms => ms
    | .remote _ ms => ms
    | _ => false
  if acqOpen s || (direct && !s.cc.releases.isEmpty) then stall 9 s else passFence s

/-- A contribution of the core and of its alias class is on its way to a block: an access of A to the block
arrives after it (R254). -/
def contribAhead (s : State) (cls : BitVec 2) (pa n : Nat) : Bool :=
  engOf s.cur.stream == .A && s.dom.contribs.any fun x =>
    x.pkg == s.ident.pkg && x.core == s.cur.core && x.launch == s.cc.launch && x.cls == cls &&
    decide (pa / 64 ≤ x.pa / 64) && decide (x.pa / 64 ≤ (pa + n - 1) / 64)

/-- The runs of an access on memory-side lines come after the contributions of its class to their blocks. -/
def afterContribs (l : List Chunk) (cls : BitVec 2) : Act Unit := fun s =>
  if l.any (fun c =>
    match c.place with
    | .home pa true => contribAhead s cls pa c.len
    | _ => false) then stall 9 s
  else .ok ((), s)

/-! ### Loads -/

/-- A store of the phase and a load of the word at hand that no rule orders (R251, R252).
(DEDUCED, log 34) -/
def racing (s : State) (cls : BitVec 2) (r : StoreRec) : Bool :=
  s.seqn s.cur.core != .joint && r.cls != cls && decide (s.stamp.of r.eng < r.n)

/-- The byte that a store wrote at an address, if it did. -/
def StoreRec.at (r : StoreRec) (a : Nat) : Option Byte := runByte r.addr r.data a

/-- What a load takes for a byte in a race: the latest store that it sees, or what stood before the
first one that it does not see (R252). None when no store of the phase bears on it.
(DEDUCED, log 34) -/
def racedByte (seen ignored : List StoreRec) (a : Nat) : Option (Option Byte) :=
  match ignored.find? fun r => (r.at a).isSome with
  | none => none
  | some f =>
    match seen.reverse.findSome? fun r => r.at a with
    | some b => some (some b)
    | none => some ((f.old[a - f.addr]?).getD none)

/-- For each racing store, whether the load ignores it (R252). -/
def ignoredStores : List StoreRec → Act (List StoreRec)
  | [] => pure []
  | r :: t => do
    let i ← draw 2
    let l ← ignoredStores t
    pure (if i = 0 then l else r :: l)

/-- The stores that bear on a run and those of them that the load ignores. -/
def raceSplit (spad : Bool) (a n : Nat) (cls : BitVec 2) : Act (List StoreRec × List StoreRec) := do
  let s ← get
  let l := s.cc.stores.filter fun r =>
    r.spad == spad && decide (r.addr < a + n) && decide (a < r.addr + r.data.length)
  let ig ← ignoredStores (l.filter (racing s cls))
  pure (l.filter fun r => !ig.any (· == r), ig)

/-- For each unobserved block that meets a run, whether the load takes its bytes (R257). -/
def seenBlocks : List Arrived → Act (List Arrived)
  | [] => pure []
  | x :: r => do
    let i ← draw 2
    let l ← seenBlocks r
    pure (if i = 0 then l else x :: l)

/-- The byte of a block at an address. -/
def Arrived.at (x : Arrived) (a : Nat) : Option Byte := runByte x.pa x.data a

/-- A byte of a load: known, or open, and then whether a store of the core is ignored (R252). -/
inductive LByte where
  | known (b : Byte)
  | opened (raw : Bool)
deriving DecidableEq, Repr

/-- The value of a known byte; 0 where it is open. -/
def LByte.val : LByte → Byte
  | .known b => b
  | .opened _ => 0

/-- The runs of open bytes of a block load, from an address up. -/
def openRuns (off a : Nat) : List LByte → List Seg
  | [] => []
  | .known _ :: r => openRuns (off + 1) (a + 1) r
  | .opened raw :: r =>
    match openRuns (off + 1) (a + 1) r with
    | [] => [⟨off, 1, a, raw⟩]
    | g :: t =>
      if g.pa = a + 1 ∧ g.raw = raw then ⟨off, g.len + 1, a, raw⟩ :: t else ⟨off, 1, a, raw⟩ :: g :: t

/-- The reservation that a packet of a kind from a core uses. -/
def findRes (s : State) (kind core pkg grp : Nat) : Option (BitVec 128) :=
  s.route.entries.find? fun e =>
    bits e 127 120 == kind &&
    (if kind ≤ 2 then resPkg e == pkg && bits e 107 98 == core else bits e 92 88 == grp)

/-- Hops of a path: up to six ports, 0xFF ends it (R429). -/
def hopsOf (e : BitVec 128) : Nat :=
  ((span 0 6).map fun i => bits e (87 - 8 * i) (80 - 8 * i)).takeWhile (· != 255) |>.length

/-- The packet of an atomic (R276, R428): opcodes 0x290 to 0x297, with 4096 for a signed one. -/
def isAtomic (op : Nat) : Bool := decide (0x290 ≤ op % 4096) && decide (op % 4096 ≤ 0x297)

/-- The kind of reservation of a packet (R429). -/
def Sent.kind (p : Sent) : Nat :=
  match p.typ with
  | 0 => 0
  | 1 => 1
  | 4 => if isAtomic p.op then 0 else 2
  | 5 => 1
  | 6 => 3
  | 7 => 4
  | 8 => 4
  | 9 => 6
  | 10 => 5
  | _ => 2

/-- A schedule entry serves a packet. -/
def serves (p : Sent) (e : BitVec 128) : Bool :=
  bits e 127 120 == p.kind &&
  (match p.kind with
   | 3 => bits e 92 88 == p.grp
   | 4 => bits e 92 88 == p.grp
   | 5 => resPkg e == p.pkg
   | 6 => resPkg e == p.pkg
   | _ => resPkg e == p.pkg && bits e 107 98 == p.core)

/-- The first fabric slot from `t` on that stands at an offset of a period. -/
def nextAt (per off t : Nat) : Nat := t + (off + per - t % per) % per

/-- The DEP slot of a packet of a reservation of a schedule whose departure counts from a slot on (R431). -/
def depSlot (per : Nat) (e : BitVec 128) (ready : Nat) : Nat := nextAt per (bits e 39 20) ready

/-- The RTY slot of a packet at its DEP slot (R432). -/
def rtySlot (per : Nat) (e : BitVec 128) (dep : Nat) : Nat := nextAt per (bits e 19 0) (dep + 1)

/-- The slot from which the departure of the next packet of a reservation counts: after the DEP slots of those that
wait for it. -/
def readyAt (s : State) (e : BitVec 128) : Nat :=
  s.fab.sent.foldl (fun n x =>
    if x.stage = 0 && x.typ != 11 && serves x e then Nat.max n (depSlot s.route.per e (Nat.max x.ready s.inForce.2) + 1)
    else n) s.fslot

/-- Hand a packet to the trellis: it waits for its DEP slot (R431). SEQ counts for each directed pair, and
is the same for every member of a group (R427, R437). (DESIGN CHOICE, log 56; DEDUCED, log 63) -/
def sendPacket (kind typ core pkg addr count grp op index : Nat) (data : List Host.Cell)
    (members : List Nat) (s : State) : State :=
  let res := findRes s kind core pkg grp
  let e := res.getD 0
  let dest := if members.isEmpty then [pkg] else members
  let n := dest.foldl (fun m p => Nat.max m (s.fab.nextSeq.get 0 p)) 0
  let p : Sent :=
    { id := s.dom.nextId, pkg := pkg, seq := n % 65536, typ := typ, gen := s.route.gen, core := core,
      launch := (s.core core).launch,
      addr := addr, count := count, op := op, index := index, data := data, grp := grp, stage := 0,
      ready := (res.map (readyAt s)).getD s.fslot, at_ := 0,
      hops := hopsOf e, dep := bits e 39 20, rty := bits e 19 0, members := members, va := none, bounced := false }
  { s with
    fab := { s.fab with
      sent := s.fab.sent ++ [p]
      nextSeq := dest.foldl (fun t p => t.put p (n + 1)) s.fab.nextSeq }
    dom := { s.dom with nextId := s.dom.nextId + 1 } }

/-- Note the launch whose packet an id names (R315). -/
def noteLaunch (id launch : Nat) (s : State) : State :=
  { s with fab := { s.fab with sent := s.fab.sent.map fun p =>
      if p.id = id then { p with launch := launch } else p } }

/-- Note the context and the virtual address to which the packet of an id goes. -/
def noteVa (id ctx va : Nat) (s : State) : State :=
  { s with fab := { s.fab with sent := s.fab.sent.map fun p =>
      if p.id = id then { p with va := some (ctx, va) } else p } }

/-- The byte at a host or foreign address of a store that is on its way to the egress buffer behind a
release (R274, R385). -/
def heldEgress (k : Core) (kind a : Nat) : Option Byte :=
  k.releases.reverse.findSome? fun r =>
    match r.cont with
    | .store runs => runs.reverse.findSome? fun x =>
      match x.1 with
      | .host ba => if kind = 0 then runByte ba x.2 a else none
      | .remote pa _ => if kind = 1 then runByte pa x.2 a else none
      | _ => none
    | _ => none

/-- The waiting egress byte of the core at a host or foreign address (R262, R385).
(DEDUCED, log 79) -/
def egressByte (s : State) (c kind a : Nat) : Option Byte :=
  match heldEgress (s.core c) kind a with
  | some b => some b
  | none => s.recov.egress.reverse.findSome? fun e =>
    if e.core = c ∧ e.kind = kind then runByte e.addr e.data a else none

/-- Bytes that another party returns, each a free value unless the core's own buffered store holds
it (R226, R262). (DEDUCED, log 79) -/
def foreignBytes (kind a n : Nat) (f : Nat → Nat → Byte) : Act (List Byte) := fun s =>
  let d := s.draws
  .ok ((span a n).map fun x => (egressByte s s.cur.core kind x).getD (f x d),
    { s with draws := s.draws + 1 })

/-- What the issuing core has of a byte of another package: its own value, what it has in the egress buffer, and
its phase copy (R248, R262). -/
def farByte (s : State) (acq : Bool) (a : Nat) : Option Byte :=
  match s.cc.ownByte a with
  | some b => some b
  | none =>
    match egressByte s s.cur.core 1 a with
    | some b => some b
    | none => if acq then none else s.cc.near.get? a

/-- A load of one run of a block: its known bytes and its open segments. A run in another package of which
some byte is not at hand is requested by a packet of type 0 (R435). (DEDUCED, log 58) -/
def loadBlock (c : Chunk) (acq : Bool) (cls : BitVec 2) : Act (List Byte × List Seg) := do
  let s ← get
  match c.place with
  | .home pa false => do
    let (seen, ig) ← raceSplit false pa c.len cls
    let arr ← seenBlocks (s.cc.arrived.filter fun x =>
      decide (x.pa < pa + c.len) && decide (pa < x.pa + x.data.length))
    let k := s.cc
    let known := (span pa c.len).map fun a =>
      match racedByte seen ig a with
      | some (some b) => LByte.known b
      | some none => .opened true
      | none =>
        match k.ownByte a with
        | some b => .known b
        | none =>
          match arr.reverse.findSome? fun x => x.at a with
          | some b => .known b
          | none =>
            match (if acq then none else k.near.get? a) with
            | some b => .known b
            | none => .opened false
    pure (known.map (·.val), openRuns c.off pa known)
  | .home pa true => pure (memRead s.mem pa c.len, [])
  | .host ba => do
    let l ← foreignBytes 0 ba c.len Config.hostByte
    pure (l, [])
  | .remote pa true => do
    if s.reserved 0 s.cur.core (pkgBits pa) = false then raiseCode 0x33
    let l ← foreignBytes 1 pa c.len Config.remoteByte
    change (sendPacket 0 0 s.cur.core (pkgBits pa) pa c.len 0 1 0 [] [])
    pure (l, [])
  | .remote pa false => do
    if s.reserved 0 s.cur.core (pkgBits pa) = false then raiseCode 0x33
    let l ← foreignBytes 1 pa c.len Config.remoteByte
    let have_ (a : Nat) : Option Byte := farByte s acq a
    if !((span pa c.len).all fun a => (have_ a).isSome) then
      change (sendPacket 0 0 s.cur.core (pkgBits pa) pa c.len 0 1 0 [] [])
    let data := (atAddr pa l).map fun e => (have_ e.1).getD e.2
    changeCore (·.keepNear (atAddr pa data))
    pure (data, [])
  | .spad off => do
    let (seen, ig) ← raceSplit true off c.len cls
    let data := spadRead s.cc off c.len
    pure ((atAddr off data).map fun e => ((racedByte seen ig e.1).getD none).getD e.2, [])
  | p => pure (localRead s s.cur.core p c.len, [])

/-- The blocks of a load, in order. -/
def loadBlocks (acq : Bool) (cls : BitVec 2) : List Chunk → Act (List Byte × List Seg)
  | [] => pure ([], [])
  | c :: r => do
    let x ← loadBlock c acq cls
    let y ← loadBlocks acq cls r
    pure (x.1 ++ y.1, x.2 ++ y.2)

/-- A load of checked runs (R248, R271): the bytes known now, as a vector, and the source of the
rest. `reg` is the size of a register load and its sign extension. -/
def loadRuns (l : List Chunk) (acq : Bool) (cls : BitVec 2) (size : Nat) (sx : Bool) :
    Act (VReg × Option LoadSrc) := do
  accessReady l
  afterContribs l cls
  let (data, segs) ← loadBlocks acq cls (blocksOf l)
  let s ← get
  let e := engOf s.cur.stream
  let src : LoadSrc := ⟨segs, if acq then s.now else s.cc.floor, acq, false, size, sx, e, s.stamp.of e, cls⟩
  let v : VReg := BitVec.ofNat 2048 (ofBytes data)
  if segs.isEmpty && !acq then pure (finishReg src v, none) else pure (v, some src)

/-- A load whose bytes are taken at once: by an engine of the array, or a descriptor (R145, R321,
R328). -/
def loadNow (l : List Chunk) (cls : BitVec 2) : Act (List Byte) := do
  accessReady l
  afterContribs l cls
  let (data, segs) ← loadBlocks false cls (blocksOf l)
  let s ← get
  let src : LoadSrc := ⟨segs, s.cc.floor, false, false, 0, false, .A, 0, cls⟩
  let r := takeSegs s.cur.core src segs none s
  change fun _ => r.2
  pure ((atAddr 0 data).map fun e => ((r.1.find? fun x => x.1 = e.1).map (·.2)).getD e.2)

/-! ### Stores -/

/-- The place lies outside the seal domain (R384). -/
def outward (s : State) (p : Place) : Bool :=
  match p with
  | .host _ => true
  | .remote pa _ => !s.inDomain (pkgBits pa)
  | _ => false

/-- Bytes of egress stores that wait behind the releases of a core. -/
def heldBytes (s : State) (k : Core) : Nat :=
  k.releases.foldl (fun n r =>
    match r.cont with
    | .store l => n + ((l.filter fun x => outward s x.1).map (·.2.length)).sum
    | _ => n) 0

/-- Bytes in the egress buffer (R385): a store has its room there from its slot on, while it waits behind a
release too. (DEDUCED, log 87) -/
def egressFill (s : State) : Nat :=
  s.recov.egress.foldl (fun n e => n + e.data.length) 0 +
  s.dom.cores.vals.foldl (fun n k => n + heldBytes s k) 0

/-- The egress buffer takes `n` more bytes (R385). -/
def egressRoom (s : State) (n : Nat) : Bool := decide (egressFill s + n ≤ 67108864)

/-- The store-sequence tracker of the issuing core for a package (R436). -/
def Core.tracker (k : Core) (pkg : Nat) : Option Tracker := k.trackers.find? fun t => t.pkg = pkg

/-- Trackers that are not free (R436). -/
def Core.trackersUsed (k : Core) : Nat := (k.trackers.filter (·.used)).length

/-- A store towards another package may be issued (R435, R436, R458). -/
def remoteReady (pa : Nat) : Act Unit := do
  let s ← get
  let pkg := pkgBits pa
  if s.reserved 2 s.cur.core pkg = false then raiseCode 0x33
  let t := (s.cc.tracker pkg).getD ⟨pkg, 0, none, false, false, false⟩
  raiseIf t.broken.isSome 0x32
  if !t.used && decide (16 ≤ s.cc.trackersUsed) then stall 9 else pure ()

/-- A run of a store may be written now: log, egress buffer, store sequence (R378, R385, R436). -/
def storeRoom (c : Chunk) : Act Unit := do
  let s ← get
  match c.place with
  | .home pa true => if logStall s (pa / 64) then stall 9 else pure ()
  | .host _ => if egressRoom s c.len then pure () else stall 9
  | .remote pa _ => do
    if s.inDomain (pkgBits pa) then remoteReady pa
    else do
      if s.reserved 2 s.cur.core (pkgBits pa) = false then raiseCode 0x33
      if egressRoom s c.len then pure () else stall 9
  | _ => pure ()

/-- Every run of a store may be written. (DEDUCED, log 33) -/
def storeReady (l : List Chunk) : Act Unit := do
  accessReady l
  (blocksOf l).forM storeRoom

/-- A store and an outstanding load of the core that no rule orders (R252). (DEDUCED, log 34) -/
def racingLoad (s : State) (cls : BitVec 2) (src : LoadSrc) : Bool :=
  s.seqn s.cur.core != .joint && src.cls != cls && decide (s.stamp.of src.eng < src.n)

/-- Decide the outstanding loads that a store overwrites: each takes its value without the store or,
in a race, may take the store's bytes (R251, R252). (DEDUCED, log 34) -/
def settleStore (pa : Nat) (data : List Byte) (cls : BitVec 2) (s : State) : State :=
  let c := s.cur.core
  let meets (src : LoadSrc) : Bool := src.meets pa data.length
  if !(s.cc.openLoads.any meets) then s
  else
    let d := s.drawN (if s.cc.openLoads.any (fun x => meets x && racingLoad s cls x) then 2 else 1)
    let s := d.2
    if d.1 = 0 then settleLoads c meets s
    else
      let s := settleLoads c (fun x => meets x && !racingLoad s cls x) s
      let near := s.cc.near
      let s := s.modCore (·.keepNear (atAddr pa data))
      let s := settleLoads c meets s
      let back (t : Tbl Byte) (a : Nat) : Tbl Byte :=
        match near.get? a with
        | some b => t.put a b
        | none => t.erase a
      s.modCore fun k => { k with near := (span pa data.length).foldl back k.near }

/-- Remember a store of the phase, when the core is not sequenced jointly (R252). -/
def noteStore (spad : Bool) (a : Nat) (data : List Byte) (cls : BitVec 2) (s : State) : State :=
  if s.seqn s.cur.core = .joint then s
  else
    let e := engOf s.cur.stream
    let k := s.cc
    let old := (atAddr a data).map fun x =>
      if spad then some (memGet k.spad (x.1 % 2 ^ k.scr)) else k.phaseByte x.1
    s.modCore fun k => { k with stores := k.stores ++ [⟨spad, a, data, old, e, s.stamp.of e, cls⟩] }

/-- Put a store in the egress buffer, tagged with the open interval (R384, R385).
(DEDUCED, log 65) -/
def pushEgress (c kind addr : Nat) (data : List Byte) (s : State) : State :=
  { s with recov := { s.recov with
    egress := s.recov.egress ++ [⟨s.recov.n, c, (s.core c).launch, addr, data, kind⟩] } }

/-- The latest release half with an egress store behind it takes one more run; none when there is no such
half. -/
def appendHeld (s : State) (p : Place) (data : List Byte) : List Release → Option (List Release)
  | [] => none
  | r :: rest =>
    match appendHeld s p data rest with
    | some l => some (r :: l)
    | none =>
      match r.cont with
      | .store l =>
        if l.any fun x => outward s x.1 then some ({ r with cont := .store (l ++ [(p, data)]) } :: rest)
        else none
      | _ => none

/-- A store of core `c` to egress (R384): behind its own earlier egress stores that wait for a release, so
that they keep their issue order, and otherwise in the buffer. (DEDUCED, log 87) -/
def egressStore (c : Nat) (p : Place) (data : List Byte) (s : State) : State :=
  let s := match p with
    | .remote pa false => s.setCore c ((s.core c).keepNear (atAddr pa data))
    | _ => s
  match appendHeld s p data (s.core c).releases with
  | some l => s.setCore c { s.core c with releases := l }
  | none =>
    match p with
    | .host ba => pushEgress c 0 ba data s
    | .remote pa _ => pushEgress c 1 pa data s
    | _ => s

/-- Give the core a tracker for a package (R436). The count of a tracker that was free goes on, as does
the inbound count of its target. -/
def needTracker (pkg : Nat) (k : Core) : Core :=
  if (k.tracker pkg).isSome then
    { k with trackers := k.trackers.map fun t => if t.pkg = pkg then { t with used := true } else t }
  else { k with trackers := k.trackers ++ [⟨pkg, 0, none, true, false, false⟩] }

/-- Count one store packet of a core's sequence (R436). -/
def countStore (pkg : Nat) (k : Core) : Core :=
  let k := needTracker pkg k
  { k with trackers := k.trackers.map fun t =>
      if t.pkg = pkg then { t with count := (t.count + 1) % 2 ^ 32, rel := false } else t }

/-- The store sequence of a core towards a package is broken: nothing more of it is sent (R458). -/
def seqBroken (s : State) (c pkg : Nat) : Bool := ((s.core c).tracker pkg).any (·.broken.isSome)

/-- The stores of a core towards a package have a release to come, or have been covered. -/
def markUnits (pkg : Nat) (b : Bool) (k : Core) : Core :=
  { k with trackers := k.trackers.map fun t => if t.pkg = pkg then { t with units := b } else t }

/-- One store of a core's sequence: a packet that its target publishes when a release of machine scope covers
it; a unit of a bulk store carries operation 1 (R261, R436, R456). -/
def sendCovered (op c pa : Nat) (data : List Host.Cell) (s : State) : State :=
  if seqBroken s c (pkgBits pa) then s
  else
    let s := s.setCore c (markUnits (pkgBits pa) true (countStore (pkgBits pa) (s.core c)))
    sendPacket 2 2 c (pkgBits pa) pa 0 0 op 0 data [] s

/-- One store of a core's sequence that a release sends. -/
def sendStore (c pa : Nat) (data : List Host.Cell) (s : State) : State := sendCovered 0 c pa data s

/-- One unit of a bulk store. -/
def sendUnit (c pa : Nat) (data : List Host.Cell) (s : State) : State := sendCovered 1 c pa data s

/-- One store packet to a memory-side line, which is performed on arrival (R254). -/
def sendDirect (c pa : Nat) (data : List Host.Cell) (s : State) : State :=
  if seqBroken s c (pkgBits pa) then s
  else
    let s := s.setCore c (countStore (pkgBits pa) (s.core c))
    sendPacket 2 2 c (pkgBits pa) pa 0 0 2 0 data [] s

/-- Write one run of a store (R240, R254, R255, R261, R385). -/
def storeBlock (cls : BitVec 2) (c : Chunk × List Byte) (s : State) : State :=
  let data := c.2
  match c.1.place with
  | .home pa false =>
    let s := noteStore false pa data cls (settleStore pa data cls s)
    ownRun s.cur.core pa data s
  | .home pa true => publishBytes (atAddr pa data) s
  | .host ba => egressStore s.cur.core (.host ba) data s
  | .remote pa ms =>
    if s.inDomain (pkgBits pa) then
      let s := s.modCore (needTracker (pkgBits pa))
      if ms then sendDirect s.cur.core pa (atAddr pa data) s else ownRun s.cur.core pa data s
    else egressStore s.cur.core (.remote pa ms) data s
  | .spad off => localWrite s.cur.core (.spad off) data (noteStore true off data cls s)
  | p => localWrite s.cur.core p data s

/-- The bytes of each run of a store. -/
def cutData (data : List Byte) (l : List Chunk) : List (Chunk × List Byte) :=
  l.map fun c => (c, (data.drop c.off).take c.len)

/-- Write checked runs. A direct store sees the whole access at once (R219, R241). -/
def storeRuns (l : List Chunk) (data : List Byte) (cls : BitVec 2) (s : State) : State :=
  let whole := l.any fun c =>
    match c.place with
    | .bedStore _ => true
    | .dieStore _ => true
    | .spad _ => true
    | _ => false
  (cutData data (if whole then l else blocksOf l)).foldl (fun s c => storeBlock cls c s) s

/-- A checked store: ready, then written. -/
def doStore (l : List Chunk) (data : List Byte) (cls : BitVec 2) : Act Unit := do
  storeReady l
  change (storeRuns l data cls)

/-! ### Read-modify-writes (R256, R276) -/

/-- A store of a run of bytes is held behind a release of the core (R274). -/
def Core.heldMeets (k : Core) (pa n : Nat) : Bool :=
  k.releases.any fun r => (span pa n).any fun a => (contByte r.cont a).isSome

/-- The core's owned value of a byte; a store behind its own release is not performed yet (R274). -/
def Core.performedByte (k : Core) (a : Nat) : Option Byte :=
  match k.owned.get? a with
  | some b => some b
  | none => k.releases.reverse.findSome? fun r => r.bytes.get? a

/-- Bytes that the core wrote have been published now: no later load of the core goes below (R248). -/
def noteOwn (c : Nat) (l : List Nat) (s : State) : State :=
  let k := s.core c
  s.setCore c { k with floors := l.foldl (fun t a => t.put a s.now) k.floors }

/-- Publish the core's owned bytes of one 64-byte block (R256). (DEDUCED, log 78) -/
def publishOwned (c blk : Nat) (s : State) : State :=
  let k := s.core c
  let l := (span (64 * blk) 64).filterMap fun a => (k.performedByte a).map fun b => (a, b)
  let drop (t : Tbl Byte) : Tbl Byte := t.filter fun a _ => a / 64 != blk
  let k := { k with
    owned := drop k.owned, releases := k.releases.map fun r => { r with bytes := drop r.bytes } }
  noteOwn c (l.map (·.1)) (publishBytes l (s.setCore c k))

/-- A read-modify-write of one run of at most 8 bytes: the old value, and the new one written when
`f` gives one. (DEDUCED, log 33; DEDUCED, log 78) -/
def rmw (c : Chunk) (f : Nat → Option Nat) : Act Nat := do
  let s ← get
  match c.place with
  | .home pa ms => do
    if logStall s (pa / 64) || (if ms then s.cc.heldMeets pa c.len else s.cc.heldMeets (pa / 64 * 64) 64) then stall 9
    change fun s =>
      if ms then s
      else publishOwned s.cur.core (pa / 64) (settleLoads s.cur.core (·.meets pa c.len) s)
    let s ← get
    let m := memNat s.mem pa c.len
    let new := (f m).map (toBytes c.len)
    match new with
    | some d => change (publishBytes (atAddr pa d))
    | none => pure ()
    if !ms then
      let d := new.getD (toBytes c.len m)
      changeCore fun k => { k.keepNear (atAddr pa d) with
        instants := if (k.instants.get? (pa / 64)).isSome then k.instants else k.instants.put (pa / 64) s.now }
      change (noteOwn s.cur.core (span pa c.len))
    pure m
  | .host _ => pure 0
  | .remote _ _ => pure 0
  | p => do
    let m := ofBytes (localRead s s.cur.core p c.len)
    match f m with
    | some x => change (localWrite s.cur.core p (toBytes c.len x))
    | none => pure ()
    pure m

/-! ### Publishing (R245) -/

/-- Publish one 64-byte block of the oldest release half of a core (R245): at its home, or as a store
packet towards another package. A full undo log holds it back, and a page that is being moved (R378, R423). -/
def publishBlock (c blk : Nat) (s : State) : State :=
  let k := s.core c
  match k.releases with
  | [] => s
  | r :: rest =>
    let l := r.bytes.entries.filter fun e => e.1 / 64 == blk
    if l.isEmpty then s
    else
      let s' := s.setCore c { k with
        releases := { r with bytes := r.bytes.filter fun a _ => a / 64 != blk } :: rest }
      if pkgBits (64 * blk) ≠ s.ident.pkg then
        sendStore c ((l.head?.map (·.1)).getD 0) l s'
      else if sealStall s blk || underMove s (64 * blk) then s
      else noteOwn c (l.map (·.1)) (publishBytes l s')

end Sys2Proof.Machine
end

