-- ==== Sys2Proof/Machine/MemoryWords.lean ====
section
/-!
DEFINITION. The memory words: loads, stores, atomics, ordered contributions, boundaries, rings, carving,
prefetch and translation invalidation (R266 to R288).
-/

namespace Sys2Proof.Machine

open Sys2Proof

/-! ### Addresses (R267, R269) -/

/-- The address of the repetition at hand: base + OFF + i · STR, wrapping in 64 bits. -/
def memAddr (w : Wrd) (s : State) : Nat :=
  wrapN 64 (s.cs.base.toNat + w.off.toInt + s.cs.repd * toSigned 16 (bits w.imm 31 16))

/-- SEG (R267). -/
def segOf (w : Wrd) : Nat := bits w.imm 7 0

/-- The queue that Q names (R267). -/
def queueOf (w : Wrd) : Nat := bits w.imm 11 9

/-- Bytes of one repetition. -/
def sizeOf' (w : Wrd) : Nat := sizeBytes (mSizeCode w)

/-- The order has an acquire half. -/
def hasAcq (w : Wrd) : Bool := mOrder w == 1 || mOrder w == 3

/-- The order has a release half. -/
def hasRel (w : Wrd) : Bool := mOrder w == 2 || mOrder w == 3

/-! ### Loads (R271, R272) -/

/-- A repetition of a queue load: it allocates an entry; guarded off the entry is all zeros. -/
def queueLoad (w : Wrd) (resolve : Nat → Act (List Chunk)) (acq : Bool) : Act Unit := do
  latchBase w
  let s ← get
  let q := queueOf w
  needRoom (s.cc.loadQ q).entries.length
  if guardOff w s then pushLq q 0 true none
  else do
    let l ← resolve (memAddr w s)
    let (v, src) ← loadRuns l acq w.ac 0 false
    pushLq q v false src

/-- A repetition of a register load. -/
def registerLoad (w : Wrd) (resolve : Nat → Act (List Chunk)) (acq : Bool) (L : Nat) : Act Unit := do
  latchBase w
  let s ← get
  if guardOff w s then pure ()
  else do
    let l ← resolve (memAddr w s)
    let (v, src) ← loadRuns l acq w.ac (sizeOf' w) (bit w.imm 8)
    addPend (.reg w.dst) (BitVec.allOnes 64) v 0 L false src

/-- LD (R271). -/
def execLd (w : Wrd) (s : State) : Host.Outcome State Fault Refusal :=
  word w (queueLoad w (fun a => resolveLocal a (sizeOf' w) 0) false) s

/-- LDA (R270, R271). -/
def execLda (w : Wrd) (s : State) : Host.Outcome State Fault Refusal :=
  word w (registerLoad w (fun a => resolveLocal a (sizeOf' w) 0) false 12) s

/-- LDG (R271, R272). -/
def execLdg (w : Wrd) (s : State) : Host.Outcome State Fault Refusal :=
  word w (queueLoad w (fun a => resolveGlobal (segOf w) a (sizeOf' w) 0) (hasAcq w)) s

/-- LDGA (R270, R271, R272). -/
def execLdga (w : Wrd) (s : State) : Host.Outcome State Fault Refusal :=
  word w (registerLoad w (fun a => resolveGlobal (segOf w) a (sizeOf' w) 0) (hasAcq w) 40) s

/-- PF (R287): a prefetch changes no value, is no access, and takes no fault. (DEDUCED, log 42) -/
def execPf (w : Wrd) (s : State) : Host.Outcome State Fault Refusal := word w (pure ()) s

/-! ### Translation invalidation (R288) -/

/-- The cores that a scope instance of core `c` covers (R243). -/
def inScope (s : State) (scope c x : Nat) : Bool :=
  match scope with
  | 0 => x == c
  | 1 => x / 8 == c / 8
  | 2 => s.dieOf x == s.dieOf c
  | _ => true

/-- Drop cached translations that satisfy `p` in the TLBs of the cores reached and the caches of their
dies. -/
def dropXlats (scope c ctx : Nat) (p : Xlat → Bool) (s : State) : State :=
  let reached (x : Nat) : Bool :=
    x == c || (inScope s scope c x && (s.launch (s.core x).launch).ctx == ctx)
  let dies := (s.dom.cores.keys.filter reached).map s.dieOf
  let keep (x : Xlat) : Bool := !p x
  let cores := s.dom.cores.mapVals fun x k =>
    if reached x then { k with tlb := k.tlb.filter keep } else k
  let ds := s.dom.dies.mapVals fun d x =>
    if d == s.dieOf c || dies.any (· == d) then { x with xlat := x.xlat.filter keep } else x
  { s with dom := { s.dom with cores := cores, dies := ds } }

/-- The root-slot check of `inval.page` (R289). -/
def rootCheck (seg addr : Nat) : Act Unit := do
  let s ← get
  let r := (s.ctx s.cl.ctx).pgroot.get 0 (seg / 16)
  if bit r 0 then do
    if bit r 1 || badNode s.ident.pkg r then raiseMem seg 4 0 4 addr
    if 0xE80000000 ≤ entryPa r % 2 ^ 45 then raiseMem seg 4 0 5 addr

/-- The address of an `inval.page`: base + OFF. -/
def invalAddr (w : Wrd) (s : State) : Nat := wrapN 64 ((regVal s w.sa).toNat + w.off.toInt)

/-- INVAL_PAGE (R288). -/
def execInvalPage (w : Wrd) (s : State) : Host.Outcome State Fault Refusal :=
  word w (do
    let s ← get
    if guardOff w s then pure ()
    else do
      let a := invalAddr w s
      rootCheck (segOf w) a
      let ctx := s.cl.ctx
      change (dropXlats (mScope w) s.cur.core ctx fun x => x.covers ctx (segOf w * 2 ^ 64 + a))) s

/-- INVAL_CTX (R288): every translation of the context with G = 0. -/
def execInvalCtx (w : Wrd) (s : State) : Host.Outcome State Fault Refusal :=
  word w (do
    let s ← get
    if guardOff w s then pure ()
    else
      let ctx := s.cl.ctx
      change (dropXlats (mScope w) s.cur.core ctx fun x => x.ctx == ctx && !bit x.leaf 7)) s

/-- INVAL_ALL (R288): G = 1 included; at user privilege the privilege fault. -/
def execInvalAll (w : Wrd) (s : State) : Host.Outcome State Fault Refusal :=
  word w (do
    let s ← get
    if guardOff w s then pure ()
    else do
      raiseIf (s.cc.csrN 0 == 0) 0x0E
      let ctx := s.cl.ctx
      change (dropXlats (mScope w) s.cur.core ctx fun x => x.ctx == ctx || bit x.leaf 7)) s

/-! ### Carving (R223, R286) -/

/-- The carve count of a die: the ways that its launches hold (R223). -/
def carveCount (s : State) (die : Nat) : Nat :=
  (s.dom.launches.vals).foldl (fun n l => n + l.ways.get 0 die) 0

/-- The grant that a request for `c` ways leaves (R286). -/
def carveGrant (g k c : Nat) : Nat := if g < c then g + Nat.min (c - g) (12 - k) else c

/-- Set a launch's grant on a die; bytes above it are discarded (R223). -/
def setGrant (launch die n : Nat) (s : State) : State :=
  let l := s.launch launch
  s.setLaunch launch { l with
    ways := l.ways.put die n
    dieStore := l.dieStore.put die ((l.store die).filter fun e => decide (e.1 < 8388608 * n)) }

/-- CARVE (R286). -/
def execCarve (w : Wrd) (s : State) : Host.Outcome State Fault Refusal :=
  word w (do
    let s ← get
    if guardOff w s then pure ()
    else do
      let d := s.dieOf s.cur.core
      let c := Nat.min ((regVal s w.sa).toNat % 256) 12
      let n := carveGrant (s.cl.ways.get 0 d) (carveCount s d) c
      change (setGrant s.cc.launch d n)
      writeReg w.dst (BitVec.ofNat 64 n) 1) s

/-! ### Atomics (R275, R276) -/

/-- The new value of an atomic: none when it does not write. -/
abbrev AtomFn := Nat → Nat → Nat → Option Nat

/-- The old value that an atomic on another package returns (R276): the request goes to the home once
the store sequence has been published there. An acquire acts once it has been answered (R242). -/
def remoteAtomic (w : Wrd) (c : Chunk) (pa op n : Nat) (v : List Dword) : Act Nat := do
  let s ← get
  if s.inDomain (pkgBits pa) = false then raiseMem (segOf w) c.level 2 2 (memAddr w s)
  if s.reserved 0 s.cur.core (pkgBits pa) = false then raiseCode 0x33
  awaitStarted fun s =>
    startSequence s.cur.core (pkgBits pa) (if hasRel w then some (mScope w) else none) s
  accessReady [c]
  let l ← foreignBytes 1 pa n Config.remoteByte
  let s ← get
  if hasAcq w then changeCore fun k => { k with acquires := k.acquires ++ [.packet s.dom.nextId] }
  let x := toBytes n (opndAt v 0) ++ (if op = 0x297 then toBytes n (opndAt v 1) else [])
  let signed := if bit w.imm 8 then 4096 else 0
  change (sendPacket 0 4 s.cur.core (pkgBits pa) pa 0 0 (op + signed) 0 (atAddr pa x) [])
  pure (ofBytes l)

/-- A repetition of an atomic. `op` is its opcode. -/
def atomicRep (op : Nat) (w : Wrd) (f : AtomFn) : Act Unit := do
  latchBase w
  let s ← get
  if guardOff w s then pure ()
  else do
    let n := sizeOf' w
    let a := memAddr w s
    let v ← slotOpnds [w.sb, w.sc]
    let l ← if bit w.imm 13 then resolveLocal a n 2 else resolveGlobal (segOf w) a n 2
    let c := l.headD ⟨0, n, 15, .spad 0⟩
    let o := opndAt v 0 % 2 ^ (8 * n)
    let x := opndAt v 1 % 2 ^ (8 * n)
    let m ← match c.place with
      | .host _ => raiseMem (segOf w) c.level 2 2 a
      | .remote pa ms => do
        let m ← remoteAtomic w c pa op n v
        let new := toBytes n ((f m o x).getD m)
        if !ms then changeCore (·.keepNear (atAddr pa new))
        pure m
      | _ => do
        if hasRel w then awaitRelease (mScope w)
        accessReady l
        afterContribs l w.ac
        let m ← rmw c fun m => f m o x
        if hasAcq w then change (acquireHalf s.cur.core)
        pure m
    if isZ w.dst then pure ()
    else
      addPend (.reg w.dst) (BitVec.allOnes 64)
        (BitVec.ofNat 2048 (extend (8 * n) (!bit w.imm 8) m)) 0 64 false none

/-- The value of an operand for a comparison: signed when SX is 1 (R275). -/
def atomVal (w : Wrd) (x : Nat) : Int :=
  if bit w.imm 8 then toSigned (8 * sizeOf' w) x else (x : Int)

/-- ATADD (R275). -/
def execAtadd (w : Wrd) (s : State) : Host.Outcome State Fault Refusal :=
  word w (atomicRep 0x290 w fun m o _ => some (m + o)) s

/-- ATMIN (R275). -/
def execAtmin (w : Wrd) (s : State) : Host.Outcome State Fault Refusal :=
  word w (atomicRep 0x291 w fun m o _ => some (if atomVal w o < atomVal w m then o else m)) s

/-- ATMAX (R275). -/
def execAtmax (w : Wrd) (s : State) : Host.Outcome State Fault Refusal :=
  word w (atomicRep 0x292 w fun m o _ => some (if atomVal w m < atomVal w o then o else m)) s

/-- ATAND (R275). -/
def execAtand (w : Wrd) (s : State) : Host.Outcome State Fault Refusal :=
  word w (atomicRep 0x293 w fun m o _ => some (m &&& o)) s

/-- ATOR (R275). -/
def execAtor (w : Wrd) (s : State) : Host.Outcome State Fault Refusal :=
  word w (atomicRep 0x294 w fun m o _ => some (m ||| o)) s

/-- ATXOR (R275). -/
def execAtxor (w : Wrd) (s : State) : Host.Outcome State Fault Refusal :=
  word w (atomicRep 0x295 w fun m o _ => some (m ^^^ o)) s

/-- ATXCH (R275). -/
def execAtxch (w : Wrd) (s : State) : Host.Outcome State Fault Refusal :=
  word w (atomicRep 0x296 w fun _ o _ => some o) s

/-- ATCAS (R275): it writes only when the location holds the expected value. -/
def execAtcas (w : Wrd) (s : State) : Host.Outcome State Fault Refusal :=
  word w (atomicRep 0x297 w fun m o x => if m = o then some x else none) s

/-! ### Ordered contributions (R277, R278, R292) -/

/-- Take the next operation number of a view (R292). -/
def takeNumber (view : Nat) (k : Core) : Core :=
  { k with tlIssued := k.tlIssued.put view (k.tlIssued.get 0 view + 1) }

/-- Number `n` of a view has completed: the done count passes every number completed (R292). -/
def advanceDone (view : Nat) : Nat → Nat → List (Nat × Nat) → Nat × List (Nat × Nat)
  | 0, d, l => (d, l)
  | fuel + 1, d, l =>
    if l.any (· == (view, d + 1)) then
      advanceDone view fuel (d + 1) (l.filter (· != (view, d + 1)))
    else (d, l)

/-- A core that has counted the completion of operation `n` of a view (R292). -/
def countDone (view n : Nat) (k : Core) : Core :=
  let l := k.tlOut ++ [(view, n)]
  let r := advanceDone view (l.length + 1) (k.tlDone.get 0 view) l
  { k with tlDone := k.tlDone.put view r.1, tlOut := r.2 }

/-- The done counts of a saved context stand in its image (R349, R372). -/
def noteDone (launch c view : Nat) (s : State) : State :=
  if (s.core c).launch = launch then s
  else match (s.dom.saved.get? (1024 * launch + c)), (s.ctx (s.launch launch).ctx).coreArea.get? c with
    | some k, some a =>
      publishRun (a + 0x1440 + 8 * view) (toBytes 8 (k.tlDone.get 0 view)) s
    | _, _ => s

/-- An access whose acquire half has waited for it has been performed: the acquire half acts (R242, R276,
R277). A context that is stopped has no load outstanding. -/
def acquireDone (launch c : Nat) (a : Acq) (s : State) : State :=
  if (s.ctxCore launch c).acquires.any (· == a) then
    let drop (k : Core) : Core := { k with acquires := k.acquires.filter (· != a) }
    if (s.core c).launch = launch then acquireHalf c (s.setCore c (drop (s.core c)))
    else
      let s := s.onCtxCore launch c drop
      if ((s.core c).served.map (·.launch)) = some launch then acquireHalf c s
      else s.onCtxCore launch c fun k =>
        { k with near := .empty, instants := .empty, floor := s.now, floors := .empty, stores := [] }
  else s

/-- Count the completion of operation `n` of a view of a launch on core `c` (R292). -/
def completeNumber (launch c view n : Nat) (s : State) : State :=
  acquireDone launch c (.number view n) (noteDone launch c view (s.onCtxCore launch c (countDone view n)))

/-- Send a contribution to its engine: a flight of this package, or a packet (R277, R384). -/
def sendContrib (w : Wrd) (p : Place) (a : Nat) (x : List Dword) : Act Unit := do
  let s ← get
  let n := sizeOf' w
  let index := opndAt x 1 % 2 ^ 32
  let num := s.cc.tlIssued.get 0 1 + 1
  let v := opndAt x 0 % 2 ^ (8 * n)
  let op := bits w.imm 10 8 + (if bit w.imm 11 then 8 else 0)
  match p with
  | .remote pa _ => do
    if s.reserved 2 s.cur.core (pkgBits pa) = false then raiseCode 0x33
    change fun s => noteVa s.dom.nextId s.cl.ctx (segOf w * 2 ^ 64 + a)
      (sendPacket 2 4 s.cur.core (pkgBits pa) pa num 1 op index (atAddr pa (toBytes n v)) [] s)
  | .home pa _ =>
    change fun s =>
      let c : Contrib :=
        { id := s.dom.nextId, pkg := s.ident.pkg, core := s.cur.core, launch := s.cc.launch, num := num,
          op := bits w.imm 10 8, last := bit w.imm 11, pa := pa, va := a, seg := segOf w,
          index := index, value := BitVec.ofNat 64 v, since := s.clk.wcyc, cls := w.ac }
      { s with dom := { s.dom with
        contribs := s.dom.contribs ++ [c], nextId := s.dom.nextId + 1 } }
  | _ => pure ()
  changeCore (takeNumber 1)

/-- RDO (R277, R278). An acquire acts once the contribution has been applied (R242). -/
def execRdo (w : Wrd) (s : State) : Host.Outcome State Fault Refusal :=
  word w (do
    latchBase w
    let s ← get
    if guardOff w s then pure ()
    else do
      let a := memAddr w s
      let x ← slotOpnds [w.sb, w.sc]
      let l ← resolveGlobal (segOf w) a (sizeOf' w) 2
      let c := l.headD ⟨0, sizeOf' w, 15, .host 0⟩
      let notms : FaultInfo :=
        { code := 0x12, aux := 1, faux0 := (BitVec.ofNat 64 a),
          faux1 := (BitVec.ofNat 64 (segOf w <<< 32 + opndAt x 1 % 2 ^ 32)) }
      match c.place with
      | .home _ ms => if !ms then raise notms
      | .remote pa ms => do
        if !ms then raise notms
        if s.inDomain (pkgBits pa) = false then raiseMem (segOf w) c.level 2 2 a
      | _ => raise notms
      if hasRel w then awaitRelease (mScope w)
      accessReady l
      sendContrib w c.place a x
      if hasAcq w then changeCore fun k =>
        { k with acquires := k.acquires ++ [.number 1 (k.tlIssued.get 0 1)] }) s

/-! ### Boundaries and fences (R279, R280) -/

/-- PHASE (R279): a release half begins; an acquire half acts; a full boundary waits between them. -/
def execPhase (w : Wrd) (s : State) : Host.Outcome State Fault Refusal :=
  word w (do
    let s ← get
    if wordOff w s then pure ()
    else match mOrder w with
      | 1 => change (acquireHalf s.cur.core)
      | 2 => change (startRelease s.cur.core (mScope w) .none)
      | _ => do
        awaitRelease (mScope w)
        change (acquireHalf s.cur.core)) s

/-- FENCE (R253, R280): it stands before the next access of the engine, which waits for every access that
the engine issued before. -/
def execFence (w : Wrd) (s : State) : Host.Outcome State Fault Refusal :=
  word w (do
    let s ← get
    if wordOff w s then pure () else changeStream fun t => { t with fence := true }) s

/-! ### Rings (R217 to R220, R281 to R285) -/

/-- The geometry of a ring. -/
structure Ring where
  base : Nat
  nsl : Nat
  lsz : Nat
deriving DecidableEq, Repr

/-- The geometry that GEOM holds (R217). -/
def ringGeom (b : Bed) (n : Nat) : Ring :=
  let g : Dword := BitVec.ofNat 64 (ctlWord b.store (64 * n) 8)
  ⟨bits g 20 0, bits g 35 24, bits g 39 36⟩

/-- The size of a slot. -/
def Ring.slot (r : Ring) : Nat := 2 ^ (r.lsz + 6)

/-- The configuration check of ring `n` (R219). -/
def ringOk (s : State) (n : Nat) (r : Ring) : Bool :=
  s.cl.nest.rings.testBit n && r.nsl != 0 && decide (r.lsz ≤ 10) && r.base % 64 == 0 &&
  decide (0x400 ≤ r.base) && decide (r.base + r.nsl * r.slot ≤ 0x200000)

/-- The local address of slot j. -/
def Ring.addr (r : Ring) (j : Nat) : Nat := 0x4000000000000000 + r.base + j * r.slot

/-- The slot that a local address names (R281). -/
def Ring.find (r : Ring) (a : Nat) : Option Nat := (span 0 r.nsl).find? fun j => r.addr j == a

/-- Counts from lo up to hi modulo 2^32, at most `fuel` of them. -/
def countsFrom (lo hi : Nat) : Nat → List Nat
  | 0 => []
  | fuel + 1 => if lo % 2 ^ 32 = hi % 2 ^ 32 then [] else lo % 2 ^ 32 :: countsFrom (lo + 1) hi fuel

/-- Slot j holds some count of a window. -/
def inWindow (nsl lo hi j : Nat) : Bool := (countsFrom lo hi nsl).any fun k => k % nsl == j

/-- A count passes every consecutive marked slot, clearing the marks (R218). (DEDUCED, log 41) -/
def passMarks (nsl : Nat) : Nat → Nat → List Nat → Nat × List Nat
  | 0, k, l => (k, l)
  | fuel + 1, k, l =>
    if l.any (· == k % nsl) then
      passMarks nsl fuel ((k + 1) % 2 ^ 32) (l.filter (· != k % nsl))
    else (k, l)

/-- Set a fill mark and advance FC (R218, R283). -/
def ringFillMark (n j : Nat) (b : Bed) : Bed :=
  let r := ringGeom b n
  let p := passMarks r.nsl (r.nsl + 1) (ringFC b n) (insertN j (b.ring n).fill)
  { b with
    store := memWrite b.store (64 * n + 12) (toBytes 4 p.1)
    marks := b.marks.put n { b.ring n with fill := p.2 } }

/-- Set a free mark and advance EC (R218, R283). -/
def ringFreeMark (n j : Nat) (b : Bed) : Bed :=
  let r := ringGeom b n
  let p := passMarks r.nsl (r.nsl + 1) (ringEC b n) (insertN j (b.ring n).free)
  { b with
    store := memWrite b.store (64 * n + 8) (toBytes 4 p.1)
    marks := b.marks.put n { b.ring n with free := p.2 } }

/-- The ring-configuration fault (R237, R281). (DEDUCED, log 17) -/
def ringFault {α : Type} (addr : Nat) : Act α := do
  let acc ← draw 3
  raiseMem 0 15 acc 8 addr

/-- The ring-configuration fault of a ring that no access names a byte of: MFB is free.
(DEDUCED, log 17) -/
def ringUnusable {α : Type} : Act α := do
  let a ← freeAddr
  ringFault a

/-- A ring mark or a remote arrival of core `c` has not been applied yet. -/
def arrivalsOpen (s : State) (c : Nat) : Bool :=
  s.dom.remote.any (·.core == c) ||
  s.fab.sent.any fun p => p.core == c && p.typ == 4 && decide (256 ≤ p.op) && decide (p.op < 512)

/-- What follows a release half acts on a ring or a barrier. -/
def Cont.ordered : Cont → Bool
  | .ringFill _ _ _ _ => true
  | .ringFree _ _ _ _ => true
  | .remoteArrive _ _ _ _ _ => true
  | _ => false

/-- Ring and barrier accesses of a core are applied in issue order: the word waits for those issued before
it (R326). -/
def issueOrder : Act Unit := fun s =>
  if arrivalsOpen s s.cur.core || s.cc.releases.any (·.cont.ordered) then stall 9 s else .ok ((), s)

/-- The number of the ring that a word names. -/
def ringOf (w : Wrd) : Nat := bits w.imm 3 0

/-- The ring of a word, checked (R219, R281). A ring word is an access of A: it waits for an acquire that is still
to act, and for those before a `fence` (R272, R280). (DEDUCED, log 41) -/
def ringCheck (w : Wrd) : Act (Nat × Ring) := do
  accessReady []
  let s ← get
  let b := s.bedOf s.cur.core
  let r := ringGeom (s.bed b) (ringOf w)
  if ringOk s (ringOf w) r then pure (b, r) else ringUnusable

/-- The cores of a bed whose claim on a ring waits (R220). -/
def claimers (s : State) (b n : Nat) : List Nat :=
  s.dom.cores.keys.filter fun c =>
    s.bedOf c == b && (s.core c).mode == .running && ((s.core c).stream 0).hold == .claim n

/-- A claim of this wall cycle has been served that comes after that of the core in cyclic CRN order: the core's
claim is taken as one of the next cycle (R220). (DEDUCED, log 104) -/
def claimLate (s : State) (m : Marks) : Bool :=
  match m.served with
  | some (cyc, base) => cyc == s.clk.wcyc &&
      decide ((s.cur.core % 8 + 15 - base) % 8 ≤ (m.last + 15 - base) % 8)
  | none => false

/-- The marks of a ring whose claim by the core at hand has been served. (DEDUCED, log 104) -/
def claimServed (s : State) (m : Marks) : Marks :=
  { m with
    last := s.cur.core % 8
    served := match m.served with
      | some (cyc, base) => if cyc = s.clk.wcyc then some (cyc, base) else some (s.clk.wcyc, m.last)
      | none => some (s.clk.wcyc, m.last) }

/-- RCLAIM (R282). Claims that wait together, or come in one wall cycle, are served in cyclic CRN order
(R220). -/
def execRclaim (w : Wrd) (s : State) : Host.Outcome State Fault Refusal :=
  word w (do
    let s ← get
    if guardOff w s then pure ()
    else do
      let (b, r) ← ringCheck w
      let n := ringOf w
      let x := s.bed b
      let cc := ringCC x n
      let next := nextCrn (x.ring n).last (insertN s.cur.core (claimers s b n))
      if (cc + 2 ^ 32 - ringEC x n) % 2 ^ 32 = r.nsl ∨ next ≠ some s.cur.core ∨ claimLate s (x.ring n) = true then do
        changeStream fun t => { t with hold := .claim n }
        stall 9
      else do
        issueOrder
        change fun s => s.setBed b { s.bed b with
          store := memWrite (s.bed b).store (64 * n + 16) (toBytes 4 (cc + 1))
          marks := (s.bed b).marks.put n (claimServed s ((s.bed b).ring n)) }
        writeReg w.dst (BitVec.ofNat 64 (r.addr (cc % r.nsl))) 2) s

/-- A mark of the slot is already set, or on its way behind a release of a core of the bed.
(DEDUCED, log 41) -/
def markPending (s : State) (b : Nat) (marks : List Nat) (c : Cont) (j : Nat) : Bool :=
  marks.any (· == j) || s.dom.cores.keys.any fun x =>
    s.bedOf x == b && (s.core x).releases.any fun r => r.cont == c

/-- RFILL (R281, R283): the mark is set when the release of bed scope has completed. -/
def execRfill (w : Wrd) (s : State) : Host.Outcome State Fault Refusal :=
  word w (do
    let s ← get
    if guardOff w s then pure ()
    else do
      let (b, r) ← ringCheck w
      let n := ringOf w
      let a := (regVal s w.sa).toNat
      let x := s.bed b
      match r.find a with
      | none => ringFault a
      | some j =>
        if !inWindow r.nsl (ringFC x n) (ringCC x n) j ||
            markPending s b (x.ring n).fill (.ringFill s.cc.launch b n j) j then ringFault a
        else change (startRelease s.cur.core 1 (.ringFill s.cc.launch b n j))) s

/-- RFREE (R281, R283). -/
def execRfree (w : Wrd) (s : State) : Host.Outcome State Fault Refusal :=
  word w (do
    let s ← get
    if guardOff w s then pure ()
    else do
      let (b, r) ← ringCheck w
      let n := ringOf w
      let a := (regVal s w.sa).toNat
      let x := s.bed b
      match r.find a with
      | none => ringFault a
      | some j =>
        if !inWindow r.nsl (ringEC x n) (ringFC x n) j ||
            markPending s b (x.ring n).free (.ringFree s.cc.launch b n j) j then ringFault a
        else change (startRelease s.cur.core 1 (.ringFree s.cc.launch b n j))) s

/-- A count has passed k (R284). -/
def passed (count k : Nat) : Bool := decide ((count + 2 ^ 32 - k % 2 ^ 32 - 1 + 2 ^ 32) % 2 ^ 32 < 2 ^ 31)

/-- RWAITF (R284). -/
def execRwaitf (w : Wrd) (s : State) : Host.Outcome State Fault Refusal :=
  word w (do
    let s ← get
    if guardOff w s then pure ()
    else do
      let (b, r) ← ringCheck w
      issueOrder
      let k := (regVal s w.sa).toNat % 2 ^ 32
      if passed (ringFC (s.bed b) (ringOf w)) k then do
        change (acquireHalf s.cur.core)
        writeReg w.dst (BitVec.ofNat 64 (r.addr (k % r.nsl))) 2
      else stall 9) s

/-- RWAITE (R284). -/
def execRwaite (w : Wrd) (s : State) : Host.Outcome State Fault Refusal :=
  word w (do
    let s ← get
    if guardOff w s then pure ()
    else do
      let (b, _) ← ringCheck w
      issueOrder
      let k := (regVal s w.sa).toNat % 2 ^ 32
      if passed (ringEC (s.bed b) (ringOf w)) k then change (acquireHalf s.cur.core)
      else stall 9) s

/-! ### Stores (R273, R274) -/

/-- The runs of a store behind its release, by place. -/
def heldRuns (l : List Chunk) (data : List Byte) : List (Place × List Byte) :=
  (cutData data (blocksOf l)).map fun c => (c.1.place, c.2)

/-- The runs of a store with release order are issued: loads of the core before it take their values, and it
may race (R252). -/
def issueHeld (cls : BitVec 2) (s : State) (r : Place × List Byte) : State :=
  match r.1 with
  | .home pa false => noteStore false pa r.2 cls (settleStore pa r.2 cls s)
  | _ => s

/-- A store to another package that follows a release of narrower scope replaces what the core owns there of
earlier stores: that release does not publish it (R261, R274). -/
def dropFar (scope : Nat) (l : List (Place × List Byte)) (s : State) : State :=
  if scope = 4 then s
  else s.modCore fun k => { k with owned := k.owned.filter fun a _ => !(l.any fun r =>
    match r.1 with
    | .remote pa false => (runByte pa r.2 a).isSome
    | _ => false) }

/-- A store behind a release half of a scope (R274). -/
def releaseStore (cls : BitVec 2) (scope : Nat) (l : List Chunk) (data : List Byte) : Act Unit := do
  storeReady l
  change fun s => startRelease s.cur.core scope (.store (heldRuns l data))
    ((heldRuns l data).foldl (issueHeld cls) (dropFar scope (heldRuns l data) s))

/-- A store with its order: written now, or when its release half has completed (R274). -/
def orderedStore (w : Wrd) (l : List Chunk) (data : List Byte) : Act Unit :=
  if hasRel w then releaseStore w.ac (mScope w) l data else doStore l data w.ac

/-- A repetition of a store of a popped queue entry. -/
def queueStore (w : Wrd) (resolve : Nat → Act (List Chunk)) : Act Unit := do
  latchBase w
  let s ← get
  let e ← sqHead (queueOf w)
  if guardOff w s then do let _ ← popSq (queueOf w); pure ()
  else do
    let l ← resolve (memAddr w s)
    storeReady l
    let _ ← popSq (queueOf w)
    orderedStore w l (toBytes (sizeOf' w) e.data.toNat)

/-- ST (R273). -/
def execSt (w : Wrd) (s : State) : Host.Outcome State Fault Refusal :=
  word w (queueStore w fun a => resolveLocal a (sizeOf' w) 1) s

/-- STG (R273, R274). -/
def execStg (w : Wrd) (s : State) : Host.Outcome State Fault Refusal :=
  word w (queueStore w fun a => resolveGlobal (segOf w) a (sizeOf' w) 1) s

/-- STW (R273, R274): the low bytes of a w register. -/
def execStw (w : Wrd) (s : State) : Host.Outcome State Fault Refusal :=
  word w (do
    latchBase w
    let s ← get
    if guardOff w s then pure ()
    else do
      let n := sizeOf' w
      let l ← if bit w.imm 13 then resolveGlobal (segOf w) (memAddr w s) n 1
        else resolveLocal (memAddr w s) n 1
      orderedStore w l (toBytes n (regVal s w.sb).toNat)) s

end Sys2Proof.Machine
end

