-- ==== Sys2Proof/Machine/Async.lean ====
section
/-!
DEFINITION. The words of the asynchronous engines: barrow copies, timeline waits, transaction
barriers, grids, parameter-block reductions and page transplants (R291 to R336).
-/

namespace Sys2Proof.Machine

open Sys2Proof

/-! ### Views (R291, R292, R319) -/

/-- The view that VSEL names, given the default view. -/
def viewOf (w : Wrd) (dflt : Nat) : Nat :=
  let v := bits w.imm 13 12
  if v = 0 then dflt else v + 4

/-- Issued count of a view. -/
def issuedOf (k : Core) (view : Nat) : Nat := k.tlIssued.get 0 view

/-- Done count of a view. -/
def doneOf (k : Core) (view : Nat) : Nat := k.tlDone.get 0 view

/-- Take the next number of a view and write it to DST with latency 1. -/
def giveNumber (w : Wrd) (view : Nat) : Act Nat := do
  let s ← get
  let n := issuedOf s.cc view + 1
  changeCore (takeNumber view)
  writeReg w.dst (BitVec.ofNat 64 n) 1
  pure n

/-! ### Transaction barriers (R314 to R316, R326, R327) -/

/-- The counts of a barrier (R314). -/
structure Barrier where
  sec1 : Int
  sec0 : Int
  arr1 : Nat
  arr0 : Nat
  init : Nat
  ph : Nat
deriving DecidableEq, Repr

/-- Read a barrier from its 16 bytes. -/
def barOf (l : List Byte) : Barrier :=
  let b : BitVec 128 := BitVec.ofNat 128 (ofBytes l)
  { sec1 := toSigned 32 (bits b 127 96), sec0 := toSigned 32 (bits b 95 64), arr1 := bits b 63 48,
    arr0 := bits b 47 32, init := bits b 31 16, ph := bits b 3 0 }

/-- The 16 bytes of a barrier. -/
def barBytes (b : Barrier) : List Byte :=
  toBytes 16 (wrapN 32 b.sec1 * 2 ^ 96 + wrapN 32 b.sec0 * 2 ^ 64 + b.arr1 * 2 ^ 48 +
    b.arr0 * 2 ^ 32 + b.init * 2 ^ 16 + b.ph)

/-- One pass of the completion step (R315). (DESIGN CHOICE, log 115) -/
def barPass (b : Barrier) : Barrier :=
  if b.arr0 = 0 ∧ b.sec0 = 0 then
    { b with ph := (b.ph + 1) % 16, arr0 := b.init - b.arr1, sec0 := b.sec1, arr1 := 0, sec1 := 0 }
  else b

/-- The completion step: at most two passes (R315). -/
def barStep (b : Barrier) : Barrier := barPass (barPass b)

/-- The slot that a phase tag selects (R315). -/
def barSlot (b : Barrier) (tag : Option Nat) : Option Nat :=
  match tag with
  | none => some 0
  | some t => if t = b.ph then some 0 else if t = (b.ph + 1) % 16 then some 1 else none

/-- The value lies in I32. -/
def inI32 (x : Int) : Bool := decide (-(2 ^ 31 : Int) ≤ x) && decide (x < (2 ^ 31 : Int))

/-- An arrival (R315): none is the barrier-count fault. -/
def barArrive (tag : Option Nat) (b : Barrier) : Option Barrier :=
  match barSlot b tag with
  | some 0 => if b.arr0 = 0 then none else some (barStep { b with arr0 := b.arr0 - 1 })
  | some _ => if b.arr1 = b.init then none else some (barStep { b with arr1 := b.arr1 + 1 })
  | none => none

/-- Add sectors, declared or landed (R315): none is the barrier-count fault. -/
def barSectors (tag : Option Nat) (m : Int) (b : Barrier) : Option Barrier :=
  match barSlot b tag with
  | some 0 => if inI32 (b.sec0 + m) then some (barStep { b with sec0 := b.sec0 + m }) else none
  | some _ => if inI32 (b.sec1 + m) then some (barStep { b with sec1 := b.sec1 + m }) else none
  | none => none

/-- The place of a barrier at a local address: in the scratchpad or the bed store, aligned (R314,
R326). It is applied after the ring and barrier accesses of the core that were issued before. -/
def barPlace (addr : Nat) : Act Place := do
  raiseIf (decide (2 ≤ addr / 2 ^ 62 % 4) || addr % 16 != 0) 0x15
  let l ← resolveLocal addr 16 2
  accessReady l
  issueOrder
  match l with
  | c :: _ => pure c.place
  | [] => raiseCode 0x15

/-- The barrier at a local place. -/
def readBar (s : State) (c : Nat) (p : Place) : Barrier := barOf (localRead s c p 16)

/-- Write a barrier back. -/
def writeBar (c : Nat) (p : Place) (b : Barrier) (s : State) : State :=
  localWrite c p (barBytes b) s

/-- Apply an operation to a barrier of the issuing core, or take the barrier-count fault (R315). -/
def onBar (p : Place) (f : Barrier → Option Barrier) : Act Unit := do
  let s ← get
  match f (readBar s s.cur.core p) with
  | none => raiseCode 0x16
  | some b => change (writeBar s.cur.core p b)

/-- The phase tag of a word from the value of SC: its bits [3:0], none when SC is z (R326). -/
def tagVal (w : Wrd) (sc : Nat) : Option Nat := if isZ w.sc then none else some (sc % 16)

/-- The phase tag of a word (R326). -/
def tagOf (w : Wrd) (s : State) : Option Nat := tagVal w (regVal s w.sc).toNat

/-- The name of a barrier among the completions that it observes (R257). -/
def barName (p : Place) : Option (Nat × Nat) :=
  match p with
  | .spad o => some (0, o)
  | .bedStore o => some (1, o)
  | _ => none

/-- BARINIT (R315, R326). -/
def execBarinit (w : Wrd) (s : State) : Host.Outcome State Fault Refusal :=
  word w (do
    let s ← get
    if wordOff w s then pure ()
    else do
      let p ← barPlace (regVal s w.sa).toNat
      let c := (regVal s w.sb).toNat
      raiseIf (c == 0 || decide (65535 < c)) 0x16
      change (writeBar s.cur.core p ⟨0, 0, 0, c, c, 0⟩)) s

/-- BAREXP (R315, R326). -/
def execBarexp (w : Wrd) (s : State) : Host.Outcome State Fault Refusal :=
  word w (do
    let s ← get
    if wordOff w s then pure ()
    else do
      let p ← barPlace (regVal s w.sa).toNat
      let m := (regVal s w.sb).toInt
      raiseIf (!inI32 m) 0x16
      onBar p (barSectors (tagOf w s) m)) s

/-- BARARR (R317, R326): a release arrival is applied once its release half has completed. -/
def execBararr (w : Wrd) (s : State) : Host.Outcome State Fault Refusal :=
  word w (do
    let s ← get
    if wordOff w s then pure ()
    else do
      let v ← slotOpnds [w.sa, w.sc]
      let a := opndAt v 0
      let bed := a / 2 ^ 62 % 4
      raiseIf (decide (2 ≤ bed) || a % 16 != 0) 0x15
      if hasRel w then awaitRelease (if bed = 0 then 0 else 1)
      let p ← barPlace a
      onBar p (barArrive (tagVal w (opndAt v 1)))) s

/-- BARARR_REM (R317, R327): the arrival leaves when its release half has completed. A barrier outside the
seal domain is refused (R384). (DEDUCED, log 118) -/
def execBararrRem (w : Wrd) (s : State) : Host.Outcome State Fault Refusal :=
  word w (do
    let s ← get
    if wordOff w s then pure ()
    else do
      let a := (regVal s w.sa).toNat
      let t := regVal s w.sb
      let off := a % 2 ^ 62
      let pkg := bits t 43 32
      let core := bits t 9 0
      let bed := s.bedOf core
      raiseIf (a / 2 ^ 62 != 1 || off % 16 != 0 || decide (2097152 < off + 16)) 0x15
      raiseIf (bits t 63 44 != 0 || bits t 31 10 != 0) 0x15
      raiseIf (pkg == s.ident.pkg && bed == s.bedOf s.cur.core) 0x15
      if !s.inDomain pkg then raiseMem 0 15 2 2 a
      if pkg ≠ s.ident.pkg then remoteReady (pkg * 2 ^ 48)
      change (startRelease s.cur.core (if pkg = s.ident.pkg then 3 else 4)
        (.remoteArrive s.cc.launch pkg bed off (tagOf w s)))) s

/-- BARWAIT (R316): the wait, then the acquire and the completions that the barrier counts (R257). -/
def execBarwait (w : Wrd) (s : State) : Host.Outcome State Fault Refusal :=
  word w (do
    let s ← get
    if wordOff w s then pure ()
    else do
      let p ← barPlace (regVal s w.sa).toNat
      let b := readBar s s.cur.core p
      let d := (b.ph + 16 - (regVal s w.sb).toNat % 16) % 16
      if 1 ≤ d ∧ d ≤ 8 then
        change fun s =>
          observe s.cur.core (fun x => x.bar.isSome && x.bar == barName p) (acquireHalf s.cur.core s)
      else stall 9) s

/-! ### Barrow words (R294, R295, R321 to R324) -/

/-- A copy descriptor (R321). -/
structure CopyDesc where
  dst : Nat
  src : Nat
  cyc : Nat
  len : Nat
  bar : Nat
  dseg : Nat
  sseg : Nat
  fl : Nat
  rsv : Nat
deriving DecidableEq, Repr

/-- A little-endian field of a record of bytes. -/
def fieldOf (l : List Byte) (off n : Nat) : Nat := ofBytes ((l.drop off).take n)

/-- Read a copy descriptor. -/
def copyDesc (l : List Byte) : CopyDesc :=
  { dst := fieldOf l 0 8, src := fieldOf l 8 8, cyc := fieldOf l 16 8, len := fieldOf l 24 8,
    bar := fieldOf l 32 8, dseg := fieldOf l 40 1, sseg := fieldOf l 41 1, fl := fieldOf l 42 2,
    rsv := fieldOf l 44 20 }

/-- The fields of a copy descriptor are in range (R321, R322). -/
def copyOk (d : CopyDesc) : Bool :=
  d.rsv == 0 && d.fl / 512 == 0 && (d.fl.testBit 0 || d.fl / 8 == 0) &&
  (d.fl.testBit 4 || d.fl / 32 == 0) && decide (64 ≤ d.len) && decide (d.len ≤ 2 ^ 32) &&
  d.len % 64 == 0 && d.src % 64 == 0 && d.dst % 64 == 0

/-- Translate and check one range of a copy (R295). -/
def copyRange (loc : Bool) (seg addr len acc : Nat) : Act (List Chunk) := do
  let l ← if loc then resolveLocalRange addr len acc 64
    else resolveRange seg acc (len / 65536 + 2) 0 addr len
  let bad := l.any fun c =>
    match c.place with
    | .host _ => true
    | .remote _ _ => true
    | _ => false
  raiseIf bad 0x14
  pure l

/-- The order in which a core waits for a copy-buffer entry, if it does (R294). -/
def entryWait (k : Core) : Option Nat :=
  if k.mode = .running then
    match (k.stream 0).hold with
    | .copyEntry n => some n
    | _ => none
  else none

/-- A word that waits for an entry comes before the word at hand (R296). -/
def entryBefore (s : State) (since : Nat) (c : Nat) : Bool :=
  c != s.cur.core && s.dieOf c == s.dieOf s.cur.core &&
  match entryWait (s.core c) with
  | some n => decide (n < since) || (n == since && decide (c < s.cur.core))
  | none => false

/-- Wait for a copy-buffer entry (R294, R296). -/
def awaitEntry : Act Unit := do
  let s ← get
  let since := match s.cs.hold with
    | .copyEntry n => n
    | _ => s.clk.wcyc
  let full := decide (64 ≤ (s.die (s.dieOf s.cur.core)).copies.length)
  if full || s.dom.cores.keys.any (entryBefore s since) then
    if full && s.seqn s.cur.core == .timed then raiseCode 0x0D
    else do
      changeStream fun t => { t with hold := .copyEntry since }
      stall 9
  else pure ()

/-- The completion cycles of the 64 most recent numbers of a view (R323). -/
def pushCopy (view n : Nat) (k : Core) : Core :=
  { k with
    copies := k.copies.put view
      ((k.copies.get [] view ++ [CopyRec.mk n none]).filter fun r =>
        decide (n < r.num + 64)) }

/-- BTCPY (R294, R295, R321, R322). -/
def execBtcpy (w : Wrd) (s : State) : Host.Outcome State Fault Refusal :=
  word w (do
    let s ← get
    if wordOff w s then pure ()
    else do
      let a := (regVal s w.sa).toNat
      raiseIf (a % 64 != 0) 0x14
      let d := copyDesc (spadRead s.cc (a % 2 ^ s.cc.scr) 64)
      raiseIf (!copyOk d) 0x14
      let src ← copyRange (d.fl.testBit 1) d.sseg d.src d.len 0
      let dst ← copyRange (d.fl.testBit 2) d.dseg d.dst d.len 1
      let bar ← if d.fl.testBit 0 then do
          let p ← barPlace d.bar
          pure (some p)
        else pure none
      awaitEntry
      let tag := if d.fl.testBit 4 then some (d.fl / 32 % 16) else none
      match bar with
      | some p => if d.fl.testBit 3 then onBar p (barSectors tag (d.len / 64 : Nat)) else pure ()
      | none => pure ()
      let view := viewOf w 0
      let n ← giveNumber w view
      changeCore (pushCopy view n)
      let die := s.dieOf s.cur.core
      change fun s =>
        let x := s.die die
        let far := (src ++ dst).any fun c =>
          match c.place with
          | .home pa _ => dieBits pa != die
          | _ => false
        let c : Copy :=
          { entry := x.nextEntry, core := s.cur.core, launch := s.cc.launch, view := view, num := n,
            src := src, dst := dst, len := d.len, cyc := d.cyc, bar := bar.bind barName, tag := tag,
            dur := (ceilDiv d.len 512 + (if far then 160 else 40)), start := none,
            since := s.clk.wcyc, begun := s.cc.moves, got := .empty, written := [], cut := false }
        s.setDie die { x with copies := x.copies ++ [c], nextEntry := x.nextEntry + 1 }) s

/-- BTQ (R323). -/
def execBtq (w : Wrd) (s : State) : Host.Outcome State Fault Refusal :=
  word w (do
    let s ← get
    if wordOff w s then pure ()
    else do
      let view := viewOf w 0
      let n := (regVal s w.sa).toNat
      let i := issuedOf s.cc view
      raiseIf (n == 0 || decide (i < n) || decide (n + 64 ≤ i)) 0x13
      match (s.cc.copies.get [] view).find? fun r => r.num = n with
      | none => raiseCode 0x13
      | some r =>
        match r.done with
        | none => stall 9
        | some x => writeReg w.dst (BitVec.ofNat 64 x) 2) s

/-- The target of a `waitc` (R324). (DEDUCED, log 19) -/
def waitTarget (w : Wrd) (s : State) : Nat :=
  ((regVal s w.sa) + (w.imm.signExtend 64)).toNat

/-- What a `waitc` does when SCYC has reached its target (R257, R324). -/
def cycleReached (target : Nat) (acq : Bool) (s : State) : State :=
  let s := s.modCore fun k => { k with counted := Nat.max k.counted target }
  if acq then acquireHalf s.cur.core s else s

/-- The end of a `waitc`: the engine is held until SCYC reaches the target (R324). -/
def finWaitc (w : Wrd) : Act Unit := do
  let s ← get
  nextWord
  if wordOff w s then pure ()
  else
    let t := waitTarget w s
    if t ≤ s.clk.scyc then change (cycleReached t (hasAcq w))
    else changeStream fun x => { x with hold := .cycle t (hasAcq w), wait := 9 }

/-- WAITC (R324): in timetabled mode a target above SCYC is a timetable violation. -/
def execWaitc (w : Wrd) (s : State) : Host.Outcome State Fault Refusal :=
  issueWord (slot w (do
    let s ← get
    raiseIf (!wordOff w s && s.seqn s.cur.core == .timed && decide (s.clk.scyc < waitTarget w s))
      0x0D) (finWaitc w)) s

/-- TLWAIT (R293, R325). -/
def execTlwait (w : Wrd) (s : State) : Host.Outcome State Fault Refusal :=
  word w (do
    let s ← get
    if wordOff w s then pure ()
    else do
      let view := bits w.imm 2 0
      let n := (regVal s w.sa).toNat
      raiseIf (decide (issuedOf s.cc view < n)) 0x13
      if n ≤ doneOf s.cc view then
        change fun s => observe s.cur.core (fun x => x.view == view && decide (x.num ≤ n))
          (acquireHalf s.cur.core s)
      else stall 9) s

/-! ### Grids (R300 to R308, R328 to R331) -/

/-- Bytes of an element of a grid. -/
def gridZ (fmt : Nat) : Nat := if fmt = 1 then 8 else if fmt = 0 then 4 else 2

/-- The halo width. -/
def Grid.halo (g : Grid) : Nat := g.dep * g.rad

/-- Partitions along an axis. -/
def Grid.parts (g : Grid) (a : Nat) : Nat :=
  if g.pax0 = a then g.np0 else if g.pax1 = a then g.np1 else 1

/-- The local extent of an axis (R301). -/
def Grid.local_ (g : Grid) (a : Nat) : Nat := (g.ext[a]?.getD 1) / g.parts a

/-- The extent of a box along an axis (R302). -/
def Grid.box (g : Grid) (a : Nat) : Nat := if a < g.ndim then g.local_ a + 2 * g.halo else 1

/-- Cells of a box. -/
def Grid.cells (g : Grid) : Nat := g.box 0 * g.box 1 * g.box 2

/-- Bytes of a bank (R302). -/
def Grid.bank (g : Grid) : Nat := ceilDiv (g.cells * gridZ g.fmt) 64 * 64

/-- Partitions of a grid. -/
def Grid.count (g : Grid) : Nat := g.np0 * g.np1

/-- The box coordinates of an element number. -/
def Grid.coord (g : Grid) (e a : Nat) : Nat :=
  if a = 0 then e % g.box 0
  else if a = 1 then e / g.box 0 % g.box 1
  else e / (g.box 0 * g.box 1)

/-- VA[63:0] of a box element (R302). -/
def Grid.elemVa (g : Grid) (p bank e : Nat) : Nat :=
  (g.base + p * g.pstr + bank * g.bank + e * gridZ g.fmt) % 2 ^ 64

/-- The bank of a step (R302). -/
def Grid.bankOf (g : Grid) (t : Nat) : Nat := t / g.dep % 2

/-- The ghost regions that an element touches: faces 2a (low) and 2a + 1 (high) (R302). -/
def Grid.faces (g : Grid) (e : Nat) : List Nat :=
  (span 0 g.ndim).flatMap fun a =>
    let x := g.coord e a
    (if x < g.halo then [2 * a] else []) ++
    (if g.halo + g.local_ a ≤ x then [2 * a + 1] else [])

/-- Read a grid descriptor, storage pages and owners apart (R300). -/
def gridDesc (l : List Byte) : Grid :=
  let f := fieldOf l
  { base := f 0 8, ext := [f 8 4, f 12 4, f 16 4], ndim := f 20 1, fmt := f 21 1, dep := f 22 1,
    rad := f 23 1, pax0 := f 24 1, pax1 := f 25 1, np0 := f 26 1, np1 := f 27 1, seg := f 28 1,
    rule := (span 0 6).map fun i => f (32 + i) 1, fval := BitVec.ofNat 64 (f 40 8), owners := [],
    pstr := f 56 8, pages := .empty, published := .empty, latest := .empty, heldSet := .empty }

/-- A descriptor meets R300 and R301, its owners and storage apart. (DEDUCED, log 17) -/
def gridOk (l : List Byte) (g : Grid) : Bool :=
  let f := fieldOf l
  let r (i : Nat) : Nat := (g.rule[i]?).getD 0
  let e (i : Nat) : Nat := (g.ext[i]?).getD 0
  g.base % 64 == 0 && decide (1 ≤ g.ndim) && decide (g.ndim ≤ 3) && decide (g.fmt ≤ 3) &&
  (span 0 3).all (fun a => decide (1 ≤ e a) && decide (e a ≤ 2 ^ 24) &&
    (decide (a < g.ndim) || e a == 1)) &&
  decide (1 ≤ g.dep) && decide (g.dep ≤ 8) && decide (1 ≤ g.rad) && decide (g.rad ≤ 4) &&
  decide (g.halo ≤ 16) &&
  (if g.pax0 = 255 then g.np0 == 1 && g.pax1 == 255 else decide (g.pax0 < g.ndim)) &&
  (if g.pax1 = 255 then g.np1 == 1 else decide (g.pax1 < g.ndim) && g.pax1 != g.pax0) &&
  decide (1 ≤ g.np0) && decide (g.np0 ≤ 64) && decide (1 ≤ g.np1) && decide (g.np1 ≤ 64) &&
  f 29 3 == 0 && f 38 2 == 0 && f 64 64 == 0 &&
  decide ((g.fval).toNat < 2 ^ (8 * gridZ g.fmt)) &&
  (span 0 3).all (fun a => e a % g.parts a == 0 && (decide (g.ndim ≤ a) || decide (g.halo ≤ g.local_ a))) &&
  (span 0 6).all (fun i => decide (r i ≤ 5)) &&
  (span 0 3).all (fun a => (r (2 * a) == 0) == (r (2 * a + 1) == 0)) &&
  g.pstr % 64 == 0 && decide (2 * g.bank ≤ g.pstr)

/-- A storage page translates as R301 asks, or the grid-descriptor fault; its physical base. -/
def gridPage (seg va : Nat) : Act Nat := do
  let s ← get
  let r ← tryAct' (translate seg va 0)
  match r with
  | .error (.stall c t) => fun _ => .error (.stall c t)
  | .error (.fault _ _) => raiseCode 0x17
  | .ok (e, level) => do
    let pa := physOf e level va
    raiseIf (!bit e 3 || bit e 5 || bit e 63 || pkgBits pa != s.ident.pkg ||
      decide (0xE80000000 ≤ pa % 2 ^ 45)) 0x17
    pure pa
where
  /-- A translation that may fail. -/
  tryAct' (a : Act (Dword × Nat)) : Act (Except Stop (Dword × Nat)) := fun s =>
    match a s with
    | .ok (x, t) => .ok (.ok x, t)
    | .error e => .ok (.error e, s)

/-- Check every page of a grid's storage (R301), from VA page numbers. -/
def gridPages (seg : Nat) : List Nat → Tbl Nat → Act (Tbl Nat)
  | [], t => pure t
  | p :: r, t =>
    match t.get? p with
    | some _ => gridPages seg r t
    | none => do
      let pa ← gridPage seg (65536 * p)
      gridPages seg r (t.put p pa)

/-- The page numbers that the storage of a grid covers. -/
def gridPageList (g : Grid) : List Nat :=
  (span 0 g.count).flatMap fun p =>
    let lo := (g.base + p * g.pstr) / 65536
    let hi := (g.base + p * g.pstr + 2 * g.bank - 1) / 65536
    (span lo (hi + 1 - lo)).map (· % 2 ^ 48)

/-- A publication of the grid is under way: its release, or its fills (R308). -/
def gridBusy (s : State) (launch grid : Nat) : Bool :=
  (s.dom.fills.any fun f => f.launch == launch && f.grid == grid) ||
  s.dom.cores.vals.any fun k => k.releases.any fun r =>
    match r.cont with
    | .gstep l g _ _ _ _ => l == launch && g == grid
    | _ => false

/-- GDEF (R300, R301, R308, R328). -/
def execGdef (w : Wrd) (s : State) : Host.Outcome State Fault Refusal :=
  word w (do
    let s ← get
    if wordOff w s then pure ()
    else do
      let id := bits w.imm 11 8
      let seg := bits w.imm 7 0
      let l ← resolveGlobal seg (regVal s w.sa).toNat 128 0
      let d ← loadNow l 0
      if gridBusy s s.cc.launch id then stall 9
      let g := gridDesc d
      raiseIf (!gridOk d g) 0x17
      let own := fieldOf d 48 8
      let n := 2 * g.count
      let lo ← resolveRange g.seg 0 (n / 65536 + 2) 0 own n
      let o ← loadNow lo 0
      let owners := (span 0 g.count).map fun p => fieldOf o (2 * p) 2
      raiseIf (owners.any fun c => !(s.cl.cores.any (· == c))) 0x17
      let pages ← gridPages g.seg (gridPageList g) .empty
      change fun s =>
        let x := s.cl
        s.setLaunch s.cc.launch { x with
          grids := x.grids.put id { g with owners := owners, pages := pages } }) s

/-- The defined grid of a word, or the grid-operand fault (R329, R330). -/
def gridOf (id p : Nat) : Act Grid := do
  let s ← get
  match s.cl.grids.get? id with
  | none => raiseCode 0x18
  | some g => do
    raiseIf (decide (g.count ≤ p)) 0x18
    pure g

/-- GSTEP (R303, R329): the step is taken; its slabs are read once its release has completed. -/
def execGstep (w : Wrd) (s : State) : Host.Outcome State Fault Refusal :=
  word w (do
    let s ← get
    if wordOff w s then pure ()
    else do
      let id := bits w.imm 3 0
      let p := (regVal s w.sa).toNat
      let t := (regVal s w.sb).toNat
      let g ← gridOf id p
      raiseIf ((g.owners[p]?).getD 0 != s.cur.core) 0x19
      raiseIf (t % g.dep != 0) 0x19
      match g.published.get? p with
      | some prev => raiseIf (t != prev + g.dep) 0x19
      | none => pure ()
      let view := viewOf w 2
      let n ← giveNumber w view
      change fun s =>
        let x := s.cl
        let g := { g with published := g.published.put p t }
        let s := s.setLaunch s.cc.launch { x with grids := x.grids.put id g }
        startRelease s.cur.core 3 (.gstep s.cc.launch id p t view n) s) s

/-- The first element of a repetition (R330). -/
def gridElem (w : Wrd) (s : State) : Nat :=
  wrapN 64 ((regVal s w.sa).toNat + s.cs.repd * toSigned 16 (bits w.imm 31 16))

/-- The grid-operand checks of `ldgs` and `stgs` (R330, R331): the grid and the elements. -/
def gridCheck (w : Wrd) : Act (Grid × List Nat) := do
  let s ← get
  let g ← gridOf (bits w.imm 3 0) (regVal s w.sb).toNat
  let z := gridZ g.fmt
  let e := gridElem w s
  let n := sizeOf' w / z
  raiseIf (sizeOf' w % z != 0 || decide (g.cells < e + n)) 0x18
  pure (g, span e n)

/-- The ghost regions that elements touch. -/
def regionsOf (g : Grid) (l : List Nat) : List Nat :=
  l.foldl (fun r e => (g.faces e).foldl (fun r f => insertN f r) r) []

/-- The held set and the latest step of a ghost region (R305). -/
def heldOf (g : Grid) (p f : Nat) : List Nat := g.heldSet.get [] (8 * p + f)

/-- The slot-times that the engine has waited for a ghost tag. -/
def haloPassed (t : Stream) : Nat :=
  match t.hold with
  | .halo n => n
  | _ => 0

/-- The tag that the `ldgs` of the issuing stream names is held by every region that it reads. -/
def tagHeld (w : Wrd) (s : State) : Bool :=
  match s.cl.grids.get? (bits w.imm 3 0) with
  | none => false
  | some g =>
    let l := span (gridElem w s) (sizeOf' w / gridZ g.fmt)
    let p := (regVal s w.sb).toNat
    (regionsOf g l).all fun f => (heldOf g p f).any (· == (regVal s w.sc).toNat)

/-- A wait for a ghost tag has ended unserved: HWAIT slot-times have passed (R306). -/
def haloExpired (s : State) : Bool :=
  match s.cs.hold with
  | .halo n => decide ((s.cc.csrN 0x030).toNat ≤ n)
  | _ => false

/-- Wait for a ghost tag, up to HWAIT (R306). -/
def awaitTag : Act Unit := do
  let s ← get
  if (s.cc.csrN 0x030).toNat ≤ haloPassed s.cs then raiseCode 0x1A
  else do
    changeStream fun t => { t with hold := .halo (haloPassed t) }
    stall 9

/-- LDGS (R306, R330). All bytes that the phase does not give are read at one instant. -/
def execLdgs (w : Wrd) (s : State) : Host.Outcome State Fault Refusal :=
  word w (do
    let s ← get
    let q := queueOf w
    needRoom (s.cc.loadQ q).entries.length
    if guardOff w s then pushLq q 0 true none
    else do
      let (g, l) ← gridCheck w
      let p := (regVal s w.sb).toNat
      let t := (regVal s w.sc).toNat
      let a := g.elemVa p (g.bankOf t) (l.headD 0)
      let ch ← resolveRange g.seg 0 2 0 a (sizeOf' w)
      let rs := regionsOf g l
      let holds (f : Nat) : Bool := (heldOf g p f).any (· == t)
      raiseIf (haloExpired s) 0x1A
      let past := rs.any fun f =>
        !holds f && !(heldOf g p f).isEmpty && decide (t ≤ g.latest.get 0 (8 * p + f))
      raiseIf past 0x1B
      if rs.isEmpty then do
        let (v, src) ← loadRuns ch false w.ac 0 false
        pushLq q v false (src.map fun x => { x with one := true })
      else if rs.all holds then do
        accessReady ch
        let data := ch.flatMap fun c =>
          match c.place with
          | .home pa _ => (span pa c.len).map fun x => ((s.cc.ownByte x).getD (memGet s.mem x))
          | _ => List.replicate c.len 0
        change (acquireHalf s.cur.core)
        pushLq q (BitVec.ofNat 2048 (ofBytes data)) false none
      else awaitTag) s

/-- STGS (R307, R331). -/
def execStgs (w : Wrd) (s : State) : Host.Outcome State Fault Refusal :=
  word w (do
    let s ← get
    let q := queueOf w
    let e ← sqHead q
    if guardOff w s then do let _ ← popSq q; pure ()
    else do
      let (g, l) ← gridCheck w
      let p := (regVal s w.sb).toNat
      let t := (regVal s w.sc).toNat
      raiseIf (!(regionsOf g l).isEmpty || (g.owners[p]?).getD 0 != s.cur.core) 0x1C
      let a := g.elemVa p (g.bankOf t) (l.headD 0)
      let ch ← resolveRange g.seg 1 2 0 a (sizeOf' w)
      let id := bits w.imm 3 0
      let reading := s.dom.fills.any (fun f =>
          f.launch == s.cc.launch && f.grid == id && f.part == p && f.step + 2 * g.dep == t) ||
        s.cc.releases.any (fun r =>
          match r.cont with
          | .gstep x i part st _ _ =>
            x == s.cc.launch && i == id && part == p && st + 2 * g.dep == t
          | _ => false)
      if reading then stall 9
      storeReady ch
      let _ ← popSq q
      doStore ch (toBytes (sizeOf' w) e.data.toNat) w.ac) s

/-! ### Parameter-block reductions (R312, R332, R333) -/

/-- Bytes of an element of a reduction format. -/
def redZ (fmt : Nat) : Nat := if fmt = 1 ∨ fmt = 5 then 8 else if fmt = 2 ∨ fmt = 3 then 2 else 4

/-- A parameter block meets R332. -/
def blockOk (l : List Byte) : Bool :=
  let f := fieldOf l
  let n := f 0x18 1
  f 0 8 % 64 == 0 && f 8 8 % 8 == 0 && decide (1 ≤ f 0x10 8) && decide (f 0x10 8 ≤ 2 ^ 32) &&
  decide (2 ≤ n) && decide (n ≤ 16) && decide (f 0x19 1 ≤ 5) && f 0x1A 1 == 0 && f 0x28 24 == 0 &&
  (span 0 16).all fun i => if i < n then f (0x40 + 8 * i) 8 % 64 == 0 else f (0x40 + 8 * i) 8 == 0

/-- Translate a range of a reduction for an access (R333). -/
def redRange (seg addr len acc : Nat) : Act (List Chunk) :=
  resolveRange seg acc (len / 65536 + 2) 0 addr len

/-- The dies on which runs are homed; none when a run is not homed in the package. -/
def homesOf (l : List Chunk) : Option (List Nat) :=
  l.foldl (fun r c =>
    match r, c.place with
    | some t, .home pa _ => some (insertN (dieBits pa) t)
    | _, _ => none) (some [])

/-- The physical address of the first byte of a range. -/
def firstPa (l : List Chunk) : Nat :=
  match l with
  | c :: _ => c.place.addr
  | [] => 0

/-- Translate every buffer of a block. -/
def bufRanges (seg len : Nat) : List Nat → Act (List (List Chunk))
  | [] => pure []
  | a :: r => do
    let x ← redRange seg a len 0
    let t ← bufRanges seg len r
    pure (x :: t)

/-- RDXGO (R312, R313, R333). (DEDUCED, log 117) -/
def execRdxgo (w : Wrd) (s : State) : Host.Outcome State Fault Refusal :=
  word w (do
    let s ← get
    if wordOff w s then pure ()
    else do
      let va := (regVal s w.sa).toNat
      let seg := bits w.imm 7 0
      let bl ← resolveGlobal seg va 192 0
      let d ← loadNow bl 0
      raiseIf (!blockOk d) 0x1D
      let f := fieldOf d
      let sg := f 0x1B 1
      let len := f 0x10 8 * redZ (f 0x19 1)
      let _ ← redRange seg va 192 1
      let _ ← redRange sg (f 8 8) 8 0
      let fl ← redRange sg (f 8 8) 8 1
      let _ ← redRange sg (f 0 8) len 0
      let dst ← redRange sg (f 0 8) len 1
      let bufs ← bufRanges sg len ((span 0 (f 0x18 1)).map fun i => f (0x40 + 8 * i) 8)
      match homesOf (bl ++ fl ++ dst ++ bufs.flatten) with
      | some [die] => do
        let view := viewOf w 1
        let n ← giveNumber w view
        change fun s =>
          let id := s.dom.nextId
          let r : Reduce :=
            { id := id, core := s.cur.core, launch := s.cc.launch, view := view, num := n,
              block := firstPa bl, flag := firstPa fl, dst := dst, bufs := bufs,
              fval := BitVec.ofNat 64 (f 0x20 8), count := f 0x10 8, fmt := f 0x19 1,
              released := false, running := false, floor := 0, summed := [], flags := 0 }
          let s := { s with dom := { s.dom with nextId := id + 1 } }
          let s := s.setDie die { s.die die with reductions := (s.die die).reductions ++ [r] }
          startRelease s.cur.core 3 (.reduce s.cc.launch die id) s
      | _ => raiseCode 0x1D) s

/-! ### Page transplants (R334) -/

/-- The leaf entry of an address: where it stands, the entry and its level. -/
def leafAt (m : Memory) (pkg : Nat) (sup : Bool) (va : Nat) : Nat → Nat → Nat → Option (Nat × Dword × Nat)
  | 0, _, _ => none
  | fuel + 1, level, node =>
    let at_ := node + 8 * (va / 2 ^ (55 - 13 * level) % 8192)
    let e : Dword := BitVec.ofNat 64 (memNat m at_ 8)
    if !bit e 0 then none
    else if bit e 1 then
      if level = 0 || badLeaf sup level e then none else some (at_, e, level)
    else if level = 3 || badNode pkg e then none
    else leafAt m pkg sup va fuel (level + 1) (entryPa e)

/-- The leaf of an address of a context. -/
def leafOf (s : State) (x : Ctx) (va : Nat) : Option (Nat × Dword × Nat) :=
  let r := x.pgroot.get 0 (va / 2 ^ 68 % 16)
  if !bit r 0 || bit r 1 || badNode s.ident.pkg r then none
  else leafAt s.mem s.ident.pkg x.supervisor va 4 0 (entryPa r)

/-- A virtual address lies in a range of its segment, which may wrap (R227). -/
def inRange (lo len va : Nat) : Bool :=
  va / 2 ^ 64 == lo / 2 ^ 64 && decide ((va % 2 ^ 64 + 2 ^ 64 - lo % 2 ^ 64) % 2 ^ 64 < len)

/-- Two ranges of virtual addresses meet. -/
def rangesMeet (a n b m : Nat) : Bool := inRange a n b || inRange b m a

/-- The pages of a range from an address on: leaf address, entry, size. A node that no memory backs and a
key outside the key set are memory faults (R231, R336); a page that no valid leaf of this package maps
wholly inside the range is the transplant-range fault (R334). (DEDUCED, log 17; DEDUCED, log 89) -/
def rangePages (seg : Nat) : Nat → Nat → Nat → Act (List (Nat × Dword × Nat))
  | 0, _, _ => pure []
  | fuel + 1, addr, left => do
    let s ← get
    let x := s.ctx s.cl.ctx
    let va := seg * 2 ^ 64 + addr
    match walk s x va, leafOf s x va with
    | .leaf e level, some (a, _, _) => do
      if leafStop x e 0 = some 3 then raiseMem seg level 0 3 addr
      let z := pageSize level
      raiseIf (addr % z != 0 || decide (left < z) || bit e 63 || pkgBits (entryPa e) != s.ident.pkg) 0x1E
      if left = z then pure [(a, e, z)]
      else do
        let l ← rangePages seg fuel ((addr + z) % 2 ^ 64) (left - z)
        pure ((a, e, z) :: l)
    | .stop 5 level, _ => raiseMem seg level 0 5 addr
    | _, _ => raiseCode 0x1E

/-- New bases of the pages, one after another (R422). -/
def newBases : Nat → List (Nat × Dword × Nat) → List (Nat × Nat × Nat × Nat)
  | _, [] => []
  | p, (a, e, z) :: r => (a, entryPa e, z, p) :: newBases (p + z) r

/-- PGMIG (R334). -/
def execPgmig (w : Wrd) (s : State) : Host.Outcome State Fault Refusal :=
  word w (do
    let s ← get
    if wordOff w s then pure ()
    else do
      raiseIf (s.cc.csrN 0 == 0) 0x0E
      let lo := bits w.imm 7 0 * 2 ^ 64 + (regVal s w.sa).toNat
      let len := (regVal s w.sb).toNat
      let p := (regVal s w.sc).toNat
      raiseIf (lo % 65536 != 0 || len % 65536 != 0 || len == 0 || decide (2 ^ 32 < len)) 0x1E
      let ctx := s.cl.ctx
      if s.dom.transplants.any fun t =>
          t.ctx == ctx && rangesMeet t.va t.len lo len then stall 9
      let l ← rangePages (bits w.imm 7 0) (len / 65536) (lo % 2 ^ 64) len
      let z := l.foldl (fun z x => Nat.max z x.2.2) 65536
      raiseIf (p % z != 0 || pkgBits p != s.ident.pkg || decide (2 ^ 60 ≤ p) ||
        decide (0xE80000000 < p % 2 ^ 45 + len)) 0x1E
      raiseIf (l.any fun x => dieBits (entryPa x.2.1) == dieBits p) 0x1E
      if l.any fun x => bit x.2.1 8 then stall 9
      let n ← giveNumber w 4
      change fun s =>
        let t : Transplant :=
          { id := s.dom.nextId, core := s.cur.core, launch := s.cc.launch, ctx := ctx, num := n,
            va := lo, len := len, dst := p, step := 0, copied := 0, pages := newBases p l }
        { s with dom := { s.dom with
          transplants := s.dom.transplants ++ [t], nextId := s.dom.nextId + 1 } }) s

end Sys2Proof.Machine
end

