-- ==== Sys2Proof/Machine/Flags.lean ====
section
/-!
DEFINITION. Number formats, rounding, and the computation of floating flags and traps (R41 to R59).
-/

namespace Sys2Proof.Machine

open Sys2Proof

/-! ### Flags (R24, R56, R57) -/

/-- Flag bits of FFLG: NX 1, UF 2, OF 4, DZ 8, NV 16 (R24). -/
def flNX : Nat := 1
/-- Underflow. -/
def flUF : Nat := 2
/-- Overflow. -/
def flOF : Nat := 4
/-- Division by zero. -/
def flDZ : Nat := 8
/-- Invalid operation. -/
def flNV : Nat := 16

/-- One element's result: its pattern, the flags it raises, and whether an operand was a signalling
NaN. -/
structure FR where
  val : Nat
  flg : Nat
  snan : Bool
deriving DecidableEq, Repr

/-- The trap conditions of an element, laid out as FTEN (R57). -/
def FR.cause (r : FR) : Nat :=
  (if r.snan then 8 else 0) + (if r.flg.testBit 4 then 4 else 0) +
  (if r.flg.testBit 3 then 2 else 0) + (if r.flg.testBit 2 then 1 else 0)

/-! ### Formats (R42, R44) -/

/-- A binary floating-point format (R42). -/
structure Fmt where
  /-- exponent and fraction bits -/
  eb : Nat
  fb : Nat
  /-- E4M3: no infinity, one NaN magnitude -/
  e4m3 : Bool
deriving DecidableEq, Repr

/-- The binary format of a code 0 to 5 (R44). -/
def fmtOf (c : Nat) : Fmt :=
  match c with
  | 0 => ⟨8, 23, false⟩
  | 1 => ⟨11, 52, false⟩
  | 2 => ⟨5, 10, false⟩
  | 3 => ⟨8, 7, false⟩
  | 4 => ⟨4, 3, true⟩
  | _ => ⟨5, 2, false⟩

/-- FP32. -/
def fp32 : Fmt := fmtOf 0

namespace Fmt
/-- Bias of the exponent. -/
def bias (f : Fmt) : Int := (2 ^ (f.eb - 1) : Nat) - 1
/-- Exponent of the smallest normal value. -/
def emin (f : Fmt) : Int := 1 - f.bias
/-- Exponent of the largest finite value. -/
def emax (f : Fmt) : Int := if f.e4m3 then 8 else f.bias
/-- Precision with the leading bit. -/
def prec (f : Fmt) : Nat := f.fb + 1
/-- Bit of the sign. -/
def signPos (f : Fmt) : Nat := f.eb + f.fb
/-- The canonical NaN (R42). -/
def nan (f : Fmt) : Nat :=
  if f.e4m3 then 0x7F else (2 ^ f.eb - 1) * 2 ^ f.fb + 2 ^ (f.fb - 1)
/-- Infinity of a sign. -/
def inf (f : Fmt) (neg : Bool) : Nat := (2 ^ f.eb - 1) * 2 ^ f.fb + (if neg then 2 ^ f.signPos else 0)
/-- Pattern of the largest finite magnitude of a sign. -/
def maxf (f : Fmt) (neg : Bool) : Nat :=
  (if f.e4m3 then 0x7E else (2 ^ f.eb - 1) * 2 ^ f.fb - 1) + (if neg then 2 ^ f.signPos else 0)
/-- Zero of a sign. -/
def zero (f : Fmt) (neg : Bool) : Nat := if neg then 2 ^ f.signPos else 0
/-- Width in bits. -/
def width (f : Fmt) : Nat := f.eb + f.fb + 1
end Fmt

/-- A decoded value: ± m · 2^e, an infinity, or a NaN. -/
inductive FV where
  | fin (neg : Bool) (m : Nat) (e : Int)
  | inf (neg : Bool)
  | nan (sig : Bool)
deriving DecidableEq, Repr

/-- Decode a pattern of a binary format (R42). -/
def decodeF (f : Fmt) (x : Nat) : FV :=
  let frac := x % 2 ^ f.fb
  let ex := x >>> f.fb % 2 ^ f.eb
  let neg := x.testBit f.signPos
  if f.e4m3 && ex == 15 && frac == 7 then .nan false
  else if !f.e4m3 && ex == 2 ^ f.eb - 1 then
    if frac = 0 then .inf neg else .nan (!frac.testBit (f.fb - 1))
  else if ex = 0 then .fin neg frac (f.emin - f.fb)
  else .fin neg (2 ^ f.fb + frac) ((ex : Int) - f.bias - f.fb)

/-- A nonzero exact value: sign and quotient. -/
structure Ex where
  neg : Bool
  num : Nat
  den : Nat
deriving DecidableEq, Repr

/-- m · 2^e as a quotient. -/
def Ex.ofDyadic (neg : Bool) (m : Nat) (e : Int) : Ex :=
  if 0 ≤ e then ⟨neg, m * 2 ^ e.toNat, 1⟩ else ⟨neg, m, 2 ^ (-e).toNat⟩

/-- floor(log2(num / den)) for nonzero numbers. -/
def floorLog2 (num den : Nat) : Int :=
  let l : Int := (Nat.log2 num : Int) - Nat.log2 den
  let le := if 0 ≤ l then decide (den * 2 ^ l.toNat ≤ num) else decide (den ≤ num * 2 ^ (-l).toNat)
  if le then l else l - 1

/-- Quotient and remainder of a value by 2^sh, with the divisor. -/
def scaleDiv (num den : Nat) (sh : Int) : Nat × Nat × Nat :=
  let a := if sh < 0 then num * 2 ^ (-sh).toNat else num
  let b := if 0 ≤ sh then den * 2 ^ sh.toNat else den
  (a / b, a % b, b)

/-- The decision to round up of a mode 0 to 4 (R52). -/
def roundUp (mode : Nat) (neg : Bool) (n r b : Nat) : Bool :=
  match mode with
  | 0 => decide (b < 2 * r) || (2 * r == b && n % 2 == 1)
  | 1 => false
  | 2 => decide (0 < r) && !neg
  | 3 => decide (0 < r) && neg
  | _ => decide (b ≤ 2 * r)

/-- The pattern of n · 2^(e − P + 1) with n at most 2^P (R42). -/
def packF (f : Fmt) (neg : Bool) (n : Nat) (e : Int) : Nat :=
  let s := if neg then 2 ^ f.signPos else 0
  if n < 2 ^ f.fb then s + n
  else if n < 2 ^ f.prec then s + (e + f.bias).toNat * 2 ^ f.fb + (n - 2 ^ f.fb)
  else s + (e + 1 + f.bias).toNat * 2 ^ f.fb

/-- The result of an overflow (R53). -/
def overflowF (f : Fmt) (mode : Nat) (sat neg : Bool) : Nat :=
  if sat then f.maxf neg
  else if f.e4m3 then f.nan
  else match mode with
    | 1 => f.maxf neg
    | 2 => if neg then f.maxf neg else f.inf neg
    | 3 => if neg then f.inf neg else f.maxf neg
    | _ => f.inf neg

/-- Round a nonzero value to a format (R52, R53). -/
def roundF (f : Fmt) (mode : Nat) (sat : Bool) (v : Ex) : FR :=
  let e0 := floorLog2 v.num v.den
  let e := max e0 f.emin
  let sh := e - f.prec + 1
  let q := scaleDiv v.num v.den sh
  let n := q.1 + (if roundUp mode v.neg q.1 q.2.1 q.2.2 then 1 else 0)
  let nx := q.2.1 != 0
  let uf := nx && decide (e0 < f.emin)
  let top := if f.e4m3 then 14 else 2 ^ f.prec - 1
  let past := decide (f.emax < e) || (e == f.emax && decide (top < n))
  if past then ⟨overflowF f mode sat v.neg, flOF + flNX, false⟩
  else ⟨packF f v.neg n e, (if nx then flNX else 0) + (if uf then flUF else 0), false⟩

/-- What a word's fields and the control registers fix for its arithmetic (R44, R58). -/
structure FEnv where
  f : Fmt
  mode : Nat
  sat : Bool
  ftzIn : Bool
  ftzOut : Bool
deriving DecidableEq, Repr

/-- A finite value is below the smallest normal of a format and not zero. -/
def tiny (f : Fmt) (m : Nat) (e : Int) : Bool :=
  decide (m ≠ 0) && decide ((Nat.log2 m : Int) + e < f.emin)

/-- The input flush of R58. -/
def flushIn (on : Bool) (f : Fmt) (x : FV) : FV :=
  match x with
  | .fin neg m e => if on && tiny f m e then .fin neg 0 0 else x
  | _ => x

/-- The output flush of R58: a nonzero result below the smallest normal. -/
def flushOut (on : Bool) (f : Fmt) (r : FR) : FR :=
  let mag := r.val % 2 ^ f.signPos
  if on && decide (mag ≠ 0) && decide (mag < 2 ^ f.fb) then
    ⟨r.val - mag, r.flg ||| (flUF + flNX), r.snan⟩
  else r

/-- Round and flush a value that may be zero, of the given sign when it is. -/
def finish (E : FEnv) (zneg : Bool) (v : Ex) : FR :=
  if v.num = 0 then ⟨E.f.zero zneg, 0, false⟩
  else flushOut E.ftzOut E.f (roundF E.f E.mode E.sat v)

/-- The canonical NaN, with NV when an operand was signalling (R43). -/
def nanOut (f : Fmt) (snan : Bool) : FR := ⟨f.nan, if snan then flNV else 0, snan⟩

/-- The canonical NaN with NV. -/
def invalid (f : Fmt) (snan : Bool) : FR := ⟨f.nan, flNV, snan⟩

/-- A signalling NaN. -/
def FV.isSnan : FV → Bool
  | .nan true => true
  | _ => false

/-- A NaN. -/
def FV.isNan : FV → Bool
  | .nan _ => true
  | _ => false

/-- The exact sum of two signed dyadic numbers: the integer at the lower exponent, and the exponent. -/
def addDyadic (n1 : Bool) (m1 : Nat) (e1 : Int) (n2 : Bool) (m2 : Nat) (e2 : Int) : Int × Int :=
  let e := if m1 = 0 then e2 else if m2 = 0 then e1 else min e1 e2
  let a : Int := if m1 = 0 then 0 else (m1 * 2 ^ (e1 - e).toNat : Nat)
  let b : Int := if m2 = 0 then 0 else (m2 * 2 ^ (e2 - e).toNat : Nat)
  ((if n1 then -a else a) + (if n2 then -b else b), e)

/-- A sum of finite values, rounded: an exact zero is +0, −0 under RDN when the signs differ, and
keeps a common sign (R52). -/
def sumOut (E : FEnv) (n1 : Bool) (m1 : Nat) (e1 : Int) (n2 : Bool) (m2 : Nat) (e2 : Int) : FR :=
  let s := addDyadic n1 m1 e1 n2 m2 e2
  finish E (if n1 == n2 then n1 else E.mode == 3)
    (Ex.ofDyadic (decide (s.1 < 0)) s.1.natAbs s.2)

/-- x + y (R111). -/
def addF (E : FEnv) (x y : FV) : FR :=
  let sn := x.isSnan || y.isSnan
  match flushIn E.ftzIn E.f x, flushIn E.ftzIn E.f y with
  | .nan _, _ => nanOut E.f sn
  | _, .nan _ => nanOut E.f sn
  | .inf a, .inf b => if a == b then ⟨E.f.inf a, 0, false⟩ else invalid E.f false
  | .inf a, .fin _ _ _ => ⟨E.f.inf a, 0, false⟩
  | .fin _ _ _, .inf b => ⟨E.f.inf b, 0, false⟩
  | .fin n1 m1 e1, .fin n2 m2 e2 => sumOut E n1 m1 e1 n2 m2 e2

/-- The negated value. -/
def FV.neg : FV → FV
  | .fin n m e => .fin (!n) m e
  | .inf n => .inf (!n)
  | .nan s => .nan s

/-- x − y (R111). -/
def subF (E : FEnv) (x y : FV) : FR := addF E x y.neg

/-- x · y (R111). -/
def mulF (E : FEnv) (x y : FV) : FR :=
  let sn := x.isSnan || y.isSnan
  match flushIn E.ftzIn E.f x, flushIn E.ftzIn E.f y with
  | .nan _, _ => nanOut E.f sn
  | _, .nan _ => nanOut E.f sn
  | .inf a, .inf b => ⟨E.f.inf (a != b), 0, false⟩
  | .inf a, .fin b m _ => if m = 0 then invalid E.f false else ⟨E.f.inf (a != b), 0, false⟩
  | .fin a m _, .inf b => if m = 0 then invalid E.f false else ⟨E.f.inf (a != b), 0, false⟩
  | .fin n1 m1 e1, .fin n2 m2 e2 =>
    finish E (n1 != n2) (Ex.ofDyadic (n1 != n2) (m1 * m2) (e1 + e2))

/-- x · y + z rounded once; 0 · ∞ + z raises NV even for a quiet NaN z (R111). -/
def fmaF (E : FEnv) (x y z : FV) : FR :=
  let sn := x.isSnan || y.isSnan || z.isSnan
  let z' := flushIn E.ftzIn E.f z
  match flushIn E.ftzIn E.f x, flushIn E.ftzIn E.f y with
  | .nan _, _ => nanOut E.f sn
  | _, .nan _ => nanOut E.f sn
  | .inf a, .inf b => infPlus (a != b) z' sn
  | .inf a, .fin b m _ => if m = 0 then invalid E.f sn else infPlus (a != b) z' sn
  | .fin a m _, .inf b => if m = 0 then invalid E.f sn else infPlus (a != b) z' sn
  | .fin n1 m1 e1, .fin n2 m2 e2 =>
    match z' with
    | .nan _ => nanOut E.f sn
    | .inf c => ⟨E.f.inf c, 0, false⟩
    | .fin n3 m3 e3 => sumOut E (n1 != n2) (m1 * m2) (e1 + e2) n3 m3 e3
where
  infPlus (p : Bool) (z : FV) (sn : Bool) : FR :=
    match z with
    | .nan _ => nanOut E.f sn
    | .inf c => if p == c then ⟨E.f.inf p, 0, false⟩ else invalid E.f sn
    | .fin _ _ _ => ⟨E.f.inf p, 0, false⟩

/-- x / y (R56, R111). -/
def divF (E : FEnv) (x y : FV) : FR :=
  let sn := x.isSnan || y.isSnan
  match flushIn E.ftzIn E.f x, flushIn E.ftzIn E.f y with
  | .nan _, _ => nanOut E.f sn
  | _, .nan _ => nanOut E.f sn
  | .inf _, .inf _ => invalid E.f false
  | .inf a, .fin b _ _ => ⟨E.f.inf (a != b), 0, false⟩
  | .fin a _ _, .inf b => ⟨E.f.zero (a != b), 0, false⟩
  | .fin n1 m1 e1, .fin n2 m2 e2 =>
    let n := n1 != n2
    if m2 = 0 then if m1 = 0 then invalid E.f false else ⟨E.f.inf n, flDZ, false⟩
    else
      let a := Ex.ofDyadic n m1 (e1 - e2)
      finish E n ⟨n, a.num, a.den * m2⟩

/-- Integer square root by bits: the root of `x` below 2^k above `r`. -/
def isqrtBits (x : Nat) : Nat → Nat → Nat
  | 0, r => r
  | k + 1, r =>
    let c := r + 2 ^ k
    isqrtBits x k (if c * c ≤ x then c else r)

/-- The integer square root. -/
def isqrt (x : Nat) : Nat := isqrtBits x (Nat.log2 x / 2 + 1) 0

/-- √x; √−0 = −0 (R111). The root is taken to more than 60 bits with a sticky half, which rounds as
the exact root does. -/
def sqrtF (E : FEnv) (x : FV) : FR :=
  match flushIn E.ftzIn E.f x with
  | .nan s => nanOut E.f s
  | .inf a => if a then invalid E.f false else ⟨E.f.inf false, 0, false⟩
  | .fin n m e =>
    if m = 0 then ⟨E.f.zero n, 0, false⟩
    else if n then invalid E.f false
    else
      let odd := e % 2 != 0
      let m' := (if odd then 2 * m else m) * 2 ^ 128
      let e' := ((if odd then e - 1 else e) - 128) / 2
      let r := isqrt m'
      let num := 2 * r + (if r * r = m' then 0 else 1)
      finish E false (Ex.ofDyadic false num (e' - 1))

/-- The order of two finite values. -/
def ltFin (n1 : Bool) (m1 : Nat) (e1 : Int) (n2 : Bool) (m2 : Nat) (e2 : Int) : Bool :=
  decide ((addDyadic n1 m1 e1 (!n2) m2 e2).1 < 0)

/-- x < y, neither a NaN. -/
def ltF (x y : FV) : Bool :=
  match x, y with
  | .inf a, .inf b => a && !b
  | .inf a, .fin _ _ _ => a
  | .fin _ _ _, .inf b => !b
  | .fin n1 m1 e1, .fin n2 m2 e2 => ltFin n1 m1 e1 n2 m2 e2
  | _, _ => false

/-- x = y, neither a NaN; +0 equals −0. -/
def eqF (x y : FV) : Bool := !x.isNan && !y.isNan && !ltF x y && !ltF y x

/-- The sign of a value that is not a NaN. -/
def FV.sign : FV → Bool
  | .fin n _ _ => n
  | .inf n => n
  | .nan _ => false

/-- The pattern of a decoded value, exactly. -/
def encodeF (f : Fmt) (x : FV) : Nat :=
  match x with
  | .nan _ => f.nan
  | .inf n => f.inf n
  | .fin n m e => if m = 0 then f.zero n else (roundF f 1 true (Ex.ofDyadic n m e)).val

/-- fmin and fmax (R112): −0 is below +0; a number wins over a NaN. -/
def minMaxF (E : FEnv) (mx : Bool) (x y : FV) : FR :=
  let sn := x.isSnan || y.isSnan
  let fl := if sn then flNV else 0
  let x := flushIn E.ftzIn E.f x
  let y := flushIn E.ftzIn E.f y
  if x.isNan then
    if y.isNan then ⟨E.f.nan, fl, sn⟩ else ⟨encodeF E.f y, fl, sn⟩
  else if y.isNan then ⟨encodeF E.f x, fl, sn⟩
  else
    let lt := ltF x y || (eqF x y && x.sign && !y.sign)
    ⟨encodeF E.f (if lt != mx then x else y), fl, sn⟩

/-- fcmp (R113): the predicate and its flags. -/
def cmpF (E : FEnv) (pred : Nat) (x y : FV) : FR :=
  let sn := x.isSnan || y.isSnan
  let un := x.isNan || y.isNan
  let x := flushIn E.ftzIn E.f x
  let y := flushIn E.ftzIn E.f y
  let r := match pred with
    | 0 => !un && eqF x y
    | 1 => un || !eqF x y
    | 2 => !un && ltF x y
    | 3 => !un && !ltF y x
    | 4 => !un && ltF y x
    | 5 => !un && !ltF x y
    | 6 => un
    | _ => !un
  let nv := if 2 ≤ pred ∧ pred ≤ 5 then un else sn
  ⟨if r then 1 else 0, if nv then flNV else 0, sn⟩

/-- fclass (R114): one bit of a class mask. -/
def classF (f : Fmt) (x : FV) : Nat :=
  match x with
  | .nan s => if s then 256 else 512
  | .inf n => if n then 1 else 128
  | .fin n m e =>
    if m = 0 then (if n then 8 else 16)
    else if tiny f m e then (if n then 4 else 32)
    else if n then 2 else 64

/-- fscale (R115): x · 2^m rounded once. An exponent beyond every format's range is cut to one that
rounds alike. -/
def scaleF (E : FEnv) (x : FV) (m : Int) : FR :=
  match flushIn E.ftzIn E.f x with
  | .nan s => nanOut E.f s
  | .inf n => ⟨E.f.inf n, 0, false⟩
  | .fin n k e =>
    let m' := max (-6000) (min 6000 m)
    finish E n (Ex.ofDyadic n k (e + m'))

/-- fexpo (R115): floor(log2|x|) as an integer of n bits. -/
def expoF (E : FEnv) (n : Nat) (x : FV) : FR :=
  match flushIn E.ftzIn E.f x with
  | .nan s => ⟨2 ^ (n - 1), flNV, s⟩
  | .inf _ => ⟨2 ^ (n - 1) - 1, flNV, false⟩
  | .fin _ m e => if m = 0 then ⟨2 ^ (n - 1), flNV, false⟩
    else ⟨wrapN n ((Nat.log2 m : Int) + e), 0, false⟩

/-- The integer nearest to m · 2^e by a mode, and whether it is inexact (R52). -/
def roundInt (mode : Nat) (neg : Bool) (num den : Nat) : Nat × Bool :=
  let n := num / den
  let r := num % den
  (n + (if roundUp mode neg n r den then 1 else 0), r != 0)

/-- frint (R115). -/
def rintF (E : FEnv) (x : FV) : FR :=
  match flushIn E.ftzIn E.f x with
  | .nan s => nanOut E.f s
  | .inf n => ⟨E.f.inf n, 0, false⟩
  | .fin n m e =>
    let v := Ex.ofDyadic n m e
    let r := roundInt E.mode n v.num v.den
    let fl := if r.2 then flNX else 0
    if r.1 = 0 then ⟨E.f.zero n, fl, false⟩
    else
      let o := flushOut E.ftzOut E.f (roundF E.f E.mode E.sat ⟨n, r.1, 1⟩)
      { o with flg := o.flg ||| fl }

/-! ### Tapered formats (R45 to R48) -/

/-- Length of the run of bits equal to `lead` from bit i down. -/
def runLen (M : Nat) (lead : Bool) : Nat → Nat
  | 0 => 0
  | i + 1 => if M.testBit i == lead then 1 + runLen M lead i else 0

/-- The value of a nonzero magnitude field of n bits as m · 2^e (R45). -/
def taperVal (n M : Nat) : Nat × Int :=
  let lead := M.testBit (n - 1)
  let k := runLen M lead n
  let g : Int := if lead then (k : Int) - 1 else -(k : Int)
  let restLen := n - k - 1
  let rest := M % 2 ^ restLen
  if restLen = 0 ∨ n ≤ k then (1, 2 * g)
  else
    let ebit := rest.testBit (restLen - 1)
    let nf := restLen - 1
    (2 ^ nf + rest % 2 ^ nf, 2 * g + (if ebit then 1 else 0) - nf)

/-- Magnitude bits of a tapered format: 7 for T8 (code 6), 5 for T6 (code 7). -/
def taperBits (c : Nat) : Nat := if c = 6 then 7 else 5

/-- Decode a tapered code; NaV is a quiet NaN kind (R45). -/
def decodeT (n x : Nat) : FV :=
  let M := x % 2 ^ n
  let s := x.testBit n
  if M = 0 then if s then .nan false else .fin false 0 0
  else let v := taperVal n M; .fin s v.1 v.2

/-- The value of a code is at most num / den. -/
def taperLe (n M num den : Nat) : Bool :=
  let v := taperVal n M
  let x := Ex.ofDyadic false v.1 v.2
  decide (x.num * den ≤ num * x.den)

/-- The largest magnitude code, below 2^i above `c`, whose value is at most num / den. -/
def taperFloor (n num den : Nat) : Nat → Nat → Nat
  | 0, c => c
  | i + 1, c => let d := c + 2 ^ i
    taperFloor n num den i (if taperLe n d num den then d else c)

/-- The value of a magnitude code, zero for code 0. -/
def taperEx (n M : Nat) : Ex :=
  if M = 0 then ⟨false, 0, 1⟩ else let v := taperVal n M; Ex.ofDyadic false v.1 v.2

/-- The position of num / den between two values, as a fraction r / b of the gap. -/
def gapFrac (lo hi : Ex) (num den : Nat) : Nat × Nat :=
  let r := (num * lo.den - lo.num * den) * hi.den
  let b := (hi.num * lo.den - lo.num * hi.den) * den
  (r, b)

/-- Conversion of a nonzero value into a tapered format (R48). `up` decides rounding between
adjacent codes from the lower code and the fraction r / b of the gap. -/
def encodeT (n : Nat) (up : Nat → Nat → Nat → Bool) (v : Ex) : FR :=
  let top := 2 ^ n - 1
  let sgn := if v.neg then 2 ^ n else 0
  let mx := taperEx n top
  if mx.num * v.den < v.num * mx.den then ⟨sgn + top, flOF + flNX, false⟩
  else
    let c := taperFloor n v.num v.den n 0
    let lo := taperEx n c
    if lo.num * v.den = v.num * lo.den then ⟨sgn + c, 0, false⟩
    else
      let g := gapFrac lo (taperEx n (c + 1)) v.num v.den
      let c' := c + (if up c g.1 g.2 then 1 else 0)
      let fl := flNX + (if c = 0 then flUF else 0)
      ⟨if c' = 0 then 0 else sgn + c', fl, false⟩

/-- The rounding of a mode between two adjacent tapered codes: a tie goes to the even code (R48). -/
def taperUp (mode : Nat) (neg : Bool) (c r b : Nat) : Bool := roundUp mode neg c r b

/-! ### Integers and conversions (R54, R117, R118) -/

/-- Decode a source kind: formats 0 to 7, then I8 to I64 and N8 to N64 (R117). -/
def decodeKind (k x : Nat) : FV :=
  let n := kindBits k
  if k ≤ 5 then decodeF (fmtOf k) (x % 2 ^ n)
  else if k ≤ 7 then decodeT (taperBits k) (x % 2 ^ n)
  else
    let v : Int := if k ≤ 11 then toSigned n x else (x % 2 ^ n : Nat)
    .fin (decide (v < 0)) v.natAbs 0

/-- Conversion to an integer kind (R54). -/
def toIntKind (mode k : Nat) (x : FV) : FR :=
  let n := kindBits k
  let lo : Int := if k ≤ 11 then -(2 ^ (n - 1) : Nat) else 0
  let hi : Int := if k ≤ 11 then (2 ^ (n - 1) : Nat) - 1 else (2 ^ n : Nat) - 1
  match x with
  | .nan s => ⟨0, flNV, s⟩
  | .inf s => ⟨wrapN n (if s then lo else hi), flNV, false⟩
  | .fin s m e =>
    -- beyond 2^200 the value is out of every range, below 2^-200 it is a fraction
    let e' := max (-3000) (min 3000 e)
    let v := Ex.ofDyadic s m e'
    let r := roundInt mode s v.num v.den
    let i : Int := if s then -(r.1 : Int) else r.1
    if i < lo then ⟨wrapN n lo, flNV, false⟩
    else if hi < i then ⟨wrapN n hi, flNV, false⟩
    else ⟨wrapN n i, if r.2 then flNX else 0, false⟩

/-- Conversion to a float format (R48, R52, R53, R54), without flushes. NaV is quiet. -/
def toFloatKind (mode : Nat) (sat : Bool) (k : Nat) (x : FV) : FR :=
  if k ≤ 5 then
    let f := fmtOf k
    match x with
    | .nan s => nanOut f s
    | .inf s => if f.e4m3 then (if sat then ⟨f.maxf s, 0, false⟩ else invalid f false)
      else ⟨f.inf s, 0, false⟩
    | .fin s m e => if m = 0 then ⟨f.zero s, 0, false⟩ else roundF f mode sat (Ex.ofDyadic s m e)
  else
    let n := taperBits k
    match x with
    | .nan s => ⟨2 ^ n, if s then flNV else 0, s⟩
    | .inf s => ⟨(if s then 2 ^ n else 0) + 2 ^ n - 1, flOF, false⟩
    | .fin s m e => if m = 0 then ⟨0, 0, false⟩
      else encodeT n (taperUp mode s) (Ex.ofDyadic s m e)

/-- The flushes of a conversion (R58): the input test in the source format and the output test in
the destination format, for binary formats only on the output and float formats on the input. -/
def convert (mode : Nat) (sat fin fout : Bool) (src dst x : Nat) : FR :=
  let v := decodeKind src x
  let v := if src ≤ 5 then flushIn fin (fmtOf src) v else v
  let r := if dst ≤ 7 then toFloatKind mode sat dst v else toIntKind mode dst v
  let r := if dst ≤ 5 then flushOut fout (fmtOf dst) r else r
  { r with snan := v.isSnan }

/-- Stochastic rounding of a nonzero value to a binary format (R55): truncation, and the carry of
the first 32 discarded bits with the random number. -/
def stochF (f : Fmt) (sat : Bool) (rnd : Nat) (v : Ex) : FR :=
  let e0 := floorLog2 v.num v.den
  let e := max e0 f.emin
  let q := scaleDiv v.num v.den (e - f.prec + 1)
  let D := q.2.1 * 2 ^ 32 / q.2.2
  let n := q.1 + (if 2 ^ 32 ≤ D + rnd then 1 else 0)
  let nx := q.2.1 != 0
  let top := if f.e4m3 then 14 else 2 ^ f.prec - 1
  let past := decide (f.emax < e) || (e == f.emax && decide (top < n))
  if past then ⟨overflowF f 0 sat v.neg, flOF + flNX, false⟩
  else ⟨packF f v.neg n e,
    (if nx then flNX else 0) + (if nx && decide (e0 < f.emin) then flUF else 0), false⟩

/-- cvts (R55, R119). -/
def convertS (sat fin fout : Bool) (src dst x rnd : Nat) : FR :=
  let v := flushIn fin (fmtOf src) (decodeKind src x)
  let r := match v with
    | .fin s m e =>
      if m = 0 then toFloatKind 0 sat dst v
      else if dst ≤ 5 then stochF (fmtOf dst) sat rnd (Ex.ofDyadic s m e)
      else encodeT (taperBits dst) (fun _ a b => decide (2 ^ 32 ≤ a * 2 ^ 32 / b + rnd))
        (Ex.ofDyadic s m e)
    | _ => toFloatKind 0 sat dst v
  let r := if dst ≤ 5 then flushOut fout (fmtOf dst) r else r
  { r with snan := v.isSnan }

end Sys2Proof.Machine
end

