-- ==== Sys2Proof/Machine/Chains.lean ====
section
/-!
DEFINITION. Chains and links: the chain tables, contributions, forwarding and partials, tensor-stream
control blocks, and the value of a close (R60 to R66, R137, R144 to R151, R368 to R371, R413 to R420).
-/

namespace Sys2Proof.Machine

open Sys2Proof

/-! ### Streams of a launch (R413 to R415) -/

/-- A field of the control block of stream `sid` of a launch on a die. -/
def strmWord (s : State) (die launch sid off n : Nat) : Nat :=
  ctlWord ((s.launch launch).store die) (64 * sid + off) n

/-- NSL of a stream. -/
def strmNsl (s : State) (die launch sid : Nat) : Nat :=
  bits (BitVec.ofNat 64 (strmWord s die launch sid 0 8)) 47 40

/-- BASE of a stream, in units of 64 KiB. -/
def strmBase (s : State) (die launch sid : Nat) : Nat :=
  bits (BitVec.ofNat 64 (strmWord s die launch sid 0 8)) 26 16

/-- DIR of a stream. -/
def strmDir (s : State) (die launch sid : Nat) : Bool :=
  bit (BitVec.ofNat 64 (strmWord s die launch sid 0 8)) 55

/-- Freed count EC. -/
def strmEC (s : State) (die launch sid : Nat) : Nat := strmWord s die launch sid 8 4

/-- Filled count FC. -/
def strmFC (s : State) (die launch sid : Nat) : Nat := strmWord s die launch sid 12 4

/-- BND (R413). -/
def strmBnd (s : State) (die launch sid : Nat) : Word :=
  BitVec.ofNat 32 (strmWord s die launch sid 16 4)

/-- Write `n` bytes of a stream's control block, unless a `carve` has taken it away (R223). -/
def setStrm (die launch sid off n x : Nat) (s : State) : State :=
  let l := s.launch launch
  if l.ways.get 0 die = 0 then s
  else s.setLaunch launch { l with
    dieStore := l.dieStore.put die (memWrite (l.store die) (64 * sid + off) (toBytes n x)) }

/-- The stage whose dies send to a stream: the previous or the next one (R412, R413). -/
def strmSender (s : State) (die launch sid : Nat) : Nat :=
  if strmDir s die launch sid then (s.stageOf die + 1) % 8 else (s.stageOf die + 7) % 8

/-- A stream is usable by senders of a die: enabled, inside the grant, and named by its DIR (R414). -/
def strmOk (s : State) (die launch sid : Nat) (fromDie : Option Nat) : Bool :=
  let nsl := strmNsl s die launch sid
  nsl != 0 &&
  decide ((strmBase s die launch sid + nsl) * 65536 ≤ (s.launch launch).ways.get 0 die * 8388608) &&
  (match fromDie with
   | none => true
   | some d => s.stageOf d == strmSender s die launch sid)

/-- Slots sent and not freed, as the sender counts them (R415). -/
def strmUsed (t : TStream) : Nat := (t.cc + 2 ^ 32 - t.ecMirror) % 2 ^ 32

/-- Depart the waiting slots of a partial that have room (R415, R420). -/
def departQueue (nsl : Nat) : Nat → TStream → TStream
  | 0, t => t
  | fuel + 1, t =>
    match t.queue with
    | [] => t
    | x :: r =>
      if strmUsed t < nsl then
        departQueue nsl fuel { t with
          queue := r, flight := t.flight ++ [(none, x)], cc := (t.cc + 1) % 2 ^ 32 }
      else t

/-- Free a slot of a stream (R415, R460): its free mark, and EC over consecutive marked slots. -/
def strmFree (die launch sid j : Nat) (s : State) : State :=
  let nsl := strmNsl s die launch sid
  let t := s.tstream die launch sid
  let p := passMarks nsl (nsl + 1) (strmEC s die launch sid) (insertN j t.free)
  setStrm die launch sid 8 4 p.1 (s.setTstream die launch sid { t with free := p.2 })

/-! ### Chain tables and links (R136, R146, R148) -/

/-- Chain `ch` of a launch in the table of a die. -/
def State.chain (s : State) (launch die ch : Nat) : Chain :=
  (s.launch launch).chains.get .init (32 * die + ch)

/-- The dies that a descriptor names. -/
def chainDies (d : ChainDesc) : List Nat := d.hops.foldl (fun l h => insertN h.die l) []

/-- Replace a chain in the tables of every die that it names (R419). -/
def setChain (launch ch : Nat) (x : Chain) (s : State) : State :=
  let l := s.launch launch
  s.setLaunch launch { l with
    chains := (chainDies x.desc).foldl (fun t d => t.put (32 * d + ch) x) l.chains }

/-- A link slot. -/
def State.link (s : State) (bed slot : Nat) : Link := (s.bed bed).links.get .init slot

/-- Replace a link slot. -/
def setLink (bed slot : Nat) (x : Link) (s : State) : State :=
  s.setBed bed { s.bed bed with links := (s.bed bed).links.put slot x }

/-- The beds of a hop: one, or the bed pair of a wide chain, even bed first (R137, R146).
(DEDUCED, log 27) -/
def hopBeds (d : ChainDesc) (h : Hop) : List Nat :=
  let b := 16 * h.die + h.bed
  if d.wide then [b, b + 1] else [b]

/-- The slot holds the link of hop `h` of a chain of a launch. -/
def Link.holds (x : Link) (s : State) (launch ch h : Nat) : Bool :=
  x.state != 0 && x.owner == (s.launch launch).ctx && x.launch == launch && x.chain == ch && x.hop == h

/-- A chain is live: built and not closed (R160). -/
def Chain.live (x : Chain) : Bool := x.state == 1 || x.state == 2 || x.state == 4

/-- The columns of the tile. -/
def ChainDesc.cols (d : ChainDesc) : Nat := d.nc + 1

/-- Bytes of a partial that crosses on a stream (R420). -/
def partialBytes (d : ChainDesc) (hf : Nat) : Nat :=
  (d.mt + 1) * d.cols * (if hf = 1 then 4 else 16) + 64

/-- Slots of 64 KiB that a partial fills (R420). -/
def partialSlots (d : ChainDesc) (hf : Nat) : Nat := ceilDiv (partialBytes d hf) 65536

/-- A chain that `chbuild` may not replace: it is open or closing. One that is frozen is rebuilt (R369), but for one
whose close has still to be performed (R150, R398). (DEDUCED, log 29) -/
def Chain.barred (x : Chain) : Bool := x.state == 1 || x.state == 2 || (x.state == 4 && x.kept == 2)

/-- A partial is on its way to hop `i` of a chain. -/
def Partial.to (p : Partial) (launch ch i : Nat) (d : ChainDesc) : Bool :=
  p.launch == launch && p.chain == ch && p.hop == i && (d.hops[i]?.map (·.die)) == some p.die

/-- A partial of the chain is in flight: towards a link, or on a stream (R162). -/
def inFlight (s : State) (launch ch : Nat) (d : ChainDesc) : Bool :=
  (s.dom.partials.any fun p => p.to launch ch p.hop d) ||
  d.hops.any fun h => h.stream &&
    (let t := s.tstream h.die launch h.sid
     !t.flight.isEmpty || !t.queue.isEmpty ||
       strmFC s h.die launch h.sid != strmEC s h.die launch h.sid)

/-! ### Elements (R60 to R63) -/

/-- An element and the flags that it has raised. -/
abbrev ElemF := Elem × Nat

/-- Add an integer multiple of the window unit (R61). -/
def addUnits (p : Int) (x : ElemF) : ElemF :=
  if (2 ^ 95 : Int) ≤ p then ({ x.1 with op := true }, x.2 ||| flOF)
  else if p ≤ -(2 ^ 95 : Int) then ({ x.1 with on := true }, x.2 ||| flOF)
  else ({ x.1 with acc := x.1.acc + BitVec.ofInt 112 p }, x.2)

/-- A poisoned contribution sets both tags and raises NV (R61). -/
def addSpecial (x : ElemF) : ElemF := ({ x.1 with op := true, on := true }, x.2 ||| flNV)

/-- m · 2^e rounded to a multiple of 2^(anchor − 80), and whether that changed it (R61). -/
def toUnits (anchor m e : Int) : Int × Bool :=
  let sh := e - anchor + 80
  if 0 ≤ sh then (m * (2 ^ sh.toNat : Nat), false)
  else
    let r := roundInt 0 (decide (m < 0)) m.natAbs (2 ^ (-sh).toNat)
    (if m < 0 then -(r.1 : Int) else r.1, r.2)

/-- Add the product m · 2^e (R61). -/
def addProduct (anchor : Int) (x : ElemF) (p : Int × Int) : ElemF :=
  if p.1 = 0 then x
  else
    let u := toUnits anchor p.1 p.2
    addUnits u.1 (x.1, x.2 ||| (if u.2 then flNX else 0))

/-- An element as it resolves (R62): its value, none for poison, and the flag of the clamp. -/
def resolveElem (x : Elem) : Option Int × Nat :=
  if x.op && x.on then (none, 0)
  else if x.op then (some (2 ^ 95 - 1), 0)
  else if x.on then (some (-(2 ^ 95)), 0)
  else
    let v := x.acc.toInt
    if (2 ^ 95 : Int) ≤ v then (some (2 ^ 95 - 1), flOF)
    else if v < -(2 ^ 95 : Int) then (some (-(2 ^ 95)), flOF)
    else (some v, 0)

/-- Every element of a tile's half that is not a plain zero, resolved: by row and column of the half,
and the flags. -/
def resolveLink (x : Link) : List (Nat × Option Int) × Nat :=
  (x.elems.entries).foldr (fun e r =>
    let v := resolveElem e.2
    (if v.1 = some 0 then r.1 else (e.1, v.1) :: r.1, r.2 ||| v.2)) ([], 0)

/-- The key of an element of a whole tile from its key in a half. -/
def tileKey (half k : Nat) : Nat := k / 512 * 1024 + 512 * half + k % 512

/-- The FP32 form of a resolved element (R63): rounded by RNE; poison is the canonical NaN. -/
def fp32Elem (anchor : Int) (v : Option Int) : FR :=
  match v with
  | none => ⟨fp32.nan, 0, false⟩
  | some x =>
    if x = 0 then ⟨0, 0, false⟩
    else roundF fp32 0 false (Ex.ofDyadic (decide (x < 0)) x.natAbs (anchor - 80))

/-- The partial that the links of a hop send, resolved (R62, R63): the links' own flags grow by those
of the resolution, and the partial carries those of its rounding too. -/
def partialOf (id launch ch nextHop : Nat) (hf : Nat) (anchor : Int) (ls : List Link) : Partial :=
  let rs := ls.map resolveLink
  let fl := (ls.zip rs).foldl (fun a x => a ||| x.1.flags.toNat ||| x.2.2) 0
  let els := (rs.zipIdx).flatMap fun r => r.1.1.map fun e => (tileKey r.2 e.1, e.2)
  let els := els.foldl (fun (t : Tbl (Option Int)) e => t.put e.1 e.2) .empty
  if hf = 1 then
    let fp := els.mapVals fun _ v => fp32Elem anchor v
    let rf := fp.entries.foldl (fun a e => a ||| (e.2.flg &&& (flNX + flOF))) 0
    { id := id, launch := launch, chain := ch, hop := nextHop, die := 0, fp32 := true, anchor := anchor,
      flags := BitVec.ofNat 5 (fl ||| rf), elems := .empty,
      fpElems := fp.mapVals fun _ r => BitVec.ofNat 32 r.val }
  else
    { id := id, launch := launch, chain := ch, hop := nextHop, die := 0, fp32 := false, anchor := anchor,
      flags := BitVec.ofNat 5 fl, elems := els, fpElems := .empty }

/-- Receive one element in FX96 (R63). -/
def receiveFx (from_ anchor : Int) (x : ElemF) (v : Option Int) : ElemF :=
  match v with
  | none => ({ x.1 with op := true, on := true }, x.2)
  | some u =>
    if from_ = anchor then ({ x.1 with acc := x.1.acc + BitVec.ofInt 112 u }, x.2)
    else
      let r := toUnits anchor u (from_ - 80)
      addUnits r.1 (x.1, x.2 ||| (if r.2 then flNX else 0))

/-- Receive one element in FP32 (R63). -/
def receiveFp (anchor : Int) (x : ElemF) (v : Word) : ElemF :=
  match decodeF fp32 v.toNat with
  | .nan _ => addSpecial x
  | .inf n => (if n then { x.1 with on := true } else { x.1 with op := true }, x.2)
  | .fin n m e => addProduct anchor x (if n then -(m : Int) else m, e)

/-- Apply `f` to one element of a link, and OR the flags. -/
def Link.onElem (x : Link) (k : Nat) (f : ElemF → ElemF) : Link :=
  let r := f (x.elems.get .zero k, 0)
  { x with elems := x.elems.put k r.1, flags := x.flags ||| BitVec.ofNat 5 r.2 }

/-- The half of a link takes its columns of a partial, its flags and the incoming mark (R63, R149). -/
def Link.receive (x : Link) (half : Nat) (p : Partial) : Link :=
  let mine (k : Nat) : Bool := k % 1024 / 512 == half
  let key (k : Nat) : Nat := k / 1024 * 512 + k % 512
  let x := p.elems.entries.foldl (fun x e =>
    if mine e.1 then x.onElem (key e.1) (fun y => receiveFx p.anchor x.anchor y e.2) else x) x
  let x := p.fpElems.entries.foldl (fun x e =>
    if mine e.1 then x.onElem (key e.1) (fun y => receiveFp x.anchor y e.2) else x) x
  { x with flags := x.flags ||| p.flags, incoming := true }

/-! ### Partials on streams (R420) -/

/-- The 16 bytes of an FX96 element (R349, R420). -/
def fxBytes (v : Option (Option Int)) : List Byte :=
  match v with
  | none => toBytes 16 0
  | some none => toBytes 16 (3 * 2 ^ 112)
  | some (some u) => toBytes 16 (BitVec.ofInt 112 u).toNat

/-- The columns of a half of a tile. (DEDUCED, log 27) -/
def halfCols (d : ChainDesc) (half : Nat) : Nat := Nat.min 512 (d.cols - 512 * half)

/-- The keys of a tile's elements in the order of a stream: half by half, row by row. -/
def streamKeys (d : ChainDesc) : List Nat :=
  (span 0 (if d.wide then 2 else 1)).flatMap fun hf =>
    (span 0 (d.mt + 1)).flatMap fun r =>
      (span 0 (halfCols d hf)).map fun c => 1024 * r + 512 * hf + c

/-- The bytes of a partial on a stream, its flag block last. -/
def encodePartial (d : ChainDesc) (p : Partial) : List Byte :=
  ((streamKeys d).flatMap fun k =>
    if p.fp32 then toBytes 4 (p.fpElems.get 0 k).toNat else fxBytes (p.elems.get? k)) ++
  toBytes 64 p.flags.toNat

/-- Cut bytes in slots of 64 KiB. -/
def cutSlots : Nat → List Byte → List (List Byte)
  | 0, _ => []
  | n + 1, l => l.take 65536 :: cutSlots n (l.drop 65536)

/-- The element in 16 bytes. -/
def fxOf (n : Nat) : Option Int :=
  if 2 ^ 112 ≤ n then none else some (BitVec.ofNat 112 n).toInt

/-- Read the elements of a partial back from its bytes. -/
def decodeElems (fp : Bool) : List Nat → List Byte → Partial → Partial
  | [], _, p => p
  | k :: r, l, p =>
    let n := if fp then 4 else 16
    let x := ofBytes (l.take n)
    let p := if x = 0 then p
      else if fp then { p with fpElems := p.fpElems.put k (BitVec.ofNat 32 x) }
      else { p with elems := p.elems.put k (fxOf x) }
    decodeElems fp r (l.drop n) p

/-- The partial that the bytes of a stream's slots hold. -/
def decodePartial (launch ch hop : Nat) (d : ChainDesc) (hf : Nat) (anchor : Int) (l : List Byte) :
    Partial :=
  let p : Partial :=
    { id := 0, launch := launch, chain := ch, hop := hop, die := 0, fp32 := hf == 1, anchor := anchor,
      flags := BitVec.ofNat 5 (ofBytes ((l.drop (partialBytes d hf - 64)).take 1)),
      elems := .empty, fpElems := .empty }
  decodeElems (hf == 1) (streamKeys d) l p

/-! ### Forwarding (R149, R368 to R371) -/

/-- Change every link slot of a hop; the function takes the half. -/
def onHop (d : ChainDesc) (h : Hop) (f : Nat → Link → Link) (s : State) : State :=
  (hopBeds d h).zipIdx.foldl (fun s b => setLink b.1 h.slot (f b.2 (s.link b.1 h.slot)) s) s

/-- The links of a hop. -/
def hopLinks (s : State) (d : ChainDesc) (h : Hop) : List Link :=
  (hopBeds d h).map fun b => s.link b h.slot

/-- Every slot of the hop holds its link: none is spilled (R368). -/
def hopHeld (s : State) (launch ch i : Nat) (d : ChainDesc) (h : Hop) : Bool :=
  (hopLinks s d h).all fun x => x.holds s launch ch i

/-- Send a partial towards the next hop: as a flight, or in slots of its stream (R149, R420). -/
def sendPartial (launch : Nat) (d : ChainDesc) (from_ : Hop) (next : Hop) (p : Partial)
    (s : State) : State :=
  if next.stream then
    let t := s.tstream next.die launch next.sid
    let t := { t with queue := t.queue ++ cutSlots (partialSlots d from_.hf) (encodePartial d p) }
    s.setTstream next.die launch next.sid
      (departQueue (strmNsl s next.die launch next.sid) 64 t)
  else { s with dom := { s.dom with
    partials := s.dom.partials ++ [{ p with die := next.die }], nextId := s.dom.nextId + 1 } }

/-- The next hop has been grafted and waits for the partial that hop `i` sent: its link is there and open,
nothing has come to it and nothing is on its way (R371). -/
def resendDue (s : State) (launch ch i : Nat) (d : ChainDesc) (k : Link) : Bool :=
  k.state == 3 &&
  match d.hops[i + 1]? with
  | none => false
  | some n =>
    !n.stream && hopHeld s launch ch (i + 1) d n &&
    (hopLinks s d n).all (fun y => (y.state == 1 || y.state == 2) && !y.incoming) &&
    !(s.dom.partials.any fun p => p.to launch ch (i + 1) d)

/-- Move the link of hop `i` on when its conditions hold (R149): waiting, ready, or forwarded; a forwarded
link sends its kept partial to a grafted one (R371). -/
def advanceHop (launch die ch : Nat) (s : State) (i : Nat) : State :=
  let x := s.chain launch die ch
  let d := x.desc
  match d.hops[i]? with
  | none => s
  | some h =>
    let ls := hopLinks s d h
    let k := ls.headD .init
    let again := resendDue s launch ch i d k
    if !hopHeld s launch ch i d h || !(again || ((k.state == 1 || k.state == 2) && k.rem == 0)) then s
    else if i ≠ 0 ∧ !k.incoming ∧ !again then onHop d h (fun _ y => { y with state := 2 }) s
    else match d.hops[i + 1]? with
      | none => onHop d h (fun _ y => { y with state := 4 }) s
      | some n =>
        if x.state = 4 ∨ (!n.stream ∧ !hopHeld s launch ch (i + 1) d n) then s
        else
          let p := partialOf s.dom.nextId launch ch (i + 1) h.hf k.anchor ls
          let s := onHop d h (fun _ y =>
            { y with state := 3, sent := true, flags := y.flags ||| BitVec.ofNat 5 (resolveLink y).2 }) s
          sendPartial launch d h n p s

/-- Move every link of a chain on. -/
def advanceChain (launch die ch : Nat) (s : State) : State :=
  (span 0 (s.chain launch die ch).desc.hops.length).foldl (advanceHop launch die ch) s

/-- Open the links of a chain as its descriptor says (R160). -/
def openLinks (launch ch : Nat) (d : ChainDesc) (s : State) : State :=
  let ctx := (s.launch launch).ctx
  d.hops.zipIdx.foldl (fun s h =>
    onHop d h.1 (fun _ y => { Link.init with
      state := 1, owner := ctx, launch := launch, chain := ch, hop := h.2, anchor := h.1.anchor,
      rem := h.1.cnt, retired := y.retired }) s) s

/-- A partial reaches its link (R149, R420): added, with the incoming mark set. A partial of a chain
whose slot is spilled waits. -/
def landPartial (launch die ch : Nat) (p : Partial) (s : State) : State :=
  let d := (s.chain launch die ch).desc
  match d.hops[p.hop]? with
  | none => s
  | some h => advanceChain launch die ch (onHop d h (fun half y => y.receive half p) s)

/-! ### The close (R64, R150) -/

/-- A product of exact values by the special rules of IEEE 754-2019, and its flags (R64). -/
def mulExact (x y : FV) : FV × Nat :=
  let nv := if x.isSnan || y.isSnan then flNV else 0
  match x, y with
  | .nan _, _ => (.nan false, nv)
  | _, .nan _ => (.nan false, nv)
  | .inf a, .inf b => (.inf (a != b), 0)
  | .inf a, .fin b m _ => if m = 0 then (.nan false, flNV) else (.inf (a != b), 0)
  | .fin a m _, .inf b => if m = 0 then (.nan false, flNV) else (.inf (a != b), 0)
  | .fin a m e, .fin b n f => (.fin (a != b) (m * n) (e + f), 0)

/-- The value of one element at the close (R64, R150): its pattern and flags. -/
def closeElem (c : CloseReq) (anchor : Int) (v : Option Int) (ra cb : Word) (k : Int) : FR :=
  match v with
  | none => let r := toFloatKind c.rm c.sat c.fmt (.nan false)
    { r with flg := 0 }
  | some u =>
    let x : FV := .fin (decide (u < 0)) u.natAbs (anchor - 80 + k)
    let a := mulExact x (decodeF fp32 ra.toNat)
    let b := mulExact a.1 (decodeF fp32 cb.toNat)
    let r := toFloatKind c.rm c.sat c.fmt b.1
    let r := if c.fmt ≤ 5 then flushOut c.ftzOut (fmtOf c.fmt) r else r
    { r with flg := r.flg ||| a.2 ||| b.2 }

/-- Bytes of `n` packed elements of a kind (R142, R150): T6 in groups of four. -/
def packedBytes (kind n : Nat) : Nat := if kind = 7 then 3 * ceilDiv n 4 else n * (kindBits kind / 8)

/-- Pack elements (R45, R142). -/
def packRow (kind : Nat) (l : List Nat) : List Byte :=
  let w := kindBits kind
  toBytes (packedBytes kind l.length)
    (l.zipIdx.foldl (fun a x => a + (x.1 % 2 ^ w) <<< (w * x.2)) 0)

/-- The largest N of a bank by matrix format code and slice count (R140). -/
def largestN (bf s : Nat) : Nat :=
  if bf = 7 then 512 / s else if bf = 5 ∨ bf = 6 then 256 else 512

/-- The bank column of column `n` of a tile: the array of the pair and the column there, as the last
contribution to the link took them. -/
def bankCol (x : Link) (n : Nat) : Nat × Nat := (n / x.lastN, n % x.lastN)

/-- The bytes of the tile of a chain, row by row, and the flags of the close (R150).
(DEDUCED, log 119) -/
def closeTile (s : State) (d : ChainDesc) (h : Hop) (c : CloseReq) : List (List Byte) × Nat :=
  let ls := hopLinks s d h
  let k := ls.headD .init
  let beds := hopBeds d h
  let bankOf (i : Nat) : Bank :=
    (s.bed (beds[i]?.getD 0)).banks.get .init ((ls[i]?.getD .init).lastBank)
  let elem (r n : Nat) : FR × Nat :=
    let x := ls[n / 512]?.getD .init
    let v := resolveElem (x.elems.get .zero (512 * r + n % 512))
    let bc := bankCol k n
    let bk := bankOf bc.1
    let scaled := x.hasLast && decide (2 ≤ x.lastSk)
    let split := x.hasLast && x.lastSplit
    let ra := if scaled then x.rowScale.get 0x3F800000 r else 0x3F800000
    let cb := if scaled then bk.colScale.get 0x3F800000 bc.2 else 0x3F800000
    let e := if split then x.rowExp.get 0 r + bk.colExp.get 0 bc.2 - 14 else 0
    (closeElem c k.anchor v.1 ra cb e, v.2)
  let rows := (span 0 (d.mt + 1)).map fun r => (span 0 d.cols).map (elem r)
  let fl := rows.foldl (fun a r => r.foldl (fun a x => a ||| x.1.flg ||| x.2) a) 0
  (rows.map fun r => packRow c.fmt (r.map (·.1.val)),
   ls.foldl (fun a x => a ||| x.flags.toNat) fl)

/-- Idle every link slot of a chain. -/
def idleLinks (launch ch : Nat) (d : ChainDesc) (s : State) : State :=
  d.hops.zipIdx.foldl (fun s h =>
    onHop d h.1 (fun _ y =>
      if y.holds s launch ch h.2 then { y with state := 0 } else y) s) s

/-- The save area of a link slot, by 4 * bed + slot, records no spilled state of a context any more. -/
def clearSpilled (ctx key : Nat) (s : State) : State :=
  let x := s.ctx ctx
  let s := match x.linkArea.get? key with
    | some a =>
      let st := memNat s.mem (a + 0x100000) 8
      publishRun (a + 0x100000) (toBytes 8 (st % 2 ^ 15 + st / 2 ^ 16 * 2 ^ 16)) s
    | none => s
  { s with dom := { s.dom with ctxs := s.dom.ctxs.put ctx { x with spilled := x.spilled.erase key } } }

/-- The links of a hop that are spilled, each with its bed (R397). -/
def spilledLinks (s : State) (launch ch i : Nat) (d : ChainDesc) (h : Hop) : List (Nat × Link) :=
  (hopBeds d h).filterMap fun b =>
    match (s.ctx (s.launch launch).ctx).spilled.get? (4 * b + h.slot) with
    | some x => if x.holds s launch ch i then some (b, x) else none
    | none => none

/-- The spilled links of a hop are gone. -/
def dropSpilled (launch ch i : Nat) (d : ChainDesc) (h : Hop) (s : State) : State :=
  (spilledLinks s launch ch i d h).foldl (fun s x =>
    clearSpilled (s.launch launch).ctx (4 * x.1 + h.slot) s) s

/-- Set BND of every stream of a chain (R162, R419). -/
def bindStreams (launch ch : Nat) (d : ChainDesc) (s : State) : State :=
  d.hops.foldl (fun s h =>
    if h.stream then setStrm h.die launch h.sid 16 4 (2 ^ 31 + ch) s else s) s

/-- Clear BND[31] of every stream of a chain (R419). (DEDUCED, log 75) -/
def unbind (launch : Nat) (d : ChainDesc) (s : State) : State :=
  d.hops.foldl (fun s h =>
    if h.stream then
      setStrm h.die launch h.sid 16 4 ((strmBnd s h.die launch h.sid).toNat % 2 ^ 31) s
    else s) s

/-- Free every slot of the stream of a hop: no slot is filled, sent or waiting. -/
def emptyStream (launch : Nat) (h : Hop) (s : State) : State :=
  if h.stream then
    let t := s.tstream h.die launch h.sid
    let s := s.setTstream h.die launch h.sid { t with free := [], flight := [], queue := [], ecMirror := t.cc }
    setStrm h.die launch h.sid 8 4 t.cc (setStrm h.die launch h.sid 12 4 t.cc s)
  else s

/-- A frozen chain makes way for the one that is built in its place (R369, R419, R425): its links, its partials
and its streams are given back. (DEDUCED, log 29) -/
def replaceChain (launch ch : Nat) (s : State) (die : Nat) : State :=
  let x := s.chain launch die ch
  let d := x.desc
  if x.state = 4 then
    let s := d.hops.zipIdx.foldl (fun s h => dropSpilled launch ch h.2 d h.1 s) (idleLinks launch ch d s)
    let s := unbind launch d (d.hops.foldl (fun s h => emptyStream launch h s) s)
    let s := { s with dom := { s.dom with partials := s.dom.partials.filter fun p =>
      !(p.launch == launch && p.chain == ch && (chainDies d).any (· == p.die)) } }
    setChain launch ch { x with state := 0 } s
  else s

end Sys2Proof.Machine
end

