-- ==== Sys2Proof/Machine/Parallel.lean ====
section
/-!
DEFINITION. Token words, `fork` and `join`, the end of an iteration, events and messages (R172 to
R174, R196 to R208).
-/

namespace Sys2Proof.Machine

open Sys2Proof

/-- TKW (R198): the token action happens whatever the guard says. A cluster above 0 performs no token
action (R173). -/
def execTkw (w : Wrd) (s : State) : Host.Outcome State Fault Refusal :=
  word w (do
    let s ← get
    raiseIf (decide (4 ≤ s.cur.stream)) 0x01
    let n := bits w.imm 3 0
    match bits w.mod 1 0 with
    | 0 => takeN (takeQ w.eng true) n
    | 1 => takeN (takeQ w.eng false) n
    | 2 => giveN (tokQ w.eng false) n
    | _ => giveN (tokQ w.eng true) n) s

/-- TKRD (R199). -/
def execTkrd (w : Wrd) (s : State) : Host.Outcome State Fault Refusal :=
  word w (do
    let s ← get
    if wordOff w s then pure ()
    else writeReg w.dst (BitVec.ofNat 64 (s.cc.tokens (bits w.mod 2 0)).length) 1) s

/-! ### Fork and join (R172 to R174, R200 to R203) -/

/-- The stream of cluster `c` (R351). -/
def clusterStream (c : Nat) : Nat := if c = 0 then 1 else c + 3

/-- A pending X write as cluster `c` has it: its own lanes and bits (R200). -/
def clusterPend (c : Nat) (p : Pend) : Pend :=
  match p.tgt with
  | .reg (.v _) => { p with mask := p.mask &&& clusterLanes c }
  | .reg (.g _) => { p with mask := p.mask &&& clusterLanes c }
  | _ => p

/-- The first word of cluster `c`, by the mask that SA held before the slot (R200). -/
def clusterStart (w : Wrd) (mask : Mask) (first c : Nat) : Nat :=
  match w.sa with
  | .g _ => if mask &&& clusterLanes c = 0 then first else target w
  | _ => first

/-- Start the four clusters after the `fork` at word `f` (R173, R200). -/
def forkAll (w : Wrd) (f : Nat) : Act Unit := fun s =>
  match s.cl.code.regions.find? fun r => r.1 = f with
  | none => .ok ((), s)
  | some r =>
    let lits := litsAt s.cl.code f
    let t := { s.cs with progress := s.cs.progress + 1 + lits }
    let put (k : Core) (c : Nat) : Core :=
      k.setStream (clusterStream c) { t with
        valid := true, pc := clusterStart w s.cs.base (f + 1 + lits) c, lit := 0, joinb := false
        pend := t.pend.map (clusterPend c), latch := (if c = 0 then t.latch else false) }
    .ok ((), s.modCore fun k => { (span 0 4).foldl put k with fork := some r })

/-- A `fork` word leaves the program counter to `forkAll`. -/
def finFork : Act Unit := pure ()

/-- A `fork` of a forked cluster, or one whose target lies outside the region of word `f` (R203). -/
def badFork (w : Wrd) (f : Nat) (s : State) : Bool :=
  s.cc.forked ||
  match s.cl.code.regions.find? fun r => r.1 = f with
  | none => true
  | some r => !isZ w.sa && !(decide (f < target w) && decide (target w ≤ r.2))

/-- FORK (R200). A target outside the region, or a `fork` of a forked cluster, takes the
invalid-patch fault (R203). SA is read before the slot. -/
def execFork (w : Wrd) (s : State) : Host.Outcome State Fault Refusal :=
  issueWord (do
    let f := s.cs.pc
    checkedSlot w (badFork w f)
      (change fun s => s.modStream fun t => { t with base := regVal s w.sa }) finFork
    forkAll w f) s

/-- Insert after the writes due no later (R202). -/
def mergeDue (x : Nat × Pend) : List (Nat × Pend) → List (Nat × Pend)
  | [] => [x]
  | y :: r => if x.2.due < y.2.due then x :: y :: r else y :: mergeDue x r

/-- The pending writes of the four clusters in the order of their due slots, with ties in cluster
order (R202). -/
def clusterPends (k : Core) : List (Nat × Pend) :=
  ((span 0 4).flatMap fun c =>
    ((k.stream (clusterStream c)).pend).map fun p => (clusterStream c, p)).foldl
      (fun l x => mergeDue x l) []

/-- Copy s bank 0 to banks 1 to 3 (R174). -/
def copyBanks (k : Core) : Core :=
  { k with s := (span 0 32).foldl (fun t i =>
      let x := k.s.get 0 i
      ((t.put (32 + i) x).put (64 + i) x).put (96 + i) x) k.s }

/-- Reunite the clusters once the four synchronisation bits are set (R174, R202). -/
def joinAll : Act Unit := fun s =>
  let k := s.cc
  match k.fork with
  | none => .ok ((), s)
  | some (f, j) =>
    if (span 0 4).all fun c => (k.stream (clusterStream c)).joinb then
      let most := (span 0 4).foldl (fun m c => Nat.max m (k.stream (clusterStream c)).slot) 0
      let clk := (span 0 4).foldl (fun m c => m.max (k.stream (clusterStream c)).clock) Clk.zero
      let k := (clusterPends k).foldl (fun k x => applyPend x.1 x.2 k) k
      let k := copyBanks k
      let t := k.stream 1
      let lits := litsAt s.cl.code f
      let k := k.setStream 1 { t with
        slot := most, pend := [], joinb := false, wait := 0, clock := clk, pc := j + 1
        progress := t.progress + (j - f - lits) }
      let k := { k with fork := none, streams := ((k.streams.erase 4).erase 5).erase 6 }
      let joint := s.seqn s.cur.core == .joint
      .ok ((), s.modCore fun _ => if joint then k.setPc (j + 1) else k)
    else .ok ((), s)

/-- JOIN (R202): outside a fork region it takes the invalid-patch fault. -/
def execJoin (w : Wrd) (s : State) : Host.Outcome State Fault Refusal :=
  issueWord (do
    checkedSlot w (fun s => s.cc.fork.map (·.2) != some s.cs.pc) (pure ())
      (changeStream fun t => { t with joinb := true, wait := 5 })
    joinAll) s

/-! ### The end of an iteration (R180, R204) -/

/-- The end of the engine's part, and of the iteration when it is the last (R204). -/
def finEndit (w : Wrd) : Act Unit := do
  let s ← get
  nextWord
  if wordOff w s then pure ()
  else do
    changeStream fun t => { t with wait := 6 }
    let s ← get
    if s.cc.liveStreams.isEmpty then endIteration

/-- ENDIT (R204): a guarded-off one has only the common effects. The agreement comparison covers only
the engines that are left. -/
def execEndit (w : Wrd) (s : State) : Host.Outcome State Fault Refusal :=
  issueWord (do
    slot w (do
      let s ← get
      if wordOff w s then pure () else needPends) (finEndit w)
    compareAfter) s

/-! ### Events and messages (R205 to R208) -/

/-- The end of a `wfe`: the engine is held while no boundary with its latch set has come (R207). -/
def finWfe : Act Unit := do
  nextWord
  changeStream fun t => if t.hold = .wfe then { t with hold := .latch, wait := 7 } else t

/-- The slot of a `wfe`: a latch that it finds set is clear after it; else the engine will be held
(R207). -/
def wfeSlot (w : Wrd) : Act Unit := do
  let s ← get
  if wordOff w s then pure ()
  else if s.cs.latch then changeStream fun t => { t with latch := false }
  else do
    raiseIf (s.seqn s.cur.core == .timed) 0x0D
    changeStream fun t => { t with hold := .wfe }

/-- WFE (R207): in timetabled mode a clear latch takes the timetable-violation fault. -/
def execWfe (w : Wrd) (s : State) : Host.Outcome State Fault Refusal :=
  issueWord (slot w (wfeSlot w) finWfe) s

/-- One set reaches the latch of an engine at a boundary (R206, R207): it ends a wait on the latch, and
leaves the latch clear then. A set at the boundary at which such a wait has just ended is the same set
(R205): one of the same wall cycle, with no slot of the core in between. (DEDUCED, log 82) -/
def Stream.setLatch (wcyc moves : Nat) (t : Stream) : Stream :=
  match t.hold with
  | .latch => { t with hold := .woken wcyc moves, wait := 0, latch := false }
  | .wfe => { t with hold := .woken wcyc moves, latch := false }
  | .woken c m => { t with latch := t.latch || !(c == wcyc && m == moves) }
  | _ => { t with latch := true }

/-- Set the latches of the four engines of a core, and MBX when there is a message (R206). -/
def setLatches (wcyc : Nat) (msg : Option Dword) (k : Core) : Core :=
  let k := (span 0 4).foldl (fun k e => k.setStream e ((k.stream e).setLatch wcyc k.moves)) k
  { k with mbx := msg.getD k.mbx }

/-- A set reaches the core of a context (R206). -/
def setCtxLatches (launch c : Nat) (msg : Option Dword) (s : State) : State :=
  s.onCtxCore launch c (setLatches s.clk.wcyc msg)

/-- The target cores of a `sev` (R206): never outside the launch. -/
def sevTargets (w : Wrd) (s : State) : List Nat :=
  let c := s.cur.core
  s.cl.cores.filter fun x =>
    match bits w.mod 1 0 with
    | 0 => (regVal s w.sa).toNat == x
    | 1 => x / 8 == c / 8
    | 2 => x / 32 == c / 32
    | _ => true

/-- Send one set: the issuing core has it at the boundary after the slot, another when it arrives. -/
def sendSev (msg : Option Dword) (s : State) (c : Nat) : State :=
  if c = s.cur.core then setCtxLatches s.cc.launch c msg s
  else { s with dom := { s.dom with
    sevs := s.dom.sevs ++ [⟨s.dom.nextId, s.cur.core, c, s.cc.launch, msg⟩], nextId := s.dom.nextId + 1 } }

/-- SEV (R206). -/
def execSev (w : Wrd) (s : State) : Host.Outcome State Fault Refusal :=
  word w (do
    let s ← get
    if wordOff w s then pure ()
    else
      let msg := if bit w.mod 2 then some (regVal s w.sb) else none
      change fun s => (sevTargets w s).foldl (sendSev msg) s) s

end Sys2Proof.Machine
end

