-- ==== Sys2Proof/Machine/Fetch.lean ====
section
/-!
DEFINITION. What a stream does at its turn: the word that its program counter names, skipping, the slip
window, decisions that take effect, and timetabled cycles (R11, R34, R81, R82, R166, R173, R186 to
R188, R204).
-/

namespace Sys2Proof.Machine

open Sys2Proof

/-! ### Words of a text (R71, R81, R82) -/

/-- Index `p` holds a patch word of the text, not a literal, walking from index `i`. -/
def patchFrom : List Word → Nat → Nat → Nat → Bool
  | [], _, _, _ => false
  | w :: r, i, lits, p =>
    if i = p then lits == 0
    else patchFrom r (i + 1) (if lits = 0 then litCount w else lits - 1) p

/-- Index `p` is that of a patch word of the text. -/
def isPatch (c : Code) (p : Nat) : Bool := patchFrom c.text 0 0 p

/-- The opcodes of the control words (R34). -/
def isControl (opc : Nat) : Bool := (0x030 ≤ opc && opc ≤ 0x036) || opc == 0x039

/-- The opcodes with an immediate target (R127). -/
def hasTarget (opc : Nat) : Bool := [0x030, 0x031, 0x033, 0x035, 0x036].any (· == opc)

/-- Index `p` lies in a fork region (R172). -/
def inRegion (c : Code) (p : Nat) : Bool := c.regions.any fun r => decide (r.1 < p) && decide (p ≤ r.2)

/-- Index `p` lies in a branch group (R34). -/
def inGroup (c : Code) (p : Nat) : Bool := c.groups.any fun g => decide (g.1 ≤ p) && decide (p < g.2)

/-- The checks of R81 that need the text: the target of an immediate branch, the branch group of a
control word, and the bank that `tbank` names (R393). -/
def placeOk (c : Code) (p : Nat) (opc : Nat) (w : Wrd) : Bool :=
  (!hasTarget opc || isPatch c (target w)) &&
  (!isControl opc || (isPatch c p && (inGroup c p || inRegion c p))) &&
  (opc != 0x389 || decide (bits w.imm 3 0 < (c.nbank[engineCode w.eng]?).getD 1))

/-- The literal word `i` places after index `p`. -/
def literal (c : Code) (p i : Nat) : Word := (c.text[p + i]?).getD 0

/-- The instruction at an index under a bank: none where the word fails R81 or R82. -/
def fetchAt (c : Code) (bank p : Nat) : Option Instr :=
  match c.text[p]? with
  | none => none
  | some pw =>
    match c.banks.get? (16 * bits pw 31 30 + bank) with
    | none => none
    | some b =>
      let t := bits pw 29 24
      if !bit b.mask t || decide (c.text.length < p + 1 + litCount pw) then none
      else match decodeText (b.tm.get 0 t) pw (literal c p 1) (literal c p 2) with
        | none => none
        | some i =>
          match opcOf i with
          | some (o, w) => if placeOk c p o w then some i else none
          | none => none

/-- The word at an index is a control word. -/
def controlAt (c : Code) (bank p : Nat) : Bool :=
  match (fetchAt c bank p).bind opcOf with
  | some (o, _) => isControl o
  | none => false

/-! ### The timetable (R186, R187) -/

/-- An entry of a timetable is one of a core and an engine. -/
def ttMine (c e : Nat) (x : Dword) : Bool :=
  bits x 29 27 == c / 128 && bits x 26 25 == c / 32 % 4 && bits x 24 23 == c / 8 % 4 &&
  bits x 22 20 == c % 8 && bits x 19 18 == e

/-- The schedule cycle of the n-th slot among runs. -/
def nthCycle : List Dword → Nat → Option Nat
  | [], _ => none
  | x :: r, n => if n ≤ bits x 15 0 then some (bits x 63 30 + n) else nthCycle r (n - bits x 15 0 - 1)

/-- The cycle, counted from the launch's start, at which an engine issues its next slot. -/
def dueCycle (c e : Nat) (l : Launch) (slot : Nat) : Option Nat :=
  nthCycle (l.code.timetable.filter (ttMine c e)) slot

/-- The X engine's clusters share the engine's runs. (DEDUCED, log 73) -/
def engineSlot (e : Nat) : Nat := if 4 ≤ e then 1 else e

/-- The core of the context that runs on core `c`, or that a handler serves there (R346). -/
def State.base (s : State) (c : Nat) : Core :=
  match (s.core c).served with
  | some v => s.ctxCore v.launch c
  | none => s.core c

/-- The next due cycle of a stream of a timetabled core that has not ended, as an SCYC. A core that is
stopped for a fault, or that serves one, cannot issue at its cycle (R188). (DEDUCED, log 73) -/
def streamDue (s : State) (c e : Nat) : Option Nat :=
  let k := s.base c
  let t := k.stream e
  let l := s.launch k.launch
  if (k.mode ≠ .running ∧ k.mode ≠ .faulted) ∨ !l.nest.tt ∨ t.wait = 6 ∨ t.wait = 10 ∨ !t.valid then none
  else (dueCycle c (engineSlot e) l t.slot).map (l.startCycle + ·)

/-- SCYC does not pass a cycle at which an engine has still to issue (R187, R188).
(DEDUCED, log 73) -/
def scycLimit (s : State) : Option Nat :=
  (s.dom.cores.keys.flatMap fun c => (s.base c).inUse.filterMap (streamDue s c)).min?

/-- A timetabled core that is stopped for a fault, or that serves one, is due: no engine of a timetabled
launch issues (R188). -/
def faultHolds (s : State) : Bool :=
  s.dom.cores.keys.any fun c =>
    ((s.core c).mode == .faulted || (s.core c).served.isSome) &&
    (s.base c).inUse.any fun e => streamDue s c e == some s.clk.scyc

/-- Count stall cycles for the accepted launches (R188, R193). (DEDUCED, log 72) -/
def chargeStall (n : Nat) (s : State) : State :=
  { s with
    clk := { s.clk with stalls := s.clk.stalls + n }
    dom := { s.dom with launches := s.dom.launches.mapVals fun _ l =>
      if l.status = .running then { l with stalls := l.stalls + n } else l } }

/-- Wall cycles pass (R25, R188, R380): SCYC passes with them unless it is stopped.
(DEDUCED, log 7; DEDUCED, log 73) -/
def passTime (dt : Nat) (s : State) : State :=
  let held := Nat.min s.clk.stall dt
  let go := if s.clk.hold then 0 else dt - held
  let want := s.clk.scyc + go
  let scyc := match scycLimit s with
    | some x => Nat.max s.clk.scyc (Nat.min want x)
    | none => want
  let s' := { s with clk := { s.clk with
    wcyc := s.clk.wcyc + dt, scyc := scyc, stall := s.clk.stall - held } }
  let lost := dt - (scyc - s.clk.scyc)
  if s.clk.hold || lost == 0 then s' else chargeStall lost s'

/-! ### Moving a stream on (R166, R168, R204) -/

/-- What a stream's turn comes to: an instruction to run, or a state. -/
inductive Fetched where
  | run (i : Instr) (s : State)
  | done (s : State)
deriving DecidableEq, Repr

/-- Progress of the slowest of the four engines (R166). -/
def leastProgress (k : Core) : Nat := (((span 0 4).map fun e => (k.stream e).progress).min?).getD 0

/-- The stream may pass a word within the slip window. -/
def windowRoom (s : State) : Bool :=
  match s.seqn s.cur.core with
  | .slip => decide (s.cs.progress < leastProgress s.cc + ((s.cc.csrN 1).toNat % 256))
  | _ => true

/-- Record a WAIT code. -/
def waitFor (code : Nat) (s : State) : State :=
  s.modStream fun t => { t with wait := code, waitAt := s.cc.moves }

/-- Every engine of the core has halted or ended, and one has halted (R34, R204). -/
def allHalted (k : Core) : Bool :=
  let ts := (span 0 4).map k.stream
  ts.all (fun t => t.wait == 6 || t.wait == 10) && ts.any (·.wait == 10)

/-- Stop the core once every engine has halted and the pending writes have their data. -/
def haltWhenAll (s : State) : State :=
  if allHalted s.cc && s.cc.pendReady then endRun s.cur.core .halted s else s

/-- A decision takes effect at the end of its branch group (R166, R168). -/
def applyDecision (s : State) : State :=
  match s.cs.dec with
  | some (d, after) =>
    if s.cs.lit = 0 ∧ after ≤ s.cs.pc then
      match d with
      | .fall => s.modStream fun t => { t with dec := none }
      | .halt => haltWhenAll (s.modStream fun x => { x with dec := none, wait := 10 })
      | .goto p => s.modStream fun x => { x with dec := none, pc := p }
    else s
  | none => s

/-- Pass one text word without a slot (R166): a literal, or a word of another engine. An engine that has
ended its part of the iteration stays ended (R204). -/
def passWord (lits : Nat) (s : State) : State :=
  (s.modCore Core.moved).modStream fun t => { t with
    pc := t.pc + 1, progress := t.progress + 1, wait := if t.wait = 6 then 6 else 0
    lit := if t.lit = 0 then lits else t.lit - 1 }

/-- Take a precise fault that the fetch itself raises (R82). -/
def fetchFault (code : Nat) (s : State) : State := takeFault { code := code } s

/-- The text-bound fault in joint sequencing names no engine. (DEDUCED, log 15) -/
def jointBound (s : State) : State :=
  let s := takeFault { code := 0x02 } s
  s.modCore fun k => { k with frame := k.frame.map fun f => { f with fstr := 15 } }

/-- The issuing cluster has come to a word outside its fork region (R203). -/
def outside (s : State) : Bool :=
  match s.cluster, s.cc.fork with
  | some _, some (f, j) => decide (s.cs.pc ≤ f) || decide (j < s.cs.pc)
  | _, _ => false

/-- The issuing cluster has come to a word of the text, as a literal is read, that is not tagged X (R82, R172).
(DEDUCED, log 106) -/
def notTaggedX (s : State) : Bool :=
  s.cluster.isSome && bits ((s.cl.code.text[s.cs.pc]?).getD 0) 31 30 != engineCode .X

/-- Run the word at the program counter of the issuing stream, or take the fault of R82 or R203. A word in
progress is read under the bank under which it began (R402). -/
def fetchRun (s : State) : Fetched :=
  let code := s.cl.code
  let s := if s.cs.fpc.isNone then s.modStream fun t => { t with wordBank := t.bank } else s
  if code.text.length ≤ s.cs.pc then .done (fetchFault 0x02 s)
  else if outside s || notTaggedX s then .done (fetchFault 0x01 s)
  else match fetchAt code s.cs.wordBank s.cs.pc with
    | none => .done (fetchFault 0x01 s)
    | some i => .run i s

/-- A word of an engine that has ended its part of the iteration is passed without effect; a control
word counts in its branch group with no decision (R204), but in a fork region, where it stands in no
group (R172). -/
def passEnded (s : State) : State :=
  if controlAt s.cl.code s.cs.bank s.cs.pc && !inRegion s.cl.code s.cs.pc then
    settle (do
      changeCore fun k => { k with group := k.group ++ [none] }
      resolveGroup) s
  else settle nextWord s

/-- Joint sequencing: one program counter over the four engines; a fork region runs its clusters in
order (R11, R173). (DEDUCED, log 6) -/
def fetchJoint (c : Nat) (s : State) : Fetched :=
  let k := s.core c
  let on (e : Nat) : State := { s with cur := ⟨c, e⟩ }
  if k.forked then
    match [1, 4, 5, 6].find? fun e => !(k.stream e).joinb with
    | none => .done s
    | some e => fetchRun (on e)
  else
    let p := (k.stream 0).pc
    match (s.launch k.launch).code.text[p]? with
    | none => .done (jointBound s)
    | some pw =>
      let e := bits pw 31 30
      if (k.stream e).wait = 6 then .done (passEnded (on e)) else fetchRun (on e)

/-- A core of lower CRN on the array of the issuing core has its M word at this same cycle: the array
performs the commands of one cycle in CRN order (R183). -/
def arrayTie (s : State) : Bool :=
  s.cur.stream == 2 && s.dom.cores.keys.any fun c =>
    decide (c < s.cur.core) && s.bedOf c == s.bedOf s.cur.core && streamDue s c 2 == some s.clk.scyc

/-- Another engine of a timetabled launch is due at this cycle and waits: it could not issue, and SCYC stops
(R188). An engine that has itself come to a wait tries again. (DEDUCED, log 73) -/
def dueWaits (s : State) : Bool :=
  s.cs.wait == 0 && s.dom.cores.keys.any fun c =>
    (s.base c).inUse.any fun e =>
      let t := (s.base c).stream e
      !(c == s.cur.core && e == s.cur.stream) && t.wait != 0 && !t.joinb && streamDue s c e == some s.clk.scyc

/-- It is not a cycle at which the timetable has the issuing stream issue (R187); in a stop no engine of
a timetabled launch issues (R188). -/
def offCycle (s : State) : Bool :=
  s.seqn s.cur.core == .timed &&
  (streamDue s s.cur.core s.cur.stream != some s.clk.scyc || decide (0 < s.clk.stall) || faultHolds s ||
    dueWaits s || arrayTie s)

/-! ### Accesses of one alias class (R251) -/

/-- An opcode that accesses memory or a local store under an alias class: whether it writes, and whether it
may reach a local store and global memory (R78, R89, R145). -/
def aliasAccess (opc : Nat) : Option (Bool × Bool × Bool) :=
  if opIn opc [0x280, 0x281] then some (false, true, false)
  else if opIn opc [0x282, 0x283, 0x2BA] then some (false, false, true)
  else if opIn opc [0x202, 0x203, 0x341, 0x344, 0x346] then some (false, true, true)
  else if opc = 0x300 then some (true, true, false)
  else if opIn opc [0x298, 0x302, 0x303, 0x343] then some (true, false, true)
  else if opIn opc [0x290, 0x291, 0x292, 0x293, 0x294, 0x295, 0x296, 0x297, 0x301, 0x340, 0x342, 0x347] then
    some (true, true, true)
  else none

/-- Two words may access a common location under one alias class, and one of them writes. -/
def aliasMeets (x y : Nat × Wrd) : Bool :=
  match aliasAccess x.1, aliasAccess y.1 with
  | some a, some b => x.2.ac == y.2.ac && (a.1 || b.1) && ((a.2.1 && b.2.1) || (a.2.2 && b.2.2))
  | _, _ => false

/-- Whether engine `e` has a word that may meet `x` among some words of the text, walked from index `p` with
`lits` literals to skip; none where the walk comes to a control word of the engine, at which it may stop. -/
def aliasFrom (c : Code) (bank e : Nat) (x : Nat × Wrd) (stop : Bool) : List Word → Nat → Nat → Option Bool
  | [], _, _ => some false
  | pw :: r, p, lits =>
    if lits ≠ 0 then aliasFrom c bank e x stop r (p + 1) (lits - 1)
    else if bits pw 31 30 ≠ e then aliasFrom c bank e x stop r (p + 1) (litCount pw)
    else match (fetchAt c bank p).bind opcOf with
      | none => aliasFrom c bank e x stop r (p + 1) (litCount pw)
      | some y =>
        if aliasMeets x y then some true
        else if stop && isControl y.1 then none
        else aliasFrom c bank e x stop r (p + 1) (litCount pw)

/-- Engine `e`, at an index of the text and `n` words behind, may have a word that meets `x` in between; past
a control word, whose decision is still to come, any word of the text counts. -/
def aliasBetween (c : Code) (bank e : Nat) (x : Nat × Wrd) (p n lits : Nat) : Bool :=
  match aliasFrom c bank e x true ((c.text.drop p).take n) p lits with
  | some b => b
  | none => (aliasFrom c bank e x false c.text 0 0).getD false

/-- A stream `n` words behind may have a word that meets `x` before it has come as far: up to the end of a
branch group whose decision it has made, and from where that sends it (R166, R290). -/
def aliasBehind (c : Code) (e : Nat) (x : Nat × Wrd) (n : Nat) (t : Stream) : Bool :=
  match t.dec with
  | some (.goto p, after) =>
    aliasBetween c t.bank e x t.pc (Nat.min n (after - t.pc)) t.lit ||
      aliasBetween c t.bank e x p (n - (after - t.pc)) 0
  | some (.halt, after) => aliasBetween c t.bank e x t.pc (Nat.min n (after - t.pc)) t.lit
  | _ => aliasBetween c t.bank e x t.pc n t.lit

/-- The count that marks a wait for an earlier access, beside that of the core's moves, which does not reach
it. -/
def aliasMark : Nat := 2 ^ 64

/-- Every other stream of the core waits inside it, on nothing that is still to arrive, and one that waits for
an earlier access stands at a later word: to wait for one of them would be in vain. -/
def othersStuck (s : State) : Bool :=
  let k := s.cc
  ((span 0 4).filter (· != s.cur.stream)).all (fun e =>
    let t := k.stream e
    t.wait == 10 || t.stuck k.moves ||
    (t.wait == 4 && t.waitAt == aliasMark + k.moves && decide (s.cs.progress < t.progress))) &&
  k.lq.vals.all (fun q => q.entries.all (·.valid)) &&
  k.sq.vals.all (fun q => q.entries.all fun e => e.valid || e.slices != 15)

/-- A word that comes earlier in the sequential interpretation, of another engine that has not come to it
yet, may access a location of the word at hand under its alias class: the word waits for it (R170, R251).
(DEDUCED, log 98) -/
def aliasHeld (s : State) : Bool :=
  let c := s.cl.code
  match s.seqn s.cur.core, (fetchAt c s.cs.bank s.cs.pc).bind opcOf with
  | .slip, some x =>
    (aliasAccess x.1).isSome && !othersStuck s &&
    ((span 0 4).filter (· != s.cur.stream)).any fun e =>
      let t := s.cc.stream e
      t.valid && t.wait != 6 && t.wait != 10 && decide (t.progress < s.cs.progress) &&
        aliasBehind c e x (s.cs.progress - t.progress) t
  | _, _ => false

/-- Wait for an earlier access of the class. -/
def aliasWait (s : State) : State := s.modStream fun t => { t with wait := 4, waitAt := aliasMark + s.cc.moves }

/-- A stream with its own program counter (R166, R173, R187). -/
def fetchOwn (s : State) : Fetched :=
  let s := if s.cluster.isNone then applyDecision s else s
  if s.cc.mode ≠ .running ∨ s.cs.wait = 10 then .done (haltWhenAll s)
  else if s.cs.fpc.isSome then (if offCycle s then .done s else fetchRun s)
  else if !windowRoom s && s.cluster.isNone then .done (waitFor 4 s)
  else if 0 < s.cs.lit then .done (passWord 0 s)
  else match s.cl.code.text[s.cs.pc]? with
    | none => fetchRun s
    | some pw =>
      if s.cluster.isNone && bits pw 31 30 != engineCode (engOf s.cur.stream) then
        .done (passWord (litCount pw) s)
      else if offCycle s then .done s
      else if s.cluster.isNone && aliasHeld s then .done (aliasWait s)
      else fetchRun s

/-- The slowest engine of the core that has neither ended its part of the iteration nor halted. -/
def slowestLive (k : Core) : Option Stream :=
  let l := ((span 0 4).map k.stream).filter fun t => t.wait != 6 && t.wait != 10
  l.find? fun t => l.all fun x => decide (t.progress ≤ x.progress)

/-- An engine that has ended its part of the iteration issues nothing more: under slip it passes every word
without effect, its own too, as far as the slowest of the others has come (R166, R204).
(DEDUCED, log 83) -/
def endedTurn (s : State) : State :=
  match s.seqn s.cur.core, slowestLive s.cc with
  | .slip, some x =>
    if s.cs.progress < x.progress then
      (s.modCore Core.moved).modStream fun t => { t with pc := x.pc, lit := x.lit, progress := x.progress, dec := none }
    else waitFor 6 s
  | _, _ => waitFor 6 s

/-- A wait on a latch or on a cycle ends at a boundary (R207, R324). A latch that an image brought back
set ends it too (R208). -/
def endHold (s : State) : State :=
  let free (s : State) : State := s.modStream fun t => { t with hold := .none, wait := 0 }
  match s.cs.hold with
  | .wfe => if s.cs.latch then s.modStream fun t => { t with hold := .none, latch := false } else s
  | .latch =>
    if s.cs.latch then (free s).modStream fun t => { t with latch := false } else s
  | .cycle target acq => if target ≤ s.clk.scyc then cycleReached target acq (free s) else s
  | _ => s

/-- The turn of stream `e` of core `c` (R39, R166): a report that has come is taken first (R343), and
after a mismatch of the agreement logs only words in progress go on (R168). (DEDUCED, log 36) -/
def fetch (c e : Nat) (s : State) : Fetched :=
  let s := { s with cur := ⟨c, e⟩ }
  let k := s.core c
  if k.mode ≠ .running then .done s
  else match k.reports with
    | r :: rest => .done (takeImprecise c r (s.setCore c { k with reports := rest, tie := false }))
    | [] =>
      if k.mismatch.isSome && (k.stream e).atWord then .done (takeMismatch c s)
      else if s.stopAsked && k.mismatch.isNone then .done s
      else
        let s := endHold s
        if s.seqn c = .joint then
          if (s.core c).streams.vals.any (·.held) then .done s else fetchJoint c s
        else if !(k.inUse.any (· == e)) || s.cs.held || s.cs.joinb || !s.cs.valid then .done s
        else if s.cs.wait == 6 then .done (endedTurn s)
        else fetchOwn s

end Sys2Proof.Machine
end

