-- ==== Sys2Proof/Machine/Floating.lean ====
section
/-!
DEFINITION. Floating-point arithmetic, conversions, approximate functions, vector moves, reductions
and guard operations (R57 to R59, R67 to R70, R97 to R101, R110 to R126, R133).
-/

namespace Sys2Proof.Machine

open Sys2Proof

/-- The rounding mode of a word: DYN reads RMODE as committed (R44, R111). -/
def wordMode (w : Wrd) (s : State) : Nat :=
  let c := bits w.mod 4 2
  if c = 5 then (s.cc.csrN 0x011).toNat % 8 else c

/-- The arithmetic of a word in its MOD format. -/
def fenv (w : Wrd) (s : State) : FEnv :=
  let z := (s.cc.csrN 0x012).toNat
  ⟨fmtOf (bits w.mod 7 5), wordMode w s, bit w.mod 1, z.testBit 0, z.testBit 1⟩

/-- FTEN. -/
def ften (s : State) : Nat := (s.cc.csrN 0x013).toNat % 16

/-- The results of the enabled elements, by element number. -/
def results (wide vec : Bool) (m : Mask) (sBit : Nat) (f : Nat → FR) : List (Nat × FR) :=
  if vec then ((span 0 (elemCount wide)).filter (elemOn wide m)).map fun k => (k, f k)
  else if bit m sBit then [(0, f 0)] else []

/-- The trap of a repetition: the cause bits and the lanes of the elements in which an enabled condition
arose (R57); `lanes` gives those of an element, as bits. (DEDUCED, log 37) -/
def trapOf (en : Nat) (lanes : Nat → Nat) (rs : List (Nat × FR)) : Option (Nat × Nat) :=
  let hit := rs.filter fun r => r.2.cause &&& en != 0
  if hit.isEmpty then none
  else some (hit.foldl (fun c r => c ||| (r.2.cause &&& en)) 0,
    hit.foldl (fun m r => m ||| lanes r.1) 0)

/-- Take the floating-point trap when an enabled condition arose (R57, R359). (DEDUCED, log 37) -/
def trapCheck (lanes : Nat → Nat) (rs : List (Nat × FR)) : Act Unit := do
  let s ← get
  match trapOf (ften s) lanes rs with
  | none => pure ()
  | some (c, m) =>
    raise { code := 0x10, aux := c, faux0 := BitVec.ofNat 64 m, faux1 := BitVec.ofNat 64 s.cs.pc }

/-- The flags of a repetition, none when the quiet bit is set (R24, R56). -/
def flagsOf (w : Wrd) (rs : List (Nat × FR)) : BitVec 5 :=
  if bit w.mod 0 then 0 else BitVec.ofNat 5 (rs.foldl (fun a r => a ||| r.2.flg) 0)

/-- The value of element k among results. -/
def valAt (rs : List (Nat × FR)) (k : Nat) : Nat :=
  match rs with
  | [] => 0
  | (j, r) :: t => if j = k then r.val else valAt t k

/-- A repetition of an X word that computes each enabled element from the patterns of its operands
(R98, R99, R111): trap, flags, and the result as a value. -/
def fpRep (opc : Nat) (w : Wrd) (wide : Bool) (L : Nat) (g : State → Nat → Nat → Nat → Nat → FR) :
    Act Unit :=
  xRep w (usesOf opc w) wide fun a b c => do
    let s ← get
    let vec := isVector w
    let sb := 16 * s.cluster.getD 0
    let f (k : Nat) : FR :=
      if vec then g s k (elem wide a k) (elem wide b k) (elem wide c k)
      else g s 0 (a.toNat % 2 ^ 64) (b.toNat % 2 ^ 64) (c.toNat % 2 ^ 64)
    let rs := results wide vec (guardMask w s) sb f
    trapCheck (fun k => if vec then lanesOf wide k else 1 <<< sb) rs
    if vec then putVec w wide (packElems wide (valAt rs)) (flagsOf w rs) L
    else putScalar w (valAt rs 0) (flagsOf w rs) L

/-- The element is a lane pair: FP64 (R98). -/
def isWide (w : Wrd) : Bool := bits w.mod 7 5 == 1

/-- A latency that depends on FP64 (R102). -/
def fpLat (w : Wrd) (narrow pair : Nat) : Nat := if isWide w then pair else narrow

/-- A unary, binary or ternary operation on decoded values. -/
def fpOp (g : FEnv → FV → FV → FV → FR) (w : Wrd) (s : State) (_k a b c : Nat) : FR :=
  let E := fenv w s
  g E (decodeF E.f a) (decodeF E.f b) (decodeF E.f c)

/-- FADD (R111). -/
def execFadd (w : Wrd) (s : State) : Host.Outcome State Fault Refusal :=
  word w (fpRep 0x100 w (isWide w) (fpLat w 4 5) (fpOp (fun E x y _ => addF E x y) w)) s

/-- FSUB (R111). -/
def execFsub (w : Wrd) (s : State) : Host.Outcome State Fault Refusal :=
  word w (fpRep 0x101 w (isWide w) (fpLat w 4 5) (fpOp (fun E x y _ => subF E x y) w)) s

/-- FMUL (R111). -/
def execFmul (w : Wrd) (s : State) : Host.Outcome State Fault Refusal :=
  word w (fpRep 0x102 w (isWide w) (fpLat w 4 5) (fpOp (fun E x y _ => mulF E x y) w)) s

/-- FFMA (R111). -/
def execFfma (w : Wrd) (s : State) : Host.Outcome State Fault Refusal :=
  word w (fpRep 0x103 w (isWide w) (fpLat w 4 5) (fpOp fmaF w)) s

/-- FMIN (R112). -/
def execFmin (w : Wrd) (s : State) : Host.Outcome State Fault Refusal :=
  word w (fpRep 0x104 w (isWide w) (fpLat w 4 5) (fpOp (fun E x y _ => minMaxF E false x y) w)) s

/-- FMAX (R112). -/
def execFmax (w : Wrd) (s : State) : Host.Outcome State Fault Refusal :=
  word w (fpRep 0x105 w (isWide w) (fpLat w 4 5) (fpOp (fun E x y _ => minMaxF E true x y) w)) s

/-- FDIV (R111). -/
def execFdiv (w : Wrd) (s : State) : Host.Outcome State Fault Refusal :=
  word w (fpRep 0x106 w (isWide w) (fpLat w 12 22) (fpOp (fun E x y _ => divF E x y) w)) s

/-- FSQRT (R111). -/
def execFsqrt (w : Wrd) (s : State) : Host.Outcome State Fault Refusal :=
  word w (fpRep 0x107 w (isWide w) (fpLat w 12 22) (fpOp (fun E x _ _ => sqrtF E x) w)) s

/-- A repetition of `fcmp` (R113). -/
def fcmpRep (w : Wrd) : Act Unit :=
  let wide := isWide w
  xRep w (usesOf 0x108 w) wide fun a b _ => do
    let s ← get
    let vec := isVector w
    let sb := 16 * s.cluster.getD 0
    let E := fenv w s
    let pred := bits w.mod 4 2
    let f (k : Nat) : FR :=
      if vec then cmpF E pred (decodeF E.f (elem wide a k)) (decodeF E.f (elem wide b k))
      else cmpF E pred (decodeF E.f a.toNat) (decodeF E.f b.toNat)
    let rs := results wide vec (guardMask w s) sb f
    trapCheck (fun k => if vec then lanesOf wide k else 1 <<< sb) rs
    putCmp w wide (rs.foldl (fun acc r => acc + r.2.val * 2 ^ r.1) 0) (flagsOf w rs) 2

/-- FCMP (R113). -/
def execFcmp (w : Wrd) (s : State) : Host.Outcome State Fault Refusal := word w (fcmpRep w) s

/-- FCLASS (R114): no flag and no trap. -/
def execFclass (w : Wrd) (s : State) : Host.Outcome State Fault Refusal :=
  word w (fpRep 0x109 w (isWide w) 2 fun s _ a _ _ =>
    let E := fenv w s
    ⟨classF E.f (decodeF E.f a), 0, false⟩) s

/-- FSCALE (R115): b is an I32 element, or I64 for FP64. -/
def execFscale (w : Wrd) (s : State) : Host.Outcome State Fault Refusal :=
  word w (fpRep 0x10A w (isWide w) 3 fun s _ a b _ =>
    let E := fenv w s
    scaleF E (decodeF E.f a) (toSigned (if isWide w then 64 else 32) b)) s

/-- FEXPO (R115): an integer element, sign-extended in a scalar register by R41. -/
def execFexpo (w : Wrd) (s : State) : Host.Outcome State Fault Refusal :=
  word w (fpRep 0x10B w (isWide w) 3 fun s _ a _ _ =>
    let E := fenv w s
    let n := if isWide w then 64 else 32
    let r := expoF E n (decodeF E.f a)
    { r with val := extend n false r.val }) s

/-- FRINT (R115). -/
def execFrint (w : Wrd) (s : State) : Host.Outcome State Fault Refusal :=
  word w (fpRep 0x10C w (isWide w) 3 (fpOp (fun E x _ _ => rintF E x) w)) s

/-! ### Approximate functions (R67 to R70, R116) -/

/-- Segments of a version (R67). (DEDUCED, log 38) -/
def segments (v : Nat) : Nat := if v = 1 then 32 else if v = 2 then 64 else 128

/-- An FP32 pattern as that of a finite number. -/
def finitePattern (x : Nat) : Nat := if x / 2 ^ 23 % 256 = 255 then x - 2 ^ 30 else x

/-- A ROM coefficient: R67 fixes c0 of segment 0 of exp2, rcp and log2. Every coefficient is a finite
number, so that the polynomial at t = 0 is c0 and the results that R67 calls exact are.
(DEDUCED, log 38) -/
def romCoef (v fn j k : Nat) : Nat :=
  if k = 0 ∧ j = 0 ∧ (fn = 0 ∨ fn = 2) then 0x3F800000
  else if k = 0 ∧ j = 0 ∧ fn = 1 then 0
  else finitePattern (Config.rom v fn j k).toNat

/-- FP32 RNE without flushes. -/
def rneEnv : FEnv := ⟨fp32, 0, false, false, false⟩

/-- The polynomial of a segment at an exact reduced argument num / den (R67). -/
def poly (v fn j num den : Nat) (tneg : Bool) : Nat :=
  let t := if num = 0 then 0 else (roundF fp32 0 false ⟨tneg, num, den⟩).val
  let d (x : Nat) := decodeF fp32 x
  let p := (fmaF rneEnv (d (romCoef v fn j 2)) (d t) (d (romCoef v fn j 1))).val
  (fmaF rneEnv (d p) (d t) (d (romCoef v fn j 0))).val

/-- The result of the reconstruction: rounded by the mode without NX, and the output flush raises UF
alone (R67). -/
def fncOut (E : FEnv) (r : FR) : FR :=
  let mag := r.val % 2 ^ 31
  let fl := r.flg &&& (31 - flNX)
  if E.ftzOut && decide (mag ≠ 0) && decide (mag < 2 ^ 23) then ⟨r.val - mag, fl ||| flUF, r.snan⟩
  else ⟨r.val, fl, r.snan⟩

/-- Reconstruction y · 2^n of a polynomial value. -/
def scaleOut (E : FEnv) (y : Nat) (neg : Bool) (n : Int) : FR :=
  match decodeF fp32 y with
  | .fin s m e => if m = 0 then ⟨fp32.zero (s != neg), 0, false⟩
    else roundF fp32 E.mode E.sat (Ex.ofDyadic (s != neg) m (e + n))
  | .inf s => ⟨fp32.inf (s != neg), 0, false⟩
  | .nan _ => ⟨fp32.nan, 0, false⟩

/-- The segment of num / den in units of 1 / N, and the remainder t. (DEDUCED, log 38) -/
def polySeg (num den N : Nat) : Nat × Nat × Nat :=
  let j := num * N / den
  (j, num * N - j * den, den * N)

/-- tanh of a magnitude below 8 and at least 2^−12, as a polynomial value (R68). -/
def tanhPoly (v : Nat) (num den : Nat) : Nat :=
  let N := segments v
  let g := polySeg num (den * 8) N
  poly v 6 g.1 (g.2.1 * 8) g.2.2 false

/-- tanh of ± num / den as an exact value with its sign (R68): x itself below 2^−12, 1 from 8 on. -/
def tanhEx (v : Nat) (neg : Bool) (num den : Nat) : FV :=
  if num * 4096 < den then .fin neg num (-(Nat.log2 den : Int))
  else if den * 8 ≤ num then .fin neg 1 0
  else match decodeF fp32 (tanhPoly v num den) with
    | .fin s m e => .fin (s != neg) m e
    | .inf s => .inf (s != neg)
    | .nan q => .nan q

/-- The approximate functions on a decoded argument (R68). `fn` is IMM[3:0], 0 to 8.
(DESIGN CHOICE, log 101) -/
def fncVal (E : FEnv) (v fn : Nat) (x : FV) : FR :=
  let N := segments v
  match flushIn E.ftzIn fp32 x with
  | .nan s => nanOut fp32 s
  | .inf neg =>
    match fn with
    | 0 => if neg then ⟨0, 0, false⟩ else ⟨fp32.inf false, 0, false⟩
    | 1 => if neg then invalid fp32 false else ⟨fp32.inf false, 0, false⟩
    | 2 => ⟨fp32.zero neg, 0, false⟩
    | 3 => if neg then invalid fp32 false else ⟨0, 0, false⟩
    | 4 => invalid fp32 false
    | 5 => invalid fp32 false
    | 8 => sigm E (.fin neg 1 0)
    | _ => ⟨0x3F800000 + fp32.zero neg, 0, false⟩
  | .fin neg m e =>
    let q := Ex.ofDyadic neg m e
    let l : Int := (Nat.log2 m : Int) + e
    -- the significand in [1, 2) as num / den
    let sg := 2 ^ Nat.log2 m
    match fn with
    | 0 =>
      if !neg && decide (128 * q.den ≤ q.num) then ⟨fp32.inf false, flOF, false⟩
      else if neg && decide (150 * q.den < q.num) then ⟨0, flUF, false⟩
      else
        let i : Int := if neg then -(q.num : Int) else q.num
        let n := i / (q.den : Int)
        let g := polySeg (i - n * q.den).toNat q.den N
        fncOut E (scaleOut E (poly v 0 g.1 g.2.1 g.2.2 false) false n)
    | 1 =>
      if m = 0 then ⟨fp32.inf true, flDZ, false⟩
      else if neg then invalid fp32 false
      else
        let g := polySeg (m - sg) sg N
        match decodeF fp32 (poly v 1 g.1 g.2.1 g.2.2 false) with
        | .fin s ym ye =>
          fncOut E (sumOut { E with f := fp32, ftzOut := false } (decide (l < 0)) l.natAbs 0 s ym ye)
        | .inf s => ⟨fp32.inf s, 0, false⟩
        | .nan _ => ⟨fp32.nan, 0, false⟩
    | 2 =>
      if m = 0 then ⟨fp32.inf neg, flDZ, false⟩
      else
        let g := polySeg (m - sg) sg N
        fncOut E (scaleOut E (poly v 2 g.1 g.2.1 g.2.2 false) neg (-l))
    | 3 =>
      if m = 0 then ⟨fp32.inf neg, flDZ, false⟩
      else if neg then invalid fp32 false
      else
        let odd := l % 2 != 0
        let g := if odd then polySeg (m - sg) sg (N / 2) else polySeg (m - sg) sg (N / 2)
        let j := if odd then N / 2 + g.1 else g.1
        let t := if odd then 2 * g.2.1 else g.2.1
        fncOut E (scaleOut E (poly v 3 j t g.2.2 false) false (-((if odd then l - 1 else l) / 2)))
    | 4 => trig E v N neg q true
    | 5 => trig E v N neg q false
    | 6 =>
      if q.num * 4096 < q.den then fncOut E (keep neg m e)
      else if q.den * 8 ≤ q.num then ⟨0x3F800000 + fp32.zero neg, 0, false⟩
      else fncOut E (scaleOut E (tanhPoly v q.num q.den) neg 0)
    | 7 =>
      if q.num * 4096 < q.den then fncOut E (mulF { E with f := fp32, ftzIn := false, ftzOut := false } (.fin neg m e) (decodeF fp32 0x3F906EBB))
      else if q.den * 4 ≤ q.num then ⟨0x3F800000 + fp32.zero neg, 0, false⟩
      else
        let g := polySeg q.num (q.den * 4) N
        fncOut E (scaleOut E (poly v 7 g.1 (g.2.1 * 4) g.2.2 false) neg 0)
    | _ =>
      let h := Ex.ofDyadic neg m (e - 1)
      sigm E (tanhEx v neg h.num h.den)
where
  keep (neg : Bool) (m : Nat) (e : Int) : FR :=
    if m = 0 then ⟨fp32.zero neg, 0, false⟩ else roundF fp32 E.mode false (Ex.ofDyadic neg m e)
  /-- fma(0.5, h, 0.5) -/
  sigm (E : FEnv) (h : FV) : FR :=
    let half := FV.fin false 1 (-1)
    fncOut E (fmaF { E with f := fp32, ftzIn := false, ftzOut := false } half h half)
  /-- sin2pi and cos2pi: u = x − RNE-integer(x) -/
  trig (E : FEnv) (v N : Nat) (neg : Bool) (q : Ex) (isSin : Bool) : FR :=
    let r := roundInt 0 neg q.num q.den
    let d : Int := (q.num : Int) - (r.1 * q.den : Nat)
    let uneg := decide (d < 0) != neg && decide (d ≠ 0)
    let a := d.natAbs
    let far := decide (q.den < 4 * a)
    let num := if far then q.den - 2 * a else 2 * a
    let den := 2 * q.den
    let j := min (num * 4 * N / den) (N - 1)
    let t := num * 4 * N - j * den
    let y := poly v (if isSin then 4 else 5) j t (den * 4 * N) false
    fncOut E (scaleOut E y (if isSin then uneg else far) 0)

/-- FNC of codes 0 to 8 (R67 to R69). -/
def execFnc (w : Wrd) (s : State) : Host.Outcome State Fault Refusal :=
  word w (fpRep 0x10D w false 8 fun s _ a _ _ =>
    fncVal (fenv w s) (s.cc.csrN 0x010).toNat (bits w.imm 3 0) (decodeF fp32 a)) s

/-- The generator of R70: the 32 bits of global lane i. -/
def rndLane (seed c : Dword) (i : Nat) : Nat :=
  let z0 : Dword := seed + (c * 64 + BitVec.ofNat 64 (i + 1)) * 0x9E3779B97F4A7C15
  let z1 := (z0 ^^^ (z0 >>> 30)) * 0xBF58476D1CE4E5B9
  let z2 := (z1 ^^^ (z1 >>> 27)) * 0x94D049BB133111EB
  bits (z2 ^^^ (z2 >>> 31)) 63 32

/-- FNC_RND (R70, R116): the counter is SA read as 64 bits. (DESIGN CHOICE, log 112) -/
def execFncRnd (w : Wrd) (s : State) : Host.Outcome State Fault Refusal :=
  word w (xRep w (usesOf 0x10D w) false fun _ _ _ => do
    let s ← get
    let c := regVal s w.sa
    let seed := s.cc.csrN 0x014
    if isVector w then putVec w false (packElems false (rndLane seed c)) 0 3
    else putScalar w (rndLane seed c (16 * s.cluster.getD 0)) 0 3) s

/-- FNC_TAB (R116): a ROM coefficient by segment. Function code 4 names table S, 5 table C and 8 the
tanh table. -/
def execFncTab (w : Wrd) (s : State) : Host.Outcome State Fault Refusal :=
  word w (fpRep 0x10D w false 2 fun s _ a _ _ =>
    let v := (s.cc.csrN 0x010).toNat
    let fn := bits w.imm 7 4
    ⟨romCoef v (if fn = 8 then 6 else fn) (a % 2 ^ 32 % segments v) (bits w.imm 9 8), 0, false⟩) s

/-! ### Conversions (R117 to R121) -/

/-- Source and destination kinds of `cvt` and `cvts` (R117). -/
def cvtKinds (w : Wrd) : Nat × Nat :=
  let f := bits w.mod 7 5
  let k := bits w.imm 3 0
  if bit w.imm 4 then (f, k) else (k, f)

/-- A destination element in its container: integers extended by kind to the lane or pair (R98,
R117). -/
def cvtOut (dst : Nat) (x : Nat) : Nat :=
  if dst ≤ 7 then x else extend (kindBits dst) (decide (12 ≤ dst)) x

/-- A repetition of `cvt` or `cvts` (R117 to R119): when one side is 64-bit, element k uses pair k on
that side and lane 2k on the other. -/
def cvtRep (opc : Nat) (w : Wrd) : Act Unit :=
  let src := (cvtKinds w).1
  let dst := (cvtKinds w).2
  let sw := kindBits src == 64
  let dw := kindBits dst == 64
  let wide := sw || dw
  xRep w (usesOf opc w) sw fun a b _ => do
    let s ← get
    let E := fenv w s
    let vec := isVector w
    let sb := 16 * s.cluster.getD 0
    let f (k : Nat) : FR :=
      let x := if !vec then a.toNat % 2 ^ 64
        else if sw then elem true a k else if wide then elem false a (2 * k) else elem false a k
      let rnd := if !vec then b.toNat % 2 ^ 32
        else if wide then elem false b (2 * k) else elem false b k
      if opc = 0x111 then convertS E.sat E.ftzIn E.ftzOut src dst x rnd
      else convert E.mode E.sat E.ftzIn E.ftzOut src dst x
    let rs := results wide vec (guardMask w s) sb f
    trapCheck (fun k => if vec then lanesOf wide k else 1 <<< sb) rs
    if vec then
      -- a narrower destination clears lane 2k + 1
      putVec w wide (packElems wide fun k =>
        if dw then cvtOut dst (valAt rs k) else cvtOut dst (valAt rs k) % 2 ^ 32) (flagsOf w rs) 3
    else putScalar w (cvtOut dst (valAt rs 0)) (flagsOf w rs) 3

/-- CVT (R118). -/
def execCvt (w : Wrd) (s : State) : Host.Outcome State Fault Refusal := word w (cvtRep 0x110 w) s

/-- CVTS (R119). -/
def execCvts (w : Wrd) (s : State) : Host.Outcome State Fault Refusal := word w (cvtRep 0x111 w) s

/-- emax of a narrow format of `cvtq` (R50). -/
def quantEmax (k : Nat) : Int :=
  match k with
  | 4 => 8
  | 5 => 15
  | 6 => 12
  | 7 => 8
  | _ => 6

/-- The element that a NaN or infinity in the block gives (R50, R120). -/
def quantNan (k : Nat) : Nat :=
  match k with
  | 4 => 0x7F
  | 5 => 0x7E
  | 6 => 0x80
  | 7 => 0x20
  | _ => 0

/-- floor(log2) of the largest magnitude of a block; none when all are zero. -/
def blockLog (l : List FV) : Option Int :=
  l.foldl (fun acc x => match x with
    | .fin _ m e => if m = 0 then acc else
      let y := (Nat.log2 m : Int) + e
      match acc with
      | none => some y
      | some z => some (max y z)
    | _ => acc) none

/-- One block of `cvtq` (R50): scale code and elements with their flags. Infinities and NaNs poison
the block. INT8 saturates to [−127, 127]. (DESIGN CHOICE, log 100) -/
def quantBlock (mode k : Nat) (fin fout : Bool) (xs : List Nat) : Nat × List FR :=
  let vs := xs.map fun x => flushIn fin fp32 (decodeF fp32 x)
  let bad := vs.any fun v => match v with | .fin _ _ _ => false | _ => true
  if bad then
    (0xFF, vs.map fun v => ⟨quantNan k, flNV, v.isSnan⟩)
  else
    let X : Int := match blockLog vs with
      | none => -127
      | some l => max (-127) (min 127 (l - quantEmax k))
    let one (v : FV) : FR :=
      match v with
      | .fin s m e =>
        if k = 8 then
          let q := Ex.ofDyadic s m (e - X)
          let r := roundInt mode s q.num q.den
          let c := min r.1 127
          let past := decide (127 < r.1)
          ⟨if s then (256 - c) % 256 else c,
            (if r.2 || past then flNX else 0) + (if past then flOF else 0), false⟩
        else
          let r := toFloatKind mode true k (.fin s m (e - X))
          if k ≤ 5 then flushOut fout (fmtOf k) r else r
      | _ => ⟨0, 0, false⟩
    ((X + 127).toNat, vs.map one)

/-- A packed block vector of 64 elements and two scales (R120). -/
def packBlocks (k : Nat) (es : List Nat) (s0 s1 : Nat) : VReg :=
  let n := if k = 7 then 6 else 8
  let body := (es.foldl (fun (acc : Nat × Nat) x => (acc.1 + (x % 2 ^ n) <<< acc.2, acc.2 + n)) (0, 0)).1
  BitVec.ofNat 2048 (body + (s0 + s1 * 256) <<< 2016)

/-- A forked cluster may not issue the block conversions (R100). -/
def inCluster (s : State) : Bool := s.cluster.isSome

/-- A repetition of `cvtq` (R120, R121): an element trap stops the whole repetition. -/
def cvtqRep (w : Wrd) : Act Unit :=
  xRep w (usesOf 0x112 w) false fun a _ _ => do
    let s ← get
    let E := fenv w s
    let k := w.imm.toNat
    let b0 := quantBlock E.mode k E.ftzIn E.ftzOut ((span 0 32).map (elem false a))
    let b1 := quantBlock E.mode k E.ftzIn E.ftzOut ((span 32 32).map (elem false a))
    let rs := (span 0 64).zip (b0.2 ++ b1.2)
    trapCheck (fun k => 1 <<< k) rs
    putVec w false (packBlocks k (rs.map fun r => r.2.val) b0.1 b1.1) (flagsOf w rs) 6

/-- CVTQ (R120). -/
def execCvtq (w : Wrd) (s : State) : Host.Outcome State Fault Refusal := 
  checkedWord w inCluster (cvtqRep w) s

/-- One element of `cvtd` (R50, R120). The scale is applied before the input flush (R58).
(DEDUCED, log 80) -/
def dequant (E : FEnv) (k code scale : Nat) : FR :=
  let v : FV := if k = 8 then decodeKind 8 code else decodeKind k code
  if scale = 0xFF then ⟨fp32.nan, if v.isSnan then flNV else 0, v.isSnan⟩
  else
    match v with
    | .fin s m e =>
      match flushIn E.ftzIn fp32 (.fin s m (e + (scale : Int) - 127)) with
      | .fin s m e => finish { E with f := fp32 } s (Ex.ofDyadic s m e)
      | _ => ⟨0, 0, false⟩
    | .inf s => ⟨fp32.inf s, 0, false⟩
    | .nan s => nanOut fp32 s

/-- A repetition of `cvtd` (R120). -/
def cvtdRep (w : Wrd) : Act Unit :=
  xRep w (usesOf 0x113 w) false fun a _ _ => do
    let s ← get
    let E := fenv w s
    let k := w.imm.toNat
    let n := if k = 7 then 6 else 8
    let rs := (span 0 64).map fun i =>
      (i, dequant E k (bits a (n * i + n - 1) (n * i))
        (if i < 32 then bits a 2023 2016 else bits a 2031 2024))
    trapCheck (fun k => 1 <<< k) rs
    putVec w false (packElems false (valAt rs)) (flagsOf w rs) 3

/-- CVTD (R120). -/
def execCvtd (w : Wrd) (s : State) : Host.Outcome State Fault Refusal := 
  checkedWord w inCluster (cvtdRep w) s

/-! ### Vector moves (R124) -/

/-- Elements of a cluster or of the whole vector: first element and count (R100). -/
def elemRange (wide : Bool) (s : State) : Nat × Nat :=
  match s.cluster with
  | none => (0, elemCount wide)
  | some c => if wide then (8 * c, 8) else (16 * c, 16)

/-- A repetition of a vector move: element i of the result from the vectors a and b (R124). `E` is
the element count and `base` the first element of the issuing clusters. -/
def moveRep (opc : Nat) (w : Wrd) (L : Nat)
    (f : State → VReg → VReg → Nat → Nat → Nat → Nat) : Act Unit :=
  let wide := isWide w
  xRep w (usesOf opc w) wide fun a b _ => do
    let s ← get
    let r := elemRange wide s
    putVec w wide (packElems wide fun i => f s a b r.1 r.2 i) 0 L

/-- An element of a within the issuing clusters: the number is taken modulo their count (R100). -/
def pick (wide : Bool) (a : VReg) (base E n : Nat) : Nat := elem wide a (base + n % E)

/-- VMOV (R124). -/
def execVmov (w : Wrd) (s : State) : Host.Outcome State Fault Refusal :=
  word w (moveRep 0x120 w 1 fun _ a _ _ _ i => elem (isWide w) a i) s

/-- VBC (R124): a scalar, or lane IMM mod E of a vector. -/
def execVbc (w : Wrd) (s : State) : Host.Outcome State Fault Refusal :=
  word w (moveRep 0x121 w 1 fun _ a _ base E i =>
    if isVecSrc w.sa then pick (isWide w) a base E w.imm.toNat else elem (isWide w) a i) s

/-- VLIX (R124): the global element number plus IMM. (DESIGN CHOICE, log 111) -/
def execVlix (w : Wrd) (s : State) : Host.Outcome State Fault Refusal :=
  word w (moveRep 0x122 w 1 fun _ _ _ _ _ i => wrapN 64 ((i : Int) + toSigned 32 w.imm.toNat)) s

/-- VPERM (R124). -/
def execVperm (w : Wrd) (s : State) : Host.Outcome State Fault Refusal :=
  word w (moveRep 0x123 w 2 fun _ a b base E i => pick (isWide w) a base E (elem (isWide w) b i)) s

/-- The shift of `vrot` and `vbfly` (R124). -/
def vshift (w : Wrd) (s : State) (E : Nat) : Nat := ((regVal s w.sb).toNat + w.imm.toNat) % E

/-- VROT (R124). -/
def execVrot (w : Wrd) (s : State) : Host.Outcome State Fault Refusal :=
  word w (moveRep 0x124 w 2 fun s a _ base E i =>
    pick (isWide w) a base E (i - base + vshift w s E)) s

/-- VBFLY (R124). -/
def execVbfly (w : Wrd) (s : State) : Host.Outcome State Fault Refusal :=
  word w (moveRep 0x125 w 2 fun s a _ base E i =>
    pick (isWide w) a base E ((i - base) ^^^ vshift w s E)) s

/-! ### Reductions (R59, R125) -/

/-- Combine two nodes of the tree: a node with one input passes it, an empty one stays empty. -/
def node (f : FV → FV → FR) (fm : Fmt) (a b : Option FR) : Option FR :=
  match a, b with
  | none, y => y
  | x, none => x
  | some x, some y =>
    let r := f (decodeF fm x.val) (decodeF fm y.val)
    some ⟨r.val, r.flg ||| x.flg ||| y.flg, r.snan || x.snan || y.snan⟩

/-- One level of the tree: adjacent results in pairs. -/
def level (f : FV → FV → FR) (fm : Fmt) : List (Option FR) → List (Option FR)
  | a :: b :: r => node f fm a b :: level f fm r
  | l => l

/-- The tree of n levels. -/
def tree (f : FV → FV → FR) (fm : Fmt) : Nat → List (Option FR) → List (Option FR)
  | 0, l => l
  | n + 1, l => tree f fm n (level f fm l)

/-- The fixed pairwise tree over leaves (R59): an empty tree yields +0. -/
def reduceTree (f : FV → FV → FR) (fm : Fmt) (leaves : List (Option FR)) : FR :=
  match tree f fm 6 leaves with
  | some r :: _ => r
  | _ => ⟨0, 0, false⟩

/-- Two inputs of a node with the lanes that each stands for and those in which an enabled condition
arose: where one arises at the node, it arises in the lanes of both (R57, R125). -/
def trapNode (en : Nat) (f : FV → FV → FR) (fm : Fmt) (a b : Option (FR × Nat × Nat)) :
    Option (FR × Nat × Nat) :=
  match a, b with
  | none, y => y
  | x, none => x
  | some (x, l, t), some (y, m, u) =>
    let r := f (decodeF fm x.val) (decodeF fm y.val)
    some (r, l ||| m, t ||| u ||| (if r.cause &&& en != 0 then l ||| m else 0))

/-- One level of such nodes. -/
def trapLevel (en : Nat) (f : FV → FV → FR) (fm : Fmt) :
    List (Option (FR × Nat × Nat)) → List (Option (FR × Nat × Nat))
  | a :: b :: r => trapNode en f fm a b :: trapLevel en f fm r
  | l => l

/-- The lanes in which an enabled condition arose in the tree over leaves with their lanes. -/
def trapLanes (en : Nat) (f : FV → FV → FR) (fm : Fmt) : Nat → List (Option (FR × Nat × Nat)) → Nat
  | 0, some (_, _, t) :: _ => t
  | 0, _ => 0
  | n + 1, l => trapLanes en f fm n (trapLevel en f fm l)

/-- A repetition of a reduction (R99, R125): the effective mask selects the inputs, and the s
destination is written. (DEDUCED, log 37) -/
def redRep (opc : Nat) (w : Wrd) (f : FEnv → FV → FV → FR) : Act Unit :=
  let wide := isWide w
  xRep w (usesOf opc w) wide fun a _ _ => do
    let s ← get
    let E := fenv w s
    let r := elemRange wide s
    let m := guardMask w s
    let leaves := (span r.1 r.2).map fun k =>
      if elemOn wide m k then some ⟨elem wide a k % 2 ^ E.f.width, 0, false⟩ else none
    let v := reduceTree (f E) E.f leaves
    match trapOf (ften s) id [(0, v)] with
    | some (c, _) =>
      let ls := (span r.1 r.2).map fun k =>
        if elemOn wide m k then some (⟨elem wide a k % 2 ^ E.f.width, 0, false⟩, lanesOf wide k, 0) else none
      raise { code := 0x10, aux := c, faux0 := BitVec.ofNat 64 (trapLanes (ften s) (f E) E.f 6 ls),
              faux1 := BitVec.ofNat 64 s.cs.pc }
    | none =>
      addPend (.reg w.dst) s.laneMask (BitVec.ofNat 2048 v.val)
        (if bit w.mod 0 then 0 else BitVec.ofNat 5 v.flg) (fpLat w 8 10) true none

/-- VSUM (R125). -/
def execVsum (w : Wrd) (s : State) : Host.Outcome State Fault Refusal :=
  word w (redRep 0x126 w addF) s

/-- VMAXR (R125). -/
def execVmaxr (w : Wrd) (s : State) : Host.Outcome State Fault Refusal :=
  word w (redRep 0x127 w fun E x y => minMaxF E true x y) s

/-- VMINR (R125). -/
def execVminr (w : Wrd) (s : State) : Host.Outcome State Fault Refusal :=
  word w (redRep 0x128 w fun E x y => minMaxF E false x y) s

/-! ### Guard operations (R126) -/

/-- The table operation of `gop`: bit i is IMM[2 a_i + b_i]. -/
def gopVal (tab : Word) (a b : Mask) : Mask :=
  let p (k : Nat) (x : Mask) : Mask := if bit tab k then x else 0
  p 3 (a &&& b) ||| p 2 (a &&& ~~~b) ||| p 1 (~~~a &&& b) ||| p 0 (~~~a &&& ~~~b)

/-- A repetition that writes g bits under the guard. -/
def putG (w : Wrd) (x : Mask) : Act Unit := do
  let s ← get
  addPend (.reg w.dst) (guardMask w s) (x.setWidth 2048) 0 1 true none

/-- GOP (R126). -/
def execGop (w : Wrd) (s : State) : Host.Outcome State Fault Refusal :=
  word w (xRep w (usesOf 0x130 w) false fun _ _ _ => do
    let s ← get
    putG w (gopVal w.imm (regVal s w.sa) (regVal s w.sb))) s

/-- A mask count into an s register (R99, R126). -/
def gcount (opc : Nat) (w : Wrd) (f : Mask → Mask → Nat) : Act Unit :=
  xRep w (usesOf opc w) false fun _ _ _ => do
    let s ← get
    addPend (.reg w.dst) s.laneMask (BitVec.ofNat 2048 (f (guardMask w s) (regVal s w.sa))) 0 1 true none

/-- GANY (R126). -/
def execGany (w : Wrd) (s : State) : Host.Outcome State Fault Refusal :=
  word w (gcount 0x131 w fun m x => if m &&& x = 0 then 0 else 1) s

/-- GALL (R126). -/
def execGall (w : Wrd) (s : State) : Host.Outcome State Fault Refusal :=
  word w (gcount 0x132 w fun m x => if m &&& x = m then 1 else 0) s

/-- GCNT (R126). -/
def execGcnt (w : Wrd) (s : State) : Host.Outcome State Fault Refusal :=
  word w (gcount 0x133 w fun m x =>
    (span 0 64).foldl (fun c i => c + (if bit (m &&& x) i then 1 else 0)) 0) s

/-- GMOV (R126): g from g, s or an immediate; s from g. -/
def execGmov (w : Wrd) (s : State) : Host.Outcome State Fault Refusal :=
  word w (xRep w (usesOf 0x134 w) false fun _ _ _ => do
    let s ← get
    if isG w.dst then
      putG w (if isZ w.sa then w.imm.signExtend 64 else regVal s w.sa)
    else putScalar w (regVal s w.sa).toNat 0 1) s

/-! ### Discarding queue entries (R133) -/

/-- LQDROP (R133): the pop happens also when the repetition is guarded off, and waits for no data. -/
def execLqdrop (w : Wrd) (s : State) : Host.Outcome State Fault Refusal :=
  word w (popNamed (lqsOf w (usesOf 0x138 w))) s

end Sys2Proof.Machine
end

