-- ==== Sys2Proof/Machine/Combine.lean ====
section
/-!
DEFINITION. Multicast groups and combining trees (R429, R437 to R439, R462).
-/

namespace Sys2Proof.Machine

open Sys2Proof

/-- The members of a group: package and declared contributing cores (R429). -/
def groupOf (s : State) (grp : Nat) : Option (List (Nat × Nat)) :=
  (s.route.groups[grp]?).map fun l =>
    ((l.drop 1).take (l.headD 0).toNat).map fun x => (bits x 11 0, bits x 27 16)

/-- What stands for the destination of a packet to a group. -/
def groupKey (grp : Nat) : Nat := 4096 + grp

/-- A round of a group, if it has begun. -/
def roundOf (s : State) (grp r : Nat) : Option Round :=
  s.dom.rounds.find? fun x => x.grp == grp && x.r == r

/-- Replace or add a round. -/
def putRound (x : Round) (s : State) : State :=
  let l := s.dom.rounds.filter fun y => !(y.grp == x.grp && y.r == x.r)
  { s with dom := { s.dom with rounds := l ++ [x] } }

/-! ### The operators (R439) -/

/-- Lane i of a contribution. -/
def combLane (v : VReg) (i : Nat) : Nat := bits v (32 * i + 31) (32 * i)

/-- A value from its 64 lanes. -/
def ofLanes (f : Nat → Nat) : VReg :=
  BitVec.ofNat 2048 ((span 0 64).foldl (fun a i => a + (f i % 2 ^ 32) <<< (32 * i)) 0)

/-- An FP32 value. -/
def f32 (x : Nat) : FV := decodeF fp32 x

/-- The factor of a side whose maximum is `a` when the larger one is `m` (R439). -/
def tripleFactor (a m : Nat) : Nat :=
  if eqF (f32 a) (f32 m) then 0x3F800000
  else (fncVal rneEnv 3 0 (f32 (subF rneEnv (f32 a) (f32 m)).val)).val

/-- fma(y, fb, RNE(x · fa)). -/
def tripleMix (fa fb x y : Nat) : Nat :=
  (fmaF rneEnv (f32 y) (f32 fb) (f32 (mulF rneEnv (f32 x) (f32 fa)).val)).val

/-- The value of a node with inputs `a` (first) and `b` (R439). -/
def nodeValue (op : Nat) (a b : VReg) : VReg :=
  match op with
  | 0 => ofLanes fun i => (addF rneEnv (f32 (combLane a i)) (f32 (combLane b i))).val
  | 1 => ofLanes fun i => (minMaxF rneEnv true (f32 (combLane a i)) (f32 (combLane b i))).val
  | _ =>
    let m := (minMaxF rneEnv true (f32 (combLane a 0)) (f32 (combLane b 0))).val
    let fa := tripleFactor (combLane a 0) m
    let fb := tripleFactor (combLane b 0) m
    ofLanes fun i => if i = 0 then m else tripleMix fa fb (combLane a i) (combLane b i)

/-! ### The tree (R59, R438) -/

/-- A node of which an input may be missing passes the other one. -/
def joinNode (op : Nat) (a b : Option VReg) : Option VReg :=
  match a, b with
  | some x, some y => some (nodeValue op x y)
  | some x, none => some x
  | none, y => y

/-- One level: adjacent leaves are joined, and a last odd one passes. -/
def pairLevel (op : Nat) : List (Option VReg) → List (Option VReg)
  | a :: b :: r => joinNode op a b :: pairLevel op r
  | l => l

/-- The value of the tree over leaves by position; `fuel` bounds its levels. -/
def pairTree (op : Nat) : Nat → List (Option VReg) → Option VReg
  | _, [] => none
  | _, [x] => x
  | 0, x :: _ => x
  | fuel + 1, l => pairTree op fuel (pairLevel op l)

/-- The contributions of a round by the linear index of their cores. -/
def sortContribs (l : List (Nat × VReg)) : List (Nat × VReg) :=
  (span 0 1024).filterMap fun c => l.find? (·.1 == c)

/-- The value of a package: within each die, then over the dies that hold a contribution (R438). -/
def packageValue (s : State) (x : Round) : Option VReg :=
  let l := sortContribs x.contribs
  let dies := (span 0 8).filterMap fun d =>
    match (l.filter fun c => s.dieOf c.1 == d) with
    | [] => none
    | m => some (pairTree x.op 10 (m.map fun c => some c.2))
  pairTree x.op 4 dies

/-- What this package's contributions give: none until every declared core has contributed. -/
def ownValue (s : State) (decl : Nat) (x : Round) : Option VReg :=
  if x.contribs.length < decl then none else packageValue s x

/-- The leaf of a member: its value, or nothing when it declares no core; none when it is to come. -/
def memberLeaf (s : State) (x : Round) (m : (Nat × Nat) × Nat) : Option (Option VReg) :=
  if m.1.2 = 0 then some none
  else if m.1.1 = s.ident.pkg then (ownValue s m.1.2 x).map some
  else (x.others.find? (·.1 == m.2)).map fun o => some o.2

/-- The root of a round, once every member has given its value (R438). (DEDUCED, log 57) -/
def rootValue (s : State) (ms : List (Nat × Nat)) (x : Round) : Option VReg :=
  let l := ms.zipIdx.map (memberLeaf s x)
  if l.all (·.isSome) then pairTree x.op 8 (l.map fun v => v.getD none) else none

/-- The operation field of a combining packet: the group and the operator. -/
def combineOp (grp op : Nat) : Nat := grp + 32 * op

/-- The package at which the member packages of a group are combined: the first of them.
(DEDUCED, log 57) -/
def rootPkg (ms : List (Nat × Nat)) : Nat := (ms.headD (0, 0)).1

/-- The packages of a group but this one. -/
def otherPkgs (s : State) (ms : List (Nat × Nat)) : List Nat := (ms.map (·.1)).filter (· != s.ident.pkg)

/-- A packet of a round, to some members of its group (R438). -/
def sendCombine (typ grp r op : Nat) (v : VReg) (to_ : List Nat) (core : Nat) (s : State) : State :=
  if to_.isEmpty then s
  else sendPacket 4 typ core (groupKey grp) 0 r grp (combineOp grp op) 0 (atAddr 0 (toBytes 256 v.toNat)) to_ s

/-- Form the root of a round at its package, when it can be: it returns to every member as a combining result
(R438). (DEDUCED, log 57) -/
def settleRound (grp r : Nat) (s : State) : State :=
  match groupOf s grp, roundOf s grp r with
  | some ms, some x =>
    if rootPkg ms ≠ s.ident.pkg then s
    else match x.root, rootValue s ms x with
      | none, some v =>
        sendCombine 8 grp r x.op v (otherPkgs s ms) ((x.contribs.head?.map (·.1)).getD 0)
          (putRound { x with root := some v } s)
      | _, _ => s
  | _, _ => s

/-- When the declared cores of this package have contributed, its value goes to the package of the root, and
the root is formed there when it can be (R438). (DEDUCED, log 57) -/
def giveValue (grp r : Nat) (s : State) : State :=
  match groupOf s grp, roundOf s grp r with
  | some ms, some x =>
    let decl := ((ms.find? fun m => m.1 = s.ident.pkg).map (·.2)).getD 0
    match ownValue s decl x with
    | none => s
    | some v =>
      if rootPkg ms = s.ident.pkg then settleRound grp r s
      else sendCombine 7 grp r x.op v [rootPkg ms] s.cur.core s
  | _, _ => s

end Sys2Proof.Machine
end

