-- ==== Sys2Proof/Machine/Matrix.lean ====
section
/-!
DEFINITION. The matrix words: leases and turns, the format table, banks and their sources, `mma`, and
chains (R136 to R164, R182, R183, R366, R370).
-/

namespace Sys2Proof.Machine

open Sys2Proof

/-! ### Leases and turns (R138, R139, R154, R182, R183) -/

/-- A core other than `c` holds a lease that conflicts with one that `c` asks for (R182). -/
def leaseConflict (s : State) (c : Nat) (wide : Bool) : Bool :=
  let b := s.bedOf c
  s.dom.cores.keys.any fun x =>
    x != c && (s.bedOf x == b || s.bedOf x == (b ^^^ 1)) &&
    ((s.core x).lease == some true || (wide && (s.core x).lease.isSome))

/-- A close that core `c` asked for is due on a bed: its tail is ready and its number comes next (R145,
R150, R152). -/
def closeDue (s : State) (c b : Nat) : Bool :=
  let l := s.launch (s.core c).launch
  let die := s.dieOf c
  l.chains.entries.any fun e =>
    e.1 / 32 == die && e.2.state == 2 &&
    match e.2.close, e.2.desc.hops.getLast? with
    | some q, some h =>
      q.core == c && q.num == (s.core c).closeNum + 1 && (hopBeds e.2.desc h).any (· == b) &&
      (hopLinks s e.2.desc h).all (fun y => y.holds s (s.core c).launch (e.1 % 32) (e.2.desc.hops.length - 1) &&
        y.state == 4)
    | _, _ => false

/-- A close that another core than `c` asked for is due on an array that `c` asks for: it was issued before,
and is performed first (R154). (DEDUCED, log 107) -/
def closeBefore (s : State) (c : Nat) (wide : Bool) : Bool :=
  let b := s.bedOf c
  s.dom.cores.keys.any fun x => x != c && (closeDue s x b || (wide && closeDue s x (b ^^^ 1)))

/-- LEASE (R154): granted by LEASE_GRANT in the order of R182; an exchange of a wide lease for a single one
is done once the commands that the core has issued are performed. In timetabled mode a conflict is a
timetable violation (R189). -/
def execLease (w : Wrd) (s : State) : Host.Outcome State Fault Refusal :=
  word w (do
    let s ← get
    if wordOff w s then pure ()
    else
      let c := s.cur.core
      let wide := bit w.mod 0
      if s.cc.lease = some wide then pure ()
      else if s.cc.lease = some true then do
        if closeDue s c (s.bedOf c) || closeDue s c (s.bedOf c ^^^ 1) then stall 8
        change fun s => (dropLease c s).modCore fun k => { k with lease := some false }
      else if s.seqn c = .timed then do
        raiseIf (leaseConflict s c wide) 0x0D
        if closeBefore s c wide then stall 8
        changeCore fun k => { k with lease := some wide }
      else do
        changeCore fun k => { k with leaseWant := some wide }
        stall 8) s

/-- FREE (R154). -/
def execFree (w : Wrd) (s : State) : Host.Outcome State Fault Refusal :=
  word w (do
    let s ← get
    if wordOff w s then pure () else change (dropLease s.cur.core)) s

/-- The command at hand waits for its turn: the bed as it stands, and the core among those that
wait. -/
def waitTurn (b : Nat) (x : Bed) (c : Nat) : Act Unit := do
  change fun s => s.setBed b { x with waiting := insertN c x.waiting }
  stall 8

/-- The command at hand is performed in a turn of its core, or waits (R139, R183). The array may still
be busy with the turn of another holder that has no command waiting. A close of the core that is due comes
first: the array performs the commands of a core in issue order (R145). -/
def takeTurn : Act Unit := do
  let s ← get
  let c := s.cur.core
  let b := s.bedOf c
  let x := s.bed b
  if closeDue s c b then stall 8
  if s.seqn c = .timed ∨ s.cc.lease = some true then pure ()
  else
    let live (d : Nat) : Bool := (s.core d).mode == .running
    let others := x.waiting.filter fun d => d != c && live d
    let serve (n : Nat) : Act Unit :=
      change fun s => s.setBed b { x with
        turn := some c, turnCount := n, waiting := x.waiting.filter (· != c) }
    let passTo (d : Nat) : Act Unit :=
      if d = c then serve 0 else waitTurn b { x with turn := some d, turnCount := 0 } c
    match x.turn with
    | some d =>
      if d = c then
        if (s.cc.csrN 0x021).toNat % 128 ≤ x.turnCount ∧ !others.isEmpty then
          passTo ((nextCrn c others).getD c)
        else serve x.turnCount
      else if live d && x.waiting.any (· == d) then waitTurn b x c
      else do
        let busy ← draw (if live d then 2 else 1)
        if busy = 1 then waitTurn b x c
        else passTo ((nextCrn d (insertN c others)).getD c)
    | none => do
      let l := insertN c others
      let i ← draw l.length
      passTo ((l[i]?).getD c)

/-- A command takes its turn when it begins; one that goes on after a fault takes it again if the array has
served another since. -/
def needTurn : Act Unit := do
  let s ← get
  if s.cs.prog = 0 ∨ (s.bed (s.bedOf s.cur.core)).turn ≠ some s.cur.core then takeTurn

/-- The command at hand has been performed in the turn of its core (R139). -/
def turnDone : Act Unit := do
  let s ← get
  let c := s.cur.core
  let x := s.bed (s.bedOf c)
  if x.turn = some c then
    change fun s => s.setBed (s.bedOf c) { x with
      turnCount := x.turnCount + 1, waiting := x.waiting.filter (· != c) }
  else pure ()

/-- The command at hand is half performed: no other is performed before it goes on (R145). -/
def keepTurn (s : State) : State :=
  let c := s.cur.core
  let x := s.bed (s.bedOf c)
  if x.turn = some c then s.setBed (s.bedOf c) { x with waiting := insertN c x.waiting } else s

/-- The core holds a lease, a wide one when that is needed (R138). (DEDUCED, log 18) -/
def needLease (wide : Bool) : Act Unit := do
  let s ← get
  raiseIf (s.cc.lease.isNone || (wide && s.cc.lease != some true)) 0x20

/-! ### The format table (R140, R141, R157) -/

/-- The active entry (R141). -/
def activeFmt (k : Core) : Word :=
  match k.pin with
  | some i => k.fmt.get 0 i
  | none =>
    let lc := ((k.stream 2).lc.get 0 ((k.csrN 0x020).toNat % 4)).toNat
    k.fmt.get 0 ((k.fb + lc) % 16)

/-- Fields of a format-table entry (R140). -/
def fmtAF (e : Word) : Nat := bits e 31 28
/-- B element format. -/
def fmtBF (e : Word) : Nat := bits e 27 24
/-- Scale kind. -/
def fmtSK (e : Word) : Nat := bits e 23 22
/-- Slice count. -/
def fmtS (e : Word) : Nat := bits e 19 16

/-- E8M0 block scales are in use. -/
def hasBlocks (e : Word) : Bool := fmtSK e == 1 || fmtSK e == 3

/-- FP32 row and column scales are in use. -/
def hasScales (e : Word) : Bool := decide (2 ≤ fmtSK e)

/-- FMTLD (R157). -/
def execFmtld (w : Wrd) (s : State) : Host.Outcome State Fault Refusal :=
  word w (do
    let s ← get
    if wordOff w s then pure ()
    else do
      let v : Word := if bit w.mod 4 then w.imm else (regVal s w.sa).setWidth 32
      raiseIf (!validFmt v) 0x21
      changeCore fun k => { k with fmt := k.fmt.put (bits w.mod 3 0) v }) s

/-- FMTIX (R157). -/
def execFmtix (w : Wrd) (s : State) : Host.Outcome State Fault Refusal :=
  word w (do
    let s ← get
    if wordOff w s then pure ()
    else changeCore fun k =>
      if bit w.mod 4 then { k with pin := some (bits w.imm 3 0) }
      else { k with fb := bits w.imm 3 0, pin := none }) s

/-! ### Elements of operands (R45, R51, R65, R142, R144) -/

/-- The number kind of a matrix format code (R140). -/
def matKind (c : Nat) : Nat :=
  match c with
  | 0 => 8
  | 1 => 4
  | 2 => 5
  | 3 => 6
  | 4 => 7
  | 5 => 2
  | 6 => 3
  | _ => 1

/-- Element n of packed bytes (R45, R142). -/
def packedElem (kind : Nat) (l : List Byte) (n : Nat) : Nat :=
  if kind = 7 then ofBytes ((l.drop (3 * (n / 4))).take 3) >>> (6 * (n % 4)) % 64
  else
    let b := kindBits kind / 8
    ofBytes ((l.drop (b * n)).take b)

/-- An operand of the array: its digits as products m · 2^e, or a special kind (R51, R65). -/
structure Opd where
  special : Bool
  snan : Bool
  digits : List (Int × Int)
deriving DecidableEq, Repr

/-- An element of a format other than DSPLIT under an E8M0 scale (R49, R51, R58).
(DEDUCED, log 28) -/
def opdOf (ftz : Bool) (code x sc : Nat) : Opd :=
  match decodeKind (matKind code) x with
  | .nan q => ⟨true, q, []⟩
  | .inf _ => ⟨true, false, []⟩
  | .fin n m e =>
    if sc = 255 then ⟨true, false, []⟩
    else
      let e := e + sc - 127
      if m = 0 || (ftz && tiny fp32 m e) then ⟨false, false, []⟩
      else ⟨false, false, [(if n then -(m : Int) else m, e)]⟩

/-- FP64 values with their input flush: the test at operand fetch is that of FP32 (R58, R65).
(DEDUCED, log 84) -/
def fp64Vals (ftz : Bool) (l : List Nat) : List FV :=
  l.map fun x => flushIn ftz fp32 (decodeF (fmtOf 1) x)

/-- The exponent of a row of A or a column of B (R65). -/
def splitExp (l : List FV) : Int :=
  let es := l.filterMap fun v => match v with
    | .fin _ m e => if m = 0 then none else some ((Nat.log2 m : Int) + e)
    | _ => none
  match es with
  | [] => 0
  | e :: r => r.foldl max e + 2

/-- Balanced base-256 digits of q, digit 0 first (R65): `n` digits are still to be cut. -/
def cutDigits : Nat → Int → List Int → List Int
  | 0, _, l => l
  | 1, x, l => x :: l
  | n + 2, x, l =>
    let d := (x + 128) % 256 - 128
    cutDigits (n + 1) ((x - d) / 256) (d :: l)

/-- The digits of a finite FP64 value under exponent `ea` (R65). -/
def splitDigits (s : Nat) (ea : Int) (neg : Bool) (m : Nat) (e : Int) : List Int :=
  let v := Ex.ofDyadic neg m (e + 8 * s - 1 - ea)
  let q := (roundInt 0 neg v.num v.den).1
  cutDigits s (if neg then -(q : Int) else q) []

/-- Digits with their weights 2^(−8 t). -/
def weighted (l : List Int) : List (Int × Int) := l.zipIdx.map fun d => (d.1, -8 * (d.2 : Int))

/-- An FP64 element as digits (R65). (DEDUCED, log 28) -/
def splitOpd (s : Nat) (ea : Int) (v : FV) : Opd :=
  match v with
  | .nan q => ⟨true, q, []⟩
  | .inf _ => ⟨true, false, []⟩
  | .fin n m e => ⟨false, false, if m = 0 then [] else weighted (splitDigits s ea n m e)⟩

/-- The digit products of a pair with i + j below `s` (R65); one product for plain operands. -/
def digitTerms : Nat → List (Int × Int) → List (Int × Int) → List (Int × Int)
  | _, [], _ => []
  | s, d :: r, l => (l.take s).map (fun x => (d.1 * x.1, d.2 + x.2)) ++ digitTerms (s - 1) r l

/-- Add the product of two operands to an element (R61, R65). -/
def addPair (anchor : Int) (s : Nat) (x : ElemF) (a b : Opd) : ElemF :=
  if a.special || b.special then addSpecial x
  else (digitTerms s a.digits b.digits).foldl (addProduct anchor) x

/-- Slices of a pair: 1 outside DSPLIT. -/
def pairSlices (e : Word) : Nat := if fmtBF e = 7 then fmtS e else 1

/-! ### Banks (R144, R145, R155, R156, R366, R367) -/

/-- Bank `i` of a bed. -/
def Bed.bank (b : Bed) (i : Nat) : Bank := b.banks.get .init i

/-- Replace a bank. -/
def setBank (bed i : Nat) (x : Bank) (s : State) : State :=
  s.setBed bed { s.bed bed with banks := (s.bed bed).banks.put i x }

/-- A bank as context `ctx` may load it: cleared and retagged when it holds another's (R366). -/
def Bank.ownedBy (x : Bank) (ctx : Nat) : Bank :=
  if x.owner = some ctx ∨ x.owner = none then { x with owner := some ctx }
  else { Bank.init with owner := some ctx }

/-- Row `k`, cell `c` of a bank. -/
def Bank.cell (x : Bank) (k c : Nat) : Nat := (x.cells.get 0 (512 * k + c)).toNat

/-- Put a byte in a cell. -/
def putCell (t : Tbl Byte) (k c x : Nat) : Tbl Byte := t.put (512 * k + c) (BitVec.ofNat 8 x)

/-- The cells of element n of a DSPLIT row (R65, R144). -/
def splitCells (s : Nat) (ea : Int) (v : FV) : List Nat :=
  match v with
  | .nan q => 0x80 :: (if q then 1 else 0) :: List.replicate (s - 2) 0
  | .inf _ => 0x80 :: 0 :: List.replicate (s - 2) 0
  | .fin n m e => (splitDigits s ea n m e).map fun d => wrapN 8 d

/-- Put consecutive cells. -/
def putCells (t : Tbl Byte) (k c : Nat) (l : List Nat) : Tbl Byte :=
  l.zipIdx.foldl (fun t x => putCell t k (c + x.2) x.1) t

/-- Load rows of packed elements in a bank from bank row `kb` up: columns c0 up to c0 + n − 1 of the
source go to bank columns 0 up (R144, R155). -/
def loadRows (ftz : Bool) (bf sl kb c0 n : Nat) (rows : List (List Byte)) (x : Bank) : Bank :=
  if bf = 7 then
    (span 0 n).foldl (fun x c =>
      let vals := fp64Vals ftz (rows.map fun r => packedElem 1 r (c0 + c))
      let eb := splitExp vals
      { x with
        colExp := x.colExp.put c eb
        cells := vals.zipIdx.foldl (fun t v =>
          putCells t (kb + v.2) (sl * c) (splitCells sl eb v.1)) x.cells }) x
  else
    let w := if bf = 5 ∨ bf = 6 then 2 else 1
    { x with cells := rows.zipIdx.foldl (fun t r =>
        (span 0 n).foldl (fun t c =>
          let v := packedElem (matKind bf) r.1 (c0 + c)
          putCells t (kb + r.2) (w * c) (if w = 2 then [v % 256, v / 256] else [v])) t) x.cells }

/-- The columns of a source that an array of the pair takes, given the largest N of a bank. -/
def shareOf (nm cols half : Nat) : Nat := Nat.min nm (cols - nm * half)

/-- The beds that a load of the issuing core fills: its own, or the pair under a wide lease.
(DEDUCED, log 27) -/
def loadBeds (s : State) : List Nat :=
  let b := s.bedOf s.cur.core
  if s.cc.lease = some true then [b / 2 * 2, b / 2 * 2 + 1] else [b]

/-- Try a part of a word: a fault or a wait is answered, with the state as it was. -/
def tryAct {α : Type} (a : Act α) : Act (Except Stop α) := fun s =>
  match a s with
  | .ok (x, t) => .ok (.ok x, t)
  | .error e => .ok (.error e, s)

/-- Stop as a part did, with the effects so far kept (R236). -/
def stopAs {α : Type} (e : Stop) : Act α := fun s =>
  match e with
  | .stall code _ => .error (.stall code s)
  | .fault f _ => .error (.fault { f with keep := true } s)

/-- Record the units done of the repetition (R236). (DEDUCED, log 8) -/
def setProg (n : Nat) : Act Unit := changeStream fun t => { t with prog := n, fpc := some t.pc }

/-- Read one row of a source: scratchpad bytes, or a load of alias class 0 (R145). -/
def readRow (mem : Bool) (seg addr n : Nat) : Act (List Byte) := do
  let s ← get
  if mem then do
    let l ← resolveRange seg 0 (n / 65536 + 2) 0 (addr % 2 ^ 64) n
    loadNow l 0
  else pure (spadRead s.cc (addr % 2 ^ s.cc.scr) n)

/-- Read rows `r` up of a source; stop at the first that cannot be read. -/
def readRows (mem : Bool) (seg base pitch n : Nat) : Nat → Nat → Act (List (List Byte) × Option Stop)
  | 0, _ => pure ([], none)
  | left + 1, r => do
    setProg r
    let x ← tryAct (readRow mem seg (base + r * pitch) n)
    match x with
    | .error e => pure ([], some e)
    | .ok l => do
      let t ← readRows mem seg base pitch n left (r + 1)
      pure (l :: t.1, t.2)

/-- The key of a bank among a context's source records. -/
def srcKey (bed bank : Nat) : Nat := 2 * bed + bank

/-- Drop the records of a context for a bank that a load takes over from another (R366, R367). -/
def forgetSrc (ctx bed bank : Nat) (s : State) : State :=
  let x := s.ctx ctx
  { s with dom := { s.dom with
    ctxs := s.dom.ctxs.put ctx { x with srcs := x.srcs.erase (srcKey bed bank) } } }

/-- Keep the record of a load with its context (R155, R367). -/
def keepSrc (ctx bed bank : Nat) (r : BankSrc) (s : State) : State :=
  let x := s.ctx ctx
  let old := x.srcs.get [] (srcKey bed bank)
  { s with dom := { s.dom with
    ctxs := s.dom.ctxs.put ctx { x with srcs := x.srcs.put (srcKey bed bank) (old ++ [r]) } } }

/-- The bank belongs to another context than `ctx`. -/
def bankForeign (s : State) (bed bank ctx : Nat) : Bool :=
  let x := (s.bed bed).bank bank
  x.owner.isSome && x.owner != some ctx

/-- Load rows in the bank of one bed: the clearing of R155 at unit 0, the rows from `r0` on, and the
tag when the repetition is complete. -/
def bldBank (src : BankSrc) (bank ctx kb r0 half : Nat) (rows : List (List Byte)) (first whole : Bool)
    (bed : Nat) (s : State) : State :=
  let bf := fmtBF src.fmt
  let sl := fmtS src.fmt
  let nm := largestN bf sl
  let x := ((s.bed bed).bank bank).ownedBy ctx
  let clears := first && (x.tag != some (bf, sl) || bf == 7)
  let x := if clears then
      { x with cells := x.cells.filter fun k _ => kb ≤ k / 512 && k / 512 < kb + src.rows }
    else x
  let x := loadRows src.ftz bf sl (kb + r0) (nm * half) (shareOf nm src.cols half) rows x
  let x := if whole then { x with tag := some (bf, sl) } else x
  let taken := bankForeign s bed bank ctx
  let s := setBank bed bank x s
  let s := if taken then forgetSrc ctx bed bank s else s
  if whole then keepSrc ctx bed bank src s else s

/-- Eight bytes of a row in one word of an operand. -/
def packWords : List Byte → List Dword
  | b0 :: b1 :: b2 :: b3 :: b4 :: b5 :: b6 :: b7 :: r =>
    BitVec.ofNat 64 (ofBytes [b0, b1, b2, b3, b4, b5, b6, b7]) :: packWords r
  | _ => []

/-- The rows of a DSPLIT load that earlier turns have read: `n` rows of `cols` elements (R145, R155). -/
def heldRows (t : Stream) (cols n : Nat) : List (List Byte) :=
  (span 0 n).map fun r => ((t.opnd.drop (cols * r)).take cols).flatMap fun x => toBytes 8 x.toNat

/-- One repetition of `bld` (R155, R357). Under DSPLIT the column exponents are formed over all rows, so the
rows read before a wait or a fault are held, and their digits stand under the exponents of the rows read so
far. (DEDUCED, log 88) -/
def bldRep (w : Wrd) : Act Unit := do
  let s ← get
  if guardOff w s then pure ()
  else do
    let cols := bits w.imm 28 19 + 1
    needLease (decide (512 < cols))
    let e := activeFmt s.cc
    let bf := fmtBF e
    let kr := bits w.imm 17 9 + 1
    let i := s.cs.repd
    let kb := bits w.imm 8 0 + i * kr
    let sa := (regVal s w.sa).toNat
    let sb := (regVal s w.sb).toNat
    let wide := s.cc.lease == some true
    let n := packedBytes (matKind bf) cols
    raiseIf (bf == 7 && decide (0 < w.rep.toNat)) 0x21
    raiseIf (decide ((if wide then 2 else 1) * largestN bf (fmtS e) < cols)) 0x21
    raiseIf (sa % 64 != 0 || sb % 64 != 0 || decide (sb < n)) 0x21
    needTurn
    let r0 := s.cs.prog
    let mem := bit w.mod 7
    let base := sa + i * kr * sb
    let (rows, stop) ← readRows mem (bits w.off 7 0) base sb n (kr - r0) r0
    let src : BankSrc :=
      { kind := 0, sa := BitVec.ofNat 64 base, sb := BitVec.ofNat 64 sb, seg := bits w.off 7 0,
        mem := mem, row0 := kb, rows := kr, cols := cols, fmt := e,
        ftz := bit (s.cc.csrN 0x012) 0, wide := wide, core := s.cur.core }
    let bank := bits w.imm 18 18
    let ctx := s.cl.ctx
    let before := if bf = 7 then heldRows s.cs cols r0 else []
    if !rows.isEmpty then
      change fun s => (loadBeds s).zipIdx.foldl (fun s b =>
        bldBank src bank ctx kb (r0 - before.length) (if wide then b.2 else 0) (before ++ rows) (r0 == 0)
          stop.isNone b.1 s) s
    match stop with
    | none => turnDone
    | some e => do
      setProg (r0 + rows.length)
      if bf = 7 then changeStream fun t => { t with opnd := t.opnd ++ rows.flatMap packWords }
      if r0 + rows.length ≠ 0 then change keepTurn
      stopAs e

/-- BLD (R155). -/
def execBld (w : Wrd) (s : State) : Host.Outcome State Fault Refusal := word w (bldRep w) s

/-- Load scales in the bank of one bed (R156). -/
def sldBank (src : BankSrc) (bank ctx nm half : Nat) (data : List Byte) (bed : Nat) (s : State) :
    State :=
  let x := ((s.bed bed).bank bank).ownedBy ctx
  let l := (span 0 (shareOf nm src.cols half))
  let x := if src.kind = 1 then
      { x with colScale := l.foldl (fun t c => t.put c
          (BitVec.ofNat 32 (ofBytes ((data.drop (4 * (nm * half + c))).take 4)))) x.colScale }
    else
      { x with blkScale := l.foldl (fun t c => t.put (512 * src.row0 + c)
          ((data[nm * half + c]?).getD 0)) x.blkScale }
  let taken := bankForeign s bed bank ctx
  let s := setBank bed bank x s
  keepSrc ctx bed bank src (if taken then forgetSrc ctx bed bank s else s)

/-- One repetition of `sld` (R156). `blk` selects block scales. -/
def sldRep (w : Wrd) (blk : Bool) : Act Unit := do
  let s ← get
  if guardOff w s then pure ()
  else do
    let cols := bits w.imm 10 1 + 1
    needLease (decide (512 < cols))
    let e := activeFmt s.cc
    let bank := bits w.imm 11 11
    let ctx := s.cl.ctx
    let x := ((s.bed (s.bedOf s.cur.core)).bank bank).ownedBy ctx
    let nm := match x.tag with
      | some t => largestN t.1 t.2
      | none => largestN (fmtBF e) (fmtS e)
    let wide := s.cc.lease == some true
    let i := s.cs.repd
    let g := if blk then bits w.imm 15 12 + i else 0
    raiseIf (decide ((if wide then 2 else 1) * nm < cols)) 0x21
    raiseIf (blk && decide (15 < g)) 0x21
    takeTurn
    let base := (regVal s w.sa).toNat + (if blk then i * (regVal s w.sb).toNat else 0)
    let data ← readRow (bit w.mod 7) (bits w.off 7 0) base (if blk then cols else 4 * cols)
    let src : BankSrc :=
      { kind := if blk then 2 else 1, sa := BitVec.ofNat 64 base, sb := 0,
        seg := bits w.off 7 0, mem := bit w.mod 7, row0 := g, rows := 1, cols := cols, fmt := e,
        ftz := false, wide := wide, core := s.cur.core }
    change fun s => (loadBeds s).zipIdx.foldl (fun s b =>
      sldBank src bank ctx nm (if wide then b.2 else 0) data b.1 s) s
    turnDone

/-- SLD_COL (R156). -/
def execSldCol (w : Wrd) (s : State) : Host.Outcome State Fault Refusal := word w (sldRep w false) s

/-- SLD_BLK (R156). -/
def execSldBlk (w : Wrd) (s : State) : Host.Outcome State Fault Refusal := word w (sldRep w true) s

/-! ### Owner traps (R352, R366) -/

/-- FAUX0 of a link-owner or bank-owner trap. -/
def ownerAux (bed slot owner : Nat) : Dword :=
  BitVec.ofNat 64 (bed / 16 + (bed % 16) <<< 3 + slot <<< 7 + (owner % 4096) <<< 20)

/-- A link slot tagged with another context takes the link-owner trap when it is not idle (R366), and
also when it is idle where `live` says that the word names a hop of a built, unclosed chain (R407).
(DEDUCED, log 29) -/
def linkTrap (live : Bool) (d : ChainDesc) (h : Hop) : Act Unit := do
  let s ← get
  let ctx := s.cl.ctx
  match (hopBeds d h).find? fun b =>
      (live || (s.link b h.slot).state != 0) && (s.link b h.slot).owner != ctx with
  | some b => raise { code := 0x23, faux0 := ownerAux b h.slot (s.link b h.slot).owner }
  | none => pure ()

/-- The chain of a word on the issuing core's die. -/
def State.myChain (s : State) (ch : Nat) : Chain := s.chain s.cc.launch (s.dieOf s.cur.core) ch

/-- The hop names the issuing core's bed; of a wide chain, its bed pair (R158).
(DEDUCED, log 27) -/
def hopHere (s : State) (d : ChainDesc) (h : Hop) : Bool :=
  let b := bedInDie s.cur.core
  h.die == s.dieOf s.cur.core && h.bed == (if d.wide then b / 2 * 2 else b)

/-- A frozen chain stops the words that name it (R370). (DEDUCED, log 17) -/
def frozenTrap (x : Chain) (ch hop : Nat) : Act Unit :=
  if x.state = 4 then raise { code := 0x25, faux0 := BitVec.ofNat 64 (ch + hop <<< 5) } else pure ()

/-! ### mma (R142, R143, R158, R159) -/

/-- Entries of one A row (R142). -/
def rowEntries (e : Word) (k : Nat) : Nat :=
  ceilDiv (k * kindBits (matKind (fmtAF e))) 2048 + (if fmtSK e = 0 then 0 else 1)

/-- The fields of an `mma`. -/
structure MmaArgs where
  rows : Nat
  k : Nat
  bank : Nat
  hop : Nat
  ch : Nat
  kb : Nat
  row0 : Nat
deriving DecidableEq, Repr

/-- The fields of a word for its repetition `i` (R153, R158). -/
def mmaArgs (w : Wrd) (i : Nat) : MmaArgs :=
  let k := bits w.imm 15 7 + 1
  { rows := bits w.imm 6 0 + 1, k := k, bank := bits w.imm 16 16, hop := bits w.imm 20 17,
    ch := bits w.imm 25 21, kb := bits w.off 8 0 + i * k, row0 := bits w.off 15 9 }

/-- The link that an `mma` adds to, once every check of R158 has passed. -/
structure MmaSite where
  desc : ChainDesc
  hop : Hop
  fmt : Word
deriving DecidableEq, Repr

/-- The checks of R158 in its order; a lease at all is tested first (R138), and the bank of the other bed
of the pair once the wide lease is held. (DEDUCED, log 18) -/
def mmaCheck (w : Wrd) (a : MmaArgs) : Act MmaSite := do
  needLease false
  let s ← get
  let x := s.myChain a.ch
  frozenTrap x a.ch a.hop
  raiseIf (!(x.state == 1 || x.state == 2)) 0x22
  match x.desc.hops[a.hop]? with
  | none => raiseCode 0x22
  | some h => do
    raiseIf (!hopHere s x.desc h) 0x22
    linkTrap true x.desc h
    let e := activeFmt s.cc
    let k := (hopLinks s x.desc h).headD .init
    raiseIf (!hopHeld s s.cc.launch a.ch a.hop x.desc h || k.rem == 0) 0x22
    let beds := hopBeds x.desc h
    match beds.find? fun b =>
        ((s.bed b).bank a.bank).owner.isSome && ((s.bed b).bank a.bank).owner != some s.cl.ctx with
    | some b => raise { code := 0x24,
                        faux0 := ownerAux b a.bank (((s.bed b).bank a.bank).owner.getD 0) }
    | none => pure ()
    let nm := largestN (fmtBF e) (fmtS e)
    let tagged (b : Nat) : Bool := ((s.bed b).bank a.bank).tag == some (fmtBF e, fmtS e)
    raiseIf (!tagged (s.bedOf s.cur.core) || (fmtAF e == 7) != (fmtBF e == 7)) 0x21
    raiseIf (decide (x.desc.mt + 1 < a.row0 + a.rows) ||
      decide ((if x.desc.wide then 2 else 1) * nm < x.desc.cols)) 0x21
    raiseIf (hasBlocks e && ((bits w.off 8 0) % 32 != 0 || a.k % 32 != 0)) 0x21
    needLease x.desc.wide
    raiseIf (!beds.all tagged) 0x21
    pure ⟨x.desc, h, e⟩

/-- FTZ[0] as committed. (DEDUCED, log 28) -/
def ftzIn (s : State) : Bool := bit (s.cc.csrN 0x012) 0

/-- An A row: its operands, and under DSPLIT its exponent (R65, R142). (DEDUCED, log 28) -/
def aRow (ftz : Bool) (e : Word) (k : Nat) (l : List Byte) : List Opd × Int :=
  let af := fmtAF e
  let xs := (span 0 k).map (packedElem (matKind af) l)
  if af = 7 then
    let vs := fp64Vals ftz xs
    let ea := splitExp vs
    (vs.map (splitOpd (fmtS e) ea), ea)
  else
    let side := 256 * (rowEntries e k - 1)
    (xs.zipIdx.map fun x => opdOf ftz af x.1
      (if hasBlocks e then ((l[side + x.2 / 32]?).getD 0).toNat else 127), 0)

/-- The FP32 row scale of an A row (R142). -/
def aScale (e : Word) (k : Nat) (l : List Byte) : Word :=
  BitVec.ofNat 32 (ofBytes ((l.drop (256 * (rowEntries e k - 1) + 16)).take 4))

/-- Element (k, n) of a bank as an operand (R51, R65, R144). -/
def bElem (ftz : Bool) (e : Word) (x : Bank) (k n : Nat) : Opd :=
  let bf := fmtBF e
  if bf = 7 then
    let s := fmtS e
    if x.cell k (s * n) = 0x80 then ⟨true, x.cell k (s * n + 1) == 1, []⟩
    else ⟨false, false, weighted ((span 0 s).map fun t => toSigned 8 (x.cell k (s * n + t)))⟩
  else
    let v := if bf = 5 ∨ bf = 6 then x.cell k (2 * n) + 256 * x.cell k (2 * n + 1) else x.cell k n
    opdOf ftz bf v
      (if hasBlocks e then (x.blkScale.get 0x7F (512 * (k / 32) + n)).toNat else 127)

/-- Column n of the B rows of a command (R137, R140). -/
def bColumn (s : State) (st : MmaSite) (a : MmaArgs) (n : Nat) : List Opd :=
  let nm := largestN (fmtBF st.fmt) (fmtS st.fmt)
  let bed := ((hopBeds st.desc st.hop)[n / nm]?).getD 0
  let x := (s.bed bed).bank a.bank
  (span a.kb a.k).map fun k => bElem (ftzIn s) st.fmt x k (n % nm)

/-- Add the products of row r of a command to the link (R61, R158), and record its scale and
exponent. -/
def addRow (st : MmaSite) (a : MmaArgs) (r : Nat) (l : List Byte) (s : State) : State :=
  let ar := aRow (ftzIn s) st.fmt a.k l
  let sl := pairSlices st.fmt
  let row := a.row0 + r
  onHop st.desc st.hop (fun half x =>
    let x := (span 0 (halfCols st.desc half)).foldl (fun x c =>
      let bs := bColumn s st a (512 * half + c)
      x.onElem (512 * row + c) fun y =>
        (ar.1.zip bs).foldl (fun y p => addPair x.anchor sl y p.1 p.2) y) x
    { x with
      rowScale := if hasScales st.fmt then x.rowScale.put row (aScale st.fmt a.k l) else x.rowScale
      rowExp := if fmtAF st.fmt = 7 then x.rowExp.put row ar.2 else x.rowExp }) s

/-- Count a contribution (R149, R158): the bank and the kind of the last one, and REM. -/
def countMma (st : MmaSite) (a : MmaArgs) (s : State) : State :=
  let s := onHop st.desc st.hop (fun _ x => { x with
    rem := x.rem - 1, lastBank := a.bank, hasLast := true, lastSk := fmtSK st.fmt,
    lastSplit := fmtAF st.fmt == 7, lastN := largestN (fmtBF st.fmt) (fmtS st.fmt) }) s
  advanceChain s.cc.launch (s.dieOf s.cur.core) a.ch s

/-- The rows of A that hold a signalling NaN, as the mask of R159, and whether a B element read is
one. -/
def snanMask (s : State) (st : MmaSite) (a : MmaArgs) (rows : List (Nat × List Byte)) : Nat :=
  let ma := rows.foldl (fun m r =>
    if (aRow (ftzIn s) st.fmt a.k r.2).1.any (·.snan) then m ||| 1 <<< (r.1 % 64) else m) 0
  let b := (span 0 st.desc.cols).any fun n => (bColumn s st a n).any (·.snan)
  if b then ma ||| (2 ^ Nat.min a.rows 64 - 1) else ma

/-- The floating-point trap of an array word (R159). -/
def snanTrap (st : MmaSite) (a : MmaArgs) (rows : List (Nat × List Byte)) (keep : Bool) :
    Act Unit := do
  let s ← get
  let m := snanMask s st a rows
  if bit (s.cc.csrN 0x013) 3 && m != 0 then
    raise { code := 0x10, aux := 8, faux0 := BitVec.ofNat 64 m, faux1 := BitVec.ofNat 64 s.cs.pc,
            keep := keep }

/-- The next `n` entries of load queue `q` are allocated and valid (R31). -/
def haveEntries (q n : Nat) : Act Unit := fun s =>
  let l := (s.cc.loadQ q).entries.take n
  if l.length < n then cannot 0x05 2 s
  else if l.any (!·.valid) then stall 2 s
  else .ok ((), s)

/-- Pop `n` entries of load queue `q`. -/
def popEntries (q : Nat) : Nat → Act (List (List Byte))
  | 0 => pure []
  | n + 1 => do
    let e ← lqHead q true
    popLq q
    let r ← popEntries q n
    pure (toBytes 256 e.data.toNat :: r)

/-- Take `n` entries of load queue `q` in one slot, or none of them (R29 to R31, R143). -/
def takeEntries (q n : Nat) : Act (List (List Byte)) := do
  haveEntries q n
  popEntries q n

/-- Group queue entries in rows of `n`. -/
def groupRows (n : Nat) : Nat → List (List Byte) → List (List Byte)
  | 0, _ => []
  | m + 1, l => (l.take n).flatten :: groupRows n m (l.drop n)

/-- One repetition of `mma` (R143, R158). -/
def mmaRep (w : Wrd) : Act Unit := do
  let s ← get
  let a := mmaArgs w s.cs.repd
  let e := activeFmt s.cc
  let n := rowEntries e a.k
  let q := bit w.mod 7
  if guardOff w s then
    if q then do
      raiseIf (decide (16 < a.rows * n)) 0x21
      let _ ← takeEntries (bits w.mod 2 0) (a.rows * n)
      pure ()
    else pure ()
  else do
    let st ← mmaCheck w a
    raiseIf (q && decide (16 < a.rows * n)) 0x21
    if q then haveEntries (bits w.mod 2 0) (a.rows * n)
    takeTurn
    let rows ← if q then do
        let l ← takeEntries (bits w.mod 2 0) (a.rows * n)
        pure (groupRows n a.rows l)
      else
        let base := (regVal s w.sa).toNat + s.cs.repd * a.rows * n * 256
        pure ((span 0 a.rows).map fun r => spadRead s.cc ((base + 256 * n * r) % 2 ^ s.cc.scr)
          (256 * n))
    let rows := rows.zipIdx.map fun r => (r.2, r.1)
    snanTrap st a rows false
    change fun s => countMma st a (rows.foldl (fun s r => addRow st a r.1 r.2 s) s)
    turnDone

/-- MMA (R158). -/
def execMma (w : Wrd) (s : State) : Host.Outcome State Fault Refusal := word w (mmaRep w) s

/-! ### Chains (R146, R147, R160 to R163, R418, R419) -/

/-- A hop entry of a descriptor (R146, R418). -/
def hopOf (x : Nat) : Hop :=
  let b : BitVec 128 := BitVec.ofNat 128 x
  { cnt := bits b 63 32, stream := bit b 28, hf := bits b 27 26, anchor := toSigned 10 (bits b 25 16),
    die := bits b 15 13, bed := bits b 12 9, slot := bits b 8 7, sid := bits b 100 96 }

/-- The reserved fields of a hop entry are zero; a local hop uses none of bits [127:64]. -/
def hopClean (x : Nat) : Bool :=
  let b : BitVec 128 := BitVec.ofNat 128 x
  bits b 31 29 == 0 && bits b 6 0 == 0 &&
  (if bit b 28 then bits b 127 101 == 0 && bits b 95 64 == 0 else bits b 127 64 == 0)

/-- The descriptor at a scratchpad offset, and whether its reserved fields are zero (R146). -/
def readDesc (k : Core) (off : Nat) : ChainDesc × Bool :=
  let b : BitVec 128 := BitVec.ofNat 128 (ofBytes (spadRead k off 16))
  let n := bits b 3 0 + 1
  let es := (span 0 n).map fun i => ofBytes (spadRead k (off + 16 + 16 * i) 16)
  (⟨bits b 38 32, bits b 25 16, bit b 8, es.map hopOf⟩,
   bits b 127 39 == 0 && bits b 31 26 == 0 && bits b 15 9 == 0 && bits b 7 4 == 0 &&
     es.all hopClean)

/-- The stages of two dies are adjacent (R412). -/
def adjacentDies (s : State) (a b : Nat) : Bool :=
  s.stageOf b == (s.stageOf a + 1) % 8 || s.stageOf a == (s.stageOf b + 1) % 8

/-- The places of a descriptor's hops after the first are right, given the die of the hop before
(R147, R418). -/
def hopPlaces (s : State) (launch : Nat) : Nat → List Hop → Bool
  | _, [] => true
  | prev, h :: r =>
    (if h.stream then
       adjacentDies s prev h.die && strmNsl s h.die launch h.sid != 0 &&
         s.stageOf prev == strmSender s h.die launch h.sid
     else h.die == prev) && hopPlaces s launch h.die r

/-- A descriptor is valid (R147, R418). -/
def descValid (s : State) (d : ChainDesc) (clean : Bool) : Bool :=
  let places := d.hops.map fun h => (h.die, h.bed, h.slot)
  let streams := (d.hops.filter (·.stream)).map fun h => (h.die, h.sid)
  let noTwice {α : Type} [BEq α] (l : List α) : Bool := l.all fun x => l.count x == 1
  clean && d.hops.all (fun h => decide (h.hf ≤ 1)) && (d.hops.getLast?.map (·.hf)).getD 0 == 0 &&
  (d.wide || decide (d.nc ≤ 511)) &&
  (match d.hops with
   | [] => false
   | h :: r => !h.stream && h.die == s.dieOf s.cur.core && hopPlaces s s.cc.launch h.die r) &&
  (!d.wide || d.hops.all fun h => h.bed % 2 == 0) && noTwice places && noTwice streams

/-- A stream of a new chain is in use: bound, or with a slot that is not yet freed (R419).
(DEDUCED, log 29) -/
def strmBusy (s : State) (h : Hop) : Bool :=
  let l := s.cc.launch
  let t := s.tstream h.die l h.sid
  h.stream && (bit (strmBnd s h.die l h.sid) 31 || strmFC s h.die l h.sid != strmEC s h.die l h.sid ||
    strmUsed t != 0 || !t.queue.isEmpty)

/-- A link slot is out of service for the rest of a launch (R371). -/
def Link.dead (x : Link) (launch : Nat) : Bool := launch != 0 && x.retired == launch

/-- A slot may take a link of a chain that is built: it is idle, or holds one of the frozen chain of that number that
the new one replaces (R160, R369). -/
def slotReady (s : State) (launch ch die : Nat) (x : Link) : Bool :=
  !x.dead launch &&
  (x.state == 0 || (x.owner == (s.launch launch).ctx && x.launch == launch && x.chain == ch &&
    (s.chain launch die ch).state == 4))

/-- Check that every slot of a descriptor is ready: another context's link traps, any other, or a
slot out of service, is the chain-state fault (R160, R366, R371). -/
def slotsFree (ch : Nat) (d : ChainDesc) (hs : List Hop) : Act Unit :=
  hs.forM fun h => do
    linkTrap false d h
    let s ← get
    raiseIf ((hopLinks s d h).any fun x => !slotReady s s.cc.launch ch h.die x) 0x22

/-- CHBUILD (R160, R419). (DEDUCED, log 29) -/
def execChbuild (w : Wrd) (s : State) : Host.Outcome State Fault Refusal :=
  word w (do
    let s ← get
    if wordOff w s then pure ()
    else do
      let ch := bits w.imm 4 0
      let a := (regVal s w.sa).toNat
      raiseIf (a % 16 != 0) 0x21
      let (d, clean) := readDesc s.cc (a % 2 ^ s.cc.scr)
      raiseIf (!descValid s d clean) 0x21
      let l := s.cc.launch
      raiseIf ((chainDies d).any fun die => (s.chain l die ch).barred) 0x22
      raiseIf (d.hops.any (strmBusy s)) 0x22
      slotsFree ch d d.hops
      let x : Chain :=
        { state := 1, kept := 0, desc := d, flags := 0, builder := s.cur.core, close := none }
      change fun s =>
        let s := (chainDies d).foldl (replaceChain l ch) s
        let s := bindStreams l ch d (openLinks l ch d (setChain l ch x s))
        advanceChain l (s.dieOf s.cur.core) ch s) s

/-- The number of the next close of the core (R152). -/
def nextClose (k : Core) : Nat := k.tlIssued.get 0 3 + 1

/-- MCLOSE (R152, R161). -/
def execMclose (w : Wrd) (s : State) : Host.Outcome State Fault Refusal :=
  word w (do
    let s ← get
    if wordOff w s then pure ()
    else do
      let ch := bits w.imm 4 0
      needLease false
      let x := s.myChain ch
      let d := x.desc
      let last := d.hops.length - 1
      frozenTrap x ch last
      raiseIf (x.state != 1) 0x22
      match d.hops[last]? with
      | none => raiseCode 0x22
      | some h => do
        raiseIf (!hopHere s d h) 0x22
        linkTrap true d h
        needLease (decide (512 < d.cols))
        let fmt := bits w.mod 7 5
        let dest := (regVal s w.sa).toNat
        let pitch := (regVal s w.sb).toNat
        let n := packedBytes fmt d.cols
        raiseIf (pitch % 64 != 0 || decide (pitch < n) || dest % 64 != 0) 0x21
        let mem := bit w.imm 5
        let len := d.mt * pitch + n
        let runs ← if mem then resolveRange (bits w.off 7 0) 1 (len / 65536 + 2) 0 dest len else pure []
        takeTurn
        let c := bits w.mod 4 2
        let req : CloseReq :=
          { core := s.cur.core, num := nextClose s.cc, begun := s.cc.moves, fmt := fmt,
            rm := if c = 5 then (s.cc.csrN 0x011).toNat % 8 else c, sat := bit w.mod 1,
            ftzOut := bit (s.cc.csrN 0x012) 1, mem := mem, addr := dest, pitch := pitch,
            runs := runs }
        change fun s =>
          let s := setChain s.cc.launch ch { x with state := 2, close := some req } s
          s.modCore (takeNumber 3)
        turnDone) s

/-- MZERO (R162). A stream of the chain that another chain has bound is refused as its slots are.
(DEDUCED, log 29) -/
def execMzero (w : Wrd) (s : State) : Host.Outcome State Fault Refusal :=
  word w (do
    let s ← get
    if wordOff w s then pure ()
    else do
      let ch := bits w.imm 4 0
      let l := s.cc.launch
      let x := s.myChain ch
      frozenTrap x ch 0
      raiseIf (!(x.state == 1 || x.state == 3)) 0x22
      x.desc.hops.zipIdx.forM fun h => do
        linkTrap x.live x.desc h.1
        let s ← get
        raiseIf ((hopLinks s x.desc h.1).any fun y =>
          (y.state != 0 && !y.holds s l ch h.2) || y.dead l) 0x22
        raiseIf (h.1.stream && bit (strmBnd s h.1.die l h.1.sid) 31 &&
          bits (strmBnd s h.1.die l h.1.sid) 4 0 != ch) 0x22
      if inFlight s l ch x.desc then stall 9
      change fun s =>
        let s := bindStreams l ch x.desc
          (openLinks l ch x.desc (setChain l ch { x with state := 1, close := none, flags := 0 } s))
        advanceChain l (s.dieOf s.cur.core) ch s) s

/-- The word that `chstat` writes (R163). (DESIGN CHOICE, log 113) -/
def chstatWord (s : State) (ch hop : Nat) : Dword :=
  let x := s.myChain ch
  match x.desc.hops[hop]? with
  | none => BitVec.ofNat 64 (x.state <<< 44)
  | some h =>
    if x.state = 0 then 0
    else
      let l := hopLinks s x.desc h
      let k := l.headD .init
      let mine := l.all fun y => y.holds s s.cc.launch ch hop
      let fl : BitVec 5 := l.foldl (fun a y => a ||| y.flags) 0
      let fl := if x.state = 3 ∧ hop + 1 = x.desc.hops.length then x.flags
        else if mine then fl else 0
      let lst := if l.any (·.state == 6) then 6 else k.state
      BitVec.ofNat 64 (x.state <<< 44 + (if mine then lst <<< 40 else 0) + fl.toNat <<< 32 +
        (if mine then k.rem else 0))

/-- CHSTAT (R163, R366). -/
def execChstat (w : Wrd) (s : State) : Host.Outcome State Fault Refusal :=
  word w (do
    let s ← get
    if wordOff w s then pure ()
    else do
      let ch := bits w.imm 4 0
      let hop := bits w.imm 8 5
      let x := s.myChain ch
      match x.desc.hops[hop]? with
      | some h => if x.live then linkTrap true x.desc h else pure ()
      | none => pure ()
      writeReg w.dst (chstatWord s ch hop) 2) s

end Sys2Proof.Machine
end

