-- ==== Sys2Proof/Machine/ManyDie.lean ====
section
/-!
DEFINITION. The many-die words: bulk transfers, release stores, streams, multicast and combining
(R413 to R415, R435 to R439, R452 to R463).
-/

namespace Sys2Proof.Machine

open Sys2Proof

/-! ### Bulk transfers (R454 to R456) -/

/-- A length operand (R452). -/
def lenOf (s : State) (r : Reg) : Nat := (regVal s r).toNat % 2 ^ 32

/-- The limits of a bulk transfer: the length and both addresses (R454). (DEDUCED, log 17) -/
def bulkCheck (seg ra la n : Nat) (acc : Nat) : Act Unit := do
  if n % 64 ≠ 0 ∨ n < 64 ∨ 65536 < n ∨ ra % 64 ≠ 0 then raiseMem seg 15 acc 6 ra
  if la % 64 ≠ 0 then raiseMem 0 15 (1 - acc) 6 la

/-- A page with EG = 1 takes the page-permission fault with ACC 0 (R454, R459). -/
def noEgress (seg addr : Nat) (l : List Chunk) : Act Unit :=
  match l.find? (fun c => match c.place with
    | .host _ => true
    | _ => false) with
  | some c => raiseMem seg c.level 0 2 ((addr + c.off) % 2 ^ 64)
  | none => pure ()

/-- A kind 0 reservation stands towards every remote run (R435). -/
def needReads (l : List Chunk) : Act Unit := do
  let s ← get
  raiseIf (l.any fun c =>
    match c.place with
    | .remote pa _ => !s.reserved 0 s.cur.core (pkgBits pa)
    | _ => false) 0x33

/-- The runs of bytes off up to off + n of an access. -/
def subRuns (l : List Chunk) (off n : Nat) : List Chunk :=
  l.filterMap fun c =>
    let lo := Nat.max off c.off
    let hi := Nat.min (off + n) (c.off + c.len)
    if lo < hi then some ⟨lo - off, hi - lo, c.level, c.place.plus (lo - c.off)⟩ else none

/-- The runs that lie in another package. -/
def remoteRuns (l : List Chunk) : List (Nat × Nat) :=
  l.filterMap fun c => match c.place with
    | .remote pa _ => some (pa, c.len)
    | _ => none

/-- Request the remote runs of a unit or of a row, by packets of type 0 with numbers in a row, and wait
until every one has been acknowledged (R431, R454). (DEDUCED, log 58) -/
def requestRuns (l : List (Nat × Nat)) : Act Unit := do
  let s ← get
  if l.isEmpty then pure ()
  else match s.cs.hold with
    | .unit id =>
      if s.fab.sent.any fun p => decide (id ≤ p.id) && decide (p.id < id + l.length) then stall 9
    | _ => do
      let id := s.dom.nextId
      change fun s => l.foldl (fun s r =>
        sendPacket 0 0 s.cur.core (pkgBits r.1) r.1 r.2 0 0 0 [] [] s) s
      changeStream fun t => { t with hold := .unit id }
      stall 9

/-- The bytes of one run of a unit of `ldr`: the published value of each block, or what another package
returned (R454). -/
def ldrRun (c : Chunk) : Act (List Byte) := do
  let s ← get
  match c.place with
  | .home pa _ => pure (memRead s.mem pa c.len)
  | .remote pa _ => foreignBytes 1 pa c.len Config.remoteByte
  | _ => pure []

/-- The bytes of runs, in order. -/
def runBytes : List Chunk → Act (List Byte)
  | [] => pure []
  | c :: r => do
    let x ← ldrRun c
    let y ← runBytes r
    pure (x ++ y)

/-- The bytes of the runs of a unit, once the remote ones have come. -/
def ldrRuns (l : List Chunk) : Act (List Byte) := do
  requestRuns (remoteRuns l)
  runBytes l

/-- One unit is done: the repetition goes on with the next. -/
def unitDone : Act Unit :=
  changeStream fun t => { t with prog := t.prog + 1, fpc := some t.pc, hold := .none }

/-- One repetition of `ldr`, unit by unit (R454). -/
def ldrRep (w : Wrd) : Act Unit := do
  latchBase w
  let s ← get
  if guardOff w s then pure ()
  else do
    let x ← slotOpnds [w.sb, w.sc]
    let n := opndAt x 1 % 2 ^ 32
    let ra := memAddr w s
    let la := (opndAt x 0 + s.cs.repd * n) % 2 ^ 64
    bulkCheck (segOf w) ra la n 0
    let dst ← resolveLocalRange la n 1 64
    let src ← resolveRange (segOf w) 0 3 0 ra n
    noEgress (segOf w) ra src
    needReads src
    accessReady src
    let j := s.cs.prog
    let z := Nat.min 1024 (n - 1024 * j)
    let data ← ldrRuns (subRuns src (1024 * j) z)
    doStore (subRuns dst (1024 * j) z) data w.ac
    unitDone
    if 1024 * (j + 1) < n then stall 9
    if hasAcq w then change (acquireHalf s.cur.core)

/-- LDR (R454). -/
def execLdr (w : Wrd) (s : State) : Host.Outcome State Fault Refusal := word w (ldrRep w) s

/-- Translate every A row of an `mmar`. -/
def mmarRuns (seg base n : Nat) : Nat → Nat → Act (List (List Chunk))
  | 0, _ => pure []
  | left + 1, r => do
    let x ← resolveRange seg 0 2 0 ((base + n * r) % 2 ^ 64) n
    let t ← mmarRuns seg base n left (r + 1)
    pure (x :: t)

/-- The bytes of an A row in memory: loads of the core, or operand returns (R455). -/
def mmarRow (l : List Chunk) : Act (List Byte) :=
  if l.any fun c => match c.place with
    | .remote _ _ => true
    | _ => false then do
    accessReady l
    ldrRuns l
  else loadNow l 0

/-- One repetition of `mmar`, row by row (R455). -/
def mmarRep (w : Wrd) : Act Unit := do
  let s ← get
  if guardOff w s then pure ()
  else do
    let a := mmaArgs w s.cs.repd
    let x ← slotOpnds [w.sa, w.sb]
    raiseIf (decide (256 ≤ opndAt x 1) || bit w.mod 7) 0x21
    let st ← mmaCheck w a
    let n := 256 * rowEntries st.fmt a.k
    let base := opndAt x 0 + s.cs.repd * a.rows * n
    let runs ← mmarRuns (opndAt x 1 % 256) base n a.rows 0
    needReads runs.flatten
    needTurn
    let r := s.cs.prog
    let l ← mmarRow ((runs[r]?).getD [])
    snanTrap st a [(r, l)] true
    change (addRow st a r l)
    unitDone
    if r + 1 < a.rows then do
      change keepTurn
      stall 9
    change (countMma st a)
    turnDone

/-- MMAR (R455). -/
def execMmar (w : Wrd) (s : State) : Host.Outcome State Fault Refusal := word w (mmarRep w) s

/-- The run of a unit goes to another package of the seal domain, as part of a packet (R456). -/
def unitPkg (s : State) (c : Chunk) : Option Nat :=
  match c.place with
  | .remote pa _ => if s.inDomain (pkgBits pa) then some (pkgBits pa) else none
  | _ => none

/-- One run of a unit of `stgr` that goes in no packet (R456): a store of the core in its own package, or egress.
`data` holds the bytes of the whole store. -/
def stgrRun (cls : BitVec 2) (data : List Byte) (s : State) (c : Chunk) : State :=
  match c.place with
  | .remote _ _ => egressStore s.cur.core c.place ((data.drop c.off).take c.len) s
  | _ => storeRuns [c] data cls s

/-- The cells of a run in another package. -/
def runCells (data : List Byte) (c : Chunk) : List Host.Cell := atAddr c.place.addr ((data.drop c.off).take c.len)

/-- One unit of `stgr` (R456): the runs towards one package are one packet of the core's store sequence. -/
def stgrUnit (cls : BitVec 2) (data : List Byte) (s : State) (l : List Chunk) : State :=
  let s := (l.filter fun c => (unitPkg s c).isNone).foldl (stgrRun cls data) s
  ((l.filterMap (unitPkg s)).eraseDups).foldl (fun s p =>
    let x := l.filter fun c => unitPkg s c == some p
    sendUnit s.cur.core ((x.head?.map (·.place.addr)).getD 0) (x.flatMap (runCells data)) s) s

/-- The units of a bulk store, with their runs (R454, R456). -/
def stgrUnits (l : List Chunk) (n : Nat) : List (List Chunk) :=
  (span 0 (ceilDiv n 1024)).map fun j =>
    (subRuns l (1024 * j) (Nat.min 1024 (n - 1024 * j))).map fun c => { c with off := c.off + 1024 * j }

/-- One repetition of `stgr` (R456). -/
def stgrRep (w : Wrd) : Act Unit := do
  latchBase w
  let s ← get
  if guardOff w s then pure ()
  else do
    let n := lenOf s w.sc
    let ra := memAddr w s
    let la := ((regVal s w.sb).toNat + s.cs.repd * n) % 2 ^ 64
    bulkCheck (segOf w) ra la n 1
    let src ← resolveLocalRange la n 0 64
    let dst ← resolveRange (segOf w) 1 3 0 ra n
    storeReady dst
    let data ← loadNow src w.ac
    change fun s => (stgrUnits dst n).foldl (stgrUnit w.ac data) s

/-- STGR (R456). -/
def execStgr (w : Wrd) (s : State) : Host.Outcome State Fault Refusal := word w (stgrRep w) s

/-! ### Release stores (R457, R458) -/

/-- STREL (R457): in the issuer's package a store of machine-scope release; towards another, a store
that carries its count; an egress target keeps its place. -/
def execStrel (w : Wrd) (s : State) : Host.Outcome State Fault Refusal :=
  word w (do
    latchBase w
    let s ← get
    if guardOff w s then pure ()
    else do
      let n := sizeOf' w
      let l ← resolveGlobal (segOf w) (wrapN 64 (s.cs.base.toNat + w.off.toInt)) n 1
      let data := toBytes n (regVal s w.sb).toNat
      match l with
      | [c] =>
        match c.place with
        | .remote pa _ =>
          if s.inDomain (pkgBits pa) then do
            storeReady l
            change fun s => (s.modCore (needTracker (pkgBits pa)))
            change (startRelease s.cur.core 4 (.strel (pkgBits pa) pa data 0))
          else releaseStore w.ac 4 l data
        | _ => releaseStore w.ac 4 l data
      | _ => releaseStore w.ac 4 l data) s

/-! ### Streams (R414, R415, R459, R460) -/

/-- The checks of R414: the stream is usable, and not bound to a chain. -/
def strmCheck (die sid : Nat) (fromDie : Option Nat) : Act Unit := do
  let s ← get
  let l := s.cc.launch
  raiseIf (!strmOk s die l sid fromDie) 0x30
  raiseIf (bit (strmBnd s die l sid) 31) 0x31

/-- The die to which a send goes (R452). -/
def sendDie (s : State) (prev : Bool) : Nat :=
  let st := s.stageOf (s.dieOf s.cur.core)
  stageDie s.conn s.ctbase ((st + (if prev then 7 else 1)) % 8)

/-- The wall cycle at which a core of the launch began to wait for room in a stream (R415). -/
def roomWait (die sid launch : Nat) (k : Core) : Option Nat :=
  if k.mode = .running ∧ k.launch = launch then
    match (k.stream 3).hold with
    | .send d i t => if d = die ∧ i = sid then some t else none
    | _ => none
  else none

/-- When the send at hand came to its stream: now, unless it waits there already. -/
def sendSince (s : State) (die sid : Nat) : Nat :=
  match s.cs.hold with
  | .send d i t => if d = die ∧ i = sid then t else s.clk.wcyc
  | _ => s.clk.wcyc

/-- No send that waits for room in the stream comes before the one at hand, nor has one of a later core been
served in this wall cycle: sends are served in the order of arrival, and by linear index within a cycle (R415,
R425). (DEDUCED, log 104) -/
def sendFirst (s : State) (die sid : Nat) : Bool :=
  let since := sendSince s die sid
  (match (s.tstream die s.cc.launch sid).sent with
   | some (cyc, c) => cyc != s.clk.wcyc || decide (c < s.cur.core)
   | none => true) &&
  !s.dom.cores.keys.any fun c => c != s.cur.core &&
    match roomWait die sid s.cc.launch (s.core c) with
    | some n => decide (n < since) || (n == since && decide (c < s.cur.core))
    | none => false

/-- The release half of a send, which has completed before it waits for room (R459). -/
def sendRelease : Act Unit := fun s =>
  match s.cs.hold with
  | .send _ _ _ => .ok ((), s)
  | _ => awaitRelease 3 s

/-- SSEND (R415, R459). -/
def execSsend (w : Wrd) (s : State) : Host.Outcome State Fault Refusal :=
  word w (do
    let s ← get
    if guardOff w s then pure ()
    else do
      let x ← slotOpnds [w.sa, w.sb]
      let sid := bits w.imm 12 8
      let die := sendDie s (bit w.imm 13)
      let l := s.cc.launch
      strmCheck die sid (some (s.dieOf s.cur.core))
      let n := opndAt x 1 % 2 ^ 32
      raiseIf (n % 64 != 0 || decide (n < 64) || decide (65536 < n)) 0x30
      let a := opndAt x 0
      let seg := bits w.imm 7 0
      let src ← if bit w.imm 14 then do
          let y ← resolveRange seg 0 3 0 a n
          noEgress seg a y
          pure y
        else resolveLocalRange a n 0 1
      if hasRel w then sendRelease
      let t := s.tstream die l sid
      if strmUsed t = strmNsl s die l sid ∨ !sendFirst s die sid then do
        changeStream fun t => { t with hold := .send die sid (sendSince s die sid) }
        stall 9
      let data ← loadNow src 0
      writeReg w.dst (BitVec.ofNat 64 t.cc) 1
      change fun s => s.setTstream die l sid
        { t with
          cc := (t.cc + 1) % 2 ^ 32, flight := t.flight ++ [(some s.cur.core, data)]
          sent := some (s.clk.wcyc, s.cur.core) }) s

/-- The die store offset of slot k of a stream (R413). -/
def strmSlot (s : State) (die launch sid k : Nat) : Nat :=
  (strmBase s die launch sid + k % strmNsl s die launch sid) * 65536

/-- A receive that waits for slot k (R415, R460): the acquire, then the result. -/
def srecvWait (w : Wrd) (f : State → Nat → Nat → Nat) : Act Unit := do
  let s ← get
  if guardOff w s then pure ()
  else do
    let sid := bits w.imm 4 0
    let die := s.dieOf s.cur.core
    let k := (regVal s w.sa).toNat % 2 ^ 32
    strmCheck die sid none
    if passed (strmFC s die s.cc.launch sid) k then do
      change (acquireHalf s.cur.core)
      writeReg w.dst (BitVec.ofNat 64 (f s sid k)) 2
    else stall 9

/-- SRECV (R460): the local address of the slot. -/
def execSrecv (w : Wrd) (s : State) : Host.Outcome State Fault Refusal :=
  word w (srecvWait w fun s sid k =>
    0x8000000000000000 + strmSlot s (s.dieOf s.cur.core) s.cc.launch sid k) s

/-- SRECV_LEN (R460): the length recorded for the slot. -/
def execSrecvLen (w : Wrd) (s : State) : Host.Outcome State Fault Refusal :=
  word w (srecvWait w fun s sid k =>
    let die := s.dieOf s.cur.core
    (s.tstream die s.cc.launch sid).lens.get 0 (k % strmNsl s die s.cc.launch sid)) s

/-- SRECV_FREE (R460): the mark is set once every earlier access of the core has been performed.
(DEDUCED, log 104) -/
def execSrecvFree (w : Wrd) (s : State) : Host.Outcome State Fault Refusal :=
  word w (do
    let s ← get
    if guardOff w s then pure ()
    else do
      let sid := bits w.imm 4 0
      let die := s.dieOf s.cur.core
      let l := s.cc.launch
      let k := (regVal s w.sa).toNat % 2 ^ 32
      strmCheck die sid none
      let ec := strmEC s die l sid
      let filled := decide ((k + 2 ^ 32 - ec) % 2 ^ 32 < (strmFC s die l sid + 2 ^ 32 - ec) % 2 ^ 32)
      let j := k % strmNsl s die l sid
      raiseIf (!filled || (s.tstream die l sid).free.any (· == j)) 0x30
      if loadsUnperformed s || storesUnperformed s then stall 9
      change (strmFree die l sid j)) s

/-! ### Groups (R429, R437 to R440, R461, R462) -/

/-- Push the payload of a multicast for the members of a group outside the seal domain in the egress buffer (R385,
R461). (DEDUCED, log 65) -/
def mcastEgress (grp va : Nat) (data : List Byte) (s : State) : State :=
  pushEgress s.cur.core 2 (grp * 2 ^ 72 + va) data s

/-- MCAST (R461). -/
def execMcast (w : Wrd) (s : State) : Host.Outcome State Fault Refusal :=
  word w (do
    let s ← get
    if guardOff w s then pure ()
    else do
      let grp := bits w.imm 12 8
      match groupOf s grp with
      | none => raiseCode 0x34
      | some ms => do
        let n := lenOf s w.sc
        raiseIf (n % 64 != 0 || decide (n < 64) || decide (1024 < n)) 0x34
        raiseIf ((findRes s 3 s.cur.core 0 grp).isNone) 0x33
        let src ← resolveLocalRange (regVal s w.sa).toNat n 0 1
        let out := (ms.map (·.1)).filter fun p => !s.inDomain p
        if !out.isEmpty && !egressRoom s n then stall 9
        let data ← loadNow src 0
        let va := bits w.imm 7 0 * 2 ^ 64 + (regVal s w.sb).toNat
        let ins := (ms.map (·.1)).filter s.inDomain
        change fun s =>
          let s := if out.isEmpty then s else mcastEgress grp va data s
          if ins.isEmpty then s
          else sendPacket 3 6 s.cur.core (groupKey grp) va 0 grp 0 0 (atAddr 0 data) ins s) s

/-- Report an imprecise fault to core `c` (R343). -/
def sendReport (c : Nat) (r : Report) (s : State) : State :=
  { s with dom := { s.dom with
    reports := s.dom.reports ++ [⟨s.dom.nextId, c, (s.core c).launch, r⟩], nextId := s.dom.nextId + 1 } }

/-- The precise faults of a `cmb` (R384, R462): the group and this package's declared number.
(DEDUCED, log 17) -/
def cmbCheck (grp : Nat) : Act Nat := do
  let s ← get
  match groupOf s grp with
  | none => raiseCode 0x34
  | some ms =>
    match ms.find? fun m => m.1 = s.ident.pkg with
    | none => raiseCode 0x34
    | some m => do
      raiseIf ((findRes s 4 s.cur.core 0 grp).isNone) 0x33
      if ms.any fun m => !s.inDomain m.1 then do
        let a ← freeAddr
        raiseMem 0 15 2 2 a
      pure m.2

/-- Contribute to a round (R462): beyond the declared number the contribution is discarded. -/
def contribute (w : Wrd) (grp : Nat) : Act Unit := do
  let decl ← cmbCheck grp
  let s ← get
  let src ← resolveLocal (regVal s w.sa).toNat 256 0
  let _ ← resolveLocal (regVal s w.sb).toNat 256 1
  let data ← loadNow src 0
  let r := s.cc.rounds.get 0 grp
  let x := (roundOf s grp r).getD ⟨grp, r, 0, 0, [], [], none⟩
  let x := if x.contribs.isEmpty then { x with op := bits w.imm 15 14, launch := s.cc.launch } else x
  changeCore fun k => { k with rounds := k.rounds.put grp (r + 1) }
  let _ ← slotOpnds [w.sb]
  if decl ≤ x.contribs.length then
    change (sendReport s.cur.core ⟨0x34, 0, 0, 0, 0, 0⟩)
  else do
    let v : VReg := BitVec.ofNat 2048 (ofBytes data)
    change (putRound { x with contribs := x.contribs ++ [(s.cur.core, v)] })
    change (giveValue grp r)
    changeStream fun t => { t with hold := .round grp r, fpc := some t.pc }
    stall 9

/-- CMB (R462). -/
def execCmb (w : Wrd) (s : State) : Host.Outcome State Fault Refusal :=
  word w (do
    let s ← get
    if guardOff w s then pure ()
    else
      match s.cs.hold with
      | .round grp r =>
        match (roundOf s grp r).bind (·.root) with
        | none => stall 9
        | some v => do
          let l ← resolveLocal (opndAt s.cs.opnd 0) 256 1
          doStore l (toBytes 256 v.toNat) 0
      | _ => contribute w (bits w.imm 12 8)) s

end Sys2Proof.Machine
end

