-- ==== Sys2Proof/Machine/Image.lean ====
section
/-!
DEFINITION. The context image: its layout, how a core writes it, the checks of `eret`, and the core
that an image restores (R349 to R358).

Beside the bytes of the image the device keeps what the layout has no field for (positions inside a
branch group, ordering clocks, the object of a wait): the core as it stood when it was saved. A
restore takes every field of the image and the rest from there.
-/

namespace Sys2Proof.Machine

open Sys2Proof

/-- A part of an area: an offset and the bytes there. -/
abbrev Part := Nat × List Byte

/-- Eight bytes. -/
def le8 (n : Nat) : List Byte := toBytes 8 n

/-! ### The frame header (R352) -/

/-- FSTAT. -/
def fstat (f : Frame) : Nat :=
  f.fcode % 256 * 2 ^ 56 + f.fstr % 16 * 2 ^ 52 + f.prec.toNat * 2 ^ 51 + f.fork.toNat * 2 ^ 50 +
  f.priv % 4 * 2 ^ 48 + f.repn % 256 * 2 ^ 40 + f.aux % 256 * 2 ^ 32 + f.kind % 4 * 2 ^ 30 +
  f.deferred % 4 * 2 ^ 28 + f.ovf.toNat * 2 ^ 27

/-- TOKQ: the counts of the token queues. -/
def tokWord (k : Core) : Nat :=
  (span 0 8).foldl (fun a q => a + ((k.tokens q).length % 16) <<< (4 * q)) 0

/-- Bits, oldest first, in the low bits of a number. -/
def bitsOf (l : List Bool) : Nat := l.foldr (fun b n => b.toNat + 2 * n) 0

/-- OUTQ: the branch-outcome queues. -/
def outWord (k : Core) : Nat :=
  bitsOf (k.obAX.map (·.1)) + k.obAX.length % 32 * 2 ^ 16 +
  bitsOf (k.obXA.map (·.1)) * 2 ^ 32 + k.obXA.length % 32 * 2 ^ 48

/-- Every pending write of the core with its stream. -/
def allPends (k : Core) : List (Nat × Pend) :=
  k.inUse.flatMap fun e => (k.stream e).pend.map fun p => (e, p)

/-- NREC. -/
def nrecWord (k : Core) : Nat :=
  (allPends k).length + (span 0 4).foldl (fun a e =>
    a + ((k.stream e).log.length % 128) <<< (16 + 8 * e)) 0

/-- The frame header of a core. -/
def frameBytes (k : Core) (f : Frame) : List Byte :=
  ([fstat f, f.mfa.toNat, f.mfb.toNat, f.faux0.toNat, f.faux1.toNat, tokWord k, outWord k,
    nrecWord k]).flatMap le8

/-! ### Stream records (R353) -/

/-- The value of FPC for no word. -/
def noWord : Nat := 0xFFFFFFFF

/-- PC as an image holds it: the next word not yet issued. -/
def imagePc (c : Code) (t : Stream) : Nat :=
  match t.fpc with
  | some p => if t.pc = p then p + 1 + litsAt c p else t.pc + t.lit
  | none => if t.joinb then t.pc + 1 else t.pc + t.lit

/-- SST. -/
def sstWord (used : Bool) (t : Stream) : Nat :=
  t.repd % 256 * 2 ^ 56 + t.prog % 2 ^ 24 * 2 ^ 32 + t.wait % 16 * 2 ^ 28 + t.bank % 16 * 2 ^ 24 +
  t.rs.length % 16 * 2 ^ 20 +
  (span 0 4).foldl (fun a i => a + (t.cond.get false i).toNat <<< (16 + i)) 0 +
  t.tkd.toNat * 2 ^ 15 + t.latch.toNat * 2 ^ 14 + t.joinb.toNat * 2 ^ 13 +
  (used && t.valid).toNat * 2 ^ 12

/-- A stream record; one that is not in use has VALID clear. (DEDUCED, log 25) -/
def streamBytes (c : Code) (used : Bool) (t : Stream) : List Byte :=
  if !used then List.replicate 128 0
  else
    le8 t.slot ++ le8 ((t.fpc.getD noWord) % 2 ^ 32 * 2 ^ 32 + imagePc c t % 2 ^ 32) ++
    le8 (sstWord used t) ++ le8 0 ++
    (span 0 4).flatMap (fun i => toBytes 4 (t.lc.get 0 i).toNat) ++
    (span 0 8).flatMap (fun i => toBytes 4 (t.rs[i]?.getD 0)) ++ List.replicate 48 0

/-! ### Queues and pending writes (R354, R355) -/

/-- The clusters whose bit is set in the leading entries of a queue. (DEDUCED, log 25) -/
def sliceLead (c : Nat) : List QEntry → Nat
  | [] => 0
  | e :: r => if bit e.slices c then sliceLead c r + 1 else 0

/-- A queue state word: CNT and, for each cluster, how far it is ahead (R355). (DEDUCED, log 25) -/
def queueWord (store : Bool) (q : Queue) : Nat :=
  let l := if store then q.entries.filter fun e => e.slices != 15 else q.entries
  q.entries.length % 32 + (span 0 4).foldl (fun a c => a + (sliceLead c l % 16) <<< (12 + 4 * c)) 0

/-- KIND and target of a pending write; a clear of FFLG bits names FFLG (R22, R354). -/
def pendKind (t : PTarget) : Nat × Nat :=
  match t with
  | .reg r => (0, regCode r)
  | .fflgClear => (0, regCode (.sp .fflg))
  | .cond i => (1, i)
  | .lc i => (2, i)
  | .rs => (3, 0)
  | .csr n => (4, n)

/-- The target of a KIND and a target field. -/
def pendTarget (kind t : Nat) : Option PTarget :=
  match kind with
  | 0 => if t = regCode (.sp .fflg) then some .fflgClear
    else if 256 ≤ t then none
    else match regOf t with
      | some (.sp .z) => some (.reg (.sp .z))
      | some (.sp _) => none
      | some (.lq _) => none
      | some (.lk _) => none
      | some r => some (.reg r)
      | none => none
  | 1 => if t < 4 then some (.cond t) else none
  | 2 => if t < 4 then some (.lc t) else none
  | 3 => if t = 0 then some .rs else none
  | 4 => if csrKnown t then some (.csr t) else none
  | _ => none

/-- The lane mask of a record: all ones but for a v or g target (R354). -/
def pendMask (p : Pend) : Mask :=
  match p.tgt with
  | .reg (.v _) => p.mask
  | .reg (.g _) => p.mask
  | _ => BitVec.allOnes 64

/-- How many writes of a stream were issued before this one. -/
def pendRank (l : List Pend) (p : Pend) : Nat := (l.filter fun q => decide (q.seq < p.seq)).length

/-- A pending-write record (R354). -/
def pendBytes (k : Core) (x : Nat × Pend) : List Byte :=
  let t := k.stream x.1
  let kt := pendKind x.2.tgt
  le8 (pendRank t.pend x.2 % 256 * 2 ^ 40 + (x.2.due - t.slot) % 256 * 2 ^ 32 + x.1 * 2 ^ 24 +
    kt.1 * 2 ^ 16 + kt.2) ++
  le8 (pendMask x.2).toNat ++ le8 x.2.flg.toNat ++ le8 0 ++ toBytes 256 x.2.data.toNat

/-! ### The core area (R349, R350) -/

/-- The control registers of an image, with the bits that each uses (R25, R350). -/
def imageCsrs : List (Nat × Nat × Nat) :=
  [(0x400, 0x000, 2), (0x408, 0x001, 8), (0x410, 0x002, 12), (0x418, 0x010, 8), (0x420, 0x011, 3),
    (0x428, 0x012, 2), (0x430, 0x013, 4), (0x438, 0x014, 64), (0x440, 0x020, 2), (0x448, 0x021, 7),
    (0x450, 0x030, 32)]

/-- An agreement record (R349). -/
def logBytes (r : LogRec) : List Byte :=
  le8 (r.target % 2 ^ 24 * 2 ^ 33 + r.taken.toNat * 2 ^ 32 + r.pos % 2 ^ 32)

/-- The views whose completion cycles an image holds (R323, R349). -/
def copyViews : List Nat := [0, 5, 6, 7]

/-- The completion cycle at entry `i` of a view: that of the number in the window with that
remainder (R349). -/
def copyEntry (k : Core) (view i : Nat) : Nat :=
  match (k.copies.get [] view).find? fun r =>
      r.num % 64 == i && decide (k.tlIssued.get 0 view < r.num + 64) with
  | some r => r.done.getD 0
  | none => 0

/-- Format base, pin and lease (R349). -/
def fmtState (k : Core) : Nat :=
  k.fb % 16 + (match k.pin with
    | some i => i % 16 * 16 + 256
    | none => 0) +
  (match k.lease with
    | some w => 512 + w.toNat * 1024
    | none => 0)

/-- Registers of a class as bytes. -/
def regBytes (n : Nat) (t : Tbl Dword) : List Byte := (span 0 n).flatMap fun i => le8 (t.get 0 i).toNat

/-- The queues of an image in order: load queues, then store queues. -/
def imageQueues (k : Core) : List (Bool × Queue) :=
  (span 0 8).map (fun q => (false, k.loadQ q)) ++ (span 0 8).map (fun q => (true, k.storeQ q))

/-- The parts of the core area, but for the scratchpad (R349). -/
def coreParts (code : Code) (k : Core) (f : Frame) : List Part :=
  [(0, frameBytes k f),
   (0x40, (span 0 7).flatMap fun e => streamBytes code (k.inUse.any (· == e)) (k.stream e)),
   (0x3C0, (imageQueues k).flatMap fun q => toBytes 4 (queueWord q.1 q.2)),
   (0x400, imageCsrs.flatMap (fun x => le8 ((k.csrN x.2.1).toNat % 2 ^ x.2.2)) ++ le8 k.mbx.toNat ++
     regBytes 4 k.ix ++ le8 k.fflg.toNat ++ le8 k.closeNum ++ List.replicate 112 0),
   (0x500, regBytes 32 k.a), (0x600, regBytes 16 k.m), (0x680, regBytes 32 k.w),
   (0x780, regBytes 8 k.g), (0x800, regBytes 128 k.s)] ++
  (span 0 4).map (fun e => (0xC00 + 512 * e, ((k.stream e).log.take 64).flatMap logBytes)) ++
  [(0x1400, (span 0 8).flatMap (fun v => le8 (k.tlIssued.get 0 v)) ++
     (span 0 8).flatMap (fun v => le8 (k.tlDone.get 0 v))),
   (0x1480, copyViews.flatMap fun v => (span 0 64).flatMap fun i => le8 (copyEntry k v i)),
   (0x1C80, (span 0 16).flatMap fun i => toBytes 4 (k.fmt.get 0 i).toNat),
   (0x1CC0, le8 (fmtState k) ++ List.replicate 56 0),
   (0x2000, (span 0 32).flatMap fun i => toBytes 256 (k.v.get 0 i).toNat)] ++
  (imageQueues k).zipIdx.map (fun q =>
    (0x4000 + 4096 * q.2, q.1.2.entries.flatMap fun e => toBytes 256 e.data.toNat)) ++
  [(0x14000, (allPends k).flatMap (pendBytes k))]

/-- The scratchpad image (R349). -/
def spadPart (k : Core) : Part := (0x34000, memRead k.spad 0 (2 ^ k.scr))

/-- Write parts of an area. -/
def writeParts (area : Nat) (l : List Part) (s : State) : State :=
  l.foldl (fun s p => publishRun (area + p.1) p.2 s) s

/-- The log of an area's die has room for `n` bytes there, or a seal is under way and has its reserve (R378, R380). -/
def areaRoom (s : State) (area n : Nat) : Bool :=
  sealing s || decide (logFill s (dieBits area) + n / 64 + 2 ≤ 31457280)

/-- The core save area of a launch's context on core `c` has room in its log (R378). -/
def coreAreaRoom (s : State) (launch c : Nat) : Bool :=
  match (s.ctx (s.launch launch).ctx).coreArea.get? c with
  | some a => areaRoom s a (2 ^ 20)
  | none => true

/-- The bed save area of a launch's context has room in its log (R378). -/
def bedAreaRoom (s : State) (launch bed : Nat) : Bool :=
  match (s.ctx (s.launch launch).ctx).bedArea.get? bed with
  | some a => areaRoom s a (2 ^ 22)
  | none => true

/-- A core can be saved: every allocated queue entry is valid and every pending write has its data
(R346, R354). -/
def Core.settled (k : Core) : Bool :=
  k.lq.vals.all (fun q => q.entries.all (·.valid)) &&
  k.sq.vals.all (fun q => q.entries.all fun e => e.valid || e.slices != 15) && k.pendReady &&
  !(k.openLoads.any (·.acq)) && k.acquires.all fun a =>
    match a with
    | .packet _ => false
    | .number _ _ => true

/-- Write the image of core `c` to its context's save area, when one is registered (R346, R347).
(DESIGN CHOICE, log 11) -/
def writeImage (c : Nat) (f : Frame) (s : State) : State :=
  let k := s.core c
  let l := s.launch k.launch
  match (s.ctx l.ctx).coreArea.get? c with
  | none => s
  | some a => writeParts a (coreParts l.code k f ++ [spadPart k]) s

/-! ### The checks of `eret` (R358) -/

/-- A field of an area. -/
def rd (m : Memory) (area off n : Nat) : Nat := memNat m (area + off) n

/-- A 64-bit word of an area. -/
def rdw (m : Memory) (area off : Nat) : Dword := BitVec.ofNat 64 (rd m area off 8)

/-- A stream record is acceptable: its reserved fields, codes, counts and positions. -/
def streamOk (m : Memory) (area e len : Nat) : Bool :=
  let o := 0x40 + 128 * e
  let x := rdw m area (o + 16)
  let fpc := rd m area (o + 12) 4
  let pc := rd m area (o + 8) 4
  let wait := bits x 31 28
  rd m area (o + 24) 8 == 0 && rd m area (o + 80) 48 == 0 && bits x 11 0 == 0 &&
  decide (wait ≤ 10) && decide (bits x 23 20 ≤ 8) &&
  (!bit x 12 || ((fpc == noWord || decide (fpc < len)) &&
    (decide (pc < len) || (pc == len && (wait == 6 || wait == 10)))))

/-- The streams marked VALID. -/
def validStreams (m : Memory) (area : Nat) : List Nat :=
  (span 0 7).filter fun e => bit (rdw m area (0x40 + 128 * e + 16)) 12

/-- The fork region in which every X stream of the image stands (R358). -/
def imageFork (m : Memory) (area : Nat) (code : Code) : Option (Nat × Nat) :=
  let pcs := ((validStreams m area).filter fun e => e == 1 || 4 ≤ e).map fun e =>
    rd m area (0x40 + 128 * e + 8) 4
  code.regions.find? fun r => pcs.all fun p => decide (r.1 < p) && decide (p ≤ r.2 + 1)

/-- The value of a control register of an image is in range (R25, R350). -/
def csrOk (x : Nat × Nat × Nat) (v : Nat) : Bool :=
  decide (v < 2 ^ x.2.2) && (x.2.1 != 2 || v != 0) && (x.2.1 == 1 ||
    csrStore (BitVec.ofNat 64 (v + 1)) x.2.1 (BitVec.ofNat 64 v) == BitVec.ofNat 64 v)

/-- A pending-write record is acceptable (R354, R358). -/
def pendOk (m : Memory) (area i : Nat) : Bool :=
  let o := 0x14000 + 288 * i
  let x := rdw m area o
  let rem := bits x 39 32
  bits x 63 48 == 0 && bits x 31 28 == 0 && bits x 23 20 == 0 && bits x 15 12 == 0 &&
  decide (1 ≤ rem) && decide (rem ≤ 64) && decide (bits x 27 24 ≤ 6) &&
  (pendTarget (bits x 19 16) (bits x 11 0)).isSome && rd m area (o + 16) 8 / 32 == 0 &&
  rd m area (o + 24) 8 == 0

/-- The image in an area is one that `eret` restores (R358). -/
def imageOk (m : Memory) (area : Nat) (code : Code) (win : Nat) : Bool :=
  let fs := rdw m area 0
  let mfa := rdw m area 8
  let out := rdw m area 0x30
  let nrec := rdw m area 0x38
  let n := bits nrec 15 0
  let logs := (span 0 4).map fun e => bits nrec (16 + 8 * e + 6) (16 + 8 * e)
  let used := nrec &&& 0x7F7F7F7FFFFF
  bits fs 26 0 == 0 && decide (bits fs 31 30 ≤ 2) && rd m area 0x2C 4 == 0 &&
  bits mfa 31 24 == 0 && bits mfa 19 16 == 0 && bits mfa 11 4 == 0 &&
  (span 0 16).all (fun i => rd m area (0x1C80 + 4 * i) 2 == 0) &&
  bits out 63 53 == 0 && bits out 31 21 == 0 && decide (bits out 20 16 ≤ 16) &&
  decide (bits out 52 48 ≤ 16) && used == nrec && decide (n ≤ 448) &&
  logs.all (fun x => decide (x ≤ 64)) &&
  (span 0 7).all (fun e => streamOk m area e code.text.length) &&
  (span 0 16).all (fun q =>
    let x : Word := BitVec.ofNat 32 (rd m area (0x3C0 + 4 * q) 4)
    bits x 11 5 == 0 && bits x 31 28 == 0 && decide (bits x 4 0 ≤ 16)) &&
  imageCsrs.all (fun x => csrOk x (rd m area x.1 8)) && rd m area 0x408 8 == win &&
  decide (rd m area 0x480 8 < 32) && rd m area 0x490 112 == 0 &&
  (logs.zipIdx).all (fun x => (span 0 x.1).all fun i =>
    decide (rd m area (0xC00 + 512 * x.2 + 8 * i) 8 < 2 ^ 57)) &&
  decide (rd m area 0x1CC0 8 < 2 ^ 11) && rd m area 0x1CC8 56 == 0 &&
  (span 0 n).all (pendOk m area) &&
  (!bit fs 50 || (imageFork m area code).isSome) &&
  (bit fs 50 || (validStreams m area).all fun e => decide (e < 4))

/-! ### Restoring (R356) -/

/-- A word is in progress: some repetition is left, or a signal that it waited to make (R33, R394).
(DEDUCED, log 31) -/
def inProgress (code : Code) (fault : Nat) (mine : Bool) (t : Stream) (p : Nat) (rep : Nat) : Bool :=
  decide (p < code.text.length) &&
  (decide (t.repd ≤ rep) || t.wait == 1 || (fault == 4 && mine))

/-- A remote unit that was asked for and has not come is asked for again after a resumption (R454, R465). -/
def Hold.askAgain (h : Hold) : Hold :=
  match h with
  | .unit _ => .again
  | x => x

/-- The hold of a restored stream: the wait that the image records is taken up again (R356).
(DEDUCED, log 31; DEDUCED, log 58) -/
def restoredHold (wait : Nat) (h : Hold) : Hold :=
  if wait = 7 then .latch
  else if wait = 9 then (match h with
    | .latch => .none
    | x => x.askAgain)
  else match h with
    | .wfe => .wfe
    | .handed => .handed
    | .again => .again
    | _ => .none

/-- The wait stands at its word: it is given up with the word. -/
def Hold.ofWord (h : Hold) : Bool :=
  match h with
  | .latch => false
  | .cycle _ _ => false
  | .seal _ => false
  | _ => true

/-- What a stream that goes on elsewhere waits for. -/
def Hold.elsewhere (h : Hold) : Hold := if h.ofWord then .none else h

/-- REP of the word at an index under a bank; 0 when no word is there. (DEDUCED, log 31) -/
def repOf (code : Code) (bank p : Nat) : Nat :=
  match (fetchAt code bank p).bind opcOf with
  | some (_, w) => w.rep.toNat
  | none => 0

/-- The stream of an image over the stream as it was saved. One that goes on further in the text has passed the
words in between (R166, R356). -/
def readStream (m : Memory) (area e : Nat) (code : Code) (t : Stream) : Stream :=
  let o := 0x40 + 128 * e
  let x := rdw m area (o + 16)
  let pc := rd m area (o + 8) 4
  let fpc := rd m area (o + 12) 4
  let repd := if bits x 63 56 = t.repd % 256 then t.repd else bits x 63 56
  let wait := bits x 31 28
  let fs := rdw m area 0
  let y := { t with
    valid := bit x 12, slot := rd m area o 8, repd := repd, prog := bits x 55 32, wait := wait,
    bank := bits x 27 24, wordBank := if t.fpc = some fpc then t.wordBank else bits x 27 24, tkd := bit x 15, latch := bit x 14, joinb := bit x 13
    lc := (span 0 4).foldl (fun l i => l.put i (BitVec.ofNat 32 (rd m area (o + 32 + 4 * i) 4))) t.lc
    rs := (span 0 (bits x 23 20)).map fun i => rd m area (o + 48 + 4 * i) 4
    cond := (span 0 4).foldl (fun l i => l.put i (bit x (16 + i))) t.cond
    hold := restoredHold wait t.hold }
  let same := imagePc code t == pc && t.fpc.getD noWord == fpc
  if same && inProgress code (bits fs 63 56) (bits fs 55 52 == e) y fpc (repOf code y.wordBank fpc) then
    { y with pc := fpc, fpc := some fpc }
  else if same && fpc == noWord then y
  else if fpc ≠ noWord && inProgress code (bits fs 63 56) (bits fs 55 52 == e) y fpc
      (repOf code y.wordBank fpc) then
    { y with pc := fpc, fpc := some fpc, dec := none, lit := 0, progress := t.progress + (fpc - t.pc)
             hold := y.hold.elsewhere }
  else
    { y with pc := pc, fpc := none, repd := 0, prog := 0, tkd := false, lit := 0, progress := t.progress + (pc - t.pc)
             dec := if same then t.dec else none, hold := y.hold.elsewhere }

/-- Insert a restored write by its due slot, ties by SEQ. -/
def insRestored (p : Pend) : List Pend → List Pend
  | [] => [p]
  | q :: r =>
    if p.due < q.due ∨ (p.due = q.due ∧ p.seq < q.seq) then p :: q :: r else q :: insRestored p r

/-- The pending write of record `i`, with its stream. -/
def readPend (m : Memory) (area : Nat) (slotOf : Nat → Nat) (i : Nat) : Option (Nat × Pend) :=
  let o := 0x14000 + 288 * i
  let x := rdw m area o
  let e := bits x 27 24
  (pendTarget (bits x 19 16) (bits x 11 0)).map fun t =>
    (e, { due := slotOf e + bits x 39 32, seq := bits x 47 40, tgt := t, mask := rdw m area (o + 8),
          data := BitVec.ofNat 2048 (rd m area (o + 32) 256),
          flg := BitVec.ofNat 5 (rd m area (o + 16) 8), ready := true, src := none })

/-- The slices of entry `i` of a restored queue whose clusters are ahead by the counts of a state
word. -/
def restoredSlices (x : Word) (i : Nat) : BitVec 4 :=
  BitVec.ofNat 4 ((span 0 4).foldl (fun a c =>
    a + (decide (i < bits x (15 + 4 * c) (12 + 4 * c))).toNat <<< c) 0)

/-- A restored queue over the queue as it was saved: its entries, and the clusters that have acted on
each (R355). A state word that stands as it was saved keeps what each cluster has done, a count of 16
included. An entry of a store queue that some cluster has still to write is incomplete.
(DEDUCED, log 25) -/
def readQueue (m : Memory) (area q : Nat) (old : Queue) : Queue :=
  let x : Word := BitVec.ofNat 32 (rd m area (0x3C0 + 4 * q) 4)
  let n := bits x 4 0
  let most := (span 0 4).foldl (fun a c => Nat.max a (bits x (15 + 4 * c) (12 + 4 * c))) 0
  let part := if q < 8 then 0 else n - most
  let same := queueWord (decide (8 ≤ q)) old == x.toNat
  ⟨(span 0 n).map fun i =>
    let o := old.entries[i]?.getD ⟨i, 0, true, 0, none, .zero⟩
    let done := if same then o.slices
      else if q < 8 then restoredSlices x i
      else if i < part then 15 else restoredSlices x (i - part)
    { o with
      data := BitVec.ofNat 2048 (rd m area (0x4000 + 4096 * q + 256 * i) 256), src := none
      slices := done, valid := decide (q < 8) || done == 15 }⟩

/-- A list cut or filled up to a length. -/
def fitList {α : Type} (d : α) (n : Nat) (l : List α) : List α := (span 0 n).map fun i => l[i]?.getD d

/-- A restored register class. -/
def readRegs (m : Memory) (area off n : Nat) : Tbl Dword :=
  (span 0 n).foldl (fun t i => t.put i (rdw m area (off + 8 * i))) .empty

/-- The copies of a view with the completion cycles of an image (R323, R349). -/
def readCopies (m : Memory) (area : Nat) (k : Core) (x : Nat × Nat) : List CopyRec :=
  (k.copies.get [] x.1).map fun r =>
    let v := rd m area (0x1480 + 512 * x.2 + 8 * (r.num % 64)) 8
    { r with done := if v = 0 then (if r.done = some 0 then some 0 else none) else some v }

/-- The core that an image restores over the core as it was saved (R356). -/
def readImage (m : Memory) (area : Nat) (code : Code) (k : Core) : Core :=
  let w (off : Nat) : Dword := rdw m area off
  let nrec := w 0x38
  let streams := (span 0 7).foldl (fun t e =>
    if e < 4 ∨ bit (w (0x40 + 128 * e + 16)) 12 then
      t.put e (readStream m area e code (k.stream e))
    else t.erase e) k.streams
  let slotOf (e : Nat) : Nat := (streams.get .init e).slot
  let ps := (span 0 (bits nrec 15 0)).filterMap (readPend m area slotOf)
  let streams := streams.mapVals fun e t =>
    let mine := (ps.filter fun x => x.1 == e).foldl (fun l x => insRestored x.2 l) []
    let t := { t with pend := mine, nseq := 1 + mine.foldl (fun a p => Nat.max a p.seq) 0 }
    if e < 4 then
      { t with log := (span 0 (bits nrec (22 + 8 * e) (16 + 8 * e))).map fun i =>
          let x := w (0xC00 + 512 * e + 8 * i)
          ⟨bits x 31 0, bit x 32, bits x 56 33⟩ }
    else t
  let out := w 0x30
  let fb := w 0x1CC0
  { k with
    a := readRegs m area 0x500 32, m := readRegs m area 0x600 16, w := readRegs m area 0x680 32
    g := readRegs m area 0x780 8, s := readRegs m area 0x800 128, ix := readRegs m area 0x460 4
    v := (span 0 32).foldl (fun t i =>
      t.put i (BitVec.ofNat 2048 (rd m area (0x2000 + 256 * i) 256))) .empty
    fflg := BitVec.ofNat 5 (rd m area 0x480 8), mbx := w 0x458, closeNum := rd m area 0x488 8
    csr := imageCsrs.foldl (fun t x => t.put x.2.1 (w x.1)) k.csr
    lq := (span 0 8).foldl (fun t q => t.put q (readQueue m area q (k.loadQ q))) .empty
    sq := (span 0 8).foldl (fun t q => t.put q (readQueue m area (8 + q) (k.storeQ q))) .empty
    tok := (span 0 8).foldl (fun t q =>
      t.put q (fitList .zero (bits (w 0x28) (4 * q + 3) (4 * q)) (k.tokens q))) .empty
    obAX := (fitList (false, .zero) (bits out 20 16) k.obAX).zipIdx.map fun x => (bit out x.2, x.1.2)
    obXA := (fitList (false, .zero) (bits out 52 48) k.obXA).zipIdx.map fun x =>
      (bit out (32 + x.2), x.1.2)
    fork := if bit (w 0) 50 then (if k.fork.isSome then k.fork else imageFork m area code) else none
    streams := streams
    fmt := (span 0 16).foldl (fun t i => t.put i (BitVec.ofNat 32 (rd m area (0x1C80 + 4 * i) 4))) .empty
    fb := bits fb 3 0, pin := if bit fb 8 then some (bits fb 7 4) else none
    lease := if bit fb 9 then some (bit fb 10) else none
    tlIssued := (span 0 8).foldl (fun t v => t.put v (rd m area (0x1400 + 8 * v) 8)) .empty
    tlDone := (span 0 8).foldl (fun t v => t.put v (rd m area (0x1440 + 8 * v) 8)) .empty
    copies := copyViews.zipIdx.foldl (fun t x => t.put x.1 (readCopies m area k x)) k.copies
    spad := (atAddr 0 (memRead m (area + 0x34000) (2 ^ k.scr))).foldl
      (fun t e => memPut t e.1 e.2) [] }

end Sys2Proof.Machine
end

