-- ==== Sys2Proof/Machine/System.lean ====
section
/-!
DEFINITION. The system and recovery words: traps, resuming a served context, moving link slots and
banks between contexts, freezing and grafting chains, seals, irrevocable writes, banks and marks
(R366 to R371, R393 to R405).
-/

namespace Sys2Proof.Machine

open Sys2Proof

/-! ### Traps (R394) -/

/-- A word that takes a fault once it is complete (R394). -/
def trapWord (fcode : Nat) (w : Wrd) (s : State) : Host.Outcome State Fault Refusal :=
  let p := s.cs.pc
  issueWord (do
    slot w (pure ()) nextWord
    let s ← get
    if wordOff w s then pure ()
    else change (takeTrap { code := fcode, faux0 := w.imm.setWidth 64 } p)) s

/-- TRAP (R394). -/
def execTrap (w : Wrd) (s : State) : Host.Outcome State Fault Refusal := trapWord 0x28 w s

/-- SYSC (R394). -/
def execSysc (w : Wrd) (s : State) : Host.Outcome State Fault Refusal := trapWord 0x29 w s

/-- The privilege that the supervisor words need (R348, R393). -/
def needSupervisor : Act Unit := do
  let s ← get
  raiseIf (s.cc.csrN 0 == 0) 0x0E

/-! ### Resuming (R356, R395) -/

/-- The core of a context that was saved, as it stands there. (DESIGN CHOICE, log 11) -/
def savedCore (s : State) (launch c : Nat) : Core :=
  (s.dom.saved.get? (1024 * launch + c)).getD (s.core c)

/-- What belongs to the core and not to a context: its caches of memory and of translations, the
releases under way and the store sequences. (DEDUCED, log 12) -/
def keepHardware (live k : Core) : Core :=
  { k with
    owned := live.owned, wrote := live.wrote, near := live.near, floor := live.floor
    floors := live.floors, stores := live.stores
    releases := live.releases, nextId := live.nextId, tlb := live.tlb, trackers := live.trackers
    farVa := live.farVa, instants := live.instants
    preempt := live.preempt, leaseWant := none }

/-- In joint sequencing the stream of the fault says where the one program counter goes on.
(DEDUCED, log 15) -/
def joinPcs (win fstr : Nat) (k : Core) : Core :=
  if win = 0 && !k.forked then k.setPc (k.stream (if fstr < 4 then fstr else 0)).pc else k

/-- The core that a save area restores for launch `l` on core `c` (R356): the image over the saved
core, with the decisions of an open branch group kept while the program counter stands.
(DESIGN CHOICE, log 11) -/
def restoredCore (s : State) (launch c : Nat) (area : Option Nat) (fstr : Nat) : Core :=
  let k := savedCore s launch c
  let l := s.launch launch
  let x := match area with
    | some a => readImage s.mem a l.code k
    | none => { k with streams := k.streams.mapVals fun _ t => { t with hold := t.hold.askAgain } }
  let x := if l.nest.tt then x else joinPcs l.nest.win fstr x
  let same := (span 0 4).all fun e => (x.stream e).pc == (k.stream e).pc
  let x := keepHardware (s.core c) x
  { x with mode := k.mode, frame := none, served := none, group := if same then x.group else [] }

/-- Put a restored core in place. -/
def resumeCore (launch c : Nat) (k : Core) (s : State) : State :=
  let s := s.setCore c k
  { s with dom := { s.dom with saved := s.dom.saved.erase (1024 * launch + c) } }

/-- The broken store sequence of a core that a fault has reported begins anew, and its target is told (R458).
(DEDUCED, log 61) -/
def resetTrackers (c : Nat) (faux : Dword) (s : State) : State :=
  (s.core c).trackers.foldl (fun s t =>
    if t.broken = some faux then
      let k := s.core c
      sendPacket 2 3 c t.pkg 0 0 0 2 0 [] []
        (s.setCore c { k with trackers := k.trackers.map fun x =>
          if x.pkg = t.pkg then ⟨t.pkg, 0, none, false, false, false⟩ else x })
    else s) s

/-- Resume the served context: the handler's context is gone, and its time counts as fault time
(R193, R346, R395). A core that had halted, or was free, is so again, and takes the next report that it has kept.
(DEDUCED, log 44) -/
def resumeServed (s : State) : State :=
  match s.cc.served with
  | none => s
  | some v =>
    let c := s.cur.core
    let h := s.cc.launch
    let k := restoredCore s v.launch c v.area v.frame.fstr
    let l := s.launch v.launch
    let spent := s.clk.wcyc - s.cc.faultAt
    let s := resumeCore v.launch c k (s.setLaunch v.launch { l with faultTime := l.faultTime + spent })
    let s := if !v.frame.prec && v.frame.fcode == 0x32 then resetTrackers c v.frame.faux0 s else s
    takeKept c { s with dom := { s.dom with launches := s.dom.launches.erase h } }

/-- The lease that an image records (R349). -/
def imageLease (s : State) (launch c : Nat) (area : Option Nat) : Option Bool :=
  match area with
  | some a => let x := rdw s.mem a 0x1CC0
    if bit x 9 then some (bit x 10) else none
  | none => (savedCore s launch c).lease

/-- The checks and waits of `eret` (R356, R358, R395): the closes of the handler, its release half, which takes in
its stores to other packages, and the lease that the image records. (DEDUCED, log 12) -/
def eretReady : Act Unit := do
  needSupervisor
  let s ← get
  match s.cc.served with
  | none => raiseCode 0x27
  | some v => do
    if s.cc.tlDone.get 0 3 < s.cc.tlIssued.get 0 3 then stall 9
    awaitRelease 4
    let s ← get
    let l := s.launch v.launch
    let win := if l.nest.tt then 0 else l.nest.win
    match v.area with
    | some a => raiseIf (!imageOk s.mem a l.code win) 0x27
    | none => pure ()
    match imageLease s v.launch s.cur.core v.area with
    | some wide => if leaseConflict s s.cur.core wide then stall 9 else pure ()
    | none => pure ()

/-- ERET (R395). -/
def execEret (w : Wrd) (s : State) : Host.Outcome State Fault Refusal :=
  issueWord (do
    slot w (do
      let s ← get
      if wordOff w s then pure () else eretReady) nextWord
    let s ← get
    if wordOff w s then pure () else change resumeServed) s

/-! ### Partials on streams (R370, R420, R425) -/

/-- The links of a hop of a chain, where they stand: in its slots, or spilled (R368, R397). -/
def ownLinks (s : State) (launch ch i : Nat) (d : ChainDesc) (h : Hop) : List Link :=
  (hopLinks s d h).filter (fun x => x.holds s launch ch i) ++ (spilledLinks s launch ch i d h).map (·.2)

/-- Some link of a hop of the chain has failed (R369). -/
def hopFailed (s : State) (launch ch i : Nat) (d : ChainDesc) (h : Hop) : Bool :=
  (ownLinks s launch ch i d h).any (·.state == 6)

/-- A link of a chain on a die has failed: what its streams bring there is kept (R370, R425). -/
def dieFailed (s : State) (launch ch die : Nat) (d : ChainDesc) : Bool :=
  d.hops.zipIdx.any fun h => h.1.die == die && hopFailed s launch ch h.2 d h.1

/-- The hop of a chain that a stream feeds: its index and the hop. -/
def strmHop (s : State) (die launch ch sid : Nat) : Option (Nat × Hop) :=
  ((s.chain launch die ch).desc.hops.zipIdx.find? fun h =>
    h.1.stream && h.1.die == die && h.1.sid == sid).map fun h => (h.2, h.1)

/-- Bytes of filled slots from count `k` up. -/
def slotBytes (s : State) (die launch sid : Nat) : Nat → Nat → List Byte
  | 0, _ => []
  | n + 1, k =>
    memRead ((s.launch launch).store die) (strmSlot s die launch sid k)
      ((s.tstream die launch sid).lens.get 0 (k % strmNsl s die launch sid)) ++
    slotBytes s die launch sid n ((k + 1) % 2 ^ 32)

/-- A bound stream has received every slot of a partial: its link adds it and sets its incoming mark, and then the
slots are free (R420). They stay filled while a link of the chain on the die has failed, and while the slot of the
link is spilled (R368, R370, R425). -/
def gatherPartial (die launch sid : Nat) (s : State) : State :=
  let b := strmBnd s die launch sid
  let ch := bits b 4 0
  let d := (s.chain launch die ch).desc
  match bit b 31, strmHop s die launch ch sid with
  | true, some (i, h) =>
    let prev := (d.hops[i - 1]?).getD h
    let n := partialSlots d prev.hf
    let ec := strmEC s die launch sid
    let filled := (strmFC s die launch sid + 2 ^ 32 - ec) % 2 ^ 32
    if filled < n ∨ dieFailed s launch ch die d ∨ !hopHeld s launch ch i d h then s
    else
      let p := decodePartial launch ch i d prev.hf prev.anchor (slotBytes s die launch sid n ec)
      (span 0 n).foldl (fun s j =>
        strmFree die launch sid ((ec + j) % 2 ^ 32 % strmNsl s die launch sid) s)
        (landPartial launch die ch { p with die := die } s)
  | _, _ => s

/-- What the streams of a chain have brought and its links could not take goes on. -/
def gatherChain (launch die ch : Nat) (s : State) : State :=
  (s.chain launch die ch).desc.hops.foldl (fun s h =>
    if h.stream then gatherPartial h.die launch h.sid s else s) s

/-! ### Link save areas (R349, R397) -/

/-- The 16 bytes of an element. -/
def elemBytes (x : Elem) : List Byte :=
  toBytes 16 (x.acc.toNat + x.op.toNat * 2 ^ 112 + x.on.toNat * 2 ^ 113)

/-- LSTAT of a link. -/
def lstat (x : Link) (spilled : Bool) : Nat :=
  x.state % 16 + x.incoming.toNat * 2 ^ 4 + x.lastBank % 2 * 2 ^ 5 + x.hasLast.toNat * 2 ^ 6 +
  x.flags.toNat * 2 ^ 8 + spilled.toNat * 2 ^ 15 + wrapN 10 x.anchor * 2 ^ 16

/-- The parts of a link save area. -/
def linkParts (x : Link) : List Part :=
  [(0, (span 0 65536).flatMap fun i => elemBytes (x.elems.get .zero i)),
   (0x100000, le8 (lstat x true) ++ le8 x.rem ++ List.replicate 48 0 ++
     (span 0 128).flatMap (fun r => toBytes 4 (x.rowScale.get 0x3F800000 r).toNat) ++
     (span 0 128).flatMap (fun r => toBytes 2 (wrapN 16 (x.rowExp.get 0 r))) ++
     List.replicate 3264 0)]

/-- The link that a save area holds, over what the area has no field for. -/
def readLink (m : Memory) (area : Nat) (x : Link) : Link :=
  let st := rdw m area 0x100000
  { x with
    state := bits st 3 0, incoming := bit st 4, lastBank := bits st 5 5, hasLast := bit st 6
    flags := BitVec.ofNat 5 (bits st 12 8), anchor := toSigned 10 (bits st 25 16)
    rem := rd m area 0x100008 4
    elems := (span 0 65536).foldl (fun t i =>
      let e := rd m area (16 * i) 16
      if e = 0 then t
      else t.put i ⟨BitVec.ofNat 112 e, e.testBit 112, e.testBit 113⟩) .empty
    rowScale := (span 0 128).foldl (fun t r =>
      t.put r (BitVec.ofNat 32 (rd m area (0x100040 + 4 * r) 4))) .empty
    rowExp := (span 0 128).foldl (fun t r =>
      t.put r (toSigned 16 (rd m area (0x100240 + 2 * r) 2))) .empty }

/-- The place of the trap that a handler serves: its FCODE, the bed, and the slot or bank (R352, R396). -/
def servedPlace (s : State) : Option (Served × Nat × Nat × Nat) :=
  s.cc.served.map fun v =>
    (v, v.frame.fcode, 16 * bits v.frame.faux0 2 0 + bits v.frame.faux0 6 3, bits v.frame.faux0 8 7)

/-- A partial is in flight to the link of a slot (R397). -/
def towards (s : State) (x : Link) (die : Nat) : Bool :=
  let d := (s.chain x.launch die x.chain).desc
  x.state != 0 && ((s.dom.partials.any fun p => p.to x.launch x.chain x.hop d) ||
    (match d.hops[x.hop]? with
     | some h => h.stream && (let t := s.tstream h.die x.launch h.sid
        !t.flight.isEmpty || !t.queue.isEmpty || strmFC s h.die x.launch h.sid != strmEC s h.die x.launch h.sid)
     | none => false))

/-- Spill a link slot to the area of its owner and tag it for context `c` (R397).
(DEDUCED, log 29) -/
def spillLink (bed slot c : Nat) (s : State) : State :=
  let x := s.link bed slot
  let d := s.ctx x.owner
  let idle : Link := { Link.init with owner := c, retired := x.retired }
  if x.state = 0 then setLink bed slot idle s
  else
    let s := match d.linkArea.get? (4 * bed + slot) with
      | some a => writeParts a (linkParts x) s
      | none => s
    let s := { s with dom := { s.dom with
      ctxs := s.dom.ctxs.put x.owner { d with spilled := d.spilled.put (4 * bed + slot) x } } }
    setLink bed slot idle s

/-- The link save area of a context has room in its log (R378). -/
def linkAreaRoom (s : State) (ctx key : Nat) : Bool :=
  match (s.ctx ctx).linkArea.get? key with
  | some a => areaRoom s a (2 ^ 21)
  | none => true

/-- MSPILL (R396, R397). -/
def execMspill (w : Wrd) (s : State) : Host.Outcome State Fault Refusal :=
  word w (do
    let s ← get
    if wordOff w s then pure ()
    else do
      needSupervisor
      match servedPlace s with
      | none => raiseCode 0x21
      | some (v, fc, bed, slot) =>
        if fc = 0x24 then pure ()
        else do
          raiseIf (fc != 0x23) 0x21
          let x := s.link bed slot
          raiseIf (x.state != 0 && ((s.ctx x.owner).linkArea.get? (4 * bed + slot)).isNone) 0x21
          if towards s x (bed / 16) || !linkAreaRoom s x.owner (4 * bed + slot) then stall 9
          change (spillLink bed slot (s.launch v.launch).ctx)) s

/-- Restore the spilled state of context `c` in an idle slot, if its area holds any (R397). -/
def fillLink (bed slot c area : Nat) (s : State) : State :=
  let st := rdw s.mem area 0x100000
  if bit st 15 then
    let x := s.ctx c
    let y := readLink s.mem area { (x.spilled.get .init (4 * bed + slot)) with
      owner := c, retired := (s.link bed slot).retired }
    gatherChain y.launch (bed / 16) y.chain
      (advanceChain y.launch (bed / 16) y.chain (clearSpilled c (4 * bed + slot) (setLink bed slot y s)))
  else s

/-- MFILL_LINK (R396, R397). -/
def execMfillLink (w : Wrd) (s : State) : Host.Outcome State Fault Refusal :=
  word w (do
    let s ← get
    if wordOff w s then pure ()
    else do
      needSupervisor
      match servedPlace s with
      | none => raiseCode 0x21
      | some (v, fc, bed, slot) => do
        let c := (s.launch v.launch).ctx
        let x := s.link bed slot
        raiseIf (fc != 0x23 || x.state != 0 || x.owner != c) 0x21
        match (s.ctx c).linkArea.get? (4 * bed + slot) with
        | none => raiseCode 0x21
        | some a => change (fillLink bed slot c a)) s

/-! ### Refilling a bank (R367, R397) -/

/-- A byte of memory as the source of a refill: as the recording core's context has it, or published. A
byte that cannot be read is a free value. (DEDUCED, log 30) -/
def sourceByte (s : State) (ctx launch core seg a : Nat) : Byte :=
  match walk s (s.ctx ctx) (seg * 2 ^ 64 + a % 2 ^ 64) with
  | .leaf e level =>
    let pa := physOf e level (a % 2 ^ 64)
    if bit e 63 || pkgBits pa != s.ident.pkg then Config.remoteByte pa s.draws
    else match (if (s.core core).launch = launch then s.core core else savedCore s launch core).ownByte pa with
      | some b => b
      | none => memGet s.mem pa
  | .stop _ _ => Config.remoteByte a s.draws

/-- Bytes of a source. -/
def sourceBytes (s : State) (ctx launch : Nat) (r : BankSrc) (a n : Nat) : List Byte :=
  if r.mem then (span a n).map (sourceByte s ctx launch r.core r.seg)
  else
    let k := s.ctxCore launch r.core
    spadRead k (a % 2 ^ k.scr) n

/-- Perform a recorded load again (R367). (DEDUCED, log 30) -/
def redoSource (ctx launch bed bank : Nat) (s : State) (r : BankSrc) : State :=
  let half := if r.wide then bed % 2 else 0
  if r.kind = 0 then
    let n := packedBytes (matKind (fmtBF r.fmt)) r.cols
    let rows := (span 0 r.rows).map fun i =>
      sourceBytes s ctx launch r (r.sa.toNat + i * r.sb.toNat) n
    bldBank r bank ctx r.row0 0 half rows true true bed s
  else
    let x := (s.bed bed).bank bank
    let nm := match x.tag with
      | some t => largestN t.1 t.2
      | none => largestN (fmtBF r.fmt) (fmtS r.fmt)
    let data := sourceBytes s ctx launch r r.sa.toNat (if r.kind = 2 then r.cols else 4 * r.cols)
    sldBank r bank ctx nm half data bed s

/-- Clear a bank, tag it for a context and repeat the loads that the context recorded (R397).
(DEDUCED, log 30) -/
def refillBank (ctx launch bed bank : Nat) (s : State) : State :=
  let x := s.ctx ctx
  let l := x.srcs.get [] (srcKey bed bank)
  let s := { s with dom := { s.dom with
    ctxs := s.dom.ctxs.put ctx { x with srcs := x.srcs.erase (srcKey bed bank) } } }
  let s := setBank bed bank { Bank.init with owner := some ctx } s
  let s := l.foldl (redoSource ctx launch bed bank) s
  { s with draws := s.draws + 1 }

/-- MFILL_BANK (R397). -/
def execMfillBank (w : Wrd) (s : State) : Host.Outcome State Fault Refusal :=
  word w (do
    let s ← get
    if wordOff w s then pure ()
    else do
      needSupervisor
      match servedPlace s with
      | none => raiseCode 0x21
      | some (v, fc, bed, bank) => do
        raiseIf (fc != 0x24) 0x21
        change (refillBank (s.launch v.launch).ctx v.launch bed (bank % 2))) s

/-! ### Freezing and grafting chains (R369 to R371, R398, R399) -/

/-- Some link of a chain has failed. -/
def chainFailed (s : State) (launch ch : Nat) (d : ChainDesc) : Bool :=
  d.hops.zipIdx.any fun h => hopFailed s launch ch h.2 d h.1

/-- Freeze a chain, keeping its state (R369, R398). -/
def freezeChain (launch die ch : Nat) (s : State) : State :=
  let x := s.chain launch die ch
  if x.state = 4 then s else setChain launch ch { x with state := 4, kept := x.state } s

/-- CHFRZ (R398). -/
def execChfrz (w : Wrd) (s : State) : Host.Outcome State Fault Refusal :=
  word w (do
    let s ← get
    if wordOff w s then pure ()
    else do
      let ch := bits w.imm 4 0
      raiseIf (!(s.myChain ch).live) 0x22
      change (freezeChain s.cc.launch (s.dieOf s.cur.core) ch)) s

/-- Thaw a chain: its links forward as their conditions allow (R398). -/
def thawChain (launch die ch : Nat) (s : State) : State :=
  let x := s.chain launch die ch
  gatherChain launch die ch (advanceChain launch die ch (setChain launch ch { x with state := x.kept } s))

/-- CHFRZ_THAW (R398). -/
def execChfrzThaw (w : Wrd) (s : State) : Host.Outcome State Fault Refusal :=
  word w (do
    let s ← get
    if wordOff w s then pure ()
    else do
      let ch := bits w.imm 4 0
      let x := s.myChain ch
      raiseIf (x.state != 4 || chainFailed s s.cc.launch ch x.desc) 0x22
      change (thawChain s.cc.launch (s.dieOf s.cur.core) ch)) s

/-- A live chain of some launch names a slot (R399). -/
def slotNamed (s : State) (bed slot : Nat) : Bool :=
  s.dom.launches.vals.any fun l => l.chains.vals.any fun x =>
    x.live && x.desc.hops.any fun h => h.slot == slot && (hopBeds x.desc h).any (· == bed)

/-- A slot may take the place of a failed one for context `c` (R371, R399). -/
def spareOk (s : State) (c bed slot : Nat) : Bool :=
  let x := s.link bed slot
  x.state == 0 && (x.owner == c || x.owner == 0) && !x.dead s.cc.launch && !slotNamed s bed slot

/-- Put a spare in the place of a failed hop (R371). A previous hop that has forwarded sends its kept partial
again once the chain thaws. -/
def graftHop (launch die ch i : Nat) (h spare : Hop) (s : State) : State :=
  let x := s.chain launch die ch
  let ctx := (s.launch launch).ctx
  let sent := (ownLinks s launch ch i x.desc h).any (·.sent)
  let s := dropSpilled launch ch i x.desc h s
  let s := onHop x.desc h (fun _ y => { y with
    state := if y.holds s launch ch i then 0 else y.state, retired := launch }) s
  let s := { s with life := { s.life with
    grafts := (hopBeds x.desc h).foldl (fun t b =>
      t.put (4 * b + h.slot) (Nat.min 65535 (t.get 0 (4 * b + h.slot) + 1))) s.life.grafts } }
  let s := onHop x.desc spare (fun _ y => { Link.init with
    state := if sent then 3 else 1, owner := ctx, launch := launch, chain := ch, hop := i
    anchor := h.anchor, rem := (if sent then 0 else h.cnt), sent := sent, retired := y.retired }) s
  gatherChain launch die ch (setChain launch ch { x with desc := { x.desc with hops := x.desc.hops.set i spare } } s)

/-- CHGRAFT (R371, R399): a hop on another die takes chain-state. (DEDUCED, log 103) -/
def execChgraft (w : Wrd) (s : State) : Host.Outcome State Fault Refusal :=
  word w (do
    let s ← get
    if wordOff w s then pure ()
    else do
      let ch := bits w.imm 4 0
      let i := bits w.imm 8 5
      let x := s.myChain ch
      let l := s.cc.launch
      match x.desc.hops[i]? with
      | none => raiseCode 0x22
      | some h => do
        let spare := { h with bed := bits w.imm 12 9, slot := bits w.imm 14 13 }
        raiseIf (x.state != 4 || !hopFailed s l ch i x.desc h || h.stream) 0x22
        raiseIf (h.die != s.dieOf s.cur.core || (x.desc.wide && spare.bed % 2 == 1)) 0x22
        raiseIf (!(hopBeds x.desc spare).all fun b => spareOk s s.cl.ctx b spare.slot) 0x22
        change (graftHop l (s.dieOf s.cur.core) ch i h spare)) s

/-! ### Seals and irrevocable writes (R379, R386, R400, R401) -/

/-- Request a seal (R379): at once, or merged into the next one while a seal is under way. Requests of one
wall cycle are one request (R404). (DEDUCED, log 105) -/
def requestSeal (why : SealWhy) (s : State) : State :=
  match s.recov.phase with
  | .idle => { s with
      clk := { s.clk with hold := true }
      recov := { s.recov with phase := .quiesce s.recov.n [why], sealStart := s.clk.wcyc } }
  | .quiesce m l =>
    if s.recov.sealStart = s.clk.wcyc then { s with recov := { s.recov with phase := .quiesce m (l ++ [why]) } }
    else { s with recov := { s.recov with want := s.recov.want ++ [why] } }
  | _ => { s with recov := { s.recov with want := s.recov.want ++ [why] } }

/-- The interval that a seal requested now closes (R400). A request of the wall cycle in which the seal
under way was requested is one with it (R404). (DEDUCED, log 105) -/
def sealNumber (s : State) : Nat :=
  match s.recov.phase with
  | .quiesce m _ => if s.recov.sealStart = s.clk.wcyc then m else m + 1
  | _ => s.recov.n

/-- The stream goes on after the word, or waits for a seal (R400). -/
def finSeal : Act Unit := do
  nextWord
  changeStream fun t => match t.hold with
    | .seal _ => { t with wait := 9 }
    | _ => t

/-- SEAL (R400). -/
def execSeal (w : Wrd) (s : State) : Host.Outcome State Fault Refusal :=
  issueWord (slot w (do
    let s ← get
    if wordOff w s then pure ()
    else do
      let n := sealNumber s
      writeReg w.dst (BitVec.ofNat 64 n) 1
      change (requestSeal (.launch s.cc.launch))
      if bit w.mod 0 then changeStream fun t => { t with hold := .seal n }) finSeal) s

/-- Bytes of an `irrv` (R393). -/
def irrvSize (w : Wrd) : Nat := sizeBytes (bits w.mod 2 0)

/-- IRRV (R386, R401): S waits at the word, which ends once its write has been handed over after the commit of the
seal. -/
def execIrrv (w : Wrd) (s : State) : Host.Outcome State Fault Refusal :=
  word w (do
    let s ← get
    if s.cs.hold = .handed ∨ wordOff w s = true then pure ()
    else do
      let a := wrapN 64 ((regVal s w.sa).toNat + w.off.toInt)
      let l ← resolveGlobal (segOf w) a (irrvSize w) 1
      let c := l.headD ⟨0, irrvSize w, 15, .spad 0⟩
      accessReady l
      let n := sealNumber s
      change (requestSeal (.launch s.cc.launch))
      changeStream fun t => { t with
        hold := .irrv n c.place (toBytes (irrvSize w) (regVal s w.sb).toNat) w }
      stall 9) s

/-! ### Banks and marks (R402, R403) -/

/-- TBANK (R86, R402): 24 slots, then the switch. -/
def execTbank (w : Wrd) (s : State) : Host.Outcome State Fault Refusal :=
  word w (do
    let s ← get
    let off := wordOff w s
    changeStream fun t => { t with
      slot := t.slot + 23, bank := if off then t.bank else bits w.imm 3 0 }) s

/-- MARK (R403). -/
def execMark (w : Wrd) (s : State) : Host.Outcome State Fault Refusal := word w (pure ()) s

end Sys2Proof.Machine
end

