-- ==== Sys2Proof/Machine/CoreEvents.lean ====
section
/-!
DEFINITION. Steps that act on one core, bed or chain: deadlock, arriving data, completing releases,
events, reports, the delivery of faults, waits that end, leases, partials, closes and failing links
(R29, R150, R171, R182, R206, R245, R270, R306, R324, R343, R346, R370, R420).
-/

namespace Sys2Proof.Machine

open Sys2Proof

/-- The core that issues is `c` and its stream `e`. -/
def State.at (s : State) (c e : Nat) : State := { s with cur := ⟨c, e⟩ }

/-! ### Deadlock (R171) -/

/-- Every engine that has not halted waits inside the core, on nothing that is still to arrive. -/
def deadlocked (s : State) (c : Nat) : Bool :=
  let k := s.core c
  let ts := (k.inUse.map k.stream).filter (·.wait != 10)
  k.mode == .running && s.seqn c == .slip && !ts.isEmpty && ts.all (·.stuck k.moves) &&
  ts.any (·.wait != 6) && k.lq.vals.all (fun q => q.entries.all (·.valid)) &&
  k.sq.vals.all (fun q => q.entries.all fun e => e.valid || e.slices != 15)

/-- SLIP_DEADLOCK (R171): the waits stand in the stream records. -/
def execSlipDeadlock (core : Nat) (s : State) : Host.Outcome State Fault Refusal :=
  agentStep (fun s => if deadlocked s core then takeImprecise core ⟨0x0C, 0, 0, 0, 0, 0⟩ s else s) s

/-! ### Arriving data (R29, R270) -/

/-- The data of an entry is there: its open bytes take their values, and an acquire load acts
(R271, R272). (DEDUCED, log 32; DEDUCED, log 74) -/
def fillEntry (c q : Nat) (e : QEntry) (s : State) : State :=
  let r := match e.src with
    | some src => settleOne c src e.data s
    | none => (e.data, s)
  let s := r.2
  let k := s.core c
  let l := (k.loadQ q).entries.map fun x =>
    if x.id = e.id then { x with data := r.1, src := none, valid := true } else x
  let s := s.setCore c (Core.moved { k with lq := k.lq.put q ⟨l⟩ })
  if (e.src.map (·.acq)).getD false then acquireHalf c s else s

/-- An entry of a store queue whose four slices have been written is valid (R29, R173).
(DEDUCED, log 74) -/
def sealEntry (c q entry : Nat) (s : State) : State :=
  let k := s.core c
  let l := (k.storeQ q).entries.map fun e =>
    if e.id = entry && e.slices == 15 then { e with valid := true } else e
  s.setCore c (Core.moved { k with sq := k.sq.put q ⟨l⟩ })

/-- QUEUE_ENTRY_VALID (R29): the entry is named by its id, and its queue as a specifier of class q names
it (R13): 0 to 7 the load queues, 8 to 15 the store queues. (DEDUCED, log 74) -/
def execQueueEntryValid (core q entry : Nat) (s : State) : Host.Outcome State Fault Refusal :=
  agentStep (fun s =>
    if 8 ≤ q then sealEntry core (q - 8) entry s
    else match ((s.core core).loadQ q).entries.find? fun e => e.id = entry && !e.valid with
      | some e => fillEntry core q e s
      | none => s) s

/-- The data of a pending write is there (R270, R271). (DEDUCED, log 32) -/
def fillPend (c e : Nat) (p : Pend) (s : State) : State :=
  let r := match p.src with
    | some src => settleOne c src p.data s
    | none => (p.data, s)
  let s := r.2
  let k := s.core c
  let t := k.stream e
  let l := t.pend.map fun x =>
    if x.seq = p.seq then { x with data := r.1, src := none, ready := true } else x
  let s := s.setCore c (k.setStream e { t with pend := l })
  if (p.src.map (·.acq)).getD false then acquireHalf c s else s

/-- REGISTER_LOAD_DATA (R270). -/
def execRegisterLoadData (core stream seq : Nat) (s : State) : Host.Outcome State Fault Refusal :=
  agentStep (fun s =>
    match ((s.core core).stream stream).pend.find? fun p => p.seq = seq && !p.ready with
    | some p => fillPend core stream p s
    | none => s) s

/-! ### Writes for a context, wherever it stands (R152, R257, R364) -/

/-- The live core holds the scratchpad and the bed store of a launch: it runs the launch, or a handler
that serves it. -/
def State.holdsCtx (s : State) (launch c : Nat) : Bool :=
  (s.core c).launch == launch || ((s.core c).served.map (·.launch)) == some launch

/-- The save area of core `c` of a launch's context. -/
def State.areaOf (s : State) (launch c : Nat) : Option Nat :=
  (s.ctx (s.launch launch).ctx).coreArea.get? c

/-- Change a saved core of a launch. -/
def State.onSaved (launch c : Nat) (f : Core → Core) (s : State) : State :=
  match s.dom.saved.get? (1024 * launch + c) with
  | none => s
  | some k => { s with dom := { s.dom with saved := s.dom.saved.put (1024 * launch + c) (f k) } }

/-- Write scratchpad bytes of a context: live, and in its image when it is saved. -/
def ctxSpad (launch c off : Nat) (data : List Byte) (s : State) : State :=
  let s := if s.holdsCtx launch c then s.setCore c (spadWrite (s.core c) off data) else s
  match s.dom.saved.get? (1024 * launch + c), s.areaOf launch c with
  | some k, some a =>
    publishBytes ((atAddr off data).map fun e => (a + 0x34000 + e.1 % 2 ^ k.scr, e.2))
      (s.onSaved launch c fun k => spadWrite k off data)
  | some _, none => s.onSaved launch c fun k => spadWrite k off data
  | none, _ => s

/-- The key of a saved bed store. -/
def bedKey (launch bed : Nat) : Nat := 128 * launch + bed

/-- Bed `b` as a launch has it: the saved one while the launch is pre-empted (R362). -/
def State.ctxBedOf (s : State) (launch b : Nat) : Bed :=
  (s.dom.savedBeds.get? (bedKey launch b)).getD (s.bed b)

/-- Replace bed `b` of a launch: live, or saved and, from `off` on, in its image. A launch that has given
its beds back has none. -/
def setCtxBed (launch b off n : Nat) (x : Bed) (s : State) : State :=
  match s.dom.savedBeds.get? (bedKey launch b) with
  | none => if (s.launch launch).closed then s else s.setBed b x
  | some _ =>
    let s := { s with dom := { s.dom with savedBeds := s.dom.savedBeds.put (bedKey launch b) x } }
    match (s.ctx (s.launch launch).ctx).bedArea.get? b with
    | some a => publishRun (a + off) (memRead x.store off n) s
    | none => s

/-- Write bed-store bytes of a context: live, or in its image when it is saved. -/
def ctxBed (launch b off : Nat) (data : List Byte) (s : State) : State :=
  setCtxBed launch b off data.length (bedWrite off data (s.ctxBedOf launch b)) s

/-- Bytes of a local place of a context as they stand. -/
def ctxRead (s : State) (launch c : Nat) (p : Place) (n : Nat) : List Byte :=
  match p with
  | .spad o => spadRead (if s.holdsCtx launch c then s.core c else s.ctxCore launch c) o n
  | .bedStore o => memRead (s.ctxBedOf launch (s.bedOf c)).store o n
  | .dieStore o => memRead ((s.launch launch).store (s.dieOf c)) o n
  | _ => []

/-- Write bytes of a local place of a context. -/
def ctxWrite (launch c : Nat) (p : Place) (data : List Byte) (s : State) : State :=
  match p with
  | .spad o => ctxSpad launch c o data s
  | .bedStore o => ctxBed launch (s.bedOf c) o data s
  | .dieStore o => dieWrite (s.dieOf c) launch o data s
  | _ => s

/-- Write bytes for a context by an operation of a view (R152, R257): those of a plain home line wait
for the core to observe the completion. -/
def ctxStore (launch c view num cycle begun : Nat) (bar : Option (Nat × Nat)) (x : Chunk × List Byte)
    (s : State) : State :=
  let later (pa : Nat) : State :=
    s.onCtxCore launch c fun k =>
      { k with arrived := k.arrived ++ [⟨view, num, bar, cycle, begun, pa, x.2⟩] }
  match x.1.place with
  | .home pa true => publishRun pa x.2 s
  | .home pa false => later pa
  | .host ba => pushEgress c 0 ba x.2 s
  | .remote pa ms =>
    if !s.inDomain (pkgBits pa) then pushEgress c 1 pa x.2 s
    else if ms then sendDirect c pa (atAddr pa x.2) s
    else later pa
  | p => ctxWrite launch c p x.2 s

/-! ### Releases (R242, R245, R436, R457) -/

/-- A store packet of the core towards some of the packages of the seal domain has not been acknowledged (R245,
R261). -/
def sequenceOpen (s : State) (c : Nat) (f : Nat → Bool) : Bool :=
  s.fab.sent.any fun p => p.core == c && (p.typ == 2 || p.typ == 3) && s.inDomain p.pkg && f p.pkg

/-- The runs behind a release half may be written at their homes (R378, R423). -/
def runsReady (s : State) (l : List (Place × List Byte)) : Bool :=
  l.all fun r =>
    match r.1 with
    | .home pa _ => !sealStall s (pa / 64) && !underMove s pa
    | _ => true

/-- The packages whose store sequences a release half completes (R245, R261, R276). The sequence that a
release store is counted in is completed at its target (R457). -/
def Release.completes (r : Release) (pkg : Nat) : Bool :=
  (r.scope == 4 && (match r.cont with
    | .strel p _ _ _ => p != pkg
    | _ => true)) || r.seq == some pkg

/-- The trackers with units that a release half covers (R261). -/
def unitsLeft (k : Core) (r : Release) : List Tracker :=
  k.trackers.filter fun t => t.units && t.broken.isNone && r.completes t.pkg

/-- The owned bytes of a release half of core `c` are published, and the store sequences that it completes
have been received (R245). -/
def homesDone (s : State) (c : Nat) (r : Release) : Bool :=
  r.bytes.entries.isEmpty && !sequenceOpen s c r.completes

/-- A release half of core `c` has completed at every home concerned (R245), and what follows it may
happen: a ring mark or an arrival comes after those before it (R326). -/
def releaseDone (s : State) (c : Nat) (r : Release) : Bool :=
  homesDone s c r && (unitsLeft (s.core c) r).isEmpty &&
  (match r.cont with
   | .store l => runsReady s l
   | x => !(x.ordered && arrivalsOpen s c))

/-- The count of the stores that a core has sent to a package (R436). -/
def storeCount (k : Core) (pkg : Nat) : Nat := ((k.tracker pkg).map (·.count)).getD 0

/-- A release covers the units of bulk stores that the core has sent to a package: the package is told, with
their count (R261). (DEDUCED, log 66) -/
def coverUnits (c : Nat) (s : State) (t : Tracker) : State :=
  sendPacket 2 3 c t.pkg 0 (storeCount (s.core c) t.pkg) 0 3 0 [] []
    (s.setCore c (markUnits t.pkg false (s.core c)))

/-- Send a release store with the count of the stores before it, which it covers; it is counted after it
(R436, R457). -/
def sendRelStore (c pa : Nat) (cells : List Host.Cell) (s : State) : State :=
  let pkg := pkgBits pa
  let n := storeCount (s.core c) pkg
  if seqBroken s c pkg then s
  else
    let k := markUnits pkg false (countStore pkg (s.core c))
    let s := s.setCore c { k with trackers := k.trackers.map fun t =>
      if t.pkg = pkg then { t with rel := true } else t }
    sendPacket 2 3 c pkg pa n 0 0 0 cells [] s

/-- Put bytes among those that the first of some releases publishes that covers their package. -/
def joinRelease (pkg : Nat) (l : List (Nat × Byte)) : List Release → Option (List Release)
  | [] => none
  | r :: rest =>
    if r.scope = 4 ∨ r.seq = some pkg then
      some ({ r with bytes := l.foldl (fun t e => t.put e.1 e.2) r.bytes } :: rest)
    else (joinRelease pkg l rest).map (r :: ·)

/-- The core owns a store to another package that a release of narrower scope held back, unless it has stored
there since: a release of machine scope that has begun meanwhile publishes it (R261, R274). -/
def ownFar (c pa begun : Nat) (data : List Byte) (s : State) : State :=
  let r := wordCells c pa data.length s
  let k := r.2.core c
  let l := (r.1 ++ atAddr pa data).filter fun e => !k.wroteAfter begun e.1
  match joinRelease (pkgBits pa) l k.releases with
  | some x => r.2.setCore c ({ k with releases := x }.keepNear l)
  | none => r.2.setCore c (l.foldl ownByteAt k)

/-- Write one run of a store whose release half of a scope, begun when the core had come a number of slots, has
completed (R274). What the core publishes so is its value for the rest of its phase, unless it has stored there
since (R248). In another package only a release of machine scope publishes it: after a narrower one it joins
the store sequence (R261). -/
def heldStore (c scope begun : Nat) (s : State) (r : Place × List Byte) : State :=
  match r.1 with
  | .home pa ms =>
    if ms then publishRun pa r.2 s
    else
      let s := noteOwn c (span pa r.2.length) (publishWords c pa r.2 s)
      let k := s.core c
      s.setCore c (k.keepNear ((atAddr pa r.2).filter fun e => !k.wroteAfter begun e.1))
  | .remote pa ms =>
    if !s.inDomain (pkgBits pa) then pushEgress c 1 pa r.2 s
    else if scope = 4 then
      let y := if ms then ([], s) else wordCells c pa r.2.length s
      sendRelStore c pa (y.1 ++ atAddr pa r.2) y.2
    else if ms then sendDirect c pa (atAddr pa r.2) s
    else ownFar c pa begun r.2 s
  | .host ba => pushEgress c 0 ba r.2 s
  | p => localWrite c p r.2 s

/-- A remote arrival leaves: within the package, or as a packet with the count of the stores before it
(R317, R436). -/
def sendArrival (c launch pkg bed off : Nat) (tag : Option Nat) (s : State) : State :=
  if pkg = s.ident.pkg then
    { s with dom := { s.dom with
      remote := s.dom.remote ++ [⟨s.dom.nextId, pkg, c, 0, launch, (s.launch launch).tid, bed, off, tag⟩], nextId := s.dom.nextId + 1 } }
  else
    let op := 256 + (match tag with
      | some t => 16 + t
      | none => 0)
    noteLaunch s.dom.nextId launch (sendPacket 2 4 c pkg off (storeCount (s.core c) pkg) 2 op bed [] [] s)

/-- The partition beside another along an axis: none past the edge of a grid that is not periodic
there (R301, R302). -/
def neighbour (g : Grid) (part f : Nat) : Option Nat :=
  let a := f / 2
  let n := g.parts a
  let i := if g.pax0 = a then part % g.np0 else if g.pax1 = a then part / g.np0 else 0
  let edge := if f % 2 = 0 then i == 0 else i + 1 == n
  if edge && (g.rule[f]?).getD 0 != 0 then none
  else
    let j := if f % 2 = 0 then (i + n - 1) % n else (i + 1) % n
    if g.pax0 = a then some (part / g.np0 * g.np0 + j)
    else if g.pax1 = a then some (part % g.np0 + g.np0 * j)
    else some part

/-- What follows a completed release half. -/
def runCont (c : Nat) (r : Release) (s : State) : State :=
  match r.cont with
  | .none => s
  | .store l => l.foldl (heldStore c r.scope r.begun) s
  | .ringFill h b n j => setCtxBed h b (64 * n) 20 (ringFillMark n j (s.ctxBedOf h b)) s
  | .ringFree h b n j => setCtxBed h b (64 * n) 20 (ringFreeMark n j (s.ctxBedOf h b)) s
  | .remoteArrive h pkg b off tag => sendArrival c h pkg b off tag s
  | .gstep l g p t view n =>
    let gr := (s.launch l).grids.get? g
    let f : Fill :=
      { id := s.dom.nextId, launch := l, grid := g, part := p, step := t, view := view, num := n,
        core := c, faces := span 0 (2 * (gr.map (·.ndim)).getD 0), begun := false, since := 0 }
    { s with dom := { s.dom with fills := s.dom.fills ++ [f], nextId := s.dom.nextId + 1 } }
  | .reduce _ die id =>
    s.setDie die { s.die die with
      reductions := (s.die die).reductions.map fun r => if r.id = id then { r with released := true } else r }
  | .strel _ pa data _ => sendRelStore c pa (atAddr pa data) s

/-- A store towards a package has still to be sent: an owned byte, or a store behind a release. -/
def storesLater (k : Core) (pkg : Nat) : Bool :=
  k.owned.entries.any (fun e => pkgBits e.1 == pkg) || k.releases.any fun r =>
    r.bytes.entries.any (fun e => pkgBits e.1 == pkg) ||
    match r.cont with
    | .store l => l.any fun x =>
      match x.1 with
      | .remote pa _ => pkgBits pa == pkg
      | _ => false
    | .strel p _ _ _ => p == pkg
    | _ => false

/-- The trackers that a release of machine scope frees, or the one of an atomic's package: no store there
is still to be sent (R276, R436). -/
def freeTrackers (r : Release) (k : Core) : Core :=
  { k with trackers := k.trackers.map fun t =>
      if r.scope = 4 ∨ r.seq = some t.pkg then { t with used := t.used && storesLater k t.pkg } else t }

/-- The oldest release half of a core completes, if it can (R245); the units of bulk stores that it covers
are covered first, at their targets (R261). -/
def finishRelease (c : Nat) (s : State) : State :=
  match (s.core c).releases with
  | [] => s
  | r :: rest =>
    if homesDone s c r && !(unitsLeft (s.core c) r).isEmpty then
      (unitsLeft (s.core c) r).foldl (coverUnits c) s
    else if releaseDone s c r then
      runCont c r (s.setCore c (freeTrackers r { s.core c with releases := rest }))
    else s

/-- RELEASE_COMPLETE (R245). -/
def execReleaseComplete (core : Nat) (s : State) : Host.Outcome State Fault Refusal :=
  agentStep (finishRelease core) s

/-! ### Events (R206, R208) -/

/-- A saved context's image takes a set of its latches, and a message (R208). -/
def imageLatches (launch c : Nat) (msg : Option Dword) (s : State) : State :=
  match s.areaOf launch c with
  | none => s
  | some a =>
    let s := (span 0 4).foldl (fun s e =>
      let x := a + 0x40 + 128 * e + 17
      publishRun x [memGet s.mem x ||| 0x40] s) s
    match msg with
    | some m => publishRun (a + 0x458) (toBytes 8 m.toNat) s
    | none => s

/-- The context of a launch on core `c` is saved (R346, R362). -/
def State.savedCtx (s : State) (launch c : Nat) : Bool :=
  (s.core c).launch != launch && (s.dom.saved.get? (1024 * launch + c)).isSome

/-- A set of latches arrives, after every earlier one from the same core (R206). -/
def arriveSev (id : Nat) (s : State) : State :=
  match s.dom.sevs.find? (·.id = id) with
  | none => s
  | some v =>
    match s.dom.sevs.find? fun x => x.src = v.src && x.core = v.core && x.launch = v.launch with
    | none => s
    | some o =>
      if o.id ≠ id ∨ (s.savedCtx v.launch v.core ∧ !coreAreaRoom s v.launch v.core) then s
      else
        let s := { s with dom := { s.dom with sevs := s.dom.sevs.filter (·.id != id) } }
        let held := s.savedCtx v.launch v.core
        let s := setCtxLatches v.launch v.core v.msg s
        if held then imageLatches v.launch v.core v.msg s else s

/-- SEV_ARRIVAL (R206, R208). -/
def execSevArrival (flight : Nat) (s : State) : Host.Outcome State Fault Refusal :=
  agentStep (arriveSev flight) s

/-! ### Imprecise reports (R343) -/

/-- A report reaches a core (R343, R364): to be taken at the next boundary, behind those that wait, kept
while the core is stopped, taken at once by one that has halted or is free, or lost with a context that is gone.
A precise fault at that boundary is taken
first (R344). (DEDUCED, log 36; DEDUCED, log 44) -/
def deliverReport (x : ReportFlight) (s : State) : State :=
  let k := s.core x.core
  if k.launch = x.launch then
    match k.mode with
    | .running => s.setCore x.core { k.keep x.rep with tie := k.tie || k.reports.isEmpty }
    | .idle => s
    | .stopped => s
    | _ => takeKept x.core (s.setCore x.core (k.keep x.rep))
  else s.onCtxCore x.launch x.core (·.keep x.rep)

/-- IMPRECISE_REPORT (R343). -/
def execImpreciseReport (flight : Nat) (s : State) : Host.Outcome State Fault Refusal :=
  agentStep (fun s =>
    match s.dom.reports.find? (·.id = flight) with
    | none => s
    | some x =>
      deliverReport x { s with dom := { s.dom with reports := s.dom.reports.filter (·.id != flight) } }) s

/-! ### Launch values and stops (R27, R39, R193, R345) -/

/-- The control registers at launch (R27). -/
def csrLaunch (priv win ymax : Nat) (seed : Dword) : Tbl Dword :=
  (((Core.csrReset.put 0x000 (BitVec.ofNat 64 priv)).put 0x001 (BitVec.ofNat 64 win)).put 0x002
    (BitVec.ofNat 64 ymax)).put 0x014 seed

/-- A stream at its entry. -/
def entryStream (entry : Nat) (t : Stream) : Stream :=
  { Stream.init with
    valid := true, pc := entry, slot := t.slot, latch := t.latch, clock := t.clock, fence := t.fence }

/-- The registers and states of R39 at their launch values; what persists over a core's iterations
stays (R179). -/
def Core.loaded (k : Core) (priv : Nat) (l : Launch) : Core :=
  let win := if l.nest.tt then 0 else l.nest.win
  { k with
    mode := .running, a := .empty, m := .empty, w := .empty, s := .empty, v := .empty, g := .empty
    csr := csrLaunch priv win l.code.ymax l.seed, lq := .empty, sq := .empty, tok := .empty, obAX := []
    obXA := [], group := [], agreed := 0, fork := none
    streams := (span 0 4).foldl (fun t e => t.put e (entryStream l.code.entry (k.stream e))) .empty }

/-- What a core carries from one context to the next: its caches, its releases and its store
sequences. (DEDUCED, log 12) -/
def Core.bare (k : Core) : Core :=
  { Core.init with
    owned := k.owned, releases := k.releases, nextId := k.nextId, tlb := k.tlb, trackers := k.trackers
    farVa := k.farVa, moves := k.moves }

/-- Core `c` is out of service for the rest of a launch; what it owns is released (R193, R345). -/
def stopCore (launch c : Nat) (s : State) : State :=
  let k := s.core c
  let mine := k.launch == launch || (k.served.map (·.launch)) == some launch
  let s := { s with dom := { s.dom with saved := s.dom.saved.erase (1024 * launch + c) } }
  if !mine || k.mode == .idle then s
  else
    let s := if k.launch = launch then s
      else { s with dom := { s.dom with launches := s.dom.launches.erase k.launch } }
    let s := clearRun c .stopped s
    let k := s.core c
    startRelease c 3 .none (s.setCore c { k with
      launch := launch, frame := none, served := none, reports := [], tie := false, mismatch := none
      preempt := none })

/-- Stop a launch with a code and its cause (R193), the supervisor flag (R345) and what else the report
names. -/
def stopWith (launch code cause : Nat) (sup : Bool) (info : List Nat) (s : State) : State :=
  let l := s.launch launch
  if l.status ≠ .running then s
  else l.cores.foldl (fun s c => stopCore launch c s)
    (s.setLaunch launch { l with status := .stopped code cause sup info })

/-- Stop a launch with a code and its cause (R193). -/
def stopLaunch (launch code cause : Nat) (s : State) : State := stopWith launch code cause false [] s

/-- Stop the launch of a core with E_FAULT, the FCODE of a frame, whether a supervisor context took it, and
the code of a `trap` or a `sysc` (R345, R394). -/
def stopFault (c : Nat) (f : Frame) (s : State) : State :=
  let k := s.core c
  stopWith ((k.served.map (·.launch)).getD k.launch) 0x42 f.fcode
    (f.priv != 0 || (s.launch k.launch).handler) (if f.fcode = 0x28 ∨ f.fcode = 0x29 then [f.faux0.toNat] else []) s

/-! ### Delivering a fault (R345, R346) -/

/-- The core on which a handler starts: launch values, a0 the save area, a1 FSTAT; the lease and the
scratchpad stay with the core (R346). (DEDUCED, log 12) -/
def handlerCore (k : Core) (f : Frame) (h : Nat) (hl : Launch) (area : Option Nat) (va : Dword)
    (now : Nat) : Core :=
  let x := { (k.bare) with
    launch := h, floor := now, stores := k.stores, lease := k.lease, spad := k.spad
    scr := k.scr, preempt := k.preempt, faultAt := k.faultAt, served := some ⟨f, k.launch, area⟩ }
  let x := x.loaded 1 hl
  { x with a := (x.a.put 0 va).put 1 (BitVec.ofNat 64 (fstat f)) }

/-- Start the supervisor handler on core `c` (R346). (DESIGN CHOICE, log 5; DEDUCED, log 13) -/
def startHandler (c : Nat) (f : Frame) (sup : Sup) (s : State) : State :=
  let k := s.core c
  let l := s.launch k.launch
  let x := s.ctx l.ctx
  let area := x.coreArea.get? c
  let h := s.dom.nextLaunch
  let hl : Launch :=
    { Launch.init with
      tid := l.tid, ctx := sup.ctx, cls := l.cls, code := sup.code, handler := true, seed := l.seed
      cores := [c], status := .running, nest := { Nest.init with scr := l.nest.scr } }
  let s := s.setCore c (s.core c).atBoundary
  let s := writeImage c f s
  let k := s.core c
  let key := 1024 * k.launch + c
  let s := { s with dom := { s.dom with
    nextLaunch := h + 1
    saved := s.dom.saved.put key { k with mode := k.back, frame := none } } }
  (s.setLaunch h hl).setCore c (handlerCore k f h hl area (x.coreVa.get 0 c) s.now)

/-- Deliver the fault of core `c` once it has settled, and the log has room for its image (R345, R346, R378). A context of supervisor level, or a
device without a supervisor, ends the launch (log 5). (DESIGN CHOICE, log 5) -/
def deliverFault (c : Nat) (s : State) : State :=
  let k := s.core c
  match k.mode, k.frame with
  | .faulted, some f =>
    if !k.settled then s
    else match s.sup with
      | some sup =>
        if f.priv ≠ 0 ∨ (s.launch k.launch).handler then
          stopFault c f s
        else if coreAreaRoom s k.launch c then startHandler c f sup s
        else s
      | none => stopFault c f s
  | _, _ => s

/-- FAULT_DELIVERY (R345, R346). -/
def execFaultDelivery (core : Nat) (s : State) : Host.Outcome State Fault Refusal :=
  agentStep (deliverFault core) s

/-! ### Waits that end (R306, R324) -/

/-- An `ldgs` has waited for HWAIT of its slot-times, and its tag is still not held (R306).
(DEDUCED, log 43) -/
def staleHalo (c : Nat) (s : State) : State :=
  let s' := s.at c 0
  let k := s.core c
  match fetchAt s'.cl.code s'.cs.bank s'.cs.pc with
  | some (.ldgs w) =>
    if k.mode = .running ∧ haloExpired s' ∧ !tagHeld w s' then takeFault { code := 0x1A } s' else s
  | _ => s

/-- STALE_HALO_TIMEOUT (R306). -/
def execStaleHaloTimeout (core : Nat) (s : State) : Host.Outcome State Fault Refusal :=
  agentStep (staleHalo core) s

/-- WAITC_TARGET_REACHED (R324). -/
def execWaitcTargetReached (core stream : Nat) (s : State) : Host.Outcome State Fault Refusal :=
  agentStep (fun s =>
    match ((s.core core).stream stream).hold with
    | .cycle target _ =>
      if (s.core core).mode = .running ∧ target ≤ s.clk.scyc then endHold (s.at core stream) else s
    | _ => s) s

/-! ### Leases (R182) -/

/-- The cores of a bed whose lease request waits and meets no conflict. -/
def grantable (s : State) (bed : Nat) : List Nat :=
  s.dom.cores.keys.filter fun c =>
    s.bedOf c == bed && (s.core c).mode == .running &&
    (match (s.core c).leaseWant with
     | some wide => !leaseConflict s c wide && !closeBefore s c wide
     | none => false)

/-- Grant the next waiting request in cyclic CRN order (R182). -/
def grantLease (bed : Nat) (s : State) : State :=
  match nextCrn (s.bed bed).lastGrant (grantable s bed) with
  | none => s
  | some c =>
    let k := s.core c
    (s.setCore c { k with lease := k.leaseWant, leaseWant := none }).setBed bed
      { s.bed bed with lastGrant := c % 8 }

/-- LEASE_GRANT (R182). -/
def execLeaseGrant (bed : Nat) (s : State) : Host.Outcome State Fault Refusal :=
  agentStep (grantLease bed) s

/-! ### Partials (R149, R368, R420) -/

/-- A partial arrives at its link, unless the slot is spilled (R368). -/
def arrivePartial (id : Nat) (s : State) : State :=
  match s.dom.partials.find? (·.id = id) with
  | none => s
  | some p =>
    let d := (s.chain p.launch p.die p.chain).desc
    match d.hops[p.hop]? with
    | none => s
    | some h =>
      if hopHeld s p.launch p.chain p.hop d h then
        landPartial p.launch p.die p.chain p
          { s with dom := { s.dom with partials := s.dom.partials.filter (·.id != id) } }
      else s

/-- PARTIAL_ARRIVAL (R149, R420). -/
def execPartialArrival (flight : Nat) (s : State) : Host.Outcome State Fault Refusal :=
  agentStep (arrivePartial flight) s

/-! ### Closes (R150, R152, R368, R382) -/

/-- A completion that no counted cycle observes. -/
def noCycle : Nat := 2 ^ 64

/-- Write one row of a tile. -/
def closeRow (launch : Nat) (q : CloseReq) (s : State) (r : Nat × List Byte) : State :=
  if q.mem then
    (cutData r.2 (blocksOf (subRuns q.runs (r.1 * q.pitch) r.2.length))).foldl
      (fun s x => ctxStore launch q.core 3 q.num noCycle q.begun none x s) s
  else ctxSpad launch q.core (q.addr + r.1 * q.pitch) r.2 s

/-- Some run of an engine lies in a page that is being moved: its accesses there wait (R263, R337). -/
def runsMove (s : State) (l : List Chunk) : Bool :=
  l.any fun c =>
    match c.place with
    | .home pa _ => underMove s pa
    | _ => false

/-- What core `c` of a launch takes of its own has room: a context that is saved has its areas in memory (R364,
R378). -/
def ctxRoom (s : State) (launch c : Nat) : Bool :=
  ((s.dom.saved.get? (1024 * launch + c)).isNone || coreAreaRoom s launch c) &&
  ((s.dom.savedBeds.get? (bedKey launch (s.bedOf c))).isNone || bedAreaRoom s launch (s.bedOf c))

/-- The writes of an operation of a view have room: the logs of the memory-side lines (R378), and the
egress buffer (R385). -/
def opRoom (s : State) (l : List Chunk) : Bool :=
  let fits := decide (egressFill s + ((l.filter fun c => outward s c.place).map (·.len)).sum ≤ 67108864)
  (blocksOf l).all fun c =>
    match c.place with
    | .home pa true => !logStall s (pa / 64)
    | .host _ => fits
    | .remote pa _ => s.inDomain (pkgBits pa) || fits
    | _ => true

/-- A close has completed: the core's close number, live or in its image (R152, R364). -/
def noteClose (launch c n : Nat) (s : State) : State :=
  let s := s.onCtxCore launch c fun k => { k with closeNum := n }
  if (s.core c).launch = launch then s
  else match s.dom.saved.get? (1024 * launch + c), s.areaOf launch c with
    | some _, some a => publishRun (a + 0x488) (toBytes 8 n) s
    | _, _ => s

/-- The close of chain entry `ch` (32 · die + chain) of a launch, if it is due (R150, R152).
(DESIGN CHOICE, log 97) -/
def doClose (launch ch : Nat) (s : State) : State :=
  let die := ch / 32
  let n := ch % 32
  let x := s.chain launch die n
  let d := x.desc
  let last := d.hops.length - 1
  match x.state == 2, x.close, d.hops[last]? with
  | true, some q, some h =>
    let k := (hopLinks s d h).headD .init
    let next := (s.ctxCore launch q.core).closeNum + 1
    if hopHeld s launch n last d h && k.state == 4 && q.num == next && !s.clk.hold && ctxRoom s launch q.core &&
        (!q.mem || (opRoom s q.runs && !runsMove s q.runs)) then
      let t := closeTile s d h q
      let s := (t.1.zipIdx.map fun r => (r.2, r.1)).foldl (closeRow launch q) s
      let s := setChain launch n { x with state := 3, close := none, flags := BitVec.ofNat 5 t.2 } s
      completeNumber launch q.core 3 q.num
        (noteClose launch q.core q.num (unbind launch d (idleLinks launch n d s)))
    else s
  | _, _, _ => s

/-- CLOSE (R150, R152). -/
def execClose (launch ch : Nat) (s : State) : Host.Outcome State Fault Refusal :=
  agentStep (doClose launch ch) s

/-! ### Failing links (R369, R370) -/

/-- Report an imprecise fault to the core of a context (R343). -/
def reportTo (c launch : Nat) (r : Report) (s : State) : State :=
  { s with dom := { s.dom with
    reports := s.dom.reports ++ [⟨s.dom.nextId, c, launch, r⟩], nextId := s.dom.nextId + 1 } }

/-- An uncorrectable error in a link slot: the link fails, its chain freezes, and the builder of the
chain is told (R370). An idle slot holds nothing to lose. -/
def failLink (bed slot : Nat) (s : State) : State :=
  let y := s.link bed slot
  let die := bed / 16
  let x := s.chain y.launch die y.chain
  if y.state = 0 then s
  else
    let s := setLink bed slot { y with state := 6 } s
    let s := freezeChain y.launch die y.chain s
    reportTo x.builder y.launch ⟨0x26, 0, BitVec.ofNat 64 (y.chain + 32 * y.hop), 0, 0, 0⟩ s

/-- LINK_FAILURE (R370). -/
def execLinkFailure (bed slot : Nat) (s : State) : Host.Outcome State Fault Refusal :=
  agentStep (failLink bed slot) s

end Sys2Proof.Machine
end

