-- ==== Sys2Proof/Machine/LaunchEvents.lean ====
section
/-!
DEFINITION. Launches on their cores: the rake, the end of a launch, pre-emption and resumption, global
stalls and bounds (R178 to R181, R186 to R188, R193, R215, R356, R362 to R365).
-/

namespace Sys2Proof.Machine

open Sys2Proof

/-! ### The iterations of a record (R178, R179) -/

/-- The levels of a record, outermost first. -/
def Nest.order (n : Nest) : List Nat :=
  (span 0 n.depth).map fun i => ((span 0 n.depth).find? fun l => (n.ord[l]?).getD 0 == i).getD 0

/-- The trip count of a level. -/
def Nest.trips (n : Nest) (l : Nat) : Nat := (n.count[l]?).getD 1

/-- The number of iterations of a record. -/
def Nest.total (n : Nest) : Nat := (span 0 n.depth).foldl (fun t l => t * n.trips l) 1

/-- The positions n[l] of iteration `i` over levels given outermost first; `outer` says that the next one
is the outermost (R178). -/
def positions (n : Nest) (i : Nat) : Bool → List Nat → List (Nat × Nat)
  | _, [] => []
  | outer, l :: r =>
    let inner := r.foldl (fun t x => t * n.trips x) 1
    let c := n.trips l
    let d := i / inner % c
    let back := n.serp && !outer && i / (inner * c) % 2 == 1
    (l, if back then c - 1 - d else d) :: positions n i false r

/-- The value of ix_l in iteration `i`: START + n · STEP, wrapping (R178); START alone at a level without
a loop (R176). -/
def ixValue (n : Nest) (i l : Nat) : Dword :=
  let start := (n.start[l]?).getD 0
  match (positions n i true n.order).find? fun x => x.1 = l with
  | some x => start + BitVec.ofNat 64 x.2 * ((n.step[l]?).getD 0).signExtend 64
  | none => start

/-- ix0 to ix3 of iteration `i`; in timetabled mode every level stands at its START (R187). -/
def ixTable (n : Nest) (i : Nat) : Tbl Dword :=
  (span 0 4).foldl (fun t l =>
    t.put l (if n.tt then (n.start[l]?).getD 0 else ixValue n i l)) .empty

/-! ### Claiming cores and beds (R190, R215, R362) -/

/-- The beds on which a launch has a participating core. -/
def launchBeds (s : State) (l : Launch) : List Nat := l.cores.foldl (fun r c => insertN (s.bedOf c) r) []

/-- A launch stands before another for shared beds: a higher class, or accepted earlier (R190). -/
def before (a : Nat) (x : Launch) (b : Nat) (y : Launch) : Bool :=
  decide (x.cls < y.cls) || (x.cls == y.cls && decide (a < b))

/-- A launch still has a claim on its beds. -/
def Launch.claims (l : Launch) : Bool := !l.closed && !l.handler

/-- Two launches share a bed. -/
def shareBed (s : State) (x y : Launch) : Bool :=
  (launchBeds s x).any fun b => (launchBeds s y).any (· == b)

/-- A bed is free for a launch: every core on it is idle or the launch's own, and no launch that stands
before it claims the bed (R190, R362). -/
def bedFree (s : State) (n : Nat) (l : Launch) (b : Nat) : Bool :=
  (s.dom.cores.keys.all fun c => s.bedOf c != b || (s.core c).mode == .idle || s.holdsCtx n c) &&
  s.dom.launches.entries.all fun e =>
    e.1 == n || !e.2.claims || !((launchBeds s e.2).any (· == b)) || !before e.1 e.2 n l

/-- Every bed of a launch is free for it. -/
def bedsFree (s : State) (n : Nat) (l : Launch) : Bool := (launchBeds s l).all (bedFree s n l)

/-! ### Loading (R27, R39, R179, R215) -/

/-- A context that has started and not ended, other than the one of `l`, has a core on the bed: it was
pre-empted there. (DEDUCED, log 14) -/
def strandedOn (s : State) (l : Launch) (b : Nat) : Bool :=
  s.dom.launches.vals.any fun x =>
    x.claims && decide (0 < x.handed) && x.ctx != l.ctx && (launchBeds s x).any (· == b)

/-- The beds of a launch before its first slot: the stores are zero and the arrays have their launch
values (R136, R215); the banks stay in place under their tags where a pre-empted context has its own
(R366). (DEDUCED, log 14) -/
def clearBeds (s : State) (l : Launch) : State :=
  (launchBeds s l).foldl (fun s b =>
    let x := s.bed b
    s.setBed b { x with
      store := [], marks := .empty, turn := none, turnCount := 0, waiting := []
      banks := if strandedOn s l b then x.banks else .empty }) s

/-- A core that joins a launch: nothing of an earlier context is left (R27, R215).
(DEDUCED, log 12) -/
def joinLaunch (s : State) (n : Nat) (l : Launch) (c : Nat) : Core :=
  { (s.core c).bare with launch := n, scr := l.nest.scr, floor := s.now }

/-- Load core `c` for iteration `i` (R179). -/
def loadIteration (n i : Nat) (s : State) (c : Nat) : State :=
  let l := s.launch n
  s.setCore c { ((s.core c).loaded 0 l) with ix := ixTable l.nest i, iter := i, iterStart := s.clk.scyc }

/-- The start of a launch: its beds have their launch values and every participating core is free (R179,
R215). -/
def startLaunch (n : Nat) (s : State) : State :=
  let l := s.launch n
  l.cores.foldl (fun s c => s.setCore c { joinLaunch s n l c with mode := .free }) (clearBeds s l)

/-- The core has no iteration and may be handed one (R179): its bed is free for the launch (R190). -/
def freeFor (s : State) (n c : Nat) : Bool :=
  (s.core c).mode == .free && (s.core c).launch == n && bedFree s n (s.launch n) (s.bedOf c)

/-- The free core that follows the last one served in cyclic order (R179). -/
def nextFree (s : State) (n : Nat) (l : Launch) : Option Nat :=
  let free := l.cores.filter (freeFor s n)
  match l.lastServed with
  | none => free.min?
  | some d =>
    match (free.filter (d < ·)).min? with
    | some c => some c
    | none => free.min?

/-- Hand out the next iteration, or start every core of a timetabled launch (R179, R187). A launch starts
when all its beds are free; a core that is free then waits for no bed but its own (R181). -/
def handOut (n : Nat) (s : State) : State :=
  let l := s.launch n
  if l.status ≠ .running ∨ l.handler ∨ l.total ≤ l.handed ∨ sealing s ∨
      (l.handed = 0 ∧ !bedsFree s n l) then s
  else
    let s := if l.handed = 0 then startLaunch n s else s
    if l.nest.tt then
      let s := s.setLaunch n { l with handed := l.total, startCycle := s.clk.scyc }
      l.cores.foldl (loadIteration n 0) s
    else match nextFree s n l with
      | none => s
      | some c =>
        loadIteration n l.handed
          (s.setLaunch n { l with handed := l.handed + 1, lastServed := some c }) c

/-- RAKE_HANDOUT (R178, R179, R187). -/
def execRakeHandout (launch : Nat) (s : State) : Host.Outcome State Fault Refusal :=
  agentStep (handOut launch) s

/-! ### The end of a launch (R136, R148, R180, R223) -/

/-- Every operation of a core's views has completed (R180, R292). (DEDUCED, log 21) -/
def viewsDone (k : Core) : Bool :=
  (span 0 8).all fun v => k.tlIssued.get 0 v == k.tlDone.get 0 v

/-- Every operation of the views of a launch's core has completed, wherever the core stands (R180, R292). -/
def coreViewsDone (s : State) (n c : Nat) : Bool :=
  ((s.core c).launch != n && (s.dom.saved.get? (1024 * n + c)).isNone) || viewsDone (s.ctxCore n c)

/-- Operations of a launch are still with an engine. (DEDUCED, log 21) -/
def opsOpen (s : State) (n : Nat) : Bool :=
  (s.dom.dies.vals.any fun d =>
    (d.copies.any (·.launch == n)) || (d.reductions.any (·.launch == n)) ||
    (d.held.any (·.launch == n)) || (d.input.any (·.launch == n))) ||
  (s.dom.contribs.any (·.launch == n)) || (s.dom.fills.any (·.launch == n)) ||
  (s.dom.transplants.any (·.launch == n))

/-- A fault of a launch is still to be told or served: a report on its way, a core that has taken one, or a
multicast that a member may yet refuse (R180, R343, R461, R471).
(DEDUCED, log 21; DEDUCED, log 44) -/
def faultsOpen (s : State) (n : Nat) (l : Launch) : Bool :=
  s.dom.reports.any (·.launch == n) || s.fab.sent.any (fun p => p.typ == 6 && p.launch == n) ||
  l.cores.any fun c =>
    ((s.core c).launch == n && (s.core c).mode == .faulted) || ((s.core c).served.map (·.launch)) == some n

/-- The cores that a launch holds. -/
def heldCores (s : State) (n : Nat) (l : Launch) : List Nat :=
  l.cores.filter fun c => (s.core c).launch == n && (s.core c).mode != .idle

/-- Begin the releases of the end of a launch: the completions of its operations are observed (R180). -/
def endRelease (s : State) (c : Nat) : State :=
  startRelease c 3 .none (observe c (fun _ => true) s)

/-- A core that a launch gives back: its scratchpad stands until the next launch there (R215). -/
def Core.givenBack (k : Core) : Core := { k.bare with launch := 0, spad := k.spad, scr := k.scr }

/-- Give back what a launch held: its cores, link slots, streams, ways and the reduction targets that it opened
(R148, R223, R277); its banks and slots stay under their tags (R366, R408), and the scratchpads and bed stores as
they are (R215). (DEDUCED, log 14; DEDUCED, log 29; DEDUCED, log 45; DEDUCED, log 121) -/
def closeLaunch (n : Nat) (s : State) : State :=
  let l := s.launch n
  let s := (heldCores s n l).foldl (fun s c => s.setCore c (s.core c).givenBack) s
  let d := s.dom
  let beds := d.beds.mapVals fun _ b => { b with
    links := b.links.mapVals fun _ x =>
      if x.owner = l.ctx then { Link.init with owner := l.ctx } else x }
  let dies := d.dies.mapVals fun _ x => { x with
    tstreams := x.tstreams.filter fun k _ => k / 32 != n
    targets := x.targets.filter fun a _ => x.openers.get 0 a != n
    openers := x.openers.filter fun _ m => m != n }
  { s with dom := { d with
    beds := beds, dies := dies
    launches := d.launches.put n { l with
      closed := true, ways := .empty, dieStore := .empty, chains := .empty, grids := .empty }
    partials := d.partials.filter (·.launch != n), sevs := d.sevs.filter (·.launch != n)
    reports := d.reports.filter (·.launch != n)
    saved := d.saved.filter fun k _ => k / 1024 != n
    savedBeds := d.savedBeds.filter fun k _ => k / 128 != n
    rounds := d.rounds.filter (·.launch != n) } }

/-- The end of a launch: its last releases begin, and when they have completed it is over (R180, R193).
(DEDUCED, log 21) -/
def endLaunch (n : Nat) (s : State) : State :=
  let l := s.launch n
  let quiet := (heldCores s n l).all fun c => (s.core c).releases.isEmpty
  if l.closed ∨ l.handler then s
  else match l.status with
    | .running =>
      if l.ended < l.total ∨ opsOpen s n ∨ faultsOpen s n l ∨ !l.cores.all (coreViewsDone s n) then s
      else if !l.lastRelease then
        (heldCores s n l).foldl endRelease (s.setLaunch n { l with lastRelease := true })
      else if quiet then closeLaunch n (s.setLaunch n { l with status := .completed })
      else s
    | _ => if quiet && !opsOpen s n then closeLaunch n s else s

/-- LAUNCH_COMPLETE (R180). -/
def execLaunchComplete (launch : Nat) (s : State) : Host.Outcome State Fault Refusal :=
  agentStep (endLaunch launch) s

/-! ### Pre-emption (R362 to R365) -/

/-- The header of a pre-emption image (R352, R362). -/
def preemptFrame (k : Core) (failed : Nat) : Frame :=
  { fcode := 0, fstr := 15, prec := false, fork := k.forked, priv := (k.csrN 0).toNat, repn := 0,
    aux := 0, kind := 1, deferred := failed, ovf := k.reportOvf, mfa := 0, mfb := 0, faux0 := 0,
    faux1 := 0 }

/-- Save the bed store of a launch, and the tags of its banks, once every core of it on the bed has saved
(R362). The 256 bytes of the tags have no stated layout: they are free (log 25), and the tags and source
records stand in the bed and the context. (DEDUCED, log 25) -/
def saveBed (n bed : Nat) (s : State) : State :=
  let l := s.launch n
  let left := l.cores.any fun c => s.bedOf c == bed && s.holdsCtx n c
  if left then s
  else
    let x := s.bed bed
    let s := { s with dom := { s.dom with savedBeds := s.dom.savedBeds.put (bedKey n bed) x } }
    match (s.ctx l.ctx).bedArea.get? bed with
    | some a =>
      let tags := toBytes 256 (Config.freeValue s.draws).toNat
      writeParts a [(0, memRead x.store 0 2097152), (2097152, tags)] { s with draws := s.draws + 1 }
    | none => s

/-- Save core `c` for a pre-emption (R362): its leases are freed and recorded in the image.
(DEDUCED, log 13) -/
def saveCore (c : Nat) (s : State) : State :=
  let k := (s.core c).atBoundary
  let s := s.setCore c k
  let n := k.launch
  let failed := (k.preempt.map (·.failed)).getD 0
  let s := writeImage c (preemptFrame k failed) s
  let saved := { k with preempt := none, deferred := 0, iterStart := s.clk.scyc - k.iterStart }
  let s := dropLease c s
  let s := s.setCore c { (s.core c).bare with launch := 0 }
  saveBed n (s.bedOf c)
    { s with dom := { s.dom with saved := s.dom.saved.put (1024 * n + c) saved } }

/-- The eight token counts are zero. -/
def tokensZero (k : Core) : Bool := (span 0 8).all fun q => (k.tokens q).isEmpty

/-- The stream waits inside the core, which has not come further since (R362). -/
def Stream.inside (k : Core) (t : Stream) : Bool :=
  decide (1 ≤ t.wait) && decide (t.wait ≤ 4) && (t.waitAt == k.moves || t.waitAt == aliasMark + k.moves)

/-- Every stream that is not at a yield point waits inside the core, and one does (R362). -/
def waitsInside (k : Core) : Bool :=
  let ts := (k.inUse.map k.stream).filter fun t => !t.atYield
  !ts.isEmpty && ts.all (·.inside k)

/-- The words that a stream of a core has issued. -/
def wordsOf (k : Core) (e : Nat) : Nat := (k.stream e).clock.of (engOf e)

/-- The words that every stream of a core has issued. -/
def wordMarks (k : Core) : List (Nat × Nat) := k.inUse.map fun e => (e, wordsOf k e)

/-- A stream has issued no word since it was marked, and may yet issue one: it is not at a wait that is a
yield point, and has not ended (R360, R362). -/
def behindMark (k : Core) (m : Nat × Nat) : Bool :=
  let t := k.stream m.1
  t.valid && !t.joinb && !([5, 6, 7, 9, 10].any (· == t.wait)) && wordsOf k m.1 == m.2

/-- A new attempt begins: since the last one every stream has issued a word, but one that waits inside the core,
which has come further; in joint sequencing the core has, which has one program counter (R362). -/
def newAttempt (joint : Bool) (k : Core) (p : Preempt) : Bool :=
  if joint then p.marks.isEmpty || wordMarks k != p.marks || (k.inUse.map k.stream).any (·.holdsUp false)
  else !(p.marks.any fun m => behindMark k m && !(k.moves != p.moves && (k.stream m.1).inside k))

/-- A failed attempt: the streams issue on, each past a word at least; the third takes the yield-mark
fault (R362). -/
def failAttempt (c failed : Nat) (s : State) : State :=
  let k := s.core c
  let k := { k with streams := k.streams.mapVals fun _ t => { t with yielded := false } }
  if 2 ≤ failed then
    let k := { k with deferred := 0, preempt := some ⟨0, k.moves, wordMarks k⟩ }
    let f : Frame := { preemptFrame k 3 with fcode := 0x1F, prec := true, kind := 0 }
    s.setCore c { k with frame := some f, mode := .faulted, faultAt := s.clk.wcyc, back := .running }
  else s.setCore c { k with preempt := some ⟨failed + 1, k.moves, wordMarks k⟩, deferred := failed + 1 }

/-- A close of core `c` has every contribution of its chain: it is performed without a word of any core more (R149,
R150). -/
def closeComing (s : State) (c : Nat) : Bool :=
  let n := (s.core c).launch
  (s.launch n).chains.entries.any fun e =>
    e.1 / 32 == s.dieOf c && e.2.state == 2 && (e.2.close.map (·.core)) == some c &&
    e.2.desc.hops.zipIdx.all fun h =>
      hopHeld s n (e.1 % 32) h.2 e.2.desc h.1 && (hopLinks s e.2.desc h.1).all fun x => x.rem == 0 && x.state != 6

/-- The log has room for the images of core `c` and of its bed (R378). -/
def saveRoom (s : State) (c : Nat) : Bool :=
  coreAreaRoom s (s.core c).launch c && bedAreaRoom s (s.core c).launch (s.bedOf c)

/-- A core between iterations, or that has halted, saves as soon as the array has performed the closes that it
waits for (R145, R362, R409). (DEDUCED, log 13) -/
def saveResting (c : Nat) (s : State) : State := if closeComing s c || !saveRoom s c then s else saveCore c s

/-- One attempt to pre-empt core `c` (R362). One that serves a fault goes on with its handler first (R372). -/
def tryPreempt (c : Nat) (s : State) : State :=
  let k := s.core c
  match k.preempt with
  | none => s
  | some p =>
    if sealing s || (s.launch k.launch).handler then s
    else match k.mode with
      | .running =>
        if !newAttempt (s.seqn c == .joint) k p then s
        else if s.quiet c false then
          if !tokensZero k then failAttempt c p.failed s
          else if k.settled && saveRoom s c then saveCore c s
          else s
        else if waitsInside k then failAttempt c p.failed s
        else s
      | .free => saveResting c s
      | .halted => saveResting c s
      | _ => s

/-- PREEMPTION_REQUEST (R362): what was requested at admission comes about on one core. -/
def execPreemptionRequest (core : Nat) (s : State) : Host.Outcome State Fault Refusal :=
  agentStep (tryPreempt core) s

/-- The launch, of those saved on core `c`, that resumes first (R190, R364). -/
def nextSaved (s : State) (c : Nat) : Option Nat :=
  let l := (s.dom.saved.keys.filter fun k => k % 1024 == c).map (· / 1024)
  l.find? fun n => l.all fun m => m == n || before n (s.launch n) m (s.launch m)

/-- Put back the bed store of a launch (R362, R364). -/
def restoreBed (n bed : Nat) (s : State) : State :=
  match s.dom.savedBeds.get? (bedKey n bed) with
  | none => s
  | some x =>
    let store := match (s.ctx (s.launch n).ctx).bedArea.get? bed with
      | some a => (atAddr 0 (memRead s.mem a 2097152)).foldl (fun m e => memPut m e.1 e.2) []
      | none => x.store
    let s := s.setBed bed { s.bed bed with
      store := store, marks := x.marks, turn := none, turnCount := 0, waiting := [] }
    { s with dom := { s.dom with savedBeds := s.dom.savedBeds.erase (bedKey n bed) } }

/-- The lease that an image records meets a conflict: the resumption waits (R356). -/
def leaseWaits (s : State) (n c : Nat) : Bool :=
  match imageLease s n c (s.areaOf n c) with
  | some wide => leaseConflict s c wide
  | none => false

/-- Resume the saved context of core `c` when its beds are free (R356, R364). -/
def resumeSaved (c : Nat) (s : State) : State :=
  match nextSaved s c with
  | none => s
  | some n =>
    let l := s.launch n
    if (s.core c).mode ≠ .idle ∨ sealing s ∨ !bedsFree s n l ∨ leaseWaits s n c then s
    else
      let s := restoreBed n (s.bedOf c) s
      let k := restoredCore s n c (s.areaOf n c) 15
      takeKept c (resumeCore n c { k with launch := n, preempt := none, iterStart := s.clk.scyc - k.iterStart } s)

/-- PREEMPT_RESUME (R364). -/
def execPreemptResume (core : Nat) (s : State) : Host.Outcome State Fault Refusal :=
  agentStep (resumeSaved core) s

/-! ### Stalls and bounds (R188, R191, R193) -/

/-- GLOBAL_STALL (R188): SCYC stands still for that many cycles. -/
def execGlobalStall (cycles : Nat) (s : State) : Host.Outcome State Fault Refusal :=
  agentStep (fun s => { s with clk := { s.clk with stall := s.clk.stall + cycles } }) s

/-- W′ of R191: the work, with every stall that R188 allows. (DEDUCED, log 72) -/
def withStalls (w : Nat) : Nat := ceilDiv (17 * w) 16 + 4096

/-- The global stall cycles exceed the limit of R188. (DEDUCED, log 72) -/
def stallsOver (l : Launch) : Bool := decide (withStalls l.work - l.work < l.stalls)

/-- The time in faults and traps has used up the margin between the work and the bound. -/
def faultsOver (l : Launch) : Bool := decide (l.bound - withStalls l.work < l.faultTime)

/-- Stop a launch whose bound has elapsed, or that meets its cause first (R193).
(DESIGN CHOICE, log 95) -/
def expireBound (n : Nat) (s : State) : State :=
  let l := s.launch n
  let late := decide (l.accepted + l.bound ≤ s.clk.wcyc)
  if l.status ≠ .running ∨ l.handler then s
  else if stallsOver l then stopLaunch n 0x40 2 s
  else if late || faultsOver l then stopLaunch n 0x40 3 s
  else s

/-- BOUND_EXPIRY (R193). -/
def execBoundExpiry (launch : Nat) (s : State) : Host.Outcome State Fault Refusal :=
  agentStep (expireBound launch) s

/-- Stop the launch of an iteration that ran more than ITB schedule cycles (R193).
(DEDUCED, log 45) -/
def expireIter (c : Nat) (s : State) : State :=
  let k := s.core c
  let n := (k.served.map (·.launch)).getD k.launch
  let l := s.launch n
  let from_ := (s.ctxCore n c).iterStart
  if l.status = .running ∧ !l.nest.tt ∧ (k.mode = .running ∨ k.mode = .faulted) ∧
      l.nest.itb < s.clk.scyc - from_ then stopLaunch n 0x40 1 s
  else s

/-- ITER_BOUND_EXPIRY (R193). -/
def execIterBoundExpiry (core : Nat) (s : State) : Host.Outcome State Fault Refusal :=
  agentStep (expireIter core) s

end Sys2Proof.Machine
end

