-- ==== Sys2Proof/Machine/EngineEvents.lean ====
section
/-!
DEFINITION. Steps of the asynchronous engines: the barrow, remote arrivals, the hedge, the reduction
engines, page transplants, and the control blocks and slots of rings and streams (R217 to R219, R257,
R294 to R299, R302 to R317, R413 to R424).
-/

namespace Sys2Proof.Machine

open Sys2Proof

/-! ### Acceptance of copies (R296) -/

/-- The channel intervals in use on a die: channel, first cycle, cycle after the last. -/
def busyChannels (d : Die) : List (Nat × Nat × Nat) :=
  d.copies.filterMap fun c => c.start.map fun x => (x.2, x.1, x.1 + c.dur)

/-- The lowest channel that is free throughout [lo, lo + n). -/
def freeChannel (l : List (Nat × Nat × Nat)) (lo n : Nat) : Option Nat :=
  (span 0 4).find? fun ch => !(l.any fun b => b.1 == ch && decide (b.2.1 < lo + n) && decide (lo < b.2.2))

/-- The start cycle and the channel of a copy asked for at cycle `lo` (R296): then, or as soon after it as
a channel is free. -/
def startOf (l : List (Nat × Nat × Nat)) (lo n : Nat) : Nat × Nat :=
  let starts := (lo :: (l.map (·.2.2)).filter (lo < ·)).filter fun x => (freeChannel l x n).isSome
  let s := starts.min?.getD lo
  (s, (freeChannel l s n).getD 0)

/-- A copy reached the barrow before another (R296). -/
def Copy.before (x y : Copy) : Bool :=
  decide (x.since < y.since) || (x.since == y.since &&
    (decide (x.core < y.core) || (x.core == y.core && decide (x.entry < y.entry))))

/-- The copy that a barrow accepts next: those that reached it in one cycle go in order of their cores. -/
def nextCopy (s : State) (d : Die) : Option Copy :=
  let l := d.copies.filter fun c => c.start.isNone && decide (c.since < s.clk.wcyc)
  l.find? fun c => l.all fun x => x.entry == c.entry || c.before x

/-- Replace a copy of a die. -/
def putCopy (die : Nat) (c : Copy) (s : State) : State :=
  s.setDie die { s.die die with
    copies := (s.die die).copies.map fun x => if x.entry = c.entry then c else x }

/-- The completion cycle of a copy is fixed: `btq` returns it from now on (R297, R323). -/
def noteCycle (c : Copy) (cyc : Nat) (s : State) : State :=
  let held := s.savedCtx c.launch c.core
  let s := s.onCtxCore c.launch c.core fun k => { k with
    copies := k.copies.put c.view ((k.copies.get [] c.view).map fun r =>
      if r.num = c.num then { r with done := some cyc } else r) }
  match held, s.areaOf c.launch c.core, copyViews.findIdx? (· == c.view) with
  | true, some a, some i => publishRun (a + 0x1480 + 512 * i + 8 * (c.num % 64)) (toBytes 8 cyc) s
  | _, _, _ => s

/-- Accept the next copy of a die (R296). -/
def acceptCopy (die : Nat) (s : State) : State :=
  match nextCopy s (s.die die) with
  | none => s
  | some c =>
    let x := startOf (busyChannels (s.die die)) (Nat.max c.cyc (s.clk.scyc + 1)) c.dur
    noteCycle c (x.1 + c.dur) (putCopy die { c with start := some x } s)

/-- COPY_ACCEPT (R296). -/
def execCopyAccept (die : Nat) (s : State) : Host.Outcome State Fault Refusal :=
  agentStep (acceptCopy die) s

/-! ### The blocks of a copy (R257, R258, R298, R299, R315) -/

/-- Bytes of a run as a load of the issuing core returns them (R248, R298): where the core has written and
not published a block, its value or the published one. (DEDUCED, log 46) -/
def copyRead (c : Copy) (x : Chunk) (s : State) : List Byte × State :=
  match x.place with
  | .home pa ms =>
    let k := s.core c.core
    let live := k.launch == c.launch
    let mine := !ms && (span pa x.len).any fun a => (k.ownByte a).isSome
    let d := s.drawN (if mine then 2 else 1)
    let t := if ms then (d.2.now, d.2) else drawIn (if live then k.floor else d.2.now) d.2.now d.2
    let data := (span pa x.len).map fun a =>
      match (if d.1 = 0 && !ms then k.ownByte a else none) with
      | some b => b
      | none =>
        match (if live && !ms && d.1 = 0 then k.near.get? a else none) with
        | some b => b
        | none => valueAt t.2 a t.1
    (data, t.2)
  | p => (ctxRead s c.launch c.core p x.len, s)

/-- Bytes of the runs of a block. -/
def copyReads (c : Copy) : List Chunk → State → List Byte × State
  | [], s => ([], s)
  | x :: r, s =>
    let a := copyRead c x s
    let b := copyReads c r a.2
    (a.1 ++ b.1, b.2)

/-- Read block `i` of a copy. (DEDUCED, log 46) -/
def readBlock (die i : Nat) (c : Copy) (s : State) : State :=
  let r := copyReads c (subRuns c.src (64 * i) 64) s
  putCopy die { c with got := c.got.put i r.1 } r.2

/-- The place of a barrier from its name. -/
def barOfName (x : Nat × Nat) : Place := if x.1 = 0 then .spad x.2 else .bedStore x.2

/-- A transfer unit has landed: the sector count falls, or the barrier-count fault is reported
(R299, R315). -/
def landSector (c : Copy) (s : State) : State :=
  match c.bar with
  | none => s
  | some b =>
    let p := barOfName b
    match barSectors c.tag (-1) (barOf (ctxRead s c.launch c.core p 16)) with
    | some x => ctxWrite c.launch c.core p (barBytes x) s
    | none => reportTo c.core c.launch ⟨0x16, 0, 0, 0, 0, 0⟩ s

/-- Bytes that the core owns and has not published are given up. -/
def Core.dropOwned (gone : Nat → Bool) (k : Core) : Core :=
  { k with
    owned := k.owned.filter fun a _ => !gone a
    releases := k.releases.map fun r => { r with bytes := r.bytes.filter fun a _ => !gone a } }

/-- Data that is written over bytes of core `c` at their home: what the core owned of them, and has not stored since
it had come a number of slots, is gone, and it sees the data (R257, R258). -/
def landOver (launch c begun pa : Nat) (data : List Byte) (s : State) : State :=
  let k := s.core c
  let l := (atAddr pa data).filter fun e => !k.wroteAfter begun e.1
  let k := k.dropOwned fun a => l.any (·.1 == a)
  s.setCore c (if k.launch = launch then k.keepNear l else k)

/-- Write one run of a block: at once where a barrier of the bed counts it (R258), else for the core to
observe (R257). -/
def writeRun (c : Copy) (cyc : Nat) (s : State) (x : Chunk × List Byte) : State :=
  match x.1.place, c.bar with
  | .home pa ms, some (1, _) =>
    let s := publishRun pa x.2 s
    if ms then s else landOver c.launch c.core c.begun pa x.2 s
  | _, _ => ctxStore c.launch c.core c.view c.num cyc c.begun c.bar x s

/-- Write block `i` of a copy, which has been read. -/
def writeBlock (die i cyc : Nat) (c : Copy) (data : List Byte) (s : State) : State :=
  let s := putCopy die { c with got := c.got.erase i, written := insertN i c.written } s
  landSector c ((cutData data (subRuns c.dst (64 * i) 64)).foldl (writeRun c cyc) s)

/-- The local-range fault of an engine: the access and its local address (R237, R238).
(DEDUCED, log 85) -/
def rangeReport (acc a : Nat) : Report := ⟨0x11, 0, 0, 0, mfaWord 0 0 15 acc 7, BitVec.ofNat 64 a⟩

/-- A run of a copy that reaches above the grant of its die store as it stands: the local address that it takes
(R223, R238). -/
def aboveGrant (s : State) (c : Copy) (l : List Chunk) : Option Nat :=
  l.findSome? fun x =>
    match x.place with
    | .dieStore o =>
      if (s.launch c.launch).ways.get 0 (s.dieOf c.core) * 8388608 < o + x.len then some (2 ^ 63 + o) else none
    | _ => none

/-- A block of a copy that reaches above the grant is not moved: the core is told once for the copy, and the barrier
counts the block (R238). (DEDUCED, log 85) -/
def dropBlock (die i acc a : Nat) (c : Copy) (s : State) : State :=
  let s := putCopy die { c with got := c.got.erase i, written := insertN i c.written, cut := true } s
  landSector c (if c.cut then s else reportTo c.core c.launch (rangeReport acc a) s)

/-- A block of a copy may be written: there is room in the logs and in the egress buffer (R378, R385), or a
seal waits for the end of the block (R382). -/
def blockRoom (s : State) (c : Copy) (l : List Chunk) : Bool :=
  sealing s || (opRoom s l && ctxRoom s c.launch c.core &&
    (match c.bar with
     | some (1, _) => l.all fun x =>
        match x.place with
        | .home pa _ => !logStall s (pa / 64)
        | _ => true
     | _ => true))

/-- The barrow moves block `i` of an accepted copy on: it reads it, or writes it once read. It holds with
SCYC at a block boundary (R297, R382), and while a page is moved (R263). (DEDUCED, log 46) -/
def moveBlock (die entry i : Nat) (s : State) : State :=
  match (s.die die).copies.find? (·.entry = entry) with
  | none => s
  | some c =>
    match c.start with
    | none => s
    | some (st, _) =>
      let dst := subRuns c.dst (64 * i) 64
      if s.clk.scyc < st ∨ c.len / 64 ≤ i ∨ c.written.any (· == i) then s
      else match c.got.get? i with
        | none =>
          let src := subRuns c.src (64 * i) 64
          if s.clk.hold || runsMove s src then s
          else match aboveGrant s c src with
            | some a => dropBlock die i 0 a c s
            | none => readBlock die i c s
        | some d =>
          if runsMove s dst || !blockRoom s c dst then s
          else match aboveGrant s c dst with
            | some a => dropBlock die i 1 a c s
            | none => writeBlock die i (st + c.dur) c d s

/-- Finish block `i` of a copy. (DEDUCED, log 46) -/
def endBlock (die entry i : Nat) (s : State) : State :=
  moveBlock die entry i (moveBlock die entry i s)

/-- Every block of a copy is written. -/
def copyWritten (s : State) (die entry : Nat) : Bool :=
  ((s.die die).copies.find? (·.entry = entry)).any fun c =>
    (span 0 (c.len / 64)).all fun i => c.written.any (· == i)

/-- A copy completes once SCYC has reached S + T (R297) and its writes have found room (R378): every block is
written, its entry is free, and its view counts it. -/
def completeCopy (die entry : Nat) (s : State) : State :=
  match (s.die die).copies.find? (·.entry = entry) with
  | none => s
  | some c =>
    match c.start with
    | none => s
    | some (st, _) =>
      if s.clk.hold ∨ s.clk.scyc < st + c.dur then s
      else
        let s := (span 0 (c.len / 64)).foldl (fun s i => endBlock die entry i s) s
        if !copyWritten s die entry then s
        else
          completeNumber c.launch c.core c.view c.num (s.setDie die { s.die die with
            copies := (s.die die).copies.filter (·.entry != entry) })

/-- COPY_COMPLETE (R297, R299). -/
def execCopyComplete (die entry : Nat) (s : State) : Host.Outcome State Fault Refusal :=
  agentStep (completeCopy die entry) s

/-- Every copy whose completion cycle SCYC has reached completes at that boundary (R297). -/
def settleCopies (s : State) : State :=
  s.dom.dies.keys.foldl (fun s d =>
    (s.die d).copies.foldl (fun s c => completeCopy d c.entry s) s) s

/-! ### Remote arrivals (R317, R327) -/

/-- The answer to a contribution or an arrival of another package: what became of it, by the SEQ of its
packet. (DEDUCED, log 92) -/
def sendAnswer (pkg core seq op : Nat) (s : State) : State := sendPacket 1 5 core pkg 0 seq 0 op 0 [] [] s

/-- What became of an arrival, told to the core that issued it: 0, or the barrier-count fault (R315, R343). -/
def answerArrival (r : RemoteArr) (code : Nat) (s : State) : State :=
  if r.pkg ≠ s.ident.pkg then sendAnswer r.pkg r.core r.seq code s
  else if code = 0 then s
  else reportTo r.core r.launch ⟨code, 0, 0, 0, 0, 0⟩ s

/-- The launches whose context an arrival may mean: those of its tenant that have the bed, live or saved (R215, R317,
R428). (DEDUCED, log 120) -/
def arrivalLaunches (s : State) (r : RemoteArr) : List Nat :=
  (s.dom.launches.entries.filter fun e =>
    e.2.claims && decide (0 < e.2.handed) && e.2.tid == r.tid && (launchBeds s e.2).any (· == r.bed)).map (·.1)

/-- The launch in whose bed store an arrival is applied: the one that issued it, else the one that has the bed now,
else one that is saved (R215, R317). (DEDUCED, log 120) -/
def arrivalLaunch (s : State) (r : RemoteArr) : Option Nat :=
  let l := arrivalLaunches s r
  let own (n : Nat) : Bool := r.pkg == s.ident.pkg && n == r.launch
  let live (n : Nat) : Bool := s.dom.cores.keys.any fun c => s.bedOf c == r.bed && s.holdsCtx n c
  ((l.find? own).orElse fun _ => l.find? live).orElse fun _ => l.head?

/-- The bed store that an arrival reaches has room for the write in the log of its image (R378). -/
def arrivalRoom (s : State) (r : RemoteArr) : Bool :=
  match arrivalLaunch s r with
  | some n => (s.dom.savedBeds.get? (bedKey n r.bed)).isNone || bedAreaRoom s n r.bed
  | none => true

/-- An arrival of the same core stands before this one (R326). -/
def earlierArrival (s : State) (r : RemoteArr) : Bool :=
  (s.dom.remote.takeWhile (·.id != r.id)).any fun x => x.pkg == r.pkg && x.core == r.core

/-- An arrival from another bed is applied at its barrier, after those that its core made before it (R315,
R317, R326). One whose tenant has nothing on the bed finds no barrier. (DEDUCED, log 120) -/
def applyArrival (id : Nat) (s : State) : State :=
  match s.dom.remote.find? (·.id = id) with
  | none => s
  | some r =>
    if earlierArrival s r || !arrivalRoom s r then s
    else
      let s := { s with dom := { s.dom with remote := s.dom.remote.filter (·.id != id) } }
      match arrivalLaunch s r with
      | none => answerArrival r 0x16 s
      | some n =>
        match barArrive r.tag (barOf (memRead (s.ctxBedOf n r.bed).store r.off 16)) with
        | some b => answerArrival r 0 (ctxBed n r.bed r.off (barBytes b) s)
        | none => answerArrival r 0x16 s

/-- REMOTE_ARRIVAL (R317). -/
def execRemoteArrival (flight : Nat) (s : State) : Host.Outcome State Fault Refusal :=
  agentStep (applyArrival flight) s

/-! ### The hedge (R302 to R305, R421) -/

/-- The physical address of an element of a bank of a partition (R301, R302). -/
def Grid.elemPa (g : Grid) (p bank e : Nat) : Nat :=
  let va := g.elemVa p bank e
  g.pages.get 0 (va / 65536) + va % 65536

/-- The cell at box coordinates. -/
def Grid.elemAt (g : Grid) (x y z : Nat) : Nat := (z * g.box 1 + y) * g.box 0 + x

/-- The cell with coordinate `v` along axis `a` and those of cell `e` elsewhere. -/
def Grid.withCoord (g : Grid) (e a v : Nat) : Nat :=
  let c (i : Nat) : Nat := if i = a then v else g.coord e i
  g.elemAt (c 0) (c 1) (c 2)

/-- A cell lies in the part of the box that a slab of axis `a` covers: all of the earlier axes, the interior
of the later ones (R303). -/
def Grid.inSlab (g : Grid) (a e : Nat) : Bool :=
  (span 0 g.ndim).all fun i =>
    decide (i ≤ a) || (decide (g.halo ≤ g.coord e i) && decide (g.coord e i < g.halo + g.local_ i))

/-- The ghost cells of face `f` that a fill writes. -/
def Grid.ghosts (g : Grid) (f : Nat) : List Nat :=
  let a := f / 2
  (span 0 g.cells).filter fun e =>
    g.inSlab a e &&
    (if f % 2 = 0 then decide (g.coord e a < g.halo) else decide (g.halo + g.local_ a ≤ g.coord e a))

/-- Distance of a ghost cell of face `f` outside the face, from 1. -/
def Grid.depth (g : Grid) (f e : Nat) : Nat :=
  let x := g.coord e (f / 2)
  if f % 2 = 0 then g.halo - x else x + 1 - (g.halo + g.local_ (f / 2))

/-- The interior cell u(i) counted inwards from face `f`, at the position of cell `e` (R304).
(DESIGN CHOICE, log 116) -/
def Grid.inner (g : Grid) (f e i : Nat) : Nat :=
  let a := f / 2
  g.withCoord e a (if f % 2 = 0 then g.halo + i else g.halo + g.local_ a - 1 - i)

/-- The cell of a slab that a ghost cell of the facing region receives (R303). -/
def Grid.source (g : Grid) (f e : Nat) : Nat :=
  let a := f / 2
  g.withCoord e a (if f % 2 = 0 then g.coord e a + g.local_ a else g.coord e a - g.local_ a)

/-- u(0) + d · (u(0) − u(1)), exact and rounded once by RNE (R304). -/
def extrapolate (f : Fmt) (d : Nat) (u0 u1 : Nat) : Nat :=
  match decodeF f u0, decodeF f u1 with
  | .nan _, _ => f.nan
  | _, .nan _ => f.nan
  | .inf a, .inf b => if a = b then f.nan else f.inf a
  | .inf a, .fin _ _ _ => f.inf a
  | .fin _ _ _, .inf b => f.inf (!b)
  | .fin n0 m0 e0, .fin n1 m1 e1 =>
    let r := addDyadic n0 ((d + 1) * m0) e0 (!n1) (d * m1) e1
    if r.1 = 0 then f.zero (m0 == 0 && n0 && !n1)
    else (roundF f 0 false (Ex.ofDyadic (decide (r.1 < 0)) r.1.natAbs r.2)).val

/-- An element of a bank as published at an instant. -/
def cellAt (s : State) (g : Grid) (p bank e t : Nat) : Nat :=
  ofBytes ((span (g.elemPa p bank e) (gridZ g.fmt)).map fun a => valueAt s a t)

/-- The negated element: a NaN stays as it is (R304). -/
def negElem (f : Fmt) (x : Nat) : Nat :=
  if (decodeF f x).isNan then x
  else if x.testBit f.signPos then x - 2 ^ f.signPos else x + 2 ^ f.signPos

/-- The value of a ghost cell on a domain edge by the rule of its face (R304). -/
def edgeCell (s : State) (g : Grid) (p bank f e t : Nat) : Nat :=
  let d := g.depth f e
  let u (i : Nat) : Nat := cellAt s g p bank (g.inner f e i) t
  match (g.rule[f]?).getD 0 with
  | 1 => g.fval.toNat % 2 ^ (8 * gridZ g.fmt)
  | 2 => u (d - 1)
  | 3 => negElem (fmtOf g.fmt) (u (d - 1))
  | 4 => u 0
  | _ => extrapolate (fmtOf g.fmt) d (u 0) (u 1)

/-- The region that a fill of face `f` of a partition writes: the facing one of its neighbour, or its own
on a domain edge (R303). -/
def fillTarget (g : Grid) (p f : Nat) : Nat × Nat :=
  match neighbour g p f with
  | some q => (q, f ^^^ 1)
  | none => (p, f)

/-- An instant for the block that holds an address: one for each 64-byte block read (R241, R303). -/
def blockInstant (lo a : Nat) (last : Option (Nat × Nat)) (s : State) : Nat × State :=
  match last with
  | some (b, t) => if b = a / 64 then (t, s) else drawIn lo s.now s
  | none => drawIn lo s.now s

/-- The bytes that a fill writes, in cell order. -/
def fillCells (g : Grid) (p bank f lo : Nat) : List Nat → Option (Nat × Nat) → State →
    List (Nat × Byte) × State
  | [], _, s => ([], s)
  | e :: r, last, s =>
    let q := fillTarget g p f
    let shared := (neighbour g p f).isSome
    let src := if shared then g.source q.2 e else g.inner f e 0
    let pa := g.elemPa p bank src
    let t := blockInstant lo pa last s
    let v := if shared then cellAt t.2 g p bank src t.1 else edgeCell t.2 g p bank f e t.1
    let x := fillCells g p bank f lo r (some (pa / 64, t.1)) t.2
    (atAddr (g.elemPa q.1 bank e) (toBytes (gridZ g.fmt) v) ++ x.1, x.2)

/-- Bytes grouped by their 64-byte blocks. -/
def byBlock : List (Nat × Byte) → List (List (Nat × Byte))
  | [] => []
  | e :: r =>
    match byBlock r with
    | (x :: l) :: t => if x.1 / 64 = e.1 / 64 then (e :: x :: l) :: t else [e] :: (x :: l) :: t
    | t => [e] :: t

/-- The fill of a launch that comes first for its partition. -/
def firstFill (s : State) (f : Fill) : Bool :=
  match s.dom.fills.find? fun x => x.launch = f.launch && x.grid = f.grid && x.part = f.part with
  | some x => x.id == f.id
  | none => false

/-- Replace a fill. -/
def putFill (f : Fill) (s : State) : State :=
  { s with dom := { s.dom with fills := s.dom.fills.map fun x => if x.id = f.id then f else x } }

/-- Replace a grid of a launch. -/
def putGrid (launch id : Nat) (g : Grid) (s : State) : State :=
  s.setLaunch launch { s.launch launch with grids := (s.launch launch).grids.put id g }

/-- The sender's own ghost cells of every earlier axis have been filled for the step (R303). -/
def axisReady (g : Grid) (p step f : Nat) : Bool :=
  (span 0 (2 * (f / 2))).all fun x => (heldOf g p x).any (· == step)

/-- Another fill of a region is under way. -/
def regionBusy (s : State) (f : Fill) (g : Grid) (r : Nat × Nat) : Bool :=
  s.dom.fills.any fun x => x.id != f.id && x.begun && x.launch == f.launch && x.grid == f.grid &&
    (match x.faces with
     | y :: _ => fillTarget g x.part y == r
     | [] => false)

/-- Begin the next fill of a published step: the step two banks before leaves the held set (R305). -/
def beginFill (id : Nat) (s : State) : State :=
  match s.dom.fills.find? (·.id = id) with
  | none => s
  | some f =>
    match f.faces, (s.launch f.launch).grids.get? f.grid with
    | y :: _, some g =>
      let r := fillTarget g f.part y
      if f.begun ∨ sealing s ∨ !firstFill s f ∨ !axisReady g f.part f.step y ∨ regionBusy s f g r then s
      else
        let key := 8 * r.1 + r.2
        let held := (g.heldSet.get [] key).filter fun x => x + 2 * g.dep != f.step
        putFill { f with begun := true, since := s.now }
          (putGrid f.launch f.grid { g with heldSet := g.heldSet.put key held } s)
    | _, _ => s

/-- HALO_FILL_BEGIN (R305). -/
def execHaloFillBegin (fill : Nat) (s : State) : Host.Outcome State Fault Refusal :=
  agentStep (beginFill fill) s

/-- The bytes that a fill writes have room in their logs, or a seal waits for it, and no page of its grid is
being moved (R263, R378, R382). -/
def fillRoom (s : State) (g : Grid) (l : List (Nat × Byte)) : Bool :=
  l.all (fun e => !sealStall s (e.1 / 64)) && !(g.pages.vals.any (underMove s))

/-- Bytes of ghost cells that a core owns beside its own, as the rest of a word of 4 bytes, are gone once the cells
are filled: no step but the tag's is returned or published there (R221, R259). -/
def dropFilled (l : List (Nat × Byte)) (s : State) : State :=
  let drop (k : Core) : Core := k.dropOwned fun a => l.any (·.1 == a)
  { s with dom := { s.dom with cores := s.dom.cores.mapVals fun _ k => drop k } }

/-- A fill completes: its region holds the step, and the publication is done after the last (R303,
R305). -/
def endFill (id : Nat) (s : State) : State :=
  match s.dom.fills.find? (·.id = id) with
  | none => s
  | some f =>
    match f.faces, (s.launch f.launch).grids.get? f.grid with
    | y :: rest, some g =>
      if !f.begun then s
      else
        let r := fillTarget g f.part y
        let c := fillCells g f.part (g.bankOf f.step) y f.since (g.ghosts r.2) none s
        if !fillRoom s g c.1 then s
        else
          let s := dropFilled c.1 ((byBlock c.1).foldl (fun s l => publishBytes l s) c.2)
          let key := 8 * r.1 + r.2
          let g := { g with
            heldSet := g.heldSet.put key (g.heldSet.get [] key ++ [f.step])
            latest := g.latest.put key f.step }
          let s := putGrid f.launch f.grid g s
          if rest.isEmpty then
            completeNumber f.launch f.core f.view f.num
              { s with dom := { s.dom with fills := s.dom.fills.filter (·.id != id) } }
          else putFill { f with faces := rest, begun := false } s
    | _, _ => s

/-- HALO_FILL_COMPLETE (R303 to R305). -/
def execHaloFillComplete (fill : Nat) (s : State) : Host.Outcome State Fault Refusal :=
  agentStep (endFill fill) s

/-! ### Ordered contributions (R277, R278, R310, R311) -/

/-- RNE, no flush, saturate 0. -/
def plainEnv (f : Fmt) : FEnv := ⟨f, 0, false, false, false⟩

/-- Bytes of a contribution. -/
def contribSize (op : Nat) : Nat := if op = 0 ∨ op = 3 then 4 else 8

/-- The new value of a target (R277). -/
def contribVal (op t v : Nat) : Nat :=
  let f32 := fmtOf 0
  let f64 := fmtOf 1
  match op with
  | 0 => (addF (plainEnv f32) (decodeF f32 t) (decodeF f32 (v % 2 ^ 32))).val
  | 1 => (addF (plainEnv f64) (decodeF f64 t) (decodeF f64 v)).val
  | 2 => (t + v) % 2 ^ 64
  | 3 => (minMaxF (plainEnv f32) true (decodeF f32 t) (decodeF f32 (v % 2 ^ 32))).val
  | _ => Nat.max t v

/-- A contribution counts as done; its package is told when it is another one (R277). -/
def contribDone (cause : Nat) (c : Contrib) (s : State) : State :=
  if c.pkg ≠ s.ident.pkg then sendAnswer c.pkg c.core c.num cause s
  else completeNumber c.launch c.core 1 c.num s

/-- A contribution that cannot be applied: the fault is reported and its number counts (R278). -/
def discardContrib (cause : Nat) (c : Contrib) (s : State) : State :=
  let s := if c.pkg ≠ s.ident.pkg then s
    else reportTo c.core c.launch ⟨0x12, cause, BitVec.ofNat 64 c.va,
      BitVec.ofNat 64 (c.seg * 2 ^ 32 + c.index), 0, 0⟩ s
  contribDone cause c s

/-- The contribution has been held, or has waited, for longer than the gap bound of 2^20 wall cycles
(R311). -/
def gapPassed (s : State) (c : Contrib) : Bool := decide (c.since + 1048576 < s.clk.wcyc)

/-- Apply a contribution that is due (R310): its target's next index rises, or the target closes. -/
def applyContrib (die : Nat) (c : Contrib) (s : State) : State :=
  let n := contribSize c.op
  let v := contribVal c.op (memNat s.mem c.pa n) c.value.toNat
  let s := publishRun c.pa (toBytes n v) s
  let d := s.die die
  let s := s.setDie die { d with
    targets := if c.last then d.targets.erase c.pa else d.targets.put c.pa (c.index + 1)
    openers := if c.last then d.openers.erase c.pa else d.openers }
  contribDone 0 c s

/-- Apply the held contributions that have become due, in index order (R310); one held beyond the gap bound
is not (R311). -/
def applyDue (die pa : Nat) : Nat → State → State
  | 0, s => s
  | fuel + 1, s =>
    let d := s.die die
    match d.targets.get? pa with
    | none => s
    | some i =>
      match d.held.find? fun c => c.pa = pa && c.index = i && !gapPassed s c with
      | none => s
      | some c =>
        applyDue die pa fuel (applyContrib die c (s.setDie die { d with held := d.held.filter (·.id != c.id) }))

/-- The contributions that an engine holds: one beyond the gap bound is held no more (R311). -/
def heldNow (s : State) (die : Nat) : List Contrib := (s.die die).held.filter fun c => !gapPassed s c

/-- The engine holds a contribution to the target of `c` with its index (R310). -/
def heldTwin (s : State) (die : Nat) (c : Contrib) : Bool :=
  (heldNow s die).any fun x => x.pa == c.pa && x.index == c.index

/-- A contribution of the same engine of the same core, to the same 64-byte block and in the same alias class, stands
before `c` in a list (R254). -/
def aheadIn (l : List Contrib) (c : Contrib) : Bool :=
  (l.takeWhile (·.id != c.id)).any fun x =>
    x.pkg == c.pkg && x.core == c.core && x.launch == c.launch && x.cls == c.cls && x.pa / 64 == c.pa / 64

/-- The engine can take a contribution now (R263, R310, R378, R382). -/
def takeable (s : State) (die : Nat) (c : Contrib) : Bool :=
  let d := s.die die
  let i := (d.targets.get? c.pa).getD 0
  !sealing s && !logStall s (c.pa / 64) && !underMove s c.pa &&
  ((d.targets.get? c.pa).isSome || decide (d.targets.entries.length < 4096)) &&
  (decide (c.index ≤ i) || heldTwin s die c || decide ((heldNow s die).length < 16384))

/-- The engine takes a contribution: applied, held or discarded (R310). A target that it opens ends with its launch
(R277). (DEDUCED, log 121) -/
def takeContrib (die : Nat) (c : Contrib) (s : State) : State :=
  let d := s.die die
  let i := (d.targets.get? c.pa).getD 0
  let opener := if c.pkg = s.ident.pkg then c.launch else 0
  let s := s.setDie die { d with
    targets := d.targets.put c.pa i
    openers := if (d.targets.get? c.pa).isSome then d.openers else d.openers.put c.pa opener }
  let d := s.die die
  if c.index = i then applyDue die c.pa (d.held.length + 1) (applyContrib die c s)
  else if c.index < i ∨ heldTwin s die c then discardContrib 2 c s
  else s.setDie die { d with held := d.held ++ [c] }

/-- A contribution reaches its engine, behind those at the input that can be taken; or the first of these is
taken, unless it has waited beyond the gap bound (R310, R311). Those of one engine of a core to one block come in
order (R254). -/
def arriveContrib (id : Nat) (s : State) : State :=
  match s.dom.contribs.find? (·.id = id) with
  | some c =>
    let die := dieBits c.pa
    let c := { c with since := s.clk.wcyc }
    let flights := s.dom.contribs
    let t := s
    let s := { s with dom := { s.dom with contribs := s.dom.contribs.filter (·.id != id) } }
    if aheadIn flights c then t
    else if takeable s die c && !((s.die die).input.any (takeable s die)) && !aheadIn (s.die die).input c then
      takeContrib die c s
    else s.setDie die { s.die die with input := (s.die die).input ++ [c] }
  | none =>
    match s.dom.dies.entries.find? fun d => d.2.input.any (·.id == id) with
    | none => s
    | some (die, d) =>
      match d.input.find? (fun c => takeable s die c && !aheadIn d.input c) with
      | none => s
      | some c =>
        if c.id = id then
          let s := s.setDie die { d with input := d.input.filter (·.id != id) }
          if gapPassed s c then discardContrib 3 c s else takeContrib die c s
        else s

/-- CONTRIBUTION_ARRIVAL (R310). -/
def execContributionArrival (flight : Nat) (s : State) : Host.Outcome State Fault Refusal :=
  agentStep (arriveContrib flight) s

/-- A contribution has waited beyond the gap bound (R311). (DEDUCED, log 43) -/
def expireGap (die id : Nat) (s : State) : State :=
  let d := s.die die
  match (d.held ++ d.input).find? (·.id = id) with
  | none => s
  | some c =>
    if !gapPassed s c then s
    else
      discardContrib 3 c (s.setDie die { d with
        held := d.held.filter (·.id != id), input := d.input.filter (·.id != id) })

/-- GAP_TIMEOUT (R311): the contribution is named by its id. -/
def execGapTimeout (die held : Nat) (s : State) : Host.Outcome State Fault Refusal :=
  agentStep (expireGap die held) s

/-! ### Parameter-block reductions (R312, R313) -/

/-- Two ranges of runs overlap. -/
def runsMeet (x y : List Chunk) : Bool :=
  x.any fun a => y.any fun b =>
    decide (a.place.addr < b.place.addr + b.len) && decide (b.place.addr < a.place.addr + a.len)

/-- Replace a reduction. -/
def putReduce (die : Nat) (r : Reduce) (s : State) : State :=
  s.setDie die { s.die die with
    reductions := (s.die die).reductions.map fun x => if x.id = r.id then r else x }

/-- The reductions that arrived before one. -/
def earlier (l : List Reduce) (id : Nat) : List Reduce := l.takeWhile fun x => x.id != id

/-- A reduction may begin when it comes to its turn: its release has completed, and no earlier one overlaps
it. -/
def startable (l : List Reduce) (r : Reduce) : Bool :=
  r.released && !r.running && !((earlier l r.id).any fun x => runsMeet x.dst r.dst)

/-- Begin a reduction: the first of those that may (R313). -/
def startReduce (die id : Nat) (s : State) : State :=
  let l := (s.die die).reductions
  match l.find? (·.id = id) with
  | none => s
  | some r =>
    if !startable l r ∨ sealing s ∨ 16 ≤ (l.filter (·.running)).length ∨ (earlier l id).any (startable l) then s
    else putReduce die { r with running := true, floor := s.now } s

/-- REDUCTION_START (R313): the reduction is named by its id. -/
def execReductionStart (die waiting : Nat) (s : State) : Host.Outcome State Fault Refusal :=
  agentStep (startReduce die waiting) s

/-- The binary format of a reduction format (R332). -/
def redFmt (fmt : Nat) : Fmt := fmtOf fmt

/-- The sum of one element over the fixed tree, and its flags (R312). -/
def redSum (fmt : Nat) (l : List Nat) : FR :=
  let z := 8 * redZ fmt
  if 4 ≤ fmt then ⟨l.foldl (fun a x => (a + x) % 2 ^ z) 0, 0, false⟩
  else reduceTree (addF (plainEnv (redFmt fmt))) (redFmt fmt) (l.map fun x => some ⟨x, 0, false⟩)

/-- Bytes of a block of a buffer as published at an instant. -/
def bufBytes (s : State) (l : List Chunk) (t : Nat) : List Byte :=
  l.flatMap fun c =>
    match c.place with
    | .home pa _ => (span pa c.len).map fun a => valueAt s a t
    | _ => List.replicate c.len 0

/-- Read a block of every buffer, each at one instant (R241, R313). -/
def readBufs (lo off n : Nat) : List (List Chunk) → State → List (List Byte) × State
  | [], s => ([], s)
  | b :: r, s =>
    let t := drawIn lo s.now s
    let x := bufBytes t.2 (subRuns b off n) t.1
    let y := readBufs lo off n r t.2
    (x :: y.1, y.2)

/-- A reduction may access these runs and write those: no page of them is being moved, and the logs have
room (R263, R337, R378). -/
def reduceRoom (s : State) (reads writes : List Chunk) : Bool :=
  !runsMove s reads && !runsMove s writes && (blocksOf writes).all fun c => !logStall s (c.place.addr / 64)

/-- Sum block `i` of a running reduction; a seal holds it (R313, R382). -/
def sumBlock (die id i : Nat) (s : State) : State :=
  match (s.die die).reductions.find? (·.id = id) with
  | none => s
  | some r =>
    let z := redZ r.fmt
    let len := r.count * z
    let n := Nat.min 64 (len - 64 * i)
    let dst := subRuns r.dst (64 * i) n
    if !r.running ∨ sealing s ∨ len ≤ 64 * i ∨ r.summed.any (· == i) ∨
        !reduceRoom s (r.bufs.flatMap fun b => subRuns b (64 * i) n) dst then s
    else
      let x := readBufs r.floor (64 * i) n r.bufs s
      let sums := (span 0 (n / z)).map fun j =>
        redSum r.fmt (x.1.map fun b => fieldOf b (z * j) z)
      let fl := sums.foldl (fun a v => a ||| v.flg) 0
      let s := sums.zipIdx.foldl (fun s v =>
        (cutData (toBytes z v.1.val) (subRuns dst (z * v.2) z)).foldl (fun s c =>
          publishRun c.1.place.addr c.2 s) s) x.2
      putReduce die { r with summed := insertN i r.summed, flags := r.flags ||| fl } s

/-- A reduction completes: what is left is summed, STATUS and then the flag are written, and the view
counts (R313, R332). -/
def endReduce (die id : Nat) (s : State) : State :=
  match (s.die die).reductions.find? (·.id = id) with
  | none => s
  | some r =>
    let ends : List Chunk := [⟨0, 8, 15, .home r.flag false⟩, ⟨0, 4, 15, .home (r.block + 0x1C) false⟩]
    if !r.running ∨ sealing s then s
    else
      let n := ceilDiv (r.count * redZ r.fmt) 64
      let s := (span 0 n).foldl (fun s i => sumBlock die id i s) s
      let x := ((s.die die).reductions.find? (·.id = id)).getD r
      if x.summed.length < n ∨ !reduceRoom s [] ends then s
      else
        let s := publishRun r.flag (toBytes 8 r.fval.toNat)
          (publishRun (r.block + 0x1C) (toBytes 4 (x.flags % 32)) s)
        completeNumber r.launch r.core r.view r.num (s.setDie die { s.die die with
          reductions := (s.die die).reductions.filter (·.id != id) })

/-- REDUCTION_COMPLETE (R313): the reduction is named by its id. -/
def execReductionComplete (die running : Nat) (s : State) : Host.Outcome State Fault Refusal :=
  agentStep (endReduce die running) s

/-! ### Page transplants (R263, R422, R423) -/

/-- The new address of a byte in pages that move. -/
def movedAddr (ps : List (Nat × Nat × Nat × Nat)) (a : Nat) : Nat :=
  match ps.find? fun p => decide (p.2.1 ≤ a) && decide (a < p.2.1 + p.2.2.1) with
  | some p => p.2.2.2 + (a - p.2.1)
  | none => a

/-- A table by physical address, moved. -/
def moveTbl {α : Type} (mv : Nat → Nat) (t : Tbl α) : Tbl α :=
  t.entries.foldl (fun r e => r.put (mv e.1) e.2) .empty

/-- A place, moved. -/
def movePlace (mv : Nat → Nat) (p : Place) : Place :=
  match p with
  | .home a ms => .home (mv a) ms
  | x => x

/-- Runs, moved: a run covers no page boundary of 64 KiB, so its bytes stay together. -/
def moveRuns (mv : Nat → Nat) (l : List Chunk) : List Chunk :=
  l.map fun c => { c with place := movePlace mv c.place }

/-- An outstanding load, moved. -/
def moveLoad (mv : Nat → Nat) (x : LoadSrc) : LoadSrc :=
  { x with segs := x.segs.map fun g => { g with pa := mv g.pa } }

/-- What follows a release, moved. -/
def moveCont (mv : Nat → Nat) (c : Cont) : Cont :=
  match c with
  | .store l => .store (l.map fun r => (movePlace mv r.1, r.2))
  | x => x

/-- An irrevocable store that waits for its seal, moved. -/
def moveHold (mv : Nat → Nat) (h : Hold) : Hold :=
  match h with
  | .irrv n p d w => .irrv n (movePlace mv p) d w
  | x => x

/-- Ownership, copies and accesses under way of a core go to the new addresses (R422). -/
def moveCore (mv : Nat → Nat) (k : Core) : Core :=
  { k with
    owned := moveTbl mv k.owned, wrote := moveTbl mv k.wrote, near := moveTbl mv k.near
    floors := moveTbl mv k.floors
    instants := moveTbl (fun b => mv (64 * b) / 64) k.instants
    releases := k.releases.map fun r => { r with bytes := moveTbl mv r.bytes, cont := moveCont mv r.cont }
    arrived := k.arrived.map fun x => { x with pa := mv x.pa }
    stores := k.stores.map fun r => if r.spad then r else { r with addr := mv r.addr }
    lq := k.lq.mapVals fun _ q => ⟨q.entries.map fun e => { e with src := e.src.map (moveLoad mv) }⟩
    streams := k.streams.mapVals fun _ t => { t with
      hold := moveHold mv t.hold, pend := t.pend.map fun p => { p with src := p.src.map (moveLoad mv) } } }

/-- The ranges that the engines of a die work on, moved. -/
def moveDie (mv : Nat → Nat) (d : Die) : Die :=
  { d with
    copies := d.copies.map fun c => { c with src := moveRuns mv c.src, dst := moveRuns mv c.dst }
    reductions := d.reductions.map fun r => { r with
      block := mv r.block, flag := mv r.flag, dst := moveRuns mv r.dst
      bufs := r.bufs.map (moveRuns mv) } }

/-- Targets and held contributions go to the engine of their new home, with their indices (R422).
(DEDUCED, log 47) -/
def moveTargets (ps : List (Nat × Nat × Nat × Nat)) (s : State) : State :=
  let mv := movedAddr ps
  let hit (a : Nat) : Bool := mv a != a
  s.dom.dies.keys.foldl (fun s d =>
    let x := s.die d
    let ts := x.targets.entries.filter fun e => hit e.1
    let hs := x.held.filter fun c => hit c.pa
    let is := x.input.filter fun c => hit c.pa
    let s := s.setDie d { x with
      targets := x.targets.filter fun a _ => !hit a
      openers := x.openers.filter fun a _ => !hit a
      held := x.held.filter fun c => !hit c.pa, input := x.input.filter fun c => !hit c.pa }
    let s := ts.foldl (fun s e =>
      let n := dieBits (mv e.1)
      s.setDie n { s.die n with
        targets := (s.die n).targets.put (mv e.1) e.2
        openers := (s.die n).openers.put (mv e.1) (x.openers.get 0 e.1) }) s
    let s := hs.foldl (fun s c =>
      let n := dieBits (mv c.pa)
      s.setDie n { s.die n with held := (s.die n).held ++ [{ c with pa := mv c.pa }] }) s
    is.foldl (fun s c =>
      let n := dieBits (mv c.pa)
      s.setDie n { s.die n with input := (s.die n).input ++ [{ c with pa := mv c.pa }] }) s) s

/-- Copy pages: published values and their home orders go on at the new addresses, and so does what
holds a physical address, the contributions that have come since the drain among it (R263, R422).
(DEDUCED, log 47) -/
def copyPages (ps : List (Nat × Nat × Nat × Nat)) (s : State) : State :=
  let mv := movedAddr ps
  let isNew (a : Nat) : Bool := ps.any fun p => decide (p.2.2.2 ≤ a) && decide (a < p.2.2.2 + p.2.2.1)
  let lines := ps.flatMap fun p => span (p.2.2.2 / 64) (p.2.2.1 / 64)
  let s := lines.foldl logLine s
  let cells := s.mem.filter fun e => mv e.1 != e.1
  let mem := cells.foldl (fun m e => memPut m (mv e.1) e.2) (s.mem.filter fun e => !isNew e.1)
  let hist := (s.hist.filter fun h => !isNew h.2.1) ++
    (s.hist.filter fun h => mv h.2.1 != h.2.1).map fun h => (h.1, mv h.2.1, h.2.2)
  let d := s.dom
  let grid (g : Grid) : Grid := { g with pages := g.pages.mapVals fun _ a => mv a }
  let chain (x : Chain) : Chain :=
    { x with close := x.close.map fun q => { q with runs := moveRuns mv q.runs } }
  let dom := { d with
    cores := d.cores.mapVals fun _ k => moveCore mv k
    saved := d.saved.mapVals fun _ k => moveCore mv k
    dies := d.dies.mapVals fun _ x => moveDie mv x
    contribs := d.contribs.map fun c => { c with pa := mv c.pa }
    launches := d.launches.mapVals fun _ l => { l with
      grids := l.grids.mapVals fun _ g => grid g
      chains := l.chains.mapVals fun _ x => chain x } }
  let packet (x : Packet) : Packet := { x with addr := mv x.addr }
  moveTargets ps { s with
    mem := mem, hist := hist, dom := dom, recov := { s.recov with wrote := true }
    fab := { s.fab with
      inStores := s.fab.inStores.map packet, waiting := s.fab.waiting.map fun x => if x.typ = 6 then x else packet x
      heldRel := s.fab.heldRel.map fun x => if x.typ = 3 then packet x else x } }

/-- Write a leaf anew (R229, R422). -/
def putLeaf (at_ : Nat) (f : Nat → Nat) (s : State) : State :=
  publishRun at_ (toBytes 8 (f (memNat s.mem at_ 8))) s

/-- Set or clear PB, bit 8 of an entry. -/
def withBusy (b : Bool) (e : Nat) : Nat := (if e.testBit 8 then e - 256 else e) + (if b then 256 else 0)

/-- The entry with another page base, its bits [59:16]. -/
def withBase (pa e : Nat) : Nat := e - (e / 65536 % 2 ^ 44) * 65536 + pa

/-- Remove every cached translation of pages that move. -/
def shootDown (t : Transplant) (s : State) : State :=
  let keep (x : Xlat) : Bool := !(t.pages.any fun p =>
    decide (p.2.1 ≤ entryPa x.leaf) && decide (entryPa x.leaf < p.2.1 + p.2.2.1))
  { s with dom := { s.dom with
    cores := s.dom.cores.mapVals fun _ k => { k with tlb := k.tlb.filter keep }
    dies := s.dom.dies.mapVals fun _ d => { d with xlat := d.xlat.filter keep } } }

/-- An address lies in a page that moves: where it stood, or where it goes. -/
def Transplant.covers (t : Transplant) (a : Nat) : Bool :=
  t.pages.any fun p =>
    (decide (p.2.1 ≤ a) && decide (a < p.2.1 + p.2.2.1)) || (decide (p.2.2.2 ≤ a) && decide (a < p.2.2.2 + p.2.2.1))

/-- Every core acknowledges the removal of its translations of a range: no access that it issued under one is still on
its way to its home (R422). -/
def acknowledged (s : State) (t : Transplant) : Bool :=
  s.dom.cores.vals.all (fun k => !(k.openLoads.any fun x => x.segs.any fun g => t.covers g.pa)) &&
  !(s.dom.contribs.any fun c => t.covers c.pa)

/-- A step of a transplant may finish: the lines that it writes have room in their logs (R378), and the cores have
acknowledged the shootdown (R422). -/
def stepRoom (t : Transplant) (s : State) : Bool :=
  let lines := if t.step = 2 then
      match t.pages[t.copied]? with
      | some p => span (p.2.2.2 / 64) (p.2.2.1 / 64)
      | none => []
    else t.pages.map fun p => p.1 / 64
  (t.step != 4 || acknowledged s t) && lines.all fun l => !logStall s l

/-- One step of the transplant sequence, or one page of its copy (R382, R422). (DEDUCED, log 47) -/
def transplantStep (t : Transplant) (s : State) : State :=
  let leaves (f : (Nat × Nat × Nat × Nat) → Nat → Nat) : State :=
    t.pages.foldl (fun s p => putLeaf p.1 (f p) s) s
  match t.step with
  | 0 => leaves fun _ => withBusy true
  | 1 => moveTargets t.pages s
  | 2 => copyPages ((t.pages.drop t.copied).take 1) s
  | 3 => leaves fun p => withBase p.2.2.2
  | 4 => shootDown t s
  | _ => leaves fun _ => withBusy false

/-- The transplant after a step: its pages are copied one by one. -/
def Transplant.next (t : Transplant) : Transplant :=
  if t.step = 2 ∧ t.copied + 1 < t.pages.length then { t with copied := t.copied + 1 }
  else { t with step := t.step + 1 }

/-- A step of a transplant finishes; the last one counts on tl4 (R422). Transplants hold over a seal, at a
page boundary (R382). -/
def stepTransplant (id : Nat) (s : State) : State :=
  match s.dom.transplants.find? (·.id = id) with
  | none => s
  | some t =>
    if sealing s || !stepRoom t s then s
    else
      let s := transplantStep t s
      if 5 ≤ t.step then
        completeNumber t.launch t.core 4 t.num
          { s with dom := { s.dom with transplants := s.dom.transplants.filter (·.id != id) } }
      else { s with dom := { s.dom with
        transplants := s.dom.transplants.map fun x => if x.id = id then x.next else x } }

/-- TRANSPLANT_STEP_DONE (R422). -/
def execTransplantStepDone (transplant : Nat) (s : State) : Host.Outcome State Fault Refusal :=
  agentStep (stepTransplant transplant) s

/-- The translations of an address that lead to a page marked busy are removed from the core's cache and
from that of its die (R423): its access walks again. -/
def bounce (c va : Nat) (s : State) : State :=
  let ctx := (s.launch (s.core c).launch).ctx
  let stale (x : Xlat) : Bool := x.covers ctx va && tombstone s (entryPa x.leaf + va % x.size)
  let k := s.core c
  let d := s.dieOf c
  let s := s.setCore c { k with tlb := k.tlb.filter fun x => !stale x }
  s.setDie d { s.die d with xlat := (s.die d).xlat.filter fun x => !stale x }

/-- ACCESS_BOUNCE (R423). -/
def execAccessBounce (core va : Nat) (s : State) : Host.Outcome State Fault Refusal :=
  agentStep (bounce core va) s

/-! ### Control blocks of rings and streams (R219, R414) -/

/-- A store to the control block of a ring. -/
def ringStore (bed ring off : Nat) (data : List Byte) (s : State) : State :=
  s.setBed bed (bedWrite (64 * ring + off) data (s.bed bed))

/-- RING_GEOM_STORE (R219). -/
def execRingGeomStore (bed ring off : Nat) (data : List Byte) (s : State) :
    Host.Outcome State Fault Refusal := agentStep (ringStore bed ring off data) s

/-- RING_CNTB_STORE (R219): the offset counts from CNTB. -/
def execRingCntbStore (bed ring off : Nat) (data : List Byte) (s : State) :
    Host.Outcome State Fault Refusal := agentStep (ringStore bed ring (16 + off) data) s

/-- STREAM_SGEOM_STORE (R414). -/
def execStreamSgeomStore (die launch sid off : Nat) (data : List Byte) (s : State) :
    Host.Outcome State Fault Refusal := agentStep (dieWrite die launch (64 * sid + off) data) s

/-- STREAM_SERR_STORE (R414): the offset counts from SERR. -/
def execStreamSerrStore (die launch sid off : Nat) (data : List Byte) (s : State) :
    Host.Outcome State Fault Refusal := agentStep (dieWrite die launch (64 * sid + 16 + off) data) s

/-! ### Slots of streams (R415, R420) -/

/-- Who is told that a slot of a stream found no room: the core of the send, or the builder of the chain that the
stream is bound to. (DEDUCED, log 85) -/
def slotCore (s : State) (die launch sid : Nat) (c : Option Nat) : Nat :=
  c.getD (s.chain launch die (bits (strmBnd s die launch sid) 4 0)).builder

/-- The next slot of a stream has arrived whole (R415); one that reaches above the grant as it stands takes the
local-range fault, and nothing of it is written (R238). (DEDUCED, log 85) -/
def arriveSlot (die key : Nat) (s : State) : State :=
  let launch := key / 32
  let sid := key % 32
  let t := s.tstream die launch sid
  match t.flight with
  | [] => s
  | x :: r =>
    let fc := strmFC s die launch sid
    let nsl := strmNsl s die launch sid
    let l := s.launch launch
    let at_ := strmSlot s die launch sid fc
    let s := s.setTstream die launch sid { t with flight := r, lens := t.lens.put (fc % nsl) x.2.length }
    let full (s : State) : State := setStrm die launch sid 12 4 ((fc + 1) % 2 ^ 32) s
    if l.ways.get 0 die * 8388608 < at_ + x.2.length then
      full (reportTo (slotCore s die launch sid x.1) launch (rangeReport 1 (2 ^ 63 + at_)) s)
    else
      gatherPartial die launch sid
        (full (s.setLaunch launch { l with dieStore := l.dieStore.put die (memWrite (l.store die) at_ x.2) }))

/-- STREAM_SLOT_ARRIVAL (R415): the stream is named by 32 · launch + id. -/
def execStreamSlotArrival (die sid : Nat) (s : State) : Host.Outcome State Fault Refusal :=
  agentStep (arriveSlot die sid) s

/-- The sender learns the freed count: slots of a partial that waited depart (R415, R420). -/
def mirrorCount (die key : Nat) (s : State) : State :=
  let launch := key / 32
  let sid := key % 32
  let t := { s.tstream die launch sid with ecMirror := strmEC s die launch sid }
  s.setTstream die launch sid (departQueue (strmNsl s die launch sid) 64 t)

/-- EC_MIRROR_UPDATE (R415): the stream is named by 32 · launch + id. -/
def execEcMirrorUpdate (die sid : Nat) (s : State) : Host.Outcome State Fault Refusal :=
  agentStep (mirrorCount die sid) s

end Sys2Proof.Machine
end

