-- ==== Sys2Proof/Machine/SealEvents.lean ====
section
/-!
DEFINITION. Seals and rollbacks: the requests, the opening and the commit of a seal, egress, the
lifetime counters' copy, and the rollback of the domain (R264, R373 to R392, R400, R401, R450).
-/

namespace Sys2Proof.Machine

open Sys2Proof

/-! ### Requests (R379) -/

/-- The domain holds another package than this one. (DEDUCED, log 50) -/
def otherMembers (s : State) : Bool :=
  s.recov.members.entries.any fun e =>
    (span 0 64).any fun b => bit e.2 b && 64 * e.1 + b != s.ident.pkg

/-- A launch is accepted or running. -/
def launchOpen (s : State) : Bool := s.dom.launches.vals.any fun l => !(l.handler || l.closed)

/-- In the open interval no write has been applied, and no launch has been accepted or running (R379).
(DEDUCED, log 51) -/
def idleInterval (s : State) : Bool := !s.recov.wrote && !s.recov.busy && !launchOpen s

/-- T_I has passed since the resume of the last seal (R379). -/
def periodDue (s : State) : Bool := decide (s.recov.lastResume + s.recov.ti ≤ s.clk.wcyc)

/-- What requests a seal has come about (R378, R379, R385). A log or an egress buffer of another package
of the domain, its graphs and its launches are not seen here: their requests come at any time.
(DEDUCED, log 50) -/
def sealDue (s : State) : SealWhy → Bool
  | .periodic => periodDue s && (otherMembers s || !idleInterval s)
  | .log => otherMembers s || (span 0 8).any fun d => decide (25165824 ≤ logFill s d)
  | .egress => otherMembers s || decide (50331648 ≤ egressFill s)
  | .node _ _ => otherMembers s
  | .launch _ => otherMembers s

/-- The same request is already part of the seal under way or of the next one. -/
def sealAsked (s : State) (why : SealWhy) : Bool :=
  s.recov.want.any (· == why) ||
  (match s.recov.phase with
   | .quiesce _ l => l.any (· == why)
   | _ => false)

/-- SEAL_REQUEST (R379, R380). -/
def execSealRequest (why : SealWhy) (s : State) : Host.Outcome State Fault Refusal :=
  agentStep (fun s => if sealDue s why && !sealAsked s why then requestSeal why s else s) s

/-- PERIODIC_SEAL_TIMER (R379): an idle interval is skipped, and T_I is counted again. -/
def execPeriodicSealTimer (s : State) : Host.Outcome State Fault Refusal :=
  agentStep (fun s =>
    if !periodDue s then s
    else if idleInterval s then { s with recov := { s.recov with lastResume := s.clk.wcyc } }
    else if sealAsked s .periodic then s
    else requestSeal .periodic s) s

/-! ### Opening (R380 to R383, R386, R391) -/

/-- Core `c` has stopped for a seal: it does not run, it stands at a yield point or a wait, or it is
timetabled and stops at its slot boundary (R380 step 2). -/
def coreStopped (s : State) (c : Nat) : Bool :=
  (s.core c).mode != .running || s.seqn c == .timed || s.quiet c true

/-- A core has something that a release of machine scope publishes (R261, R380). -/
def toPublish (k : Core) : Bool := !k.owned.entries.isEmpty || k.trackers.any fun t => t.units && t.broken.isNone

/-- Core `c` has reached the end of step 3: it has stopped, and everything it wrote is applied. -/
def coreSealed (s : State) (c : Nat) : Bool :=
  let k := s.core c
  coreStopped s c && k.settled && !toPublish k && k.releases.isEmpty

/-- Begin the release half of machine scope of a context (R380 step 3). -/
def sealPublish (c : Nat) (s : State) : State :=
  let k := s.core c
  if sealing s && coreStopped s c && k.releases.isEmpty && toPublish k then
    startRelease c 4 .none s
  else s

/-- A packet to the domain whose access has still to be performed (R380): a store, an atomic, a contribution or an
arrival. -/
def unapplied (s : State) (p : Sent) : Bool :=
  (p.typ == 2 || p.typ == 3 || p.typ == 4) && p.stage != 4 && s.inDomain p.pkg

/-- Steps 2 and 3 of a seal are done: cores, stores of the domain, stream slots, the hedge fills that have
begun, and copies at a block boundary (R380, R382, R417). -/
def sealReady (s : State) : Bool :=
  s.dom.cores.keys.all (coreSealed s) && s.dom.fills.all (fun f => !f.begun) &&
  !((s.fab.inStores ++ s.fab.waiting).any fun p => s.inDomain p.src) &&
  !(s.fab.sent.any (unapplied s)) &&
  s.dom.dies.vals.all fun d =>
    (d.tstreams.vals.all fun t => t.flight.isEmpty) && d.copies.all fun c => c.got.entries.isEmpty

/-- What a stream waited for has happened with seal `n` (R386, R400): the word of an irrevocable store has still to
end. -/
def Stream.pastSeal (n : Nat) (t : Stream) : Stream :=
  match t.hold with
  | .seal m => if m ≤ n then { t with hold := .none, wait := 0 } else t
  | .irrv m _ _ _ => if m ≤ n then { t with hold := .handed, wait := 0 } else t
  | _ => t

/-- Change every stream of a core. -/
def Core.mapStreams (k : Core) (f : Stream → Stream) : Core :=
  { k with streams := k.streams.mapVals fun _ t => f t }

/-- Change every core, live or saved. -/
def Dom.mapCores (d : Dom) (f : Core → Core) : Dom :=
  { d with cores := d.cores.mapVals fun _ k => f k, saved := d.saved.mapVals fun _ k => f k }

/-- The graph goes on from its SEAL node when seal `n` is restored (R477). -/
def Graph.pastSeal (n : Nat) (g : Graph) : Graph :=
  match g.wait with
  | .seal m => if m ≤ n then { g with wait := .none, cur := g.next } else g
  | _ => g

/-- What seal `n` records (R381, R386, R477). -/
def Dom.sealed (n : Nat) (d : Dom) : Dom :=
  let d := d.mapCores fun k => k.mapStreams (·.pastSeal n)
  { d with queues := d.queues.mapVals fun _ q => { q with graph := q.graph.map (·.pastSeal n) } }

/-- The word of an irrevocable store ends in an image (R386): the program counter stands past it. A signal that finds
its queue full is still to be made on resumption (R33). -/
def endIrrv (c e : Nat) (w : Wrd) (s : State) : State :=
  match (do endSlot; giveTokens w; nextWord; endWord w : Act Unit) (s.at c e) with
  | .ok (_, t) => t
  | .error _ => s

/-- The irrevocable stores of the running cores that wait for seal `n`: core, stream and word. -/
def irrvWords (n : Nat) (d : Dom) : List (Nat × Nat × Wrd) :=
  d.cores.entries.flatMap fun k => k.2.streams.entries.filterMap fun t =>
    match t.2.hold with
    | .irrv m _ _ w => if m ≤ n && k.2.mode == .running then some (k.1, t.1, w) else none
    | _ => none

/-- What seal `n` records of a domain (R381): the words of the irrevocable stores that it performs are complete
(R386, R401). -/
def sealImage (n : Nat) (d : Dom) (s : State) : Dom :=
  ((irrvWords n d).foldl (fun s x => endIrrv x.1 x.2.1 x.2.2 s) { s with dom := d.sealed n }).dom

/-- The launch asked for the seal itself, by `seal`, `irrv` or its graph (R391). -/
def ownSeal (n : Nat) (l : Launch) (whys : List SealWhy) : Bool :=
  whys.any fun w =>
    match w with
    | .launch i => i == n
    | .node tid q => 16 * tid + q == l.origin.queue
    | _ => false

/-- Charge the stall of an early seal to the running launches that did not ask for it (R391). -/
def chargeSeal (whys : List SealWhy) (stall : Nat) (d : Dom) : Dom :=
  if whys.any (· == .periodic) then d
  else { d with launches := d.launches.mapVals fun n l =>
    if l.status = .running && !ownSeal n l whys then { l with stalls := l.stalls + stall } else l }

/-- The bin of a stall among 32 bins of log2 cycles (R383). -/
def log2Bin (n : Nat) : Nat := Nat.min 31 (Nat.log2 n)

/-- One more, up to the largest value of 64 bits (R450). -/
def satInc (n : Nat) : Nat := Nat.min (2 ^ 64 - 1) (n + 1)

/-- Count a seal's stall (R383). -/
def Life.countSeal (l : Life) (stall : Nat) : Life :=
  { l with sealStalls := l.sealStalls.upd 0 (log2Bin stall) satInc }

/-- Open the next interval (R380 steps 4 and 5). The seal records the stalls that it has itself cost (R391). -/
def openSeal (s : State) : State :=
  match s.recov.phase with
  | .quiesce n whys =>
    if !sealReady s then s
    else
      let stall := s.clk.wcyc - s.recov.sealStart
      let dom := chargeSeal whys stall s.dom
      { s with
        clk := { s.clk with hold := false }
        dom := dom
        life := s.life.countSeal stall
        recov := { s.recov with
          n := n + 1
          phase := .draining n
          seals := s.recov.seals.put n ⟨sealImage n dom s, s.clk.scyc, s.clk.wcyc⟩
          lastResume := s.clk.wcyc
          wrote := false
          busy := launchOpen s } }
  | _ => s

/-- SEAL_OPEN (R380). -/
def execSealOpen (s : State) : Host.Outcome State Fault Refusal := agentStep openSeal s

/-! ### Lifetime counters (R450) -/

/-- Write a table of counters of `size` bytes each at an offset: each saturates at its maximum. -/
def putCounters (off size : Nat) (t : Tbl Nat) (m : Memory) : Memory :=
  t.entries.foldl (fun m e => memWrite m (off + size * e.1) (toBytes size (Nat.min e.2 (2 ^ (8 * size) - 1)))) m

/-- The counters as the bytes of R450, from offset 0x40 up. The counts per LLC slice, near cache,
scratchpad and bed store have no stated layout, and are kept apart. -/
def Life.bytes (l : Life) : Memory :=
  let m := memWrite (putCounters 0x40 8 l.ecc []) 0x3040 (toBytes 8 l.rollbacks)
  let m := putCounters 0x3148 4 l.temps (putCounters 0x3048 8 l.sealStalls m)
  putCounters 0x3DC8 8 l.droops (putCounters 0x39C8 2 l.grafts (putCounters 0x3548 8 l.retrans m))

/-- Count what the sensors of the dies have seen since the last write. (DESIGN CHOICE, log 68) -/
def Life.sense (draw : Nat) (l : Life) : Life :=
  let add (t : Tbl Nat) (first n : Nat) : Tbl Nat :=
    (span 0 n).foldl (fun t i => t.upd 0 i (· + Config.sensorCount draw (first + i))) t
  { l with temps := add l.temps 0 256, droops := add l.droops 256 8 }

/-- Write the counters to non-volatile memory. (DESIGN CHOICE, log 68) -/
def saveCounters (s : State) : State :=
  let l := s.life.sense s.draws
  { s with
    draws := s.draws + 1
    life := { l with written := l.bytes, writtenAt := s.clk.wcyc, kept := l.ecc2 } }

/-- Write them at a commit, at most once per second: 1,750,000,000 wall cycles (R450). -/
def commitCounters (s : State) : State :=
  if s.life.writtenAt + 1750000000 ≤ s.clk.wcyc then saveCounters s else s

/-! ### Egress (R385, R390, R437, R445, R447) -/

/-- Append to what leaves the device. -/
def State.toHost (s : State) (o : HostOut) : State :=
  { s with host := { s.host with out := s.host.out ++ [o] } }

/-- Queue `key`, as 16 * tid + q. -/
def State.queue (s : State) (key : Nat) : TQueue := s.dom.queues.get .init key

/-- The state with a queue replaced. -/
def State.setQueue (s : State) (key : Nat) (q : TQueue) : State :=
  { s with dom := { s.dom with queues := s.dom.queues.put key q } }

/-- The trusted interface of a tenant (R442). -/
def State.tsm (s : State) (tid : Nat) : Tsm := s.host.vf.get .unlocked tid

/-- Raise a vector of a tenant's function; an interface in ERROR drops it (R442). -/
def raiseVector (tid vec : Nat) (s : State) : State :=
  if s.tsm tid = .error then s else s.toHost (.interrupt tid vec)

/-- Send a completion record of queue `key`, and raise its vector (R445). (DEDUCED, log 54) -/
def sendRecord (key addr : Nat) (data : List Byte) (s : State) : State :=
  let q := s.queue key
  let s := s.setQueue key { q with cwptr := q.cwptr + 1 }
  let s := s.toHost (.write addr data)
  if bit q.cvec 7 then raiseVector (key / 16) (bits q.cvec 5 0) s else s

/-- Send a store to another package of another domain: a packet of kind 2 (R385, R435).
(DEDUCED, log 65) -/
def sendOutside (core launch pa : Nat) (data : List Byte) (s : State) : State :=
  noteLaunch s.dom.nextId launch (sendPacket 2 2 core (pkgBits pa) pa 0 0 2 0 (atAddr pa data) [] s)

/-- Send a multicast to the members of its group outside the domain: one packet of kind 3 (R437, R461).
(DEDUCED, log 65) -/
def sendGroup (core launch grp va : Nat) (data : List Byte) (s : State) : State :=
  let out := (((groupOf s grp).getD []).map (·.1)).filter fun p => !s.inDomain p
  if out.isEmpty then s
  else noteLaunch s.dom.nextId launch (sendPacket 3 6 core (groupKey grp) va 0 grp 0 0 (atAddr 0 data) out s)

/-- Send one egress entry by its kind: a host store, a store to another package, a multicast, a
completion record, an interrupt. (DEDUCED, log 65) -/
def sendEgress (e : Egress) (s : State) : State :=
  match e.kind with
  | 0 => s.toHost (.write e.addr e.data)
  | 1 => sendOutside e.core e.launch e.addr e.data s
  | 2 => sendGroup e.core e.launch (e.addr / 2 ^ 72) (e.addr % 2 ^ 72) e.data s
  | 3 => sendRecord e.core e.addr e.data s
  | _ => raiseVector e.core e.addr s

/-! ### The commit (R378 to R380, R386, R401) -/

/-- Perform the write of an irrevocable store of a launch at the commit of its seal (R386, R401). It is a write that the
seal performs, and has the reserve of the log (R378). (DEDUCED, log 48) -/
def doIrrv (c launch : Nat) (p : Place) (data : List Byte) (s : State) : State :=
  match p with
  | .host ba => s.toHost (.write ba data)
  | .home pa _ => publishRun pa data s
  | .remote pa _ =>
    if s.inDomain (pkgBits pa) then sendDirect c pa (atAddr pa data) s
    else sendOutside c launch pa data s
  | p => localWrite c p data s

/-- An irrevocable store that is performed: its core and launch, its place and its bytes. -/
structure Irrv where
  core : Nat
  launch : Nat
  place : Place
  data : List Byte
deriving DecidableEq, Repr

/-- The irrevocable stores of a core that wait for seal `m`. -/
def irrvsOf (m c launch : Nat) (k : Core) : List Irrv :=
  k.streams.vals.filterMap fun t =>
    match t.hold with
    | .irrv n p d _ => if n = m then some ⟨c, launch, p, d⟩ else none
    | _ => none

/-- Every irrevocable store that waits for seal `m`, in live and in saved cores. -/
def allIrrvs (m : Nat) (d : Dom) : List Irrv :=
  d.cores.entries.flatMap (fun e => irrvsOf m e.1 e.2.launch e.2) ++
  d.saved.entries.flatMap (fun e => irrvsOf m (e.1 % 1024) (e.1 / 1024) e.2)

/-- Start the merged next seal, when one was asked for (R379). -/
def nextSeal (s : State) : State :=
  match s.recov.want with
  | [] => s
  | l => { s with
      clk := { s.clk with hold := true }
      recov := { s.recov with phase := .quiesce s.recov.n l, want := [], sealStart := s.clk.wcyc } }

/-- Commit the seal that has drained (R380 step 7). -/
def commitSeal (s : State) : State :=
  match s.recov.phase with
  | .draining m =>
    let r := s.recov
    let out := r.egress.filter fun e => decide (e.interval ≤ m)
    let s := { s with recov := { r with
      k := m
      phase := .idle
      undo := r.undo.filter fun e => decide (m < e.1)
      egress := r.egress.filter fun e => decide (m < e.interval)
      ingress := r.ingress.filter fun e => decide (m < e.1)
      seals := r.seals.filter fun j _ => j == m } }
    let s := out.foldl (fun s e => sendEgress e s) s
    let s := (allIrrvs m s.dom).foldl (fun s e => doIrrv e.core e.launch e.place e.data s) s
    let s := { s with dom := s.dom.mapCores fun k => k.mapStreams (·.pastSeal m) }
    nextSeal (commitCounters s)
  | _ => s

/-- SEAL_COMMIT (R380, R385, R386, R450). -/
def execSealCommit (s : State) : Host.Outcome State Fault Refusal := agentStep commitSeal s

/-! ### Rollback (R264, R367, R387 to R391) -/

/-- T_S (R383). -/
def sealCost (s : State) : Nat := if otherMembers s then 64750 else 61250

/-- RB: one rollback allowance (R191). -/
def rollbackAllowance (s : State) : Nat := s.recov.ti + 2 * sealCost s

/-- Undo the live log segments, from the newest entry to the oldest (R388 step 3). -/
def undoAll (s : State) : Memory :=
  s.recov.undo.reverse.foldl (fun m e => memWrite m (64 * e.2.1) e.2.2) s.mem

/-- Write an ingress again (R388 step 4). -/
def replay (x : Ingress) (s : State) : State :=
  let s := { s with recov := { s.recov with ingress := s.recov.ingress ++ [(s.recov.n, x)] } }
  match x with
  | .mem pa data => publishRun pa data s
  | .events tid b => { s with dom := { s.dom with events := s.dom.events.upd 0 tid (· ||| b) } }

/-- The record of an entry or a queue that is refused with E_GRAPH (R445, R446). -/
def graphRecord (tag : Dword) : CRec := ⟨tag, 0x32, 0, 0, 0, 0, false, []⟩

/-- What the host has written in a queue stands, and so do the records already sent; a stop that came
since the seal is reported again (R388, R445). -/
def keepHostSide (live old : TQueue) : TQueue :=
  let again := live.stopped && !old.stopped
  { old with
    qbase := live.qbase, qsize := live.qsize, qwptr := live.qwptr, cbase := live.cbase
    csize := live.csize, cwptr := live.cwptr, crptr := live.crptr, cvec := live.cvec
    stopped := live.stopped
    due := if again then old.due ++ [graphRecord 0] else old.due }

/-- A stream of restored seal `n`: an irrevocable store of a later seal is issued again (R386, R404), and so is a
request for a remote unit (R388). -/
def Stream.restart (n : Nat) (t : Stream) : Stream :=
  match t.hold with
  | .irrv m _ _ _ => if n < m then { t with hold := .none, wait := 0 } else t
  | h => { t with hold := h.askAgain }

/-- A core of restored seal `n`: as after an acquire half of machine scope, its store sequences anew, and
its fault begun that much later in wall time (R264). -/
def restartCore (n now late : Nat) (k : Core) : Core :=
  { k.mapStreams (·.restart n) with
    owned := .empty, wrote := .empty, near := .empty, instants := .empty, floor := now, floors := .empty, stores := []
    releases := []
    acquires := k.acquires.filter fun a =>
      match a with
      | .number _ _ => true
      | .packet _ => false
    trackers := k.trackers.filter fun _ => false, faultAt := k.faultAt + late }

/-- The engines of a die go on later in wall time. -/
def Die.later (late : Nat) (d : Die) : Die :=
  { d with
    copies := d.copies.map fun c => { c with since := c.since + late }
    held := d.held.map fun c => { c with since := c.since + late }
    input := d.input.map fun c => { c with since := c.since + late } }

/-- What a rollback charges a launch beyond the allowance: the wall cycles from the resume of the seal, or from its
acceptance when that is later (R391). -/
def rollCharge (now resumed rb accepted : Nat) : Nat := now - Nat.max resumed accepted - rb

/-- A launch that a rollback restores: one more rollback, and the charge beyond the allowance counts as
stalls (R391). (DEDUCED, log 72) -/
def chargeRollback (now resumed rb : Nat) (live : Tbl Launch) (n : Nat) (l : Launch) : Launch :=
  if l.status ≠ .running then l
  else
    let before := ((live.get? n).map (·.rollbacks)).getD l.rollbacks
    { l with rollbacks := before + 1, stalls := l.stalls + rollCharge now resumed rb l.accepted }

/-- The first readings of the launches that the seal does not hold, those that have ended among them, with what the
rollback charges them (R388, R391). -/
def lostLaunches (now resumed rb : Nat) (live old : Tbl Launch) : List First :=
  live.entries.filterMap fun e =>
    if (old.get? e.1).isSome || e.2.handler then none
    else some ⟨e.2.origin, e.2.accepted, e.2.bound, e.2.rollbacks + 1,
      e.2.stalls + rollCharge now resumed rb e.2.accepted⟩

/-- Reload the B banks of a restored state from their source records (R367). -/
def reloadBanks (s : State) : State :=
  s.dom.beds.keys.foldl (fun s b =>
    (s.bed b).banks.entries.foldl (fun s x =>
      match x.2.owner with
      | some ctx =>
        let l := (s.dom.launches.entries.find? fun e => e.2.ctx == ctx && !e.2.handler).map (·.1)
        refillBank ctx (l.getD 0) b x.1 s
      | none => s) s) s

/-- The seal that stands (R374, R381). -/
def State.lastSeal (s : State) : Seal := (s.recov.seals.get? s.recov.k).getD ⟨.init, 0, 0⟩

/-- What a rollback restores of the domain (R388 steps 2, 5 and 6). -/
def restoredDom (s : State) (z : Seal) : Dom :=
  let late := s.clk.wcyc - z.wcyc
  let d := z.dom.mapCores (restartCore s.recov.k s.now late)
  { d with
    launches := d.launches.mapVals (chargeRollback s.clk.wcyc z.wcyc (rollbackAllowance s) s.dom.launches)
    dies := d.dies.mapVals fun _ x => x.later late
    queues := (s.dom.queues.mapVals fun key live => keepHostSide live (d.queues.get .init key))
    nextLaunch := s.dom.nextLaunch, nextId := s.dom.nextId }

/-- A contribution delivered before the seal: its answer is still to come in the restored state.
(DEDUCED, log 92) -/
def awaited (z : Seal) (s : State) (p : Sent) : Bool :=
  p.typ == 4 && p.stage == 4 && p.grp == 1 &&
  decide (p.count ≤ (({ s with dom := z.dom }).ctxCore p.launch p.core).tlIssued.get 0 1)

/-- A packet that leaves the seal domain. -/
def Sent.outside (s : State) (p : Sent) : Bool :=
  if p.members.isEmpty then !s.inDomain p.pkg && decide (p.pkg < 4096) else p.members.all fun m => !s.inDomain m

/-- The fabric after a rollback: the packets of the domain and their counts are gone (R388 step 2). -/
def clearFabric (s : State) : Fabric :=
  { s.fab with
    sent := s.fab.sent.filter fun p => p.outside s || awaited s.lastSeal s p
    inbound := s.fab.inbound.filter fun key _ => !s.inDomain (key / 1024)
    heldRel := s.fab.heldRel.filter fun h => !s.inDomain h.src
    inStores := s.fab.inStores.filter fun h => !s.inDomain h.src
    waiting := s.fab.waiting.filter fun h => !s.inDomain h.src }

/-- The 32 bytes of the report of a rollback (R389). -/
def rollReport (s : State) (x : ErrorSite) : List Byte :=
  toBytes 8 s.recov.k ++ toBytes 8 s.recov.n ++ toBytes 2 x.pkg ++ toBytes 1 x.die ++ toBytes 1 x.unit ++
  toBytes 4 0 ++ toBytes 8 s.clk.wcyc

/-- The host is told of a rollback (R388 step 7, R389): the report, and an interrupt of the physical function.
(DESIGN CHOICE, log 68) -/
def notifyRollback (report : List Byte) (s : State) : State :=
  (s.toHost (.report report)).toHost (.pfInterrupt (Config.driverVector 0))

/-- The graph waits for a seal after seal `n`. -/
def Graph.sealAfter (n : Nat) (g : Graph) : Bool :=
  match g.wait with
  | .seal m => decide (n < m)
  | _ => false

/-- Who asked for the seal that restored contexts and graphs wait for after seal `n` (R386, R400): they ask again. -/
def restoredWhys (n : Nat) (d : Dom) : List SealWhy :=
  let waits (k : Core) : Bool := k.streams.vals.any fun t =>
    match t.hold with
    | .seal m => decide (n < m)
    | _ => false
  (d.cores.vals.filter waits).map (fun k => .launch k.launch) ++
  (d.saved.entries.filter fun e => waits e.2).map (fun e => .launch (e.1 / 1024)) ++
  (d.queues.entries.filter fun e => e.2.graph.any (·.sealAfter n)).map fun e => .node (e.1 / 16) (e.1 % 16)

/-- Every core goes on after an acquire half of machine scope: it reads nothing older than what memory
holds now (R264). -/
def acquireAll (s : State) : State :=
  { s with
    hist := []
    dom := s.dom.mapCores fun k => { k with floor := s.now } }

/-- Roll the domain back to seal k (R388). A seal that restored contexts still wait for is asked for again at once
(R386, R400). -/
def rollback (x : ErrorSite) (s : State) : State :=
  let z := s.lastSeal
  let r := s.recov
  let ingress := r.ingress.map (·.2)
  let whys := restoredWhys r.k z.dom
  let t := { s with
    clk := { s.clk with hold := !whys.isEmpty, scyc := z.scyc, stall := 0 }
    mem := undoAll s
    hist := []
    dom := restoredDom s z
    fab := clearFabric s
    recov := { r with
      n := r.k + 1
      phase := if whys.isEmpty then .idle else .quiesce (r.k + 1) whys
      sealStart := s.clk.wcyc
      want := []
      seals := r.seals.filter fun j _ => j == r.k
      firsts := r.firsts ++ lostLaunches s.clk.wcyc z.wcyc (rollbackAllowance s) s.dom.launches z.dom.launches
      undo := []
      egress := r.egress.filter fun e => decide (e.interval ≤ r.k)
      ingress := []
      lastResume := s.clk.wcyc
      wrote := false
      busy := z.dom.launches.vals.any fun l => !(l.handler || l.closed) }
    life := { s.life with rollbacks := satInc s.life.rollbacks } }
  let t := reloadBanks (acquireAll (ingress.foldl (fun s i => replay i s) t))
  let t := notifyRollback (rollReport s x) t
  t.dom.launches.entries.foldl (fun s e =>
    if e.2.status = .running ∧ !e.2.handler ∧ 2 ≤ e.2.rollbacks then stopLaunch e.1 0x41 0 s else s) t

/-- Nothing is left to return to: every launch of the domain stops (R387). -/
def stopDomain (x : ErrorSite) (s : State) : State :=
  notifyRollback (rollReport s x) (s.dom.launches.keys.foldl (fun s n =>
    if (s.launch n).handler then s else stopLaunch n 0x43 0 s) s)

/-- UNCORRECTABLE_ERROR (R387, R388): in any unit of R389 but a link slot, of any package of the domain. -/
def execUncorrectableError (site : ErrorSite) (s : State) : Host.Outcome State Fault Refusal :=
  agentStep (fun s =>
    if 8 < site.unit || !s.inDomain site.pkg then s else if site.lost then stopDomain site s else rollback site s) s

end Sys2Proof.Machine
end

