-- ==== Sys2Proof/Machine/Loader.lean ====
section
/-!
DEFINITION. The command processor's reads of memory, and the loader: header, variants, template banks,
text, branch groups, fork regions, yield distances and timetables (R34, R71, R73, R79 to R81, R93 to
R96, R172, R185, R186, R203, R361, R393).
-/

namespace Sys2Proof.Machine

open Sys2Proof

/-! ### Reads of the command processor (R185, R228, R441) -/

/-- A refusal or a stop: its code and cause (R96, R193), the variant, the bound, the supervisor flag (R345),
and what else it names. -/
structure Refused where
  code : Nat
  cause : Nat := 0
  var : Nat := 0
  bound : Nat := 0
  sup : Bool := false
  info : List Nat := []
deriving DecidableEq, Repr

/-- Why the command processor does not go on. -/
inductive CpStop where
  /-- a page is being moved: it tries again -/
  | wait
  /-- the first byte that cannot be read or written, by its offset -/
  | unread (off : Nat)
  | refused (r : Refused)
deriving DecidableEq, Repr

/-- What the command processor computes. -/
abbrev Cp := Except CpStop

/-- The context of a tenant: its root slots and key set (R228, R444). -/
def tenantCtx (s : State) (tid : Nat) : Ctx :=
  let t := s.host.confs.get .init tid
  { Ctx.init with pgroot := t.pgroot, keyset := t.keyset }

/-- The place of a leaf and an address for the command processor, which has no reservation towards
other packages (R225, R226, R429). (DEDUCED, log 55) -/
def cpPlace (s : State) (e : Dword) (pa : Nat) : Option Place :=
  if bit e 63 then some (.host pa)
  else if 0xE80000000 ≤ pa % 2 ^ 45 ∨ pkgBits pa ≠ s.ident.pkg then none
  else some (.home pa (bit e 5))

/-- Translate a range for an access kind, page by page of 64 KiB; the base names the segment in its bits
[71:64] (R227 to R231, R445). (DEDUCED, log 55) -/
def cpRuns (s : State) (x : Ctx) (acc base : Nat) : Nat → Nat → Nat → Cp (List Chunk)
  | 0, _, _ => pure []
  | fuel + 1, off, n =>
    if n = 0 then pure []
    else
      let va := base / 2 ^ 64 * 2 ^ 64 + (base + off) % 2 ^ 64
      let m := Nat.min n (65536 - va % 65536)
      match walk s x va with
      | .stop _ _ => .error (.unread off)
      | .leaf e level =>
        let pa := physOf e level va
        if (leafStop x e acc).isSome then .error (.unread off)
        else if bit e 8 || tombstone s pa then .error .wait
        else match cpPlace s e pa with
          | none => .error (.unread off)
          | some p => do
            let r ← cpRuns s x acc base fuel (off + m) (n - m)
            pure (⟨off, m, level, p⟩ :: r)

/-- The runs of `n` bytes from offset `off` of a base. -/
def cpRange (s : State) (x : Ctx) (acc base off n : Nat) : Cp (List Chunk) :=
  cpRuns s x acc base (n / 65536 + 2) off n

/-- Bytes of a run, as published now (R185, R262). -/
def cpChunk (s : State) (c : Chunk) : List Byte :=
  match c.place with
  | .home pa _ => memRead s.mem pa c.len
  | .host ba => (span ba c.len).map fun a => Config.hostByte a s.draws
  | _ => []

/-- Read `n` bytes from offset `off` of a base. (DEDUCED, log 55) -/
def cpRead (s : State) (x : Ctx) (base off n : Nat) : Cp (List Byte) := do
  let l ← cpRange s x 0 base off n
  pure (l.flatMap (cpChunk s))

/-! ### Header and variant table (R93 to R95) -/

/-- E_OBJHDR with what it names. -/
def badHeader {α : Type} (var off : Nat) : Cp α := .error (.refused { code := 0x20, var := var, info := [off] })

/-- A byte of the object cannot be read: E_OBJHDR with its offset (R96). -/
def asHeader {α : Type} (x : Cp α) : Cp α :=
  match x with
  | .error (.unread off) => badHeader 0 off
  | y => y

/-- A field of a byte list is zero. -/
def zeroAt (l : List Byte) (off n : Nat) : Bool := fieldOf l off n == 0

/-- A section: a multiple of 64, and within the address space (R93). -/
def sectionOk (off len : Nat) : Bool := off % 64 == 0 && decide (off + len ≤ 2 ^ 64)

/-- An entry of the variant table (R94). -/
structure Variant where
  key : Dword
  tlen : Nat
  nbank : List Nat
  tmpl : Nat
  text : Nat
  bmap : Nat
  nbmap : Nat
  nests : Nat
  ymap : Nat
  ttOff : Nat
  ttLen : Nat
  nestOff : Nat
deriving DecidableEq, Repr

/-- A variant from its 128 bytes. -/
def variantOf (l : List Byte) : Variant :=
  let f := fieldOf l
  let nb := f 0x0C 4
  { key := BitVec.ofNat 64 (f 0 8), tlen := f 0x08 4
    nbank := (span 0 4).map fun e => nb / 16 ^ e % 16 + 1
    tmpl := f 0x10 8, text := f 0x18 8, bmap := f 0x20 8, nbmap := f 0x28 4, nests := f 0x2C 4
    nestOff := f 0x30 8, ymap := f 0x38 8, ttOff := f 0x40 8, ttLen := f 0x48 8 }

/-- The number of template banks of a variant. -/
def Variant.banks (v : Variant) : Nat := v.nbank.foldl (· + ·) 0

/-- The sections of a variant: offset, length, and whether they hold text or banks (R71, R96). -/
def Variant.sections (v : Variant) : List (Nat × Nat × Bool) :=
  [(v.tmpl, 1032 * v.banks, true), (v.text, 4 * v.tlen, true), (v.bmap, 8 * v.nbmap, false),
   (v.nestOff, 256 * v.nests, false), (v.ymap, (v.tlen + 7) / 8, false), (v.ttOff, v.ttLen, false)]

/-- The checks of an entry of the variant table; `tt` says that the header has a timetable.
(DESIGN CHOICE, log 109) -/
def variantOk (tt : Bool) (l : List Byte) : Bool :=
  let v := variantOf l
  decide (v.tlen ≤ 2 ^ 24) && zeroAt l 0x0E 2 && zeroAt l 0x50 48 &&
  v.sections.all (fun x => sectionOk x.1 x.2.1) && (tt || (v.ttOff == 0 && v.ttLen == 0))

/-- The header of a code object. -/
structure Header where
  tt : Bool
  entry : Nat
  nvar : Nat
  ymax : Nat
  dataOff : Nat
  dataLen : Nat
  vtab : Nat
deriving DecidableEq, Repr

/-- A header from its 128 bytes. -/
def headerOf (l : List Byte) : Header :=
  let f := fieldOf l
  { tt := f 0x06 2 % 2 == 1, entry := f 0x08 4, nvar := f 0x0C 4, ymax := f 0x10 2
    dataOff := f 0x20 8, dataLen := f 0x28 8, vtab := f 0x30 8 }

/-- The checks of a header (R93). -/
def headerOk (l : List Byte) : Bool :=
  let h := headerOf l
  fieldOf l 0 4 == 0x435A4E4B && fieldOf l 4 2 == 1 && fieldOf l 6 2 / 2 == 0 &&
  decide (1 ≤ h.nvar) && decide (h.nvar ≤ 8) && decide (1 ≤ h.ymax) && decide (h.ymax ≤ 2048) &&
  zeroAt l 0x12 14 && zeroAt l 0x38 72 &&
  sectionOk h.dataOff h.dataLen && sectionOk h.vtab (128 * h.nvar)

/-- The end of the last section. -/
def objectEnd (h : Header) (vs : List Variant) : Nat :=
  (vs.flatMap (·.sections)).foldl (fun m x => Nat.max m (x.1 + x.2.1))
    (Nat.max 128 (Nat.max (h.dataOff + h.dataLen) (h.vtab + 128 * h.nvar)))

/-- Read and check the header and every variant, and that the whole object can be read (R93, R94, R96). -/
def readObject (s : State) (x : Ctx) (base : Nat) : Cp (Header × List Variant) := do
  let hb ← asHeader (cpRead s x base 0 128)
  let h := headerOf hb
  if !headerOk hb then badHeader 0 0
  let vb ← asHeader (cpRead s x base h.vtab (128 * h.nvar))
  let es := (span 0 h.nvar).map fun i => (vb.drop (128 * i)).take 128
  match (span 0 h.nvar).find? fun i => !variantOk h.tt ((es[i]?).getD []) with
  | some i => badHeader i (h.vtab + 128 * i)
  | none => pure ()
  let vs := es.map variantOf
  let _ ← asHeader (cpRange s x 0 base 0 (objectEnd h vs))
  let _ ← asHeader ((vs.flatMap (·.sections)).mapM fun c =>
    if c.2.2 then cpRange s x 3 base c.1 c.2.1 else pure [])
  pure (h, vs)

/-- The first variant that matches the defect signature (R95). (DESIGN CHOICE, log 110) -/
def chooseVariant (sig : Dword) (want : Nat) (vs : List Variant) : Cp (Nat × Variant) :=
  match vs.zipIdx.find? fun v => sig &&& ~~~v.1.key == 0 with
  | none => .error (.refused { code := 0x21, var := 0xFF })
  | some v =>
    if want ≠ 0xFF ∧ want ≠ v.2 then .error (.refused { code := 0x21, var := v.2 })
    else pure (v.2, v.1)

/-! ### Template banks (R79, R80, R94) -/

/-- A template is well formed for an engine's table with `nb` banks (R80, R393). -/
def templateOk (e nb : Nat) (t : BitVec 128) : Bool :=
  bits t 117 116 == e &&
  (match parseTemplate t with
   | some (o, w) => (instrOf o w).isSome && (o != 0x389 || decide (bits w.imm 3 0 < nb))
   | none => false)

/-- The template `k` in the bytes of a bank. (DEDUCED, log 39) -/
def templateAt (l : List Byte) (k : Nat) : BitVec 128 := BitVec.ofNat 128 (fieldOf l (8 + 16 * k) 16)

/-- A bank from its 1,032 bytes. -/
def bankOf (l : List Byte) : TBank :=
  { mask := BitVec.ofNat 64 (fieldOf l 0 8)
    tm := (span 0 64).foldl (fun t k =>
      if templateAt l k = 0 then t else t.put k (templateAt l k)) .empty }

/-- The first template of a bank that fails R79. -/
def badTemplate (e nb : Nat) (b : TBank) : Option Nat :=
  (span 0 64).find? fun k =>
    let t := b.tm.get 0 k
    if bit b.mask k then !templateOk e nb t else t != 0

/-- The banks of a variant in order, as engine and number. -/
def bankList (nbank : List Nat) : List (Nat × Nat) :=
  nbank.zipIdx.flatMap fun x => (span 0 x.1).map fun b => (x.2, b)

/-- Read and check the banks (R79). -/
def readBanks (s : State) (x : Ctx) (base i : Nat) (v : Variant) : Cp (Tbl TBank) :=
  (bankList v.nbank).zipIdx.foldlM (fun (t : Tbl TBank) e => do
    let l ← asHeader (cpRead s x base (v.tmpl + 1032 * e.2) 1032)
    let b := bankOf l
    match badTemplate e.1.1 ((v.nbank[e.1.1]?).getD 1) b with
    | some k => .error (.refused { code := 0x22, var := i, info := [e.1.1, e.1.2, k] })
    | none => pure (t.put (16 * e.1.1 + e.1.2) b)) .empty

/-! ### The text (R34, R73, R81, R94, R172, R203) -/

/-- A word of the text: its index, the index after its literals, its opcode and amended template. -/
structure TWord where
  idx : Nat
  next : Nat
  opc : Nat
  w : Wrd
deriving DecidableEq, Repr

/-- E_TEXT with the variant and the word. -/
def badText {α : Type} (var idx : Nat) : Cp α := .error (.refused { code := 0x23, var := var, info := [idx] })

/-- An entry of the bank map: start and recorded banks. -/
abbrev BEntry := Nat × Nat

/-- The recorded bank of an engine at a word: that of the last entry at or below it (R94). -/
def recordedBank (m : List BEntry) (i e : Nat) : Nat :=
  match (m.filter fun x => decide (x.1 ≤ i)).getLast? with
  | some x => x.2 / 16 ^ e % 16
  | none => 0

/-- The first bank-map entry that breaks R94, by its start; a variant without an entry is refused at word 0.
(DESIGN CHOICE, log 93) -/
def badMap (v : Variant) (l : List Byte) : Option Nat :=
  let f := fun i => (fieldOf l (8 * i) 4, fieldOf l (8 * i + 4) 2, fieldOf l (8 * i + 6) 2)
  if v.nbmap = 0 then some 0
  else ((span 0 v.nbmap).find? fun i =>
    let x := f i
    x.2.2 != 0 || (i == 0 && x.1 != 0) || (i != 0 && decide (x.1 ≤ (f (i - 1)).1)) ||
    decide (v.tlen ≤ x.1) ||
    (span 0 4).any fun e => decide ((v.nbank[e]?).getD 1 ≤ x.2.1 / 16 ^ e % 16)).map fun i => (f i).1

/-- The bank map. -/
def mapOf (v : Variant) (l : List Byte) : List BEntry :=
  (span 0 v.nbmap).map fun i => (fieldOf l (8 * i) 4, fieldOf l (8 * i + 4) 2)

/-- Read the words of a text in order, each under its recorded bank; the index of the first that fails
(R73, R81). -/
def scanText (banks : Tbl TBank) (m : List BEntry) (nbank : List Nat) :
    Nat → Nat → List Word → Except Nat (List TWord)
  | 0, _, _ => .ok []
  | _ + 1, _, [] => .ok []
  | fuel + 1, i, pw :: r =>
    let n := litCount pw
    let e := bits pw 31 30
    let t := bits pw 29 24
    let b := banks.get ⟨0, .empty⟩ (16 * e + recordedBank m i e)
    if (n != 0 && (r[n - 1]?).isNone) || !bit b.mask t then .error i
    else match (decodeText (b.tm.get 0 t) pw ((r[0]?).getD 0) ((r[1]?).getD 0)).bind opcOf with
      | none => .error i
      | some (o, w) =>
        if o = 0x389 ∧ (nbank[e]?).getD 1 ≤ bits w.imm 3 0 then .error i
        else do
          let rest ← scanText banks m nbank fuel (i + 1 + n) (r.drop n)
          pure (⟨i, i + 1 + n, o, w⟩ :: rest)

/-- The immediate target of a word that has one (R127, R200). -/
def TWord.target? (x : TWord) : Option Nat :=
  if hasTarget x.opc || (x.opc == 0x052 && !isZ x.w.sa) then some (target x.w) else none

/-- The first word whose target is not a word of the text (R81). -/
def badTarget (ws : List TWord) : Option Nat :=
  (ws.find? fun x =>
    match x.target? with
    | some t => !ws.any (·.idx == t)
    | none => false).map (·.idx)

/-- Opcodes that may not stand in a fork region: `fork`, `endit`, `wfe`, `halt`, `tbank` (R172, R203). -/
def notInRegion (opc : Nat) : Bool := opIn opc [0x052, 0x054, 0x055, 0x039, 0x389]

/-- A word may stand in the fork region from `lo` to `hi`. -/
def inRegionOk (lo hi : Nat) (x : TWord) : Bool :=
  x.w.eng == .X && !notInRegion x.opc &&
  (match x.target? with
   | some t => decide (lo ≤ t) && decide (t ≤ hi)
   | none => true)

/-- The fork regions of a text, or the first word that breaks R172 or R203. -/
def findRegions : List TWord → Except Nat (List (Nat × Nat))
  | [] => .ok []
  | x :: r =>
    if x.opc ≠ 0x052 then findRegions r
    else match r.find? fun y => y.opc == 0x053 with
      | none => .error x.idx
      | some j =>
        let body := r.filter fun y => decide (y.idx ≤ j.idx)
        match body.find? fun y => !inRegionOk (x.idx + 1) j.idx y with
        | some y => .error y.idx
        | none =>
          match x.target? with
          | some t =>
            if t ≤ x.idx ∨ j.idx < t then .error x.idx
            else (findRegions r).map ((x.idx, j.idx) :: ·)
          | none => (findRegions r).map ((x.idx, j.idx) :: ·)

/-- Collect the branch groups: the open run, the groups found, and the first word outside one (R34). -/
def groupStep (regions : List (Nat × Nat)) (a : List TWord × List (Nat × Nat) × Option Nat) (x : TWord) :
    List TWord × List (Nat × Nat) × Option Nat :=
  let ctl := isControl x.opc && !(regions.any fun r => decide (r.1 < x.idx) && decide (x.idx ≤ r.2))
  if a.2.2.isSome then a
  else if !ctl then
    match a.1.head? with
    | some y => ([], a.2.1, some y.idx)
    | none => a
  else
    let run := a.1 ++ [x]
    if run.length < 4 then (run, a.2)
    else
      let one := [Engine.A, .X, .M, .S].all fun e => run.any (·.w.eng == e)
      let first := (run.head?.map (·.idx)).getD 0
      if one then ([], (first, x.next) :: a.2.1, none) else ([], a.2.1, some first)

/-- The branch groups of a text, or the first word that breaks R34. -/
def findGroups (regions : List (Nat × Nat)) (ws : List TWord) : Except Nat (List (Nat × Nat)) :=
  match ws.foldl (groupStep regions) ([], [], none) with
  | (_, _, some i) => .error i
  | (y :: _, _, none) => .error y.idx
  | ([], l, none) => .ok l.reverse

/-- The Y bits that the yield map must hold, word by word; literals have none (R94). -/
def yieldBits (ws : List TWord) : List Bool :=
  ws.flatMap fun x => x.w.y :: List.replicate (x.next - x.idx - 1) false

/-- The first word at which the yield map differs. -/
def badYieldMap (ws : List TWord) (m : List Byte) : Option Nat :=
  ((yieldBits ws).zipIdx.find? fun x => bit ((m[x.2 / 8]?).getD 0) (x.2 % 8) != x.1).map (·.2)

/-! ### Yield distances (R361) -/

/-- The first word of an engine at or after an index. -/
def nextOf (ws : List TWord) (e : Engine) (i : Nat) : Option Nat :=
  (ws.find? fun x => x.w.eng == e && decide (i ≤ x.idx)).map (·.idx)

/-- The index at which the engine goes on after a word: after its branch group, when it stands in one. -/
def afterWord (groups : List (Nat × Nat)) (x : TWord) : Nat :=
  match groups.find? fun g => decide (g.1 ≤ x.idx) && decide (x.idx < g.2) with
  | some g => g.2
  | none => x.next

/-- The words that may follow a word on its engine's paths (R361): `jmpi` and `ret` end a path, an unguarded
`br` only goes to its target, and a path with no word of the engine left has passed its last one, as in the program
of R339. (DEDUCED, log 20) -/
def followers (ws : List TWord) (groups : List (Nat × Nat)) (x : TWord) : List Nat :=
  if x.opc = 0x032 ∨ x.opc = 0x034 then []
  else
    let on := (nextOf ws x.w.eng (afterWord groups x)).toList
    match x.target? with
    | none => on
    | some t =>
      let dest := (nextOf ws x.w.eng t).toList
      if x.opc = 0x030 ∧ !x.w.ge then dest else dest ++ on

/-- The slots of a word (R361). -/
def slotsOf (x : TWord) : Nat := if x.opc = 0x389 then 24 else x.w.rep.toNat + 1

/-- A path may end at the word: a mark, a `halt` or an `endit`. -/
def pathEnds (x : TWord) : Bool := x.w.y || x.opc == 0x039 || x.opc == 0x054

/-- One pass of the longest distances to a path's end, from the last word up. (DEDUCED, log 20) -/
def distPass (ws : List TWord) (groups : List (Nat × Nat)) (d : Tbl Nat) : Tbl Nat :=
  ws.reverse.foldl (fun d x =>
    if (d.get? x.idx).isSome then d
    else
      let l := if pathEnds x then [] else followers ws groups x
      if l.all fun i => (d.get? i).isSome then
        d.put x.idx (slotsOf x + l.foldl (fun m i => Nat.max m (d.get 0 i)) 0)
      else d) d

/-- Passes until nothing changes. -/
def distAll (ws : List TWord) (groups : List (Nat × Nat)) : Nat → Tbl Nat → Tbl Nat
  | 0, d => d
  | n + 1, d =>
    let x := distPass ws groups d
    if x.entries.length = d.entries.length then d else distAll ws groups n x

/-- The first word with a path that does not end within YMAX slots (R361). -/
def badYield (ws : List TWord) (groups : List (Nat × Nat)) (ymax : Nat) : Option Nat :=
  let d := distAll ws groups (ws.length + 1) .empty
  (ws.find? fun x =>
    match d.get? x.idx with
    | some n => decide (ymax < n)
    | none => true).map (·.idx)

/-! ### Loading (R79 to R81, R93 to R96, R186) -/

/-- A loaded variant: its number, its key and its code. -/
structure Loaded where
  var : Nat
  key : Dword
  code : Code
deriving DecidableEq, Repr

/-- The words of 4 bytes, and of 8, in a byte list. -/
def words4 (n : Nat) (l : List Byte) : List Word := (span 0 n).map fun i => BitVec.ofNat 32 (fieldOf l (4 * i) 4)

/-- The 8-byte words of a byte list. -/
def words8 (n : Nat) (l : List Byte) : List Dword := (span 0 n).map fun i => BitVec.ofNat 64 (fieldOf l (8 * i) 8)

/-- The answer of a check that names a word, as E_TEXT. -/
def orText {α : Type} (var : Nat) (x : Except Nat α) : Cp α :=
  match x with
  | .ok y => pure y
  | .error i => badText var i

/-- Load the variant of a code object that the part runs, or refuse it (R96).
(DESIGN CHOICE, log 96) -/
def loadCode (s : State) (x : Ctx) (base want : Nat) : Cp Loaded := do
  let (h, vs) ← readObject s x base
  let (i, v) ← chooseVariant s.ident.signature want vs
  let banks ← readBanks s x base i v
  let text := words4 v.tlen (← asHeader (cpRead s x base v.text (4 * v.tlen)))
  let mb ← asHeader (cpRead s x base v.bmap (8 * v.nbmap))
  match badMap v mb with
  | some w => badText i w
  | none => pure ()
  let ws ← orText i (scanText banks (mapOf v mb) v.nbank v.tlen 0 text)
  match badTarget ws with
  | some w => badText i w
  | none => pure ()
  let regions ← orText i (findRegions ws)
  let groups ← orText i (findGroups regions ws)
  let ym ← asHeader (cpRead s x base v.ymap ((v.tlen + 7) / 8))
  match badYieldMap ws ym with
  | some w => badText i w
  | none => pure ()
  match badYield ws groups h.ymax with
  | some w => .error (.refused { code := 0x24, var := i, info := [w] })
  | none => pure ()
  let tt ← asHeader (cpRead s x base v.ttOff v.ttLen)
  pure ⟨i, v.key,
    { text := text, banks := banks, nbank := v.nbank, entry := h.entry, ymax := h.ymax
      timetable := words8 (ceilDiv v.ttLen 8) tt, groups := groups, regions := regions }⟩

/-- The core of a timetable entry (R175, R186). -/
def ttCore (x : Dword) : Nat := 128 * bits x 29 27 + 32 * bits x 26 25 + 8 * bits x 24 23 + bits x 22 20

/-- One timetable entry may follow another: sorted, and the runs of one engine apart (R186). -/
def ttAfter (x y : Dword) : Bool :=
  decide (bits x 29 18 < bits y 29 18) ||
  (bits x 29 18 == bits y 29 18 && decide (bits x 63 30 + bits x 15 0 < bits y 63 30))

/-- Each entry may follow the one before it. -/
def ttSorted : List Dword → Bool
  | x :: y :: r => ttAfter x y && ttSorted (y :: r)
  | _ => true

/-- A timetable is acceptable for a set of cores and a length (R186). (DEDUCED, log 20) -/
def timetableOk (cores : List Nat) (ttlen : Nat) (l : List Dword) : Bool :=
  ttSorted l && l.all fun x =>
    bits x 17 16 == 0 && cores.any (· == ttCore x) && decide (bits x 63 30 + bits x 15 0 < ttlen)

end Sys2Proof.Machine
end

