-- ==== Sys2Proof/Machine/Graph.lean ====
section
/-!
DEFINITION. The command processor: launch queues, task graphs, admission and completion records (R176 to
R178, R184, R185, R190 to R193, R365, R388, R445 to R447, R474, R477).
-/

namespace Sys2Proof.Machine

open Sys2Proof

/-! ### Records (R176, R177) -/

/-- E_NEST. -/
def badNest {α : Type} : Cp α := .error (.refused { code := 0x31 })

/-- The loop-nest record in 256 bytes (R176). -/
def nestOf (l : List Byte) : Nest :=
  let f := fieldOf l
  let lev := span 0 4
  { code := f 0x00 8, entry := f 0x08 4, var := f 0x0C 1, depth := f 0x0D 1 % 8
    tt := f 0x0E 1 % 2 == 1, serp := f 0x0E 1 / 2 % 2 == 1, stages := f 0x0F 1, plots := f 0x10 4
    cmask := f 0x14 1, scr := f 0x15 1, rings := f 0x16 2, chains := f 0x18 4, win := f 0x1C 1
    itb := f 0x20 8, ttlen := f 0x28 8
    start := lev.map fun i => BitVec.ofNat 64 (f (0x40 + 24 * i) 8)
    count := lev.map fun i => f (0x48 + 24 * i) 4
    step := lev.map fun i => BitVec.ofNat 32 (f (0x4C + 24 * i) 4)
    ord := lev.map fun i => f (0x50 + 24 * i) 1 % 4 }

/-- Reserved fields of a record are zero (R176). -/
def nestRsvOk (l : List Byte) : Bool :=
  let f := fieldOf l
  zeroAt l 0x1D 3 && zeroAt l 0x30 16 && zeroAt l 0xA0 96 && f 0x0D 1 / 8 == 0 && f 0x0E 1 / 4 == 0 &&
  (span 0 4).all fun i => f (0x50 + 24 * i) 1 / 4 == 0 && zeroAt l (0x51 + 24 * i) 7

/-- The loops of a record: counts, steps and a permutation of order positions (R177). -/
def nestLoopsOk (n : Nest) : Bool :=
  decide (1 ≤ n.depth) && decide (n.depth ≤ 4) &&
  ((span 0 4).all fun i =>
    let c := (n.count[i]?).getD 0
    let o := (n.ord[i]?).getD 0
    if i < n.depth then c != 0 && decide (o < n.depth)
    else c == 0 && (n.step[i]?).getD 0 == 0 && o == 0) &&
  ((span 0 n.depth).all fun o => (n.ord.take n.depth).any (· == o))

/-- The checks of R177 and R178. -/
def nestOk (l : List Byte) : Bool :=
  let n := nestOf l
  nestRsvOk l && nestLoopsOk n && decide (10 ≤ n.scr) && decide (n.scr ≤ 19) &&
  ((span 0 32).all fun i => !n.plots.testBit i || n.stages.testBit (i / 4)) &&
  n.cmask != 0 && (n.win == 0 || !n.tt) && (n.itb != 0 || n.tt) && decide (n.total < 2 ^ 48)

/-! ### Granted cores (R175, R179, R190) -/

/-- The cores that a record selects and that are present in the variant: a plot that the variant avoids
is not (R95, R179). (DEDUCED, log 23) -/
def selectedCores (s : State) (n : Nest) (key : Dword) : List Nat :=
  (span 0 1024).filter fun c =>
    n.stages.testBit (c / 128) && n.plots.testBit (c / 32) && n.cmask.testBit (c % 8) &&
    !bit key (8 * s.dieOf c + c / 32 % 4)

/-- The tenant reserves a bed: bit 16 · stage + 4 · plot + bed (R444). -/
def reservesBed (t : TConf) (b : Nat) : Bool := t.valid && t.beds.testBit b

/-- A bed of the pool: no tenant reserves it (R190). -/
def poolBed (s : State) (b : Nat) : Bool :=
  (span 0 16).all fun t => !reservesBed (s.host.confs.get .init t) b

/-- The pool beds that a launch holds. (DEDUCED, log 49) -/
def poolOf (s : State) (l : Launch) : List Nat :=
  ((span 0 128).filter fun b => l.cores.any fun c => c / 8 == b).filter (poolBed s)

/-- Launches that are accepted and unfinished. -/
def unfinished (s : State) : List (Nat × Launch) := s.dom.launches.entries.filter fun e => e.2.claims

/-- Take `n` of a list, each drawn freely (log 4). (DEDUCED, log 49) -/
def drawSome : Nat → List Nat → State → List Nat × State
  | 0, _, s => ([], s)
  | n + 1, l, s =>
    let d := s.drawN l.length
    match l[d.1]? with
    | none => ([], d.2)
    | some b =>
      let r := drawSome n (l.erase b) d.2
      (b :: r.1, r.2)

/-- E_NOADMIT with its cause (R192): 1 no core, 2 deadline, 3 pool cap, 4 slack. The number that reports
a cause is free. (DEDUCED, log 20) -/
def noAdmit {α : Type} (why var bound : Nat) : Cp α :=
  .error (.refused { code := 0x30, cause := (Config.admitCause why).toNat, var := var, bound := bound })

/-- The pool request of a tenant is served (R190). -/
def servePool (tid : Nat) (s : State) : State :=
  let d := s.dom
  { s with dom := { d with
    poolLast := tid, poolCount := if d.poolLast = tid then d.poolCount + 1 else 1 } }

/-- The granted cores of a class among those selected (R190, R192). -/
def grantCores (s : State) (tid cls var : Nat) (sel : List Nat) : Cp (List Nat × State) :=
  let t := s.host.confs.get .init tid
  let mine := sel.filter fun c => reservesBed t (c / 8)
  if !mine.isEmpty then pure (mine, s)
  else if cls ≠ 3 then noAdmit 1 var 0
  else
    let pool := (span 0 128).filter (poolBed s)
    let live := unfinished s
    let held := (live.filter (·.2.tid == tid)).foldl (fun n e => n + (poolOf s e.2).length) 0
    let cap := pool.length * t.weight / 256
    if cap ≤ held then noAdmit 3 var 0
    else
      let want := pool.filter fun b => sel.any fun c => c / 8 == b
      let free := want.filter fun b => !(live.any fun e => e.2.cores.any fun c => c / 8 == b)
      let d := drawSome (cap - held) free s
      let mine := sel.filter fun c => d.1.any (· == c / 8)
      if mine.isEmpty then noAdmit 1 var 0 else pure (mine, servePool tid d.2)

/-! ### Admission (R191, R192, R365) -/

/-- L0: launch latency. -/
def launchLatency : Nat := 1750

/-- What admission adds for one pre-emption. -/
def preemptCost : Nat := 12288

/-- The remaining bound of an accepted launch. -/
def remainingBound (s : State) (l : Launch) : Nat := l.accepted + l.bound - s.clk.wcyc

/-- The accepted, unfinished launches of the tenant that share a bed with some cores. -/
def sharing (s : State) (tid : Nat) (cores : List Nat) : List Launch :=
  ((unfinished s).map (·.2)).filter fun l =>
    l.tid == tid && l.cores.any fun c => cores.any fun d => d / 8 == c / 8

/-- Q: the launches of class ≤ p, and timetabled ones of any class (R191, R365). -/
def queueTime (s : State) (cls : Nat) (l : List Launch) : Nat :=
  l.foldl (fun q x =>
    if x.cls < cls then q + remainingBound s x + preemptCost
    else if x.cls = cls ∨ x.nest.tt then q + remainingBound s x
    else q) 0

/-- W (R191). (DEDUCED, log 49) -/
def workOf (n : Nest) (g : Nat) : Nat := if n.tt then n.ttlen else ceilDiv n.total g * n.itb

/-- B from Q and W (R191). -/
def boundOf (s : State) (q w : Nat) : Nat :=
  let b := launchLatency + q + withStalls w
  b + ceilDiv b s.recov.ti * sealCost s + rollbackAllowance s

/-- W′ of the iterations that a launch has still to end. (DEDUCED, log 49) -/
def remainingWork (l : Launch) : Nat :=
  withStalls (ceilDiv (l.total - l.ended) l.cores.length * l.nest.itb)

/-- Pre-empting the launch would leave it too little slack (R192). -/
def slackShort (s : State) (b : Nat) (v : Launch) : Bool :=
  decide ((v.accepted + v.bound : Int) - (s.clk.wcyc + remainingWork v : Nat) < (b + preemptCost : Nat))

/-- The first reading of a launch that a rollback undid (R388). -/
def firstOf (s : State) (o : Origin) : Option First := s.recov.firsts.find? (·.origin == o)

/-- A context number is in use: a launch, the supervisor, or a tag in the arrays (R366). -/
def ctxUsed (s : State) (x : Nat) : Bool :=
  x == 0 || (s.sup.map (·.ctx)) == some x ||
  (s.dom.launches.vals.any fun l => !l.closed && l.ctx == x) ||
  s.dom.beds.vals.any fun b =>
    (b.banks.vals.any fun y => y.owner == some x) || b.links.vals.any fun y => y.owner == x

/-- The 12-bit number of a new context: any that is not in use (R366). (DESIGN CHOICE, log 11) -/
def freshCtx (s : State) : Nat × State :=
  let d := s.drawN 4096
  ((((span 0 4096).map fun i => (d.1 + i) % 4096).find? fun x => !ctxUsed s x).getD 0, d.2)

/-- A save area in the memory of this package. -/
def saveArea (s : State) (kind i : Nat) : Nat :=
  let x := Config.saveArea s.draws kind i
  s.ident.pkg * 2 ^ 48 + x % 8 * 2 ^ 45 + 64 * (x / 8 % 0x39FE0000)

/-- The save areas that the supervisor names for a new context (R347): of its cores and its beds, and of every link
slot of the package, any of which a chain may name (R147, R418). (DESIGN CHOICE, log 11) -/
def withAreas (s : State) (l : Launch) (x : Ctx) : Ctx :=
  let put (t : Tbl Nat) (kind : Nat) (is : List Nat) : Tbl Nat :=
    is.foldl (fun t i => t.put i (saveArea s kind i)) t
  let beds := launchBeds s l
  { x with
    coreArea := put x.coreArea 0 l.cores, bedArea := put x.bedArea 1 beds
    linkArea := ⟨(span 0 512).map fun i => (i, saveArea s 2 i)⟩
    coreVa := l.cores.foldl (fun t c => t.put c (Config.saveVa s.draws c)) x.coreVa }

/-- A launch as accepted, in context `ctx`. (DESIGN CHOICE, log 11) -/
def newLaunch (s : State) (ctx tid cls : Nat) (rec_ : Nest) (o : Origin) (x : Loaded) (cores : List Nat)
    (accepted bound rollbacks stalls : Nat) : Launch :=
  let entry := if rec_.entry = 0xFFFFFFFF then x.code.entry else rec_.entry
  { Launch.init with
    tid := tid, ctx := ctx, cls := cls, nest := rec_, code := { x.code with entry := entry }
    seed := (s.host.confs.get .init tid).seed, cores := cores, accepted := accepted, bound := bound
    work := workOf rec_ cores.length, var := x.var
    total := if rec_.tt then cores.length else rec_.total
    rollbacks := rollbacks, stalls := stalls, status := .running, origin := o, closed := false }

/-- Request the pre-emption of the cores that launches of lower class hold on some beds (R190, R362,
R365). -/
def askPreempt (cls tid : Nat) (cores : List Nat) (s : State) : State :=
  (unfinished s).foldl (fun s e =>
    let v := e.2
    if v.tid ≠ tid ∨ v.cls ≤ cls ∨ v.nest.tt then s
    else (v.cores.filter fun c => cores.any fun d => d / 8 == c / 8).foldl (fun s c =>
      let k := s.core c
      if s.holdsCtx e.1 c && k.preempt.isNone && k.mode != .idle && k.mode != .stopped then
        s.setCore c { k with preempt := some ⟨0, 0, []⟩ }
      else s) s) s

/-- Accept a launch: its context, its place among the launches, and the pre-emptions that it asks for
(R26, R190, R192, R228, R347). -/
def acceptLaunch (s : State) (tid : Nat) (l : Nat → Launch) : Nat × State :=
  let n := s.dom.nextLaunch
  let f := freshCtx s
  let x := l f.1
  let s := askPreempt x.cls tid x.cores f.2
  (n, { s with
    draws := s.draws + 1
    recov := { s.recov with
      busy := true, firsts := s.recov.firsts.filter fun f => f.origin != x.origin }
    dom := { s.dom with
      nextLaunch := n + 1
      launches := s.dom.launches.put n x
      ctxs := s.dom.ctxs.put f.1 (withAreas s x (tenantCtx s tid)) } })

/-- What a record asks for: the checks before the grant, its variant and the cores that it selects (R177,
R186). -/
def askOf (s : State) (tid : Nat) (l : List Byte) : Cp (Nest × Loaded × List Nat) := do
  if !nestOk l then badNest
  let n := nestOf l
  let x ← loadCode s (tenantCtx s tid) n.code n.var
  let sel := selectedCores s n x.key
  if n.tt && !timetableOk sel n.ttlen x.code.timetable then
    .error (.refused { code := 0x33, var := x.var })
  pure (n, x, sel)

/-- Cores are asked for of the pool: class 3, and none of them in a bed that the tenant reserves (R190). -/
def fromPool (s : State) (tid cls : Nat) (sel : List Nat) : Bool :=
  cls == 3 && !(sel.any fun c => reservesBed (s.host.confs.get .init tid) (c / 8))

/-- Admit a record for a class and a deadline: the launch's number, or the refusal (R177, R190 to R192,
R388). `turn` says that a pool request of the tenant is served now. (DEDUCED, log 20) -/
def admitRecord (s : State) (tid cls deadline : Nat) (turn : Bool) (o : Origin) (l : List Byte) :
    Cp (Nat × State) := do
  let (n, x, sel) ← askOf s tid l
  if fromPool s tid cls sel && !turn then .error .wait
  let (cores, s) ← grantCores s tid cls x.var sel
  if n.tt && cores.length != sel.length then noAdmit 1 x.var 0
  let make (acc b r st : Nat) : Nat × State :=
    acceptLaunch s tid fun i => newLaunch s i tid cls n o x cores acc b r st
  match firstOf s o with
  | some f =>
    if 2 ≤ f.rollbacks then .error (.refused { code := 0x41, var := x.var, bound := f.bound })
    else pure (make f.accepted f.bound f.rollbacks f.stalls)
  | none =>
    let near := sharing s tid cores
    let b := boundOf s (queueTime s cls near) (workOf n cores.length)
    if deadline != 0 && decide (deadline < b) then noAdmit 2 x.var b
    if near.any fun v => decide (cls < v.cls) && !v.nest.tt && slackShort s b v then noAdmit 4 x.var b
    pure (make s.clk.wcyc b 0 0)

/-! ### Graphs (R184, R185, R446, R447) -/

/-- Put the graph of a queue. -/
def setGraph (key : Nat) (g : Graph) (s : State) : State :=
  s.setQueue key { s.queue key with graph := some g }

/-- The graph goes on at a node, or returns to its LOOP (R184). -/
def goTo (key : Nat) (g : Graph) (next : Option Nat) (s : State) : State :=
  setGraph key { g with wait := .none, cur := next } s

/-- The graph of a queue ends or stops: its record is due when it stops or when one is wanted (R446,
R447). (DEDUCED, log 22) -/
def endGraph (key : Nat) (g : Graph) (r : Refused) (node : Nat) (s : State) : State :=
  let q := s.queue key
  let bound := if r.bound = 0 then g.bound else r.bound
  let var := if r.code = 0 then g.var else r.var
  let rec_ : CRec := ⟨g.tag, r.code, r.cause, var, node, bound, r.sup, r.info⟩
  s.setQueue key { q with
    graph := none, due := if r.code = 0 && !g.want then q.due else q.due ++ [rec_] }

/-- Stop a graph at a node with E_GRAPH (R185). -/
def badGraph (key : Nat) (g : Graph) (node : Nat) (s : State) : State :=
  endGraph key g { code := 0x32 } node s

/-- Finish what a node computed: it waits, stops the graph, or leaves a state. -/
def finishNode (key : Nat) (g : Graph) (x : Cp State) (s : State) : State :=
  match x with
  | .ok t => { t with draws := t.draws + 1 }
  | .error .wait => s
  | .error (.unread _) => badGraph key g g.node s
  | .error (.refused r) => endGraph key g r g.node s

/-- A malformed node. (DEDUCED, log 22) -/
def malformed {α : Type} : Cp α := .error (.refused { code := 0x32 })

/-- Field bytes that a kind of node uses from 0x10 (R184). -/
def nodeUse (kind : Nat) : Nat := ([16, 24, 32, 24, 24, 0, 2, 1][kind]?).getD 0

/-- A node is well formed by its kind, flags and unused bytes (R184). (DEDUCED, log 22) -/
def nodeOk (b : List Byte) : Bool :=
  let kind := fieldOf b 0 1
  let fl := fieldOf b 1 1
  decide (kind ≤ 7) && decide (fl < 4) && zeroAt b 2 6 && (fl % 2 == 0 || decide (kind ≤ 1)) &&
  zeroAt b (0x10 + nodeUse kind) (48 - nodeUse kind)

/-- A successor field: 0 is no address, and an address is 64-byte aligned (R184). -/
def successor (v : Nat) : Cp (Option Nat) :=
  if v = 0 then pure none else if v % 64 ≠ 0 then malformed else pure (some v)

/-- A 64-bit word that a node names, 8-byte aligned (R184, R185). -/
def cpWord (s : State) (tid va : Nat) : Cp Nat :=
  if va % 8 ≠ 0 then malformed
  else do
    let l ← cpRead s (tenantCtx s tid) va 0 8
    pure (ofBytes l)

/-- ASYNC nodes of the graph are outstanding (R185). -/
def outstanding (s : State) (g : Graph) : Bool :=
  !g.copies.isEmpty || g.async.any fun a => !(s.launch a.1).closed

/-- A launch of the graph that has been stopped, with its node (R193). -/
def stoppedLaunch (s : State) (g : Graph) : Option (Refused × Nat) :=
  let waited := match g.wait with
    | .launch n => [(n, g.node)]
    | _ => []
  (waited ++ g.async).findSome? fun a =>
    match (s.launch a.1).status with
    | .stopped code cause sup info =>
      some ({ code := code, cause := cause, var := (s.launch a.1).var, sup := sup, info := info }, a.2)
    | _ => none

/-- The graph of a queue after its launches have been looked at: none when one was stopped. -/
def liveGraph (s : State) (key : Nat) : Option Graph :=
  (s.queue key).graph.bind fun g => if (stoppedLaunch s g).isSome then none else some g

/-- Stop a graph of which a launch was stopped (R193). -/
def settleGraph (key : Nat) (s : State) : State :=
  match (s.queue key).graph with
  | none => s
  | some g =>
    match stoppedLaunch s g with
    | some r => endGraph key g r.1 r.2 s
    | none => s

/-- The graph at a KERNEL node whose bound has not been computed: what a refusal reports as B is free (R192,
R447). (DESIGN CHOICE, log 99) -/
def unknownBound (kind : Nat) (g : Graph) (s : State) : Graph :=
  if kind = 0 then { g with bound := ((Config.freeValue s.draws).setWidth 64).toNat } else g

/-- Run the node of a kind that the graph of a queue has come to. A malformed node stops the graph. The
interface must be in RUN (R442). -/
def runNode (kind tid q : Nat) (f : Graph → List Byte → State → Cp State) (s : State) : State :=
  let key := 16 * tid + q
  let s := settleGraph key s
  match liveGraph s key with
  | none => s
  | some g =>
    match g.wait, g.cur with
    | .none, some a =>
      if s.tsm tid ≠ .run then s
      else
        let g := { g with node := a }
        match cpRead s (tenantCtx s tid) a 0 64 with
        | .error .wait => s
        | .error _ => badGraph key g a s
        | .ok b =>
          if !nodeOk b then badGraph key g a s
          else if fieldOf b 0 1 ≠ kind ∨ ((fieldOf b 1 1).testBit 1 && outstanding s g) then s
          else finishNode key (unknownBound kind g s) (f g b s) { s with draws := s.draws + 1 }
    | _, _ => s

/-- The launch that a graph waits for has completed (R185). -/
def launchWait (key : Nat) (s : State) : State :=
  match liveGraph s key with
  | none => s
  | some g =>
    match g.wait with
    | .launch n => if (s.launch n).closed then goTo key g g.next s else s
    | _ => s

/-- The node that a graph of a tenant has come to, when it can run now. -/
def readyNode (s : State) (tid : Nat) (g : Graph) : Option (List Byte) :=
  match g.wait, g.cur with
  | .none, some a =>
    match cpRead s (tenantCtx s tid) a 0 64 with
    | .ok b => if nodeOk b && !((fieldOf b 1 1).testBit 1 && outstanding s g) then some b else none
    | _ => none
  | _, _ => none

/-- A queue has come to a KERNEL node that asks for pool beds (R190). -/
def asksPool (s : State) (key : Nat) : Bool :=
  let tid := key / 16
  match (liveGraph s key).bind fun g => if g.cls = 3 then readyNode s tid g else none with
  | none => false
  | some b =>
    s.tsm tid == .run && fieldOf b 0 1 == 0 &&
    match (do
      let l ← cpRead s (tenantCtx s tid) (fieldOf b 0x10 8) 0 256
      askOf s tid l) with
    | .ok x => fromPool s tid 3 x.2.2
    | .error _ => false

/-- The pool request of a tenant is the one to serve: simultaneous requests go in cyclic order of their
tenants, each of which has as many in succession as its weight (R190). (DEDUCED, log 90) -/
def poolTurn (s : State) (tid : Nat) : Bool :=
  let asks := (span 0 16).filter fun t => (span 0 16).any fun q => asksPool s (16 * t + q)
  let last := s.dom.poolLast
  if asks.any (· == last) && decide (s.dom.poolCount < (s.host.confs.get .init last).weight) then tid == last
  else match (asks.filter (last < ·)).min? with
    | some t => tid == t
    | none => (asks.min?.getD tid) == tid

/-- What a KERNEL node does: take in the record and launch it (R184, R185, R191, R192, R474).
(DESIGN CHOICE, log 94) -/
def kernelNode (key tid : Nat) (g : Graph) (b : List Byte) (s : State) : Cp State := do
  let next ← successor (fieldOf b 8 8)
  let g := { g with kernels := g.kernels + 1 }
  let o : Origin := ⟨key, (s.queue key).qrptr.toNat, g.node, g.kernels⟩
  let l ← cpRead s (tenantCtx s tid) (fieldOf b 0x10 8) 0 256
  let (n, s) ← admitRecord s tid g.cls (fieldOf b 0x18 8) (g.cls != 3 || poolTurn s tid) o l
  let x := s.launch n
  let g := { g with bound := x.bound, var := x.var }
  if (fieldOf b 1 1).testBit 0 then
    pure (goTo key { g with async := (n, g.node) :: g.async } next s)
  else pure (setGraph key { g with wait := .launch n, next := next } s)

/-- KERNEL (R184, R185, R190 to R193). -/
def execKernel (tid q : Nat) (s : State) : Host.Outcome State Fault Refusal :=
  agentStep (fun s =>
    let key := 16 * tid + q
    runNode 0 tid q (kernelNode key tid) (launchWait key (settleGraph key s))) s

/-! ### COPY nodes (R184, R185) -/

/-- What a COPY node does: the copy starts. -/
def copyNode (key : Nat) (g : Graph) (b : List Byte) (s : State) : Cp State := do
  let next ← successor (fieldOf b 8 8)
  let len := fieldOf b 0x20 8
  if len % 64 ≠ 0 ∨ 2 ^ 40 ≤ len then malformed
  else
    let c : GCopy := ⟨s.dom.nextId, g.node, fieldOf b 0x10 8, fieldOf b 0x18 8, len, s.now, []⟩
    let s := { s with dom := { s.dom with nextId := s.dom.nextId + 1 } }
    let g := { g with copies := g.copies ++ [c] }
    if (fieldOf b 1 1).testBit 0 then pure (goTo key g next s)
    else pure (setGraph key { g with wait := .copy c.id, next := next } s)

/-- Bytes of a run at an instant. -/
def chunkAt (s : State) (t : Nat) (c : Chunk) : List Byte :=
  match c.place with
  | .home pa true => memRead s.mem pa c.len
  | .home pa false => (span pa c.len).map fun a => valueAt s a t
  | _ => cpChunk s c

/-- The command processor may write a run now (R378, R385). -/
def cpRoom (s : State) (c : Chunk) : Bool :=
  match c.place with
  | .home pa _ => !logStall s (pa / 64) && !logStall s ((pa + c.len - 1) / 64)
  | .host _ => decide (egressFill s + c.len ≤ 67108864)
  | _ => true

/-- The number of the command processor among the writers of egress. -/
def cpWriter : Nat := 1024

/-- Write a run for the command processor: published at once, or buffered for the host (R226, R375). -/
def cpWrite (s : State) (x : Chunk × List Byte) : State :=
  match x.1.place with
  | .home pa _ => publishRun pa x.2 s
  | .host ba => pushEgress cpWriter 0 ba x.2 s
  | _ => s

/-- A byte of memory as the last seal has it, with what has come from outside the domain since: what an agent outside
the domain may return, whatever is rolled back (R264, R376, R388). (DEDUCED, log 69) -/
def sealedByte (s : State) (pa : Nat) : Byte :=
  let old := match s.recov.undo.find? fun e => e.2.1 == pa / 64 with
    | some e => (e.2.2[pa % 64]?).getD 0
    | none => memGet s.mem pa
  (s.recov.ingress.reverse.findSome? fun x =>
    match x.2 with
    | .mem a data => if a ≤ pa then data[pa - a]? else none
    | .events _ _ => none).getD old

/-- Copy block `i` of a copy: read as published at an instant since its start, and written (R184, R185).
(DEDUCED, log 52) -/
def copyOne (tid i : Nat) (c : GCopy) (s : State) : Cp State := do
  let x := tenantCtx s tid
  let src ← cpRange s x 0 c.src (64 * i) 64
  let dst ← cpRange s x 1 c.dst (64 * i) 64
  if !dst.all (cpRoom s) then .error .wait
  let d := drawIn c.floor s.now s
  let data := src.flatMap (chunkAt s d.1)
  let place := dst.map fun r => { r with off := r.off - 64 * i }
  pure ((cutData data place).foldl cpWrite d.2)

/-- A copy of a graph has moved: it is done once every block is copied (R185). -/
def copyMoved (key : Nat) (g : Graph) (c : GCopy) (s : State) : State :=
  let rest := g.copies.filter (·.id != c.id)
  if c.copied.length < c.len / 64 then
    setGraph key { g with copies := g.copies.map fun x => if x.id = c.id then c else x } s
  else
    let g := { g with copies := rest }
    if g.wait = .copy c.id then goTo key g g.next s else setGraph key g s

/-- Move one of the graph's copies on by a block, each drawn freely (log 4). (DEDUCED, log 52) -/
def moveCopy (key tid : Nat) (s : State) : State :=
  match liveGraph s key with
  | none => s
  | some g =>
    let d := s.drawN g.copies.length
    match g.copies[d.1]? with
    | none => s
    | some c =>
      let left := (span 0 (c.len / 64)).filter fun i => !c.copied.any (· == i)
      let e := d.2.drawN left.length
      match left[e.1]? with
      | none => copyMoved key g c e.2
      | some i =>
        finishNode key { g with node := c.node }
          ((copyOne tid i c e.2).map (copyMoved key g { c with copied := i :: c.copied })) s

/-- COPY (R184, R185): the node starts, or a copy under way moves on. -/
def execCopy (tid q : Nat) (s : State) : Host.Outcome State Fault Refusal :=
  agentStep (fun s =>
    let key := 16 * tid + q
    let s := settleGraph key s
    match liveGraph s key with
    | none => s
    | some g =>
      let d := s.drawN (if g.wait = .none ∧ !g.copies.isEmpty then 2 else 1)
      if g.copies.isEmpty ∨ d.1 = 1 then runNode 1 tid q (copyNode key) d.2 else moveCopy key tid d.2) s

/-! ### Choices and loops (R184) -/

/-- What a COND node does. -/
def condNode (key tid : Nat) (g : Graph) (b : List Byte) (s : State) : Cp State := do
  let w ← cpWord s tid (fieldOf b 0x10 8)
  let next ← successor (fieldOf b 8 8)
  let alt ← successor (fieldOf b 0x28 8)
  pure (goTo key g (if Nat.land w (fieldOf b 0x18 8) = fieldOf b 0x20 8 then next else alt) s)

/-- COND (R184, R185). -/
def execCond (tid q : Nat) (s : State) : Host.Outcome State Fault Refusal :=
  agentStep (runNode 2 tid q (condNode (16 * tid + q) tid)) s

/-- What a LOOP node does when it is reached: it stands ready for its first test (R184, R185). -/
def loopEnter (key : Nat) (g : Graph) (b : List Byte) (s : State) : Cp State :=
  if 8 ≤ g.loops.length then malformed
  else pure (goTo key { g with loops := (g.node, fieldOf b 0x20 8) :: g.loops } none s)

/-- The test of the innermost LOOP before its next pass (R184). -/
def loopTest (key tid node left : Nat) (rest : List (Nat × Nat)) (g : Graph) (b : List Byte) (s : State) :
    Cp State := do
  if !nodeOk b || fieldOf b 0 1 != 3 then malformed
  let va := fieldOf b 0x18 8
  let again ← (if va = 0 then pure (decide (0 < left)) else (cpWord s tid va).map (· != 0))
  let body ← successor (fieldOf b 0x10 8)
  let next ← successor (fieldOf b 8 8)
  if again then
    pure (goTo key { g with loops := (node, if va = 0 then left - 1 else left) :: rest } body s)
  else pure (goTo key { g with loops := rest } next s)

/-- Return to the innermost LOOP, which is reached again (R184, R185). -/
def loopAgain (tid q : Nat) (s : State) : State :=
  let key := 16 * tid + q
  match liveGraph s key with
  | none => s
  | some g =>
    match g.wait, g.cur, g.loops with
    | .none, none, (node, left) :: rest =>
      if s.tsm tid ≠ .run then s
      else
        let g := { g with node := node }
        finishNode key g (do
          let b ← cpRead s (tenantCtx s tid) node 0 64
          loopTest key tid node left rest g b s) s
    | _, _, _ => s

/-- LOOP_NODE (R184, R185). -/
def execLoopNode (tid q : Nat) (s : State) : Host.Outcome State Fault Refusal :=
  agentStep (fun s =>
    let key := 16 * tid + q
    let s := settleGraph key s
    match (s.queue key).graph.bind (·.cur) with
    | some _ => runNode 3 tid q (loopEnter key) s
    | none => loopAgain tid q s) s

/-- What a SWITCH node does. -/
def switchNode (key tid : Nat) (g : Graph) (b : List Byte) (s : State) : Cp State := do
  let i ← cpWord s tid (fieldOf b 0x10 8)
  let n := fieldOf b 0x20 8
  let next ← successor (fieldOf b 8 8)
  if n = 0 ∨ 16 < n then malformed
  else if i < n then do
    let v ← cpWord s tid ((fieldOf b 0x18 8 + 8 * i) % 2 ^ 64)
    let dest ← successor v
    pure (goTo key g dest s)
  else pure (goTo key g next s)

/-- SWITCH (R184, R185). -/
def execSwitch (tid q : Nat) (s : State) : Host.Outcome State Fault Refusal :=
  agentStep (runNode 4 tid q (switchNode (16 * tid + q) tid)) s

/-! ### Seals, signals and events (R184, R185, R379, R447, R477) -/

/-- What a SEAL node does: it asks for a seal and waits for its commit. -/
def sealAsk (key tid q : Nat) (g : Graph) (b : List Byte) (s : State) : Cp State := do
  let next ← successor (fieldOf b 8 8)
  let n := sealNumber s
  pure (setGraph key { g with wait := .seal n, next := next } (requestSeal (.node tid q) s))

/-- The seal that a graph waits for has committed. -/
def sealWait (key : Nat) (s : State) : State :=
  match liveGraph s key with
  | none => s
  | some g =>
    match g.wait with
    | .seal n => if n ≤ s.recov.k then goTo key g g.next s else s
    | _ => s

/-- SEAL_NODE (R184, R477). -/
def execSealNode (tid q : Nat) (s : State) : Host.Outcome State Fault Refusal :=
  agentStep (fun s =>
    let key := 16 * tid + q
    runNode 5 tid q (sealAsk key tid q) (sealWait key (settleGraph key s))) s

/-- Set event bits of a tenant (R185). -/
def setEvents (tid : Nat) (b : Dword) (s : State) : State :=
  { s with dom := { s.dom with events := s.dom.events.upd 0 tid (· ||| b) } }

/-- What a SIGNAL node does: an interrupt is held until the interval seals, and waits while the egress buffer is full
(R385, R447). -/
def signalNode (key tid : Nat) (g : Graph) (b : List Byte) (s : State) : Cp State := do
  let next ← successor (fieldOf b 8 8)
  let ty := fieldOf b 0x10 1
  let num := fieldOf b 0x11 1
  if 1 < ty ∨ 63 < num ∨ (ty = 0 ∧ (s.host.confs.get .init tid).vn ≤ num) then malformed
  else if ty = 0 ∧ !egressRoom s 1 then .error .wait
  else
    let s := if ty = 1 then setEvents tid (BitVec.ofNat 64 (2 ^ num)) s else pushEgress tid 4 num [] s
    pure (goTo key g next s)

/-- SIGNAL (R184, R185, R447). -/
def execSignal (tid q : Nat) (s : State) : Host.Outcome State Fault Refusal :=
  agentStep (runNode 6 tid q (signalNode (16 * tid + q) tid)) s

/-- What a WAITEV node does: it waits for its bit. -/
def waitNode (key : Nat) (g : Graph) (b : List Byte) (s : State) : Cp State := do
  let next ← successor (fieldOf b 8 8)
  let num := fieldOf b 0x10 1
  if 63 < num then malformed
  else pure (setGraph key { g with wait := .event num, next := next } s)

/-- A graph that waits for an event bit finds it set and clears it (R185). -/
def eventWait (key tid : Nat) (s : State) : State :=
  match liveGraph s key with
  | none => s
  | some g =>
    match g.wait with
    | .event n =>
      let e := s.dom.events.get 0 tid
      if bit e n then
        goTo key g g.next { s with dom := { s.dom with
          events := s.dom.events.put tid (e &&& ~~~(BitVec.ofNat 64 (2 ^ n))) } }
      else s
    | _ => s

/-- WAITEV (R184, R185). -/
def execWaitev (tid q : Nat) (s : State) : Host.Outcome State Fault Refusal :=
  agentStep (fun s =>
    let key := 16 * tid + q
    eventWait key tid (runNode 7 tid q (waitNode key) (settleGraph key s))) s

/-! ### Queues and completion records (R445 to R447) -/

/-- The queue exists for the tenant: below QN (R445). -/
def queueExists (s : State) (tid q : Nat) : Bool :=
  decide (tid < 16) && decide (q < (s.host.confs.get .init tid).qn)

/-- Records of a queue that wait in the egress buffer. (DEDUCED, log 54) -/
def pendingRecords (s : State) (key : Nat) : Nat :=
  (s.recov.egress.filter fun e => e.kind == 3 && e.core == key).length

/-- The ring has no room for another record (R445). -/
def ringFull (s : State) (key : Nat) : Bool :=
  let q := s.queue key
  decide (q.csize ≤ (q.cwptr - q.crptr).toNat + pendingRecords s key)

/-- A size of a ring: a power of two from 16 to 65,536 (R445). -/
def ringSize (n : Nat) : Bool := (span 4 13).any fun i => n == 2 ^ i

/-- The graph of an entry, or none when a reserved field is nonzero or a field is out of range (R446).
(DEDUCED, log 22) -/
def entryGraph (b : List Byte) : Option Graph :=
  let f := fieldOf b
  let first := f 0 8
  if f 8 1 < 4 ∧ f 9 1 < 2 ∧ zeroAt b 0x0A 6 ∧ zeroAt b 0x18 40 ∧ first % 64 = 0 ∧ first ≠ 0 then
    some { cur := some first, node := 0, wait := .none, next := none, cls := f 8 1
           tag := BitVec.ofNat 64 (f 0x10 8), want := f 9 1 == 1, loops := [], async := [], copies := []
           bound := 0, var := 0, kernels := 0 }
  else none

/-- Take the next entry of a queue and start its graph (R184, R445, R446). -/
def takeEntry (tid q : Nat) (s : State) : State :=
  let key := 16 * tid + q
  let x := s.queue key
  if s.tsm tid ≠ .run ∨ !queueExists s tid q ∨ x.stopped ∨ !ringSize x.qsize ∨ x.qrptr = x.qwptr ∨
      x.graph.isSome ∨ !x.due.isEmpty ∨ ringFull s key then s
  else
    let va := (x.qbase + 64 * (x.qrptr.toNat % x.qsize)) % 2 ^ 64
    let took := { x with qrptr := x.qrptr + 1 }
    match cpRead s (tenantCtx s tid) va 0 64 with
    | .error .wait => s
    | .error _ => s.setQueue key { took with due := x.due ++ [graphRecord 0] }
    | .ok b =>
      match entryGraph b with
      | some g => s.setQueue key { took with graph := some g }
      | none => s.setQueue key { took with
          due := x.due ++ [graphRecord (BitVec.ofNat 64 (fieldOf b 0x10 8))] }

/-- QUEUE_ENTRY_TAKE (R184, R445, R446). -/
def execQueueEntryTake (tid q : Nat) (s : State) : Host.Outcome State Fault Refusal :=
  agentStep (takeEntry tid q) s

/-- The 32 bytes of a completion record (R447). -/
def recordBytes (r : CRec) : List Byte :=
  toBytes 8 r.tag.toNat ++ toBytes 2 r.code ++ toBytes 1 r.cause ++ toBytes 1 r.var ++ toBytes 4 0 ++
  toBytes 8 r.node ++ toBytes 8 r.bound

/-- A graph that has come to its end, with no ASYNC node outstanding, ends (R184, R447).
(DEDUCED, log 22) -/
def finishGraph (key : Nat) (s : State) : State :=
  match liveGraph s key with
  | none => s
  | some g =>
    match g.wait, g.cur, g.loops with
    | .none, none, [] => if outstanding s g then s else endGraph key g { code := 0 } 0 s
    | _, _, _ => s

/-- Write the oldest record due, when the ring and the egress buffer have room: it is held until the interval seals (R445, R447).
(DEDUCED, log 54) -/
def writeRecord (tid q : Nat) (s : State) : State :=
  let key := 16 * tid + q
  let x := s.queue key
  match x.due with
  | [] => s
  | r :: rest =>
    if !ringSize x.csize ∨ ringFull s key ∨ !egressRoom s 32 then s
    else
      let i := x.cwptr.toNat + pendingRecords s key
      let va := (x.cbase + 32 * (i % x.csize)) % 2 ^ 64
      match cpRange s (tenantCtx s tid) 1 va 0 32 with
      | .ok [⟨_, _, _, .host ba⟩] =>
        pushEgress key 3 ba (recordBytes r) (s.setQueue key { x with due := rest, last := some r })
      | _ => s

/-- COMPLETION_RECORD_WRITE (R445, R447). -/
def execCompletionRecordWrite (tid q : Nat) (s : State) : Host.Outcome State Fault Refusal :=
  agentStep (fun s =>
    let key := 16 * tid + q
    writeRecord tid q (finishGraph key (settleGraph key s))) s

end Sys2Proof.Machine
end

