-- ==== Sys2Proof/Machine/HostEvents.lean ====
section
/-!
DEFINITION. The host and the management window: doorbells, the memory aperture, the connection table,
tenants, trusted interfaces, starts and lifetime counters (R212, R373, R385, R388, R410, R411, R441 to
R450).
-/

namespace Sys2Proof.Machine

open Sys2Proof

/-! ### The trusted interface (R442) -/

/-- Set the trusted-interface state of a tenant. -/
def State.setTsm (s : State) (tid : Nat) (t : Tsm) : State :=
  { s with host := { s.host with vf := s.host.vf.put tid t } }

/-- The launches of a tenant that have not ended. -/
def tenantLaunches (s : State) (tid : Nat) : List Nat :=
  (s.dom.launches.entries.filter fun e => e.2.tid == tid && e.2.claims).map (·.1)

/-- The graphs of a tenant are gone; no code names a record for them. (DEDUCED, log 52) -/
def dropGraphs (tid : Nat) (s : State) : State :=
  { s with dom := { s.dom with queues := s.dom.queues.mapVals fun key q =>
      if key / 16 = tid then { q with graph := none } else q } }

/-- Stop the running launches of a tenant (R442). (DEDUCED, log 52; DEDUCED, log 53) -/
def haltTenant (tid : Nat) (s : State) : State :=
  (tenantLaunches s tid).foldl (fun s n => stopLaunch n 0 0 s) (dropGraphs tid s)

/-- The interface enters ERROR: the launches stop, the aperture closes and interrupts are dropped.
(DEDUCED, log 53; DEDUCED, log 67) -/
def enterError (tid : Nat) (s : State) : State := (haltTenant tid s).setTsm tid .error

/-- INTERFACE_ERROR (R442). -/
def execInterfaceError (tid : Nat) (s : State) : Host.Outcome State Fault Refusal :=
  agentStep (fun s => if tid < 16 then enterError tid s else s) s

/-- LOCK (R442): from CONFIG_UNLOCKED, else ignored. -/
def execLock (tid : Nat) (s : State) : Host.Outcome State Fault Refusal :=
  agentStep (fun s => if tid < 16 ∧ s.tsm tid = .unlocked then s.setTsm tid .locked else s) s

/-- START (R442): from CONFIG_LOCKED, else ignored. -/
def execStart (tid : Nat) (s : State) : Host.Outcome State Fault Refusal :=
  agentStep (fun s => if tid < 16 ∧ s.tsm tid = .locked then s.setTsm tid .run else s) s

/-- The cores whose scratchpads and bed stores STOP scrubs: those of the tenant's launches and of the
beds that it reserves. (DEDUCED, log 53) -/
def tenantCores (s : State) (tid : Nat) : List Nat :=
  let live := (tenantLaunches s tid).flatMap fun n => (s.launch n).cores
  (span 0 1024).filter fun c =>
    live.any (· == c) || reservesBed (s.host.confs.get .init tid) (c / 8)

/-- Scrub the scratchpad of a core and the store of its bed. (DEDUCED, log 53) -/
def scrub (s : State) (c : Nat) : State :=
  let s := if (s.core c).spad.isEmpty then s else s.setCore c { s.core c with spad := [] }
  let b := s.bedOf c
  if (s.bed b).store.isEmpty then s else s.setBed b { s.bed b with store := [] }

/-- Discard the queued entries of a tenant; its stopped queues go on (R442, R445). -/
def discardEntries (tid : Nat) (s : State) : State :=
  { s with dom := { s.dom with queues := s.dom.queues.mapVals fun key q =>
      if key / 16 = tid then { q with qrptr := q.qwptr, stopped := false } else q } }

/-- STOP (R442): from any state. -/
def execStop (tid : Nat) (s : State) : Host.Outcome State Fault Refusal :=
  agentStep (fun s =>
    if tid < 16 then
      let cores := tenantCores s tid
      (cores.foldl scrub (discardEntries tid (haltTenant tid s))).setTsm tid .unlocked
    else s) s

/-- A free value of any number of bytes (log 4). (DESIGN CHOICE, log 68) -/
def freeBytes (n : Nat) (s : State) : List Byte × State :=
  ((span 0 n).map fun i => (Config.freeValue (s.draws + i)).setWidth 8, { s with draws := s.draws + n })

/-- What LOCK freezes of a tenant, field by field (R442): its record, with PGROOT and KEYSET, and the frozen fields of its
queues. (DESIGN CHOICE, log 68) -/
def frozenBytes (s : State) (tid : Nat) : List Byte :=
  let conf := s.host.confs.get .init tid
  conf.raw ++ (span 0 conf.qn).flatMap fun q =>
    let x := s.queue (16 * tid + q)
    toBytes 8 x.qbase ++ toBytes 4 x.qsize ++ toBytes 8 x.cbase ++ toBytes 4 x.csize ++ toBytes 4 x.cvec.toNat

/-- The interface report of a tenant (R443): the digest of the frozen configuration stands while it is frozen.
(DESIGN CHOICE, log 68) -/
def reportBytes (frozen : List Byte) (conf : TConf) (nonce : BitVec 256) : List Byte :=
  let d (x : BitVec 256) := toBytes 32 x.toNat
  let body := d Config.deviceIdentity ++ d Config.firmwareDigest ++
    d (Config.shake256 (Config.frozenForm frozen)) ++ d (Config.shake256 conf.raw) ++ d nonce
  body ++ Config.falconSign (Config.shake256 body)

/-- GET_REPORT (R442, R443). -/
def execGetReport (tid : Nat) (nonce : BitVec 256) (s : State) : Host.Outcome State Fault Refusal :=
  agentStep (fun s =>
    if s.tsm tid = .locked ∨ s.tsm tid = .run then
      s.toHost (.tdisp (reportBytes (frozenBytes s tid) (s.host.confs.get .init tid) nonce))
    else s) s

/-! ### Doorbells, events and registers (R185, R373, R410, R444, R445) -/

/-- The host writes QWPTR in RUN; a count beyond the ring stops the queue (R445).
(DEDUCED, log 24) -/
def writeQwptr (tid q : Nat) (v : Word) (s : State) : State :=
  if s.tsm tid ≠ .run ∨ !queueExists s tid q then s
  else
    let key := 16 * tid + q
    let x := { s.queue key with qwptr := v }
    if ringSize x.qsize && decide (x.qsize < (v - x.qrptr).toNat) && !x.stopped then
      s.setQueue key { x with stopped := true, due := x.due ++ [graphRecord 0] }
    else s.setQueue key x

/-- QWPTR_WRITE (R445). -/
def execQwptrWrite (tid q : Nat) (value : Word) (s : State) : Host.Outcome State Fault Refusal :=
  agentStep (writeQwptr tid q value) s

/-- The host writes CRPTR in RUN; a write that would overrun the ring is discarded (R445).
(DEDUCED, log 24) -/
def writeCrptr (tid q : Nat) (v : Word) (s : State) : State :=
  let key := 16 * tid + q
  let x := s.queue key
  if s.tsm tid ≠ .run ∨ !queueExists s tid q ∨ x.csize < (x.cwptr - v).toNat then s
  else s.setQueue key { x with crptr := v }

/-- CRPTR_WRITE (R445). -/
def execCrptrWrite (tid q : Nat) (value : Word) (s : State) : Host.Outcome State Fault Refusal :=
  agentStep (writeCrptr tid q value) s

/-- A write from outside the domain is recorded with the open interval (R388). -/
def noteIngress (x : Ingress) (s : State) : State :=
  { s with recov := { s.recov with ingress := s.recov.ingress ++ [(s.recov.n, x)] } }

/-- EVSET (R185, R388, R445). -/
def execEvset (tid : Nat) (bits : Dword) (s : State) : Host.Outcome State Fault Refusal :=
  agentStep (fun s =>
    if tid < 16 then noteIngress (.events tid bits) (setEvents tid bits s) else s) s

/-- A write to a field of a queue block that only CONFIG_UNLOCKED allows; a value out of the field's range
is ignored (R445). (DEDUCED, log 24) -/
def queueField (vn off : Nat) (v : Nat) (x : TQueue) : TQueue :=
  let w := v % 2 ^ 32
  match off with
  | 0x00 => if v % 64 = 0 then { x with qbase := v } else x
  | 0x08 => if w = 0 ∨ ringSize w then { x with qsize := w } else x
  | 0x18 => if v % 32 = 0 then { x with cbase := v } else x
  | 0x20 => if ringSize w then { x with csize := w } else x
  | 0x2C =>
    if w % 64 < vn then { x with cvec := BitVec.ofNat 32 (w % 64 + w / 128 % 2 * 128) } else x
  | _ => x

/-- A write to a queue block: doorbells, frozen fields, and fields that are read-only or reserved (R442,
R445). (DEDUCED, log 67) -/
def writeQueue (tid q off : Nat) (v : Dword) (s : State) : State :=
  let key := 16 * tid + q
  if !queueExists s tid q then s
  else match off with
    | 0x0C => writeQwptr tid q (v.setWidth 32) s
    | 0x28 => writeCrptr tid q (v.setWidth 32) s
    | _ =>
      if [0x00, 0x08, 0x18, 0x20, 0x2C].any (· == off) then
        if s.tsm tid = .unlocked then
          s.setQueue key (queueField (s.host.confs.get .init tid).vn off v.toNat (s.queue key))
        else enterError tid s
      else s

/-- A write to a register of the management or tenant window (R373, R410, R444, R445).
(DEDUCED, log 24) -/
def writeMgmt (r : MgmtReg) (v : Dword) (s : State) : State :=
  match r with
  | .conn i => if i < 64 then { s with connNext := s.connNext.put i (v.setWidth 32) } else s
  | .ctbase => { s with ctbaseNext := v.toNat }
  | .interval =>
    if 1750000 ≤ v.toNat ∧ v.toNat ≤ 175000000 then { s with recov := { s.recov with ti := v.toNat } }
    else s
  | .members i =>
    if i < 64 then { s with recov := { s.recov with members := s.recov.members.put i v } } else s
  | .domainId => { s with recov := { s.recov with domainId := v.toNat } }
  | .queue tid q off => writeQueue tid q off v s
  | .msix tid i =>
    if tid < 16 ∧ i < 128 then { s with host := { s.host with msix := s.host.msix.put (128 * tid + i) v } }
    else s
  | .pfMsix i => if i < 16 then { s with host := { s.host with pfMsix := s.host.pfMsix.put i v } } else s

/-- REGISTER_WRITE (R373, R410, R442, R444, R445). -/
def execRegisterWrite (reg : MgmtReg) (value : Dword) (s : State) : Host.Outcome State Fault Refusal :=
  agentStep (writeMgmt reg value) s

/-! ### The memory aperture (R226, R388, R441, R442) -/

/-- Write a run for the host: published at its home and recorded as ingress. (DEDUCED, log 69) -/
def hostWrite (s : State) (x : Chunk × List Byte) : State :=
  let s := cpWrite s x
  match x.1.place with
  | .home pa _ => noteIngress (.mem pa x.2) s
  | _ => s

/-- The bytes of a run as an agent outside the domain reads them: of memory the sealed values, else as the host or
another package has them. (DEDUCED, log 69) -/
def outsideChunk (s : State) (c : Chunk) : List Byte :=
  match c.place with
  | .home pa _ => (span pa c.len).map (sealedByte s)
  | _ => chunkAt s s.now c

/-- An access of the host through a tenant's aperture: 64 GiB of segment 0. A read gives what the last seal holds, with
the host's own writes since (R264). A read that no translation
serves returns free bytes, and such a write is dropped. (DEDUCED, log 69) -/
def aperture (a : Aperture) (s : State) : State :=
  if 16 ≤ a.tid ∨ s.tsm a.tid = .error ∨ 2 ^ 36 < a.va + a.len then s
  else
    let x := tenantCtx s a.tid
    match a.data with
    | none =>
      match cpRange s x 0 a.va 0 a.len with
      | .ok l => { s with draws := s.draws + 1 }.toHost (.data (l.flatMap (outsideChunk s)))
      | .error .wait => s
      | .error _ =>
        let f := freeBytes a.len s
        f.2.toHost (.data f.1)
    | some data =>
      match cpRange s x 1 a.va 0 a.len with
      | .ok l => if l.all (cpRoom s) then (cutData data l).foldl hostWrite s else s
      | .error _ => s

/-- APERTURE_ACCESS (R388, R441). -/
def execApertureAccess (acc : Aperture) (s : State) : Host.Outcome State Fault Refusal :=
  agentStep (aperture acc) s

/-! ### The connection table (R410, R411) -/

/-- Reserved bits of an entry. -/
def connRsv : Word := 0x388FC0FF

/-- Wavelengths of an entry. -/
def connNw (e : Word) : Nat := bits e 13 8

/-- The entry names the die. -/
def connNames (d : Nat) (e : Word) : Bool := bits e 26 24 == d || bits e 22 20 == d

/-- No two of a list of numbers are equal. -/
def distinct : List Nat → Bool
  | [] => true
  | x :: r => !r.any (· == x) && distinct r

/-- The unordered pair of an entry as a number. -/
def connPair (e : Word) : Nat :=
  8 * Nat.min (bits e 26 24) (bits e 22 20) + Nat.max (bits e 26 24) (bits e 22 20)

/-- A connection table is valid (R411). (DEDUCED, log 71) -/
def connValid (t : Tbl Word) (base : Nat) : Bool :=
  let used := (t.vals).filter fun e => bit e 31
  let ring := (t.vals).filter fun e => bit e 30
  decide (base < 8) && t.vals.all (fun e => e &&& connRsv == 0) &&
  used.all (fun e => bits e 26 24 != bits e 22 20) && distinct (used.map connPair) &&
  ring.length == 8 && ring.all (fun e => bit e 31 && decide (1 ≤ connNw e)) &&
  distinct (ring.map fun e => bits e 26 24) &&
  distinct ((span 0 8).map (stageDie t 0)) && stageDie t 0 8 == 0 &&
  (span 0 8).all fun d => decide ((t.vals.filter (connNames d)).foldl (fun n e => n + connNw e) 0 ≤ 64)

/-- CONNTAB_APPLY (R411): validity is checked first. -/
def execConntabApply (s : State) : Host.Outcome State Fault Refusal :=
  agentStep (fun s =>
    if !connValid s.connNext s.ctbaseNext then s.toHost (.mgmt 0x44 1)
    else if !(unfinished s).isEmpty then s.toHost (.mgmt 0x44 2)
    else { s with conn := s.connNext, ctbase := s.ctbaseNext }) s

/-! ### Tenants (R442, R444) -/

/-- The tenant configuration of a record (R444). -/
def confOf (l : List Byte) : TConf :=
  let f := fieldOf l
  { valid := f 0x01 1 % 2 == 1, keyset := BitVec.ofNat 16 (f 0x02 2), qn := f 0x04 1, vn := f 0x05 1
    weight := f 0x06 2, seed := BitVec.ofNat 64 (f 0x08 8), beds := f 0x10 16
    pgroot := (span 0 16).foldl (fun t i => t.put i (BitVec.ofNat 64 (f (0x40 + 8 * i) 8))) .empty
    raw := l }

/-- Reserved fields are zero, and the others within their ranges (R444). (DEDUCED, log 24) -/
def confOk (l : List Byte) : Bool :=
  let f := fieldOf l
  let t := confOf l
  decide (f 0 1 ≤ 15) && f 1 1 / 2 == 0 && zeroAt l 0x20 32 && zeroAt l 0xC0 64 &&
  decide (1 ≤ t.qn) && decide (t.qn ≤ 16) && decide (1 ≤ t.vn) && decide (t.vn ≤ 64) &&
  decide (t.weight ≤ 256)

/-- The beds of a record, valid or not, overlap those of another valid tenant. -/
def bedsMeet (s : State) (tid : Nat) (t : TConf) : Bool :=
  (span 0 16).any fun u =>
    let x := s.host.confs.get .init u
    u != tid && x.valid && x.beds &&& t.beds != 0

/-- Write a tenant's record (R442, R444). (DEDUCED, log 67) -/
def writeTenant (l : List Byte) (s : State) : State :=
  let tid := fieldOf l 0 1
  if tid ≤ 15 ∧ s.tsm tid ≠ .unlocked then enterError tid s
  else if !confOk l || bedsMeet s tid (confOf l) then s.toHost (.mgmt 0x46 0)
  else { s with host := { s.host with confs := s.host.confs.put tid (confOf l) } }

/-- TENANT_CONFIG (R442, R444). -/
def execTenantConfig (record : List Byte) (s : State) : Host.Outcome State Fault Refusal :=
  agentStep (writeTenant record) s

/-! ### Lifetime counters (R212, R450) -/

/-- A byte of the written counters from offset 0x40 up (R450): the layout of the counts of LLC slices, near caches,
scratchpads and bed stores is free. (DESIGN CHOICE, log 68) -/
def countByte (l : Life) (a : Nat) : Byte :=
  if 0x1040 ≤ a ∧ a < 0x3040 then Config.countForm l.kept.entries (a - 0x1040)
  else memGet l.written a

/-- A byte of the written counters (R450): the format version 1 in the first half of the header, and in the second the
SHAKE256 digest of the rest. (DESIGN CHOICE, log 68) -/
def counterByte (l : Life) (a : Nat) : Byte :=
  if a < 0x20 then (if a = 0 then 1 else 0)
  else if a < 0x40 then
    let rest := (span 0x40 (262144 - 0x40)).map (countByte l)
    ((toBytes 32 (Config.shake256 rest).toNat)[a - 0x20]?).getD 0
  else countByte l a

/-- GET_COUNTERS (R450): what non-volatile memory holds. -/
def execGetCounters (off len : Nat) (s : State) : Host.Outcome State Fault Refusal :=
  agentStep (fun s =>
    if 1024 < len ∨ 262144 < off + len then s
    else s.toHost (.data ((span off len).map (counterByte s.life)))) s

/-- The number under which the corrections of a unit other than an HBM channel are counted. -/
def siteKey : CountSite → Nat
  | .hbm d c => 64 * d + c
  | .llc d i => 2 ^ 20 + 1024 * d + i
  | .near c => 2 * 2 ^ 20 + c
  | .spad c => 3 * 2 ^ 20 + c
  | .bedStore b => 4 * 2 ^ 20 + b

/-- CORRECTABLE_ERROR (R212, R450): the data is corrected, and the count rises. -/
def execCorrectableError (site : CountSite) (s : State) : Host.Outcome State Fault Refusal :=
  agentStep (fun s =>
    let l := s.life
    { s with life := match site with
      | .hbm d c => if d < 8 ∧ c < 64 then { l with ecc := l.ecc.upd 0 (siteKey site) satInc } else l
      | _ => { l with ecc2 := l.ecc2.upd 0 (siteKey site) satInc } }) s

/-- SHUTDOWN (R450): the counters are written, and the package leaves service. -/
def execShutdown (s : State) : Host.Outcome State Fault Refusal :=
  agentStep (fun s => { saveCounters s with power := .off }) s

/-! ### Starts (R411, R448, R449) -/

/-- Refuse service with E_BOOT and the failed step (R448). (DEDUCED, log 10) -/
def bootFailed (step : Nat) (s : State) : State :=
  { s with power := .refused step }.toHost (.mgmt 0x47 step)

/-- A package as after a cold start; the part, its lifetime counters and what left the device stay. -/
def coldState (sig : Dword) (fslot : Nat) (s : State) : State :=
  let r := State.reset
  { r with
    ident := { s.ident with signature := sig }
    clk := { r.clk with fslot0 := fslot }
    agenda := s.agenda, draws := s.draws
    life := { s.life with writtenAt := 0 }
    host := { r.host with out := s.host.out } }

/-- A cold start (R448). -/
def coldStart (x : ColdStart) (s : State) : State :=
  if x.failed ≠ 0 then bootFailed x.failed s else coldState x.signature x.fslot s

/-- COLD_START (R448), in service or not. -/
def execColdStart (x : ColdStart) (s : State) : Host.Outcome State Fault Refusal :=
  .next (coldStart x s)

/-- The record of a launch that a warm start ends: the queue and the record (R447, R449).
(DEDUCED, log 70) -/
def warmRecord (s : State) (l : Launch) : Nat × CRec :=
  let tag := ((s.queue l.origin.queue).graph.map (·.tag)).getD 0
  (l.origin.queue, ⟨tag, 0x43, 0, l.var, l.origin.node, l.bound, false, []⟩)

/-- The queues after a warm start: their registers at reset, with the records of the launches ended.
(DEDUCED, log 70) -/
def warmQueues (s : State) : Tbl TQueue :=
  (((unfinished s).map (·.2)).map (warmRecord s)).foldl
    (fun t r => t.upd .init r.1 fun q => { q with due := q.due ++ [r.2] }) .empty

/-- A package after a warm start from preserved state: memory at seal k, no launch, the tenant records and
the domain kept (R449). (DEDUCED, log 70) -/
def warmState (fslot : Nat) (s : State) : State :=
  let t := coldState s.ident.signature fslot s
  let k := s.recov.k
  let t := { t with
    mem := undoAll s
    dom := { t.dom with queues := warmQueues s }
    host := { t.host with confs := s.host.confs } }
  { t with recov := { t.recov with
      n := k + 1, k := k, ti := s.recov.ti, members := s.recov.members, domainId := s.recov.domainId
      seals := Tbl.empty.put k ⟨t.dom, 0, 0⟩ } }

/-- A warm start; a digest failure turns it into a cold start, which is reported (R449).
(DEDUCED, log 70) -/
def warmStart (x : WarmStart) (s : State) : State :=
  if x.failed ≠ 0 then bootFailed x.failed s
  else if x.digestOk then warmState x.fslot s
  else (coldState s.ident.signature x.fslot s).toHost .coldStarted

/-- WARM_START (R449), in service or not. -/
def execWarmStart (x : WarmStart) (s : State) : Host.Outcome State Fault Refusal :=
  .next (warmStart x s)

end Sys2Proof.Machine
end

