-- ==== Sys2Proof/Machine/FabricEvents.lean ====
section
/-!
DEFINITION. The trellis towards other packages: departures, acknowledgements and retries, receipt, store
sequences, multicast and combining packets, port widths and route schedules (R261, R423, R426 to R440,
R457, R458, R461, R462).
-/

namespace Sys2Proof.Machine

open Sys2Proof

/-! ### Packets sent (R429 to R432) -/

/-- The reservation of a packet in a schedule. -/
def RBank.resOf (b : RBank) (p : Sent) : Option (BitVec 128) := b.entries.find? (serves p)

/-- The bank that holds a generation. -/
def State.genBank (s : State) (gen : Nat) : Option RBank :=
  s.fab.banks.vals.find? fun b => b.gen == gen && b.per != 0

/-- Output port of hop h of a path, from 0 (R429). -/
def hopPort (e : BitVec 128) (h : Nat) : Nat := bits e (87 - 8 * h) (80 - 8 * h)

/-- The width of a port of this package (R426). -/
def State.width (s : State) (port : Nat) : Nat := s.fab.widths.get 8 port

/-- Flits of a packet with a payload: the header's and those of the payload (R428). -/
def flitCount (len : Nat) : Nat := 1 + (len + 63) / 64

/-- The two slots at which a packet of a reservation may first depart: its DEP slot, and the RTY slot after it
(R431, R432). -/
def firstSlots (s : State) (e : BitVec 128) (p : Sent) : Nat × Nat :=
  let d := depSlot s.route.per e (Nat.max p.ready s.inForce.2)
  (d, rtySlot s.route.per e d)

/-- A packet of a reservation of the schedule in force would leave at slot t. -/
def wantsSlot (s : State) (e : BitVec 128) (t : Nat) (p : Sent) : Bool :=
  serves p e && match p.stage with
    | 0 => !p.bounced && ((firstSlots s e p).1 == t || (firstSlots s e p).2 == t)
    | 2 => t % s.route.per == bits e 19 0
    | _ => false

/-- The first port of a packet that has departed, under its own generation. -/
def Sent.port (s : State) (p : Sent) : Option Nat :=
  ((s.genBank p.gen).bind fun b => b.resOf p).map fun e => hopPort e 0

/-- Flits on a port in slot t: of the packets that have left there, and of those that earlier reservations would
send (R433). (DEDUCED, log 59) -/
def flitsBefore (s : State) (e : BitVec 128) (t : Nat) : Nat :=
  let gone := s.fab.sent.filter fun x =>
    x.stage != 0 && x.at_ == t && Sent.port s x == some (hopPort e 0)
  let ahead := ((s.route.entries.takeWhile (· != e)).filter fun y => hopPort y 0 == hopPort e 0).filterMap fun y =>
    s.fab.sent.find? (wantsSlot s y t)
  (gone ++ ahead).foldl (fun n x => n + flitCount x.data.length) 0

/-- The packet may depart by its reservation at slot t: the port has capacity left, and no other packet of the
reservation departs in the slot or comes before it (R431, R433). (DEDUCED, log 59) -/
def mayDepart (s : State) (e : BitVec 128) (p : Sent) (t : Nat) : Bool :=
  decide (flitsBefore s e t + flitCount p.data.length ≤ 12 * s.width (hopPort e 0)) &&
  !(s.fab.sent.any fun x => x.id != p.id && serves x e && x.stage != 0 && x.at_ == t) &&
  !((s.fab.sent.takeWhile fun x => x.id != p.id).any (wantsSlot s e t))

/-- Replace a packet by its id. -/
def putSent (p : Sent) (s : State) : State :=
  { s with fab := { s.fab with sent := s.fab.sent.map fun x => if x.id = p.id then p else x } }

/-- A packet is sent no more. -/
def dropSent (id : Nat) (s : State) : State :=
  { s with fab := { s.fab with sent := s.fab.sent.filter (·.id != id) } }

/-- One byte more of a CRC-16 with polynomial 0x1021, the most significant bit first (R427). -/
def crcByte (c : Nat) (b : Byte) : Nat :=
  (span 0 8).foldl (fun c _ => if c.testBit 15 then c * 2 % 65536 ^^^ 0x1021 else c * 2) (c ^^^ b.toNat * 256)

/-- The CRC of a flit: over its data bytes and then bits 63 to 16 of its control word, bytes in the order of R4, from
0xFFFF (R427). (DESIGN CHOICE, log 56) -/
def flitCrc (f : Flit) : Nat :=
  (toBytes 64 f.data.toNat ++ (toBytes 8 f.ctl.toNat).drop 2).foldl crcByte 0xFFFF

/-- A flit of a packet (R427). (DESIGN CHOICE, log 56) -/
def mkFlit (seq typ gen pkg i : Nat) (last : Bool) (data : BitVec 512) : Flit :=
  let ctl := seq % 65536 * 2 ^ 48 + typ % 16 * 2 ^ 44 + i % 32 * 2 ^ 39 + (if last then 2 ^ 38 else 0) +
    gen % 16 * 2 ^ 34 + pkg % 4096 * 2 ^ 22
  let f : Flit := ⟨data, BitVec.ofNat 64 ctl⟩
  ⟨data, BitVec.ofNat 64 (ctl + flitCrc f)⟩

/-- The flits of a packet: its header, and its payload in 64-byte pieces (R428).
(DESIGN CHOICE, log 56) -/
def flitsOf (seq typ gen pkg : Nat) (header : BitVec 512) (payload : List Byte) : List Flit :=
  let n := flitCount payload.length
  mkFlit seq typ gen pkg 0 (n == 1) header ::
    (span 1 (n - 1)).map fun i =>
      mkFlit seq typ gen pkg i (i + 1 == n) (BitVec.ofNat 512 (ofBytes ((payload.drop (64 * (i - 1))).take 64)))

/-- One copy of a packet leaves for a package. -/
def emitTo (p : Sent) (s : State) (m : Nat) : State :=
  let header := Config.packetHeader
    [s.ident.pkg, p.core, (s.launch p.launch).tid, p.addr, p.data.length, p.count, p.op, p.grp, p.index]
  s.toHost (.packet m p.typ p.data (flitsOf p.seq p.typ p.gen m header (p.data.map (·.2))))

/-- The packet leaves: once to its package, or to every other member of its group. -/
def emit (p : Sent) (s : State) : State :=
  if p.members.isEmpty then emitTo p s p.pkg
  else (p.members.filter (· != s.ident.pkg)).foldl (emitTo p) s

/-- Count a retransmission on a port (R432, R433, R450). -/
def countRetrans (port : Nat) (s : State) : State :=
  { s with life := { s.life with retrans := s.life.retrans.upd 0 port satInc } }

/-! ### Departure-missed (R432, R440, R454, R458) -/

/-- The target VA of a packet: the one that it carries, or the one under which its core last reached the 64 KiB of
its address (R458). A command processor or an engine that has none gives a free value (log 4).
(DEDUCED, log 60) -/
def faultVa (p : Sent) (s : State) : Dword × State :=
  match p.va, (s.core p.core).farVa.get? (p.addr / 65536) with
  | some x, _ => (BitVec.ofNat 64 x.2, s)
  | none, some va => (BitVec.ofNat 64 (va + p.addr % 65536), s)
  | none, none => ((Config.freeValue s.draws).setWidth 64, { s with draws := s.draws + 1 })

/-- The tracker of a package is broken, by the first store of its sequence that is lost (R458). -/
def breakTracker (pkg : Nat) (faux : Dword) (k : Core) : Core :=
  { k with trackers := k.trackers.map fun t =>
    if t.pkg = pkg then { t with broken := t.broken.or (some faux) } else t }

/-- What a release half was still to store in a package is not sent (R458). -/
def Release.cancel (pkg : Nat) (r : Release) : Release :=
  match r.cont with
  | .strel p _ _ _ => if p = pkg then { r with cont := .none } else r
  | .store l =>
    let kept := l.filter fun x => match x.1 with
      | .remote pa _ => pkgBits pa != pkg
      | _ => true
    { r with cont := .store kept }
  | _ => r

/-- A store to another package is lost: the report; in a store sequence also the broken tracker, and the cancel of
the release stores that the target still holds; those not yet sent are dropped (R432, R458).
(DEDUCED, log 60) -/
def breakSequence (p : Sent) (s : State) : State :=
  let v := faultVa p s
  let s := reportTo p.core p.launch ⟨0x32, 0, v.1, 0, 0, 0⟩ v.2
  if !s.inDomain p.pkg then s
  else
  let k := breakTracker p.pkg v.1 (s.core p.core)
  let s := s.setCore p.core { k with releases := k.releases.map (Release.cancel p.pkg) }
  let s := { s with fab := { s.fab with sent := s.fab.sent.filter fun x =>
    !(x.typ == 3 && x.op == 0 && x.core == p.core && x.pkg == p.pkg && x.stage == 0) } }
  sendPacket 2 3 p.core p.pkg 0 0 0 1 0 [] [] s

/-- The stream that waits for a packet: of the streams that wait for packets from a number on, the one
whose first number is the nearest. (DEDUCED, log 58) -/
def unitStream (k : Core) (id : Nat) : Option Nat :=
  let l := k.streams.entries.filterMap fun e => match e.2.hold with
    | .unit i => if i ≤ id then some (i, e.1) else none
    | _ => none
  (l.find? fun x => l.all fun y => decide (y.1 ≤ x.1)).map (·.2)

/-- The transfer of a packet takes departure-missed (R432): precise at an `ldr` or `mmar` still in
progress, with its progress; else imprecise. A contribution counts as done. The packets of other loads
carry the operation 1. The word of a context that does not run asks again when it resumes.
(DEDUCED, log 58; DEDUCED, log 61) -/
def missed (p : Sent) (s : State) : State :=
  let k := s.core p.core
  match p.typ with
  | 0 =>
    if p.op = 1 then
      let v := faultVa p s
      reportTo p.core p.launch ⟨0x32, 0, v.1, 0, 0, 0⟩ (dropSent p.id v.2)
    else match unitStream k p.id with
    | none => dropSent p.id s
    | some e =>
      if k.mode ≠ .running then s
      else
        let t := takeFault { code := 0x32, keep := true } ((dropSent p.id s).at p.core e)
        { t with cur := s.cur }
  | 2 => breakSequence p (dropSent p.id s)
  | 3 => if p.op = 0 then breakSequence p (dropSent p.id s) else dropSent p.id s
  | 4 =>
    let s := reportTo p.core p.launch ⟨0x32, 0, 0, 0, 0, 0⟩ (acquireDone p.launch p.core (.packet p.id) (dropSent p.id s))
    if p.grp = 1 then completeNumber p.launch p.core 1 p.count s else s
  | 6 => reportTo p.core p.launch ⟨0x32, 0, 0, 0, 0, 0⟩ (dropSent p.id s)
  | 7 => reportTo p.core p.launch ⟨0x32, 0, 0, 0, 0, 0⟩ (dropSent p.id s)
  | 8 => reportTo p.core p.launch ⟨0x32, 0, 0, 0, 0, 0⟩ (dropSent p.id s)
  | _ => dropSent p.id s

/-! ### Departures (R431, R432, R434, R437) -/

/-- Write a multicast payload for a tenant (R461): its runs, or the stop that discards it. -/
def mcastRuns (s : State) (tid va n : Nat) : Cp (List Chunk) := do
  let l ← cpRange s (tenantCtx s tid) 1 va 0 n
  if l.any fun c => match c.place with
    | .host _ => true
    | _ => false then .error (.unread 0)
  if l.all (cpRoom s) then pure l else .error .wait

/-- This package's own copy of a multicast is written as the packet departs; a failure is reported
(R437, R461). None: it has to wait. (DEDUCED, log 26) -/
def mcastSelf (p : Sent) (s : State) : Option State :=
  if !p.members.any (· == s.ident.pkg) then some s
  else
    let data := p.data.map (·.2)
    let s' := putSent { p with members := p.members.filter (· != s.ident.pkg) } s
    match mcastRuns s (s.launch p.launch).tid p.addr data.length with
    | .ok l => some ((cutData data l).foldl cpWrite s')
    | .error .wait => none
    | .error _ =>
      some (reportTo p.core p.launch ⟨0x34, 0, BitVec.ofNat 64 s.ident.pkg, 0, 0, 0⟩ s')

/-- A packet that waits takes its DEP slot, or its RTY slot when it could not leave there, and is missed when that one
has passed too (R432). A schedule that does not serve it, and a package that lacks the generation in force, send
nothing (R434). (DEDUCED, log 59) -/
def firstDeparture (p : Sent) (s : State) : State :=
  let b := s.route
  let t := s.fslot
  match b.resOf p with
  | none => missed p s
  | some e =>
    let at_ := firstSlots s e p
    if at_.2 < t then missed p s
    else if (t ≠ at_.1 ∧ t ≠ at_.2) ∨ mayDepart s e p t = false then s
    else
      let out := { p with
        stage := 1, at_ := t, gen := b.gen, hops := hopsOf e, dep := bits e 39 20, rty := bits e 19 0 }
      match mcastSelf out (putSent out s) with
      | none => s
      | some s =>
        let s := emit out s
        if out.members.isEmpty ∨ out.members.any (· != s.ident.pkg) then s else dropSent p.id s

/-- A packet departs again at its next RTY slot, under its own generation (R432, R434).
(DEDUCED, log 59) -/
def retryDeparture (p : Sent) (s : State) : State :=
  let t := s.fslot
  match s.genBank p.gen with
  | none => missed p s
  | some b =>
    match b.resOf p with
    | none => missed p s
    | some e =>
      if t % b.per ≠ bits e 19 0 ∨ mayDepart s e p t = false then s
      else
        let out := { p with stage := 3, at_ := t }
        countRetrans (hopPort e 0) (emit out (putSent out s))

/-- Where a bounced packet goes after a new walk, or none while the page that its address now leads to is marked
busy; without an address to walk it goes where the bounce says (R423, R435). -/
def rewalk (s : State) (p : Sent) : Option Nat :=
  match p.va with
  | some (ctx, va) =>
    match walk s (s.ctx ctx) va with
    | .leaf e level => if bit e 8 then none else if bit e 63 then some p.addr else some (physOf e level va)
    | .stop _ _ => some p.addr
  | none => some p.addr

/-- A bounced packet takes its new address, a new number, and the next slot of its reservation (R423, R435). -/
def redirect (p : Sent) (a : Nat) (s : State) : Sent × State :=
  let pkg := pkgBits a
  let n := s.fab.nextSeq.get 0 pkg
  let out := { p with
    pkg := pkg, seq := n % 65536, addr := a, bounced := false, data := p.data.map fun (e : Host.Cell) => (e.1 - p.addr + a, e.2) }
  let out := { out with ready := ((s.route.resOf out).map (readyAt (dropSent p.id s))).getD s.fslot }
  (out, putSent out { s with fab := { s.fab with nextSeq := s.fab.nextSeq.put pkg (n + 1) } })

/-- A packet that waits for its first departure, by a new walk when it was bounced. -/
def departFirst (p : Sent) (s : State) : State :=
  if p.bounced then
    match rewalk s p with
    | none => s
    | some a =>
      let x := redirect p a s
      firstDeparture x.1 x.2
  else firstDeparture p s

/-- An acknowledgement departs: one flit, whose SEQ is that of the packet that it answers (R432).
(DESIGN CHOICE, log 56) -/
def departAck (a : Ack) (s : State) : State :=
  if s.fslot < a.slot then s
  else
    let header := Config.packetHeader [s.ident.pkg, 0, 0, 0, 0, 0, if a.bad then 1 else 0, 0, 0]
    let s := { s with fab := { s.fab with acks := s.fab.acks.filter (·.id != a.id) } }
    s.toHost (.packet a.pkg 11 [] (flitsOf a.seq 11 a.gen a.pkg header []))

/-- PACKET_DEPARTURE (R431, R432): of a packet, or of an acknowledgement. -/
def execPacketDeparture (flight : Nat) (s : State) : Host.Outcome State Fault Refusal :=
  agentStep (fun s =>
    match s.fab.sent.find? (·.id == flight), s.fab.acks.find? (·.id == flight) with
    | some p, _ =>
      if p.stage = 0 then departFirst p s
      else if p.stage = 2 then retryDeparture p s
      else s
    | none, some a => departAck a s
    | none, none => s) s

/-- ACK_TIMEOUT (R432): no acknowledgement two path lengths after the departure. -/
def execAckTimeout (flight : Nat) (s : State) : Host.Outcome State Fault Refusal :=
  agentStep (fun s =>
    match s.fab.sent.find? (·.id == flight) with
    | none => s
    | some p =>
      if s.fslot < p.at_ + 2 * p.hops then s
      else if p.stage = 1 then putSent { p with stage := 2 } s
      else if p.stage = 3 then missed p s
      else s) s

/-- The packet that an acknowledgement of a package names. -/
def ackedPacket (s : State) (pkg seq : Nat) : Option Sent :=
  s.fab.sent.find? fun p =>
    p.seq == seq && p.stage != 0 && p.stage != 4 && (p.pkg == pkg || p.members.any (· == pkg))

/-- A packet whose answer is still to come once it has been received: a contribution, or a remote arrival
(R277, R315). (DEDUCED, log 92) -/
def Sent.answered (p : Sent) : Bool := p.typ == 4 && (p.grp == 1 || p.grp == 2)

/-- The tracker of a sequence whose last store was a release store is free once every packet of it has been confirmed,
since its target then has all that the release counts (R436). -/
def freeSequence (p : Sent) (s : State) : State :=
  let k := s.core p.core
  let left := s.fab.sent.any fun x => (x.typ == 2 || x.typ == 3) && x.core == p.core && x.pkg == p.pkg
  if (p.typ ≠ 2 ∧ p.typ ≠ 3) ∨ left then s
  else s.setCore p.core { k with trackers := k.trackers.map fun t =>
    if t.pkg = p.pkg ∧ t.rel then { t with used := storesLater k t.pkg } else t }

/-- An acknowledgement confirms a packet: at a group, for one member (R432, R437). An access with an acquire
half has then been performed (R276). -/
def acknowledge (pkg seq : Nat) (s : State) : State :=
  match ackedPacket s pkg seq with
  | none => s
  | some p =>
    let left := p.members.filter (· != pkg)
    if !left.isEmpty then putSent { p with members := left } s
    else
      if p.answered then putSent { p with stage := 4 } s
      else freeSequence p (acquireDone p.launch p.core (.packet p.id) (dropSent p.id s))

/-- ACK_RECEIVE (R432). -/
def execAckReceive (pkg seq : Nat) (s : State) : Host.Outcome State Fault Refusal :=
  agentStep (acknowledge pkg seq) s

/-! ### Receipt (R261, R423, R428, R432, R436 to R438, R458, R461) -/

/-- Accepted numbers after one more, the highest first, within 32,768 behind it (R432).
(DEDUCED, log 63) -/
def acceptSeq (seq : Nat) (l : List Nat) : List Nat :=
  match l with
  | [] => [seq]
  | h :: r =>
    if (seq + 65536 - h) % 65536 < 32768 then
      seq :: (h :: r).filter fun x => decide ((seq + 65536 - x) % 65536 < 32768)
    else h :: seq :: r

/-- Answer a packet with its acknowledgement, in the slot after it (R432); `bad` says that a member discarded the
payload. (DEDUCED, log 59) -/
def sendAck (p : Packet) (bad : Bool) (s : State) : State :=
  { s with
    fab := { s.fab with acks := s.fab.acks ++ [⟨s.dom.nextId, p.src, p.seq, p.gen, bad, s.fslot + 1⟩] }
    dom := { s.dom with nextId := s.dom.nextId + 1 } }

/-- The key of an inbound count (R436). -/
def inKey (p : Packet) : Nat := 1024 * p.src + p.core

/-- The inbound count has reached a count, modulo 2^32 (R436). -/
def reached (inbound count : Nat) : Bool := decide ((inbound + 2 ^ 32 - count % 2 ^ 32) % 2 ^ 32 < 2 ^ 31)

/-- One more store of a sequence has arrived (R436). -/
def countInbound (p : Packet) (s : State) : State :=
  { s with fab := { s.fab with inbound := s.fab.inbound.upd 0 (inKey p) fun n => (n + 1) % 2 ^ 32 } }

/-- The answer of another package to a contribution or an arrival of a core here: its number counts, and a
fault is reported (R277, R278, R315). (DEDUCED, log 92) -/
def receiveAnswer (p : Packet) (s : State) : State :=
  match s.fab.sent.find? fun x => x.answered && x.pkg == p.src && x.seq == p.count && x.stage != 0 with
  | none => s
  | some x =>
    let s := dropSent x.id s
    let va := (x.va.map (·.2)).getD 0
    if x.grp = 2 then
      if p.op = 0 then s else reportTo x.core x.launch ⟨0x16, 0, 0, 0, 0, 0⟩ s
    else
      let s := if p.op = 0 then s
        else reportTo x.core x.launch
          ⟨0x12, p.op, BitVec.ofNat 64 va, BitVec.ofNat 64 (va / 2 ^ 64 * 2 ^ 32 + x.index), 0, 0⟩ s
      completeNumber x.launch x.core 1 x.count s

/-- A write of another package: published, and recorded as ingress when its source lies outside the
domain (R388). (DEDUCED, log 66) -/
def remoteWrite (p : Packet) (s : State) : State :=
  let s := publishRun p.addr p.data s
  if s.inDomain p.src then s else noteIngress (.mem p.addr p.data) s

/-- A remote arrival at a barrier of a bed store: ADDR is 2,097,152 · core + offset, and OP is 256, or
272 + tag (R317). (DEDUCED, log 120) -/
def remoteBarrier (p : Packet) (s : State) : State :=
  let off := p.addr % 2097152
  let r : RemoteArr :=
    ⟨s.dom.nextId, p.src, p.core, p.seq, 0, p.tid, s.bedOf (p.addr / 2097152 % 1024), off,
      if p.op < 272 then none else some (p.op - 272)⟩
  if 2097152 < off + 16 then s
  else { s with dom := { s.dom with remote := s.dom.remote ++ [r], nextId := s.dom.nextId + 1 } }

/-- One number of a directed pair comes before another (R432). -/
def seqBefore (x y : Nat) : Bool := decide ((y + 65536 - x) % 65536 < 32768)

/-- Put a packet among others in the order of their numbers. -/
def bySeq (p : Packet) : List Packet → List Packet
  | [] => [p]
  | x :: r => if seqBefore p.seq x.seq then p :: x :: r else x :: bySeq p r

/-- Publish the stores of a core that a release of it covers, in their order (R261, R457).
(DEDUCED, log 66) -/
def coverStores (p : Packet) (s : State) : State :=
  let l := s.fab.inStores.filter fun x => inKey x == inKey p
  let s := { s with fab := { s.fab with inStores := s.fab.inStores.filter fun x => inKey x != inKey p } }
  (l.foldr bySeq []).foldl (fun s x => remoteWrite x s) s

/-- Apply a release store, a release of earlier stores, or a remote arrival, whose count has been reached (R261,
R317, R457). -/
def applyRelease (p : Packet) (s : State) : State :=
  let s := coverStores p s
  if p.typ ≠ 3 then remoteBarrier p s
  else if p.op = 0 then countInbound p (remoteWrite p s)
  else s

/-- The writes of a packet have room at their home, and no transplant moves their page (R378, R423). -/
def writeRoom (s : State) (p : Packet) : Bool :=
  !underMove s p.addr && (span (p.addr / 64) (p.data.length / 64 + 1)).all fun l => !sealStall s l

/-- What a held release covers, and the release, may be written at their homes now. -/
def releaseRoom (s : State) (p : Packet) : Bool :=
  (p.typ != 3 || p.op != 0 || writeRoom s p) && s.fab.inStores.all fun x => inKey x != inKey p || writeRoom s x

/-- Apply the held release stores whose counts have been reached (R261, R457). (DEDUCED, log 66) -/
def applyHeld : Nat → State → State
  | 0, s => s
  | fuel + 1, s =>
    match s.fab.heldRel.find? fun p =>
      reached (s.fab.inbound.get 0 (inKey p)) p.count && releaseRoom s p with
    | none => s
    | some p =>
      applyHeld fuel (applyRelease p
        { s with fab := { s.fab with heldRel := s.fab.heldRel.erase p } })

/-- Apply what is held after a store has arrived. -/
def wakeHeld (s : State) : State := applyHeld (s.fab.heldRel.length + 1) s

/-- A release store or a remote arrival: applied once its count has been reached, else held.
(DEDUCED, log 66) -/
def holdRelease (p : Packet) (s : State) : State :=
  wakeHeld { s with fab := { s.fab with heldRel := s.fab.heldRel ++ [p] } }

/-- A control packet of a store sequence: 1 cancels the release stores held, 2 resets the count (R458). -/
def controlSequence (p : Packet) (s : State) : State :=
  if p.op = 1 then
    { s with fab := { s.fab with heldRel := s.fab.heldRel.filter fun x => inKey x != inKey p } }
  else { s with fab := { s.fab with inbound := s.fab.inbound.put (inKey p) 0 } }

/-- The new value of an atomic of another package; an `atcas` carries its expected value and then its new
one (R275). -/
def atomNew (op n m o x : Nat) : Option Nat :=
  let v (y : Nat) : Int := if 4096 ≤ op then toSigned (8 * n) y else (y : Int)
  match op % 4096 with
  | 0x290 => some (m + o)
  | 0x291 => some (if v o < v m then o else m)
  | 0x292 => some (if v m < v o then o else m)
  | 0x293 => some (m &&& o)
  | 0x294 => some (m ||| o)
  | 0x295 => some (m ^^^ o)
  | 0x296 => some o
  | _ => if m = o then some x else none

/-- Perform an atomic of another package at its home, and return the old value (R276). -/
def remoteAtom (p : Packet) (s : State) : State :=
  let n := if p.op % 4096 = 0x297 then p.data.length / 2 else p.data.length
  let m := memNat s.mem p.addr n
  let s := match atomNew p.op n m (ofBytes (p.data.take n)) (ofBytes (p.data.drop n)) with
    | some v => remoteWrite { p with data := toBytes n v } s
    | none => s
  sendPacket 1 5 p.core p.src p.addr p.seq 0 0 0 (atAddr p.addr (toBytes n m)) [] s

/-- An ordered contribution of another package reaches its engine (R277, R310). -/
def remoteContrib (p : Packet) (s : State) : State :=
  let c : Contrib :=
    { id := s.dom.nextId, pkg := p.src, core := p.core, launch := 0, num := p.seq, op := p.op % 8, last := decide (8 ≤ p.op)
      pa := p.addr, va := 0, seg := 0, index := p.count, value := BitVec.ofNat 64 (ofBytes p.data)
      since := s.clk.wcyc, cls := 0 }
  { s with dom := { s.dom with contribs := s.dom.contribs ++ [c], nextId := s.dom.nextId + 1 } }

/-- A contribution of another member of a combining group, or its root (R438). (DEDUCED, log 57) -/
def remoteCombine (p : Packet) (s : State) : State :=
  let grp := p.op % 32
  let v : VReg := BitVec.ofNat 2048 (ofBytes p.data)
  let x := (roundOf s grp p.count).getD ⟨grp, p.count, p.op / 32 % 4, 0, [], [], none⟩
  if p.typ = 8 then
    if (groupOf s grp).all (fun ms => rootPkg ms != p.src) || x.root.isSome then s
    else putRound { x with root := some v } s
  else match (groupOf s grp).bind fun ms => ms.findIdx? fun m => m.1 == p.src with
    | none => s
    | some i =>
      if x.others.any (·.1 == i) then s
      else settleRound grp p.count (putRound { x with others := x.others ++ [(i, v)] } s)

/-- A bounce: the packet that it names waits to go again, and the translation of the page is dropped (R423, R435).
(DEDUCED, log 64) -/
def rebound (p : Packet) (s : State) : State :=
  match s.fab.sent.find? fun x => x.pkg == p.src && x.seq == p.count && x.stage != 0 with
  | none => s
  | some x =>
    let stale (y : Xlat) : Bool :=
      decide (entryPa y.leaf ≤ x.addr) && decide (x.addr < entryPa y.leaf + y.size)
    let k := s.core x.core
    let d := s.dieOf x.core
    let s := s.setCore x.core { k with tlb := k.tlb.filter fun y => !stale y }
    let s := s.setDie d { s.die d with xlat := (s.die d).xlat.filter fun y => !stale y }
    let old := (k.tlb ++ (s.die d).xlat).find? stale
    putSent { x with
      addr := p.addr, pkg := pkgBits p.addr, stage := 0, bounced := true
      va := match x.va with
        | some v => some v
        | none => old.map fun y => (y.ctx, y.va + (x.addr - entryPa y.leaf))
      data := x.data.map fun e => (e.1 - x.addr + p.addr, e.2) } s

/-- The new home of an address under a tombstone (R423). -/
def newHome (s : State) (pa : Nat) : Nat :=
  (s.dom.transplants.find? fun t => t.pages.any fun p =>
    decide (p.2.1 ≤ pa) && decide (pa < p.2.1 + p.2.2.1)).elim pa fun t => movedAddr t.pages pa

/-- Where the byte at an address stands while a transplant holds for a seal: a page that has been copied stands at its
new home (R380, R382). (DEDUCED, log 47) -/
def standsAt (s : State) (pa : Nat) : Nat :=
  s.dom.transplants.foldl (fun a t => movedAddr (if 3 ≤ t.step then t.pages else t.pages.take t.copied) a) pa

/-- The packet reads or writes memory at its address. -/
def touchesMemory (p : Packet) : Bool :=
  p.typ == 0 || p.typ == 2 || (p.typ == 3 && p.op == 0) || (p.typ == 4 && (isAtomic p.op || decide (p.op < 16)))

/-- Write a multicast payload of another package under the tenant's roots (R461). -/
def writeMcast (p : Packet) (l : List Chunk) (s : State) : State :=
  (cutData p.data l).foldl (fun s x => if s.inDomain p.src then cpWrite s x else hostWrite s x) s

/-- The store waits for the release that covers it (R261): not one to a memory-side line, nor one from outside the domain,
which carry the operation 2 (R254). -/
def covered (s : State) (p : Packet) : Bool := p.typ == 2 && p.op != 2 && s.inDomain p.src

/-- The packet can be applied now: its page is not being filled by a transplant (R423), and its log has room (R378).
A store that waits for its release needs none yet. -/
def canApply (s : State) (p : Packet) : Bool :=
  if p.typ = 6 then (match mcastRuns s p.tid p.addr p.data.length with
    | .error .wait => false
    | _ => true)
  else !touchesMemory p || p.typ == 3 || covered s p || (if p.typ = 0 then !underMove s p.addr else writeRoom s p)

/-- Return the new home of an access to a page that is being moved: it is neither performed nor acknowledged
here, and comes again (R263, R423). (DEDUCED, log 64) -/
def bouncePacket (p : Packet) (s : State) : State :=
  sendPacket 6 9 p.core p.src (newHome s p.addr) p.seq 0 0 0 [] [] s

/-- What a load of another package returns: what stands here, or for a package outside the domain what the last seal
has (R264). (DEDUCED, log 69) -/
def loadedBytes (s : State) (p : Packet) : List Byte :=
  let n := Nat.min p.count 1024
  if s.inDomain p.src then memRead s.mem p.addr n else (span p.addr n).map (sealedByte s)

/-- Apply a packet that has been accepted. A store of a sequence waits for its release (R261).
(DEDUCED, log 64; DEDUCED, log 66) -/
def applyPacket (p : Packet) (s : State) : State :=
  match p.typ with
  | 0 => sendPacket 1 1 p.core p.src p.addr 0 0 0 0 (atAddr p.addr (loadedBytes s p)) [] s
  | 2 =>
    wakeHeld (countInbound p (if covered s p then { s with fab := { s.fab with inStores := s.fab.inStores ++ [p] } }
      else remoteWrite p s))
  | 3 => if p.op = 0 ∨ p.op = 3 then holdRelease p s else controlSequence p s
  | 4 =>
    if isAtomic p.op then remoteAtom p s
    else if p.op < 16 then remoteContrib p s
    else holdRelease p s
  | 5 => receiveAnswer p s
  | 6 => (match mcastRuns s p.tid p.addr p.data.length with
    | .ok l => writeMcast p l s
    | .error _ => s)
  | 7 => remoteCombine p s
  | 8 => remoteCombine p s
  | 9 => rebound p s
  | _ => s

/-- Apply a packet, or keep it until it can be and those of its core before it have been (R378, R423). -/
def applyOrWait (p : Packet) (s : State) : State :=
  if canApply s p && !(s.fab.waiting.any fun x => inKey x == inKey p) then applyPacket p s
  else { s with fab := { s.fab with waiting := s.fab.waiting ++ [p] } }

/-- Apply the accepted packets and the releases that have waited, as far as they can be applied now (R261, R378,
R423). -/
def settleFabric (s : State) : State :=
  if s.fab.waiting.isEmpty && s.fab.heldRel.isEmpty then s
  else
    let t := { s with fab := { s.fab with waiting := [] } }
    wakeHeld (s.fab.waiting.foldl (fun s p => applyOrWait p s) t)

/-- Accept a packet, and acknowledge it; a discarded payload is remembered for its retry (R461). -/
def accept (p : Packet) (bad : Bool) (s : State) : State :=
  let refused := s.fab.refused.filter fun x => x.1 != p.src || seqBefore p.seq (x.2 + 32768)
  sendAck p bad { s with fab := { s.fab with
    accepted := s.fab.accepted.upd [] p.src (acceptSeq p.seq)
    refused := if bad then refused ++ [(p.src, p.seq)] else refused } }

/-- A multicast payload of another package: written under the tenant's roots, or discarded with word to
the sender (R461). -/
def receiveMcast (p : Packet) (s : State) : State :=
  match mcastRuns s p.tid p.addr p.data.length with
  | .ok _ => accept p false (applyOrWait p s)
  | .error .wait => accept p false (applyOrWait p s)
  | .error _ => accept p true s

/-- The memory that a packet names lies in this package (R225). -/
def inPackage (s : State) (p : Packet) : Bool :=
  !touchesMemory p || (pkgBits p.addr == s.ident.pkg && decide (p.addr % 2 ^ 45 < 0xE80000000))

/-- What an acknowledgement says: a member that discarded its payload is reported to the sender (R461). -/
def receiveAck (p : Packet) (s : State) : State :=
  let s := match ackedPacket s p.src p.seq with
    | some x =>
      if p.op = 1 ∧ x.typ = 6 then reportTo x.core x.launch ⟨0x34, 0, BitVec.ofNat 64 p.src, 0, 0, 0⟩ s else s
    | none => s
  acknowledge p.src p.seq s

/-- The control word of flit i of n of a packet to this package is right: every field, no reserved bit, and the CRC
(R427). -/
def flitGood (s : State) (p : Packet) (n i : Nat) (f : Flit) : Bool :=
  bits f.ctl 63 48 == p.seq && bits f.ctl 47 44 == p.typ && bits f.ctl 43 39 == i &&
  bit f.ctl 38 == (i + 1 == n) && bits f.ctl 37 34 == p.gen && bits f.ctl 33 22 == s.ident.pkg &&
  bits f.ctl 21 16 == 0 && bits f.ctl 15 0 == flitCrc f

/-- The flits of a packet are all there, none fails its check, and they carry its payload (R427, R428).
(DESIGN CHOICE, log 56) -/
def packetGood (s : State) (p : Packet) : Bool :=
  let n := p.flits.length
  decide (n ≤ 17) && n == flitCount p.data.length && p.flits.zipIdx.all (fun x => flitGood s p n x.2 x.1) &&
  ((p.flits.drop 1).flatMap fun f => toBytes 64 f.data.toNat).take p.data.length == p.data

/-- Receive a packet (R428, R432): discarded whole, acknowledged again, or accepted and acknowledged.
(DEDUCED, log 64) -/
def receive (p : Packet) (s : State) : State :=
  if !packetGood s p ∨ 12 ≤ p.typ ∨ p.src = s.ident.pkg ∨ 4096 ≤ p.src ∨ 1024 ≤ p.core then s
  else if p.typ = 11 then receiveAck p s
  else if (s.fab.accepted.get [] p.src).any (· == p.seq) then sendAck p (s.fab.refused.any (· == (p.src, p.seq))) s
  else if p.typ = 6 then receiveMcast p s
  else if !inPackage s p then s
  else if touchesMemory p && sealing s then accept p false (applyOrWait { p with addr := standsAt s p.addr } s)
  else if touchesMemory p && tombstone s p.addr then bouncePacket p s
  else accept p false (applyOrWait p s)

/-- PACKET_RECEIVE (R428, R432). -/
def execPacketReceive (p : Packet) (s : State) : Host.Outcome State Fault Refusal :=
  agentStep (receive p) s

/-! ### Port widths (R433) -/

/-- Where an entry occupies ports: package, port, and offset in the period of a departure at `off`. -/
def occupied (pkg per off : Nat) (e : BitVec 128) : Nat → Nat → List (Nat × Nat × Nat × Nat)
  | 0, _ => []
  | fuel + 1, h =>
    if h < hopsOf e then
      (pkg, hopPort e h, (off + h) % per, bits e 97 93) ::
        occupied (Config.portPeer pkg (hopPort e h)) per off e fuel (h + 1)
    else []

/-- What a schedule occupies: each entry at its departure and at its retry. -/
def occupancy (pkg : Nat) (b : RBank) : List (Nat × Nat × Nat × Nat) :=
  b.entries.flatMap fun e =>
    occupied pkg b.per (bits e 39 20) e 6 0 ++ occupied pkg b.per (bits e 19 0) e 6 0

/-- Some slot of a port carries more flits than a width allows. -/
def overPort (s : State) (port width : Nat) : Bool :=
  let l := (occupancy s.ident.pkg s.route).filter fun x => x.1 == s.ident.pkg && x.2.1 == port
  l.any fun x =>
    decide (12 * width < (l.filter fun y => y.2.2.1 == x.2.2.1).foldl (fun n y => n + y.2.2.2) 0)

/-- PORT_WIDTH_CHANGE (R433): reserved flits beyond the new capacity are counted, and the driver is told. -/
def execPortWidthChange (port width : Nat) (s : State) : Host.Outcome State Fault Refusal :=
  agentStep (fun s =>
    if 144 ≤ port ∨ 8 < width then s
    else
      let t := { s with fab := { s.fab with widths := s.fab.widths.put port width } }
      if overPort s port width then (countRetrans port t).toHost (.notify port) else t) s

/-! ### Route schedules (R429, R430, R434) -/

/-- A switch whose slot has passed takes effect (R434): the generation before it drains, and a package that lacks the
new one departs nothing. -/
def dueSwitch (s : State) : State :=
  match s.fab.switch with
  | none => s
  | some (gen, slot) =>
    if s.fslot < slot then s
    else
      let old := s.fab.active
      let banks := match s.fab.banks.get? old with
        | some b => s.fab.banks.put old { b with draining := true }
        | none => s.fab.banks
      let next := (nextBank s gen).getD noBank
      { s with fab := { s.fab with banks := banks, active := next, since := slot, switch := none } }

/-- The bank that a load fills: the one that is not active. -/
def inactiveBank (s : State) : Nat :=
  if s.fab.active = 0 then 1
  else if s.fab.active = 1 then 0
  else if (s.fab.banks.get ⟨0, 0, [], [], false⟩ 0).draining then 1 else 0

/-- The fields of an entry lie in their ranges, and reserved ones are zero (R429). -/
def entryOk (per : Nat) (e : BitVec 128) : Bool :=
  let kind := bits e 127 120
  decide (kind ≤ 6) && (decide (kind ≤ 2) || bits e 107 98 == 0) &&
  (kind == 3 || kind == 4 || bits e 92 88 == 0) &&
  decide (1 ≤ bits e 97 93) && decide (bits e 97 93 ≤ 17) && decide (1 ≤ hopsOf e) &&
  (span 0 (hopsOf e)).all (fun h => decide (hopPort e h < 144)) &&
  decide (bits e 39 20 < per) && decide (bits e 19 0 < per)

/-- A group entry: a count up to 126, members with no reserved bit, and zeros after them (R429). -/
def groupOk (l : List Word) : Bool :=
  let n := (l.headD 0).toNat
  decide (l.length ≤ 128) && decide (n ≤ 126) &&
  ((l.drop 1).take n).all (fun x => x &&& 0xF000F000 == 0) && ((l.drop (1 + n)).all (· == 0))

/-- Cause 1: a reserved field or a range. -/
def schedOk (x : Schedule) : Bool :=
  decide (x.gen < 16) && x.extra == 0 && decide (1 ≤ x.per) && decide (x.per ≤ 2 ^ 20) &&
  decide (x.entries.length ≤ 65536) && decide (x.groups.length ≤ 64) &&
  x.entries.all (entryOk x.per) && x.groups.all groupOk

/-- The width of a port of any package. -/
def widthAt (s : State) (pkg port : Nat) : Nat :=
  if pkg = s.ident.pkg then s.width port else Config.portWidth pkg port

/-- The path uses ports that are up, visits no package twice and ends at its package (R430).
(DEDUCED, log 62) -/
def pathOk (s : State) (e : BitVec 128) : Nat → Nat → Nat → List Nat → Bool
  | 0, _, pkg, _ => pkg == resPkg e
  | fuel + 1, h, pkg, seen =>
    if h < hopsOf e then
      let dest := Config.portPeer pkg (hopPort e h)
      widthAt s pkg (hopPort e h) != 0 && !(seen.any (· == dest)) && pathOk s e fuel (h + 1) dest (dest :: seen)
    else pkg == resPkg e

/-- Flits of an older generation's retries that may fall in a slot of the new one: their offsets agree
modulo the greatest common divisor of the periods (R430). (DEDUCED, log 62) -/
def oldRetries (s : State) (per : Nat) (x : Nat × Nat × Nat × Nat) : Nat :=
  let b := s.route
  let g := Nat.gcd per b.per
  let l := b.entries.flatMap fun e => occupied s.ident.pkg b.per (bits e 19 0) e 6 0
  (l.filter fun y => y.1 == x.1 && y.2.1 == x.2.1 && y.2.2.1 % g == x.2.2.1 % g).foldl
    (fun n y => n + y.2.2.2) 0

/-- Cause 2: a port carries more than it can in some slot. (DEDUCED, log 62) -/
def overbooked (s : State) (b : RBank) : Bool :=
  let l := occupancy s.ident.pkg b
  l.any fun x =>
    let mine := (l.filter fun y => y.1 == x.1 && y.2.1 == x.2.1 && y.2.2.1 == x.2.2.1).foldl
      (fun n y => n + y.2.2.2) 0
    decide (12 * widthAt s x.1 x.2.1 < mine + oldRetries s b.per x)

/-- Cause 4: the retry stands too near to the departure. -/
def retryNear (per : Nat) (e : BitVec 128) : Bool :=
  decide ((bits e 19 0 + per - bits e 39 20) % per < 2 * hopsOf e)

/-- The cause for which a load is refused, 0 for none (R430). (DEDUCED, log 62) -/
def loadCause (s : State) (x : Schedule) : Nat :=
  let b : RBank := ⟨x.gen, x.per, x.entries, x.groups, false⟩
  if (s.fab.banks.get ⟨0, 0, [], [], false⟩ (inactiveBank s)).draining then 5
  else if !schedOk x then 1
  else if overbooked s b then 2
  else if x.entries.any fun e => !pathOk s e 6 0 s.ident.pkg [s.ident.pkg] then 3
  else if x.entries.any (retryNear x.per) then 4
  else 0

/-- Load a schedule in the inactive bank, or refuse it with E_ROUTE: the bank is left empty, but for a
generation that drains there (R430, R434). (DEDUCED, log 122) -/
def loadRoute (x : Schedule) (s : State) : State :=
  let i := inactiveBank s
  let cause := loadCause s x
  if cause = 0 then
    { s with fab := { s.fab with banks := s.fab.banks.put i ⟨x.gen, x.per, x.entries, x.groups, false⟩ } }
  else if cause = 5 then s.toHost (.mgmt 0x45 5)
  else { s with fab := { s.fab with banks := s.fab.banks.erase i } }.toHost (.mgmt 0x45 cause)

/-- ROUTE_LOAD (R429, R430). -/
def execRouteLoad (schedule : Schedule) (s : State) : Host.Outcome State Fault Refusal :=
  agentStep (fun s => loadRoute schedule (dueSwitch s)) s

/-- ROUTE_SWITCH (R434): the next generation, at a slot far enough ahead. With no schedule in force any
generation may be named. (DESIGN CHOICE, log 123) -/
def execRouteSwitch (gen slot : Nat) (s : State) : Host.Outcome State Fault Refusal :=
  agentStep (fun s =>
    let s := dueSwitch s
    let b := s.route
    let far := decide (s.fslot + 4096 ≤ slot)
    if far && (b.per == 0 || (gen == (b.gen + 1) % 16 && slot % b.per == 0)) then
      { s with fab := { s.fab with switch := some (gen, slot) } }
    else s) s

/-- SWITCH_SLOT_REACHED (R434). -/
def execSwitchSlotReached (s : State) : Host.Outcome State Fault Refusal := agentStep dueSwitch s

/-- A draining generation has no packet left that is neither acknowledged nor given up. -/
def drained (s : State) (b : RBank) : Bool :=
  b.draining && !s.fab.sent.any fun p => p.stage != 0 && p.stage != 4 && p.gen == b.gen

/-- GENERATION_DRAINED (R434): its bank becomes inactive. -/
def execGenerationDrained (s : State) : Host.Outcome State Fault Refusal :=
  agentStep (fun s =>
    let s := dueSwitch s
    { s with fab := { s.fab with banks := s.fab.banks.filter fun _ b => !drained s b } }) s

end Sys2Proof.Machine
end

