-- ==== Sys2Proof/Machine/Integer.lean ====
section
/-!
DEFINITION. Integer and address arithmetic (R103 to R109).
-/

namespace Sys2Proof.Machine

open Sys2Proof

/-- Width, kind and saturation of an integer word (R103). -/
structure IntMode where
  n : Nat
  natural : Bool
  sat : Bool
deriving DecidableEq, Repr

/-- The mode that MOD gives (R103). -/
def intMode (w : Wrd) : IntMode :=
  let c := bits w.mod 7 6
  ⟨if c = 0 then 64 else if c = 1 then 32 else if c = 2 then 16 else 8, bit w.mod 5, bit w.mod 4⟩

/-- The n-bit value as an integer of the kind. -/
def IntMode.val (m : IntMode) (x : Nat) : Int :=
  if m.natural then ((x % 2 ^ m.n : Nat) : Int) else toSigned m.n x

/-- The exact result wrapped, or clamped to the range of the width and kind (R104, R105). -/
def IntMode.fit (m : IntMode) (x : Int) : Nat :=
  if m.sat then
    let lo : Int := if m.natural then 0 else -(2 ^ (m.n - 1) : Nat)
    let hi : Int := if m.natural then (2 ^ m.n : Nat) - 1 else (2 ^ (m.n - 1) : Nat) - 1
    wrapN m.n (if x < lo then lo else if hi < x then hi else x)
  else wrapN m.n x

/-- Absolute value and negation: −2^(n−1) stays itself without saturation (R105). -/
def intAbs (m : IntMode) (a : Nat) : Nat := m.fit (m.val a).natAbs
/-- Negation. -/
def intNeg (m : IntMode) (a : Nat) : Nat := m.fit (-(m.val a))

/-- Left shift by b mod n (R104, R105): the exact value of the shifted number is wrapped or
clamped. -/
def intShl (m : IntMode) (a b : Nat) : Nat := m.fit (m.val a * (2 ^ (b % m.n) : Nat))

/-- The quotient towards zero; all ones for a zero divisor (R106). -/
def intDiv (m : IntMode) (a b : Nat) : Nat :=
  if b % 2 ^ m.n = 0 then 2 ^ m.n - 1 else m.fit ((m.val a).tdiv (m.val b))

/-- The remainder with the sign of a; a for a zero divisor (R106). -/
def intRem (m : IntMode) (a b : Nat) : Nat :=
  if b % 2 ^ m.n = 0 then a % 2 ^ m.n else wrapN m.n ((m.val a).tmod (m.val b))

/-- Rotate left by b mod n (R104). -/
def intRot (n a b : Nat) : Nat :=
  let a := a % 2 ^ n
  let k := b % n
  (a <<< k) % 2 ^ n + a >>> (n - k)

/-- Leading zeros in n bits (R104). -/
def intClz (n a : Nat) : Nat := if a % 2 ^ n = 0 then n else n - 1 - Nat.log2 (a % 2 ^ n)

/-- One bits (R104). -/
def intPop (n a : Nat) : Nat := (span 0 n).foldl (fun c i => c + (if a.testBit i then 1 else 0)) 0

/-- A bit field of a (R108). -/
def intBfx (m : IntMode) (pos len a : Nat) : Nat :=
  wrapN m.n (extend len m.natural (a >>> pos) : Nat)

/-- a with the low bits of b in a bit field (R108). -/
def intBfi (n pos len a b : Nat) : Nat :=
  (a % 2 ^ n) / 2 ^ (pos + len) * 2 ^ (pos + len) + (b % 2 ^ len) * 2 ^ pos + a % 2 ^ pos

/-- The compare of a condition code (R107). -/
def intCmp (m : IntMode) (code a b : Nat) : Bool :=
  let x := m.val a
  let y := m.val b
  match code with
  | 0 => decide (x = y)
  | 1 => decide (x ≠ y)
  | 2 => decide (x < y)
  | 3 => decide (x ≤ y)
  | 4 => decide (y < x)
  | _ => decide (y ≤ x)

/-- The immediate second operand: IMM extended to n bits by kind (R103). -/
def immVal (m : IntMode) (w : Wrd) : Nat := extend 32 m.natural w.imm.toNat % 2 ^ m.n

/-- The operation of an integer word on a, b and c, as an n-bit value. `cOn` is the test of `isel`. -/
abbrev IntFn := IntMode → Nat → Nat → Nat → Nat

/-- An element of the result in its container: extended by kind (R41, R98). -/
def intOut (m : IntMode) (x : Nat) : Nat := extend m.n m.natural x

/-- The second operand of an integer word. -/
def intB (m : IntMode) (w : Wrd) (b : Nat) : Nat := if bit w.mod 3 then immVal m w else b % 2 ^ m.n

/-- A repetition of an integer word on an engine other than X. -/
def intScalar (w : Wrd) (f : IntFn) (div : Bool) (L : Nat) : Act Unit := do
  let s ← get
  if guardOff w s then pure ()
  else do
    let m := intMode w
    let a := (regVal s w.sa).toNat % 2 ^ m.n
    let b := intB m w (regVal s w.sb).toNat
    let c := (regVal s w.sc).toNat % 2 ^ m.n
    writeReg w.dst (BitVec.ofNat 64 (intOut m (f m a b c))) L
    if div then
      addPend (.cond (bits w.mod 1 0)) (BitVec.allOnes 64) (if b = 0 then 1 else 0) 0 L true none

/-- A repetition of an integer word on X, element by element (R98, R99). A g register as c of `isel` gives
the lane's bit (R104). (DESIGN CHOICE, log 102) -/
def intX (opc : Nat) (w : Wrd) (f : IntFn) (div : Bool) (L : Nat) : Act Unit :=
  let m := intMode w
  let wide := m.n == 64
  xRep w (usesOf opc w) wide fun a b c => do
    let s ← get
    if isVector w then do
      let cAt (k : Nat) : Nat :=
        if opc = 0x021 ∧ isG w.sc then (regVal s w.sc).toNat >>> laneOf wide k % 2
        else elem wide c k % 2 ^ m.n
      let bAt (k : Nat) : Nat := intB m w (elem wide b k)
      putVec w wide (packElems wide fun k =>
        intOut m (f m (elem wide a k % 2 ^ m.n) (bAt k) (cAt k))) 0 L
      if div then
        let lanes := elemLanes wide (guardMask w s)
        let d := (span 0 (elemCount wide)).foldl (fun acc k =>
          if bAt k = 0 then acc + (if wide then 3 <<< (2 * k) else 1 <<< k) else acc) 0
        addPend (.reg (.g (Fin.ofNat 8 (bits w.mod 2 0)))) lanes (BitVec.ofNat 2048 d) 0 L true none
    else do
      let cv := if opc = 0x021 ∧ isG w.sc then bits c (16 * s.cluster.getD 0) (16 * s.cluster.getD 0)
        else c.toNat % 2 ^ m.n
      let bv := intB m w (b.toNat % 2 ^ 64)
      putScalar w (intOut m (f m (a.toNat % 2 ^ m.n) bv cv)) 0 L
      if div && scalarOn w s then
        addPend (.reg (.g (Fin.ofNat 8 (bits w.mod 2 0)))) s.laneMask
          (if bv = 0 then BitVec.ofNat 2048 (2 ^ 64 - 1) else 0) 0 L true none

/-- A repetition of an integer word (R103). -/
def intRep (opc : Nat) (w : Wrd) (f : IntFn) (L : Nat) : Act Unit :=
  let div := opc == 0x005 || opc == 0x006
  if w.eng = .X then intX opc w f div L else intScalar w f div L

/-- IADD (R104). -/
def execIadd (w : Wrd) (s : State) : Host.Outcome State Fault Refusal :=
  word w (intRep 0x000 w (fun m a b _ => m.fit (m.val a + m.val b)) 1) s

/-- ISUB (R104). -/
def execIsub (w : Wrd) (s : State) : Host.Outcome State Fault Refusal :=
  word w (intRep 0x001 w (fun m a b _ => m.fit (m.val a - m.val b)) 1) s

/-- IMUL (R104). -/
def execImul (w : Wrd) (s : State) : Host.Outcome State Fault Refusal :=
  word w (intRep 0x002 w (fun m a b _ => m.fit (m.val a * m.val b)) 3) s

/-- IMULH (R104): the high half of the full product. -/
def execImulh (w : Wrd) (s : State) : Host.Outcome State Fault Refusal :=
  word w (intRep 0x003 w (fun m a b _ => wrapN m.n ((m.val a * m.val b) / (2 ^ m.n : Nat))) 3) s

/-- IMAD (R104): one wrap or saturation on the exact value. -/
def execImad (w : Wrd) (s : State) : Host.Outcome State Fault Refusal :=
  word w (intRep 0x004 w (fun m a b c => m.fit (m.val a * m.val b + m.val c)) 3) s

/-- The latency of a division: 18 at width 64, else 10 (R102). -/
def divLat (w : Wrd) : Nat := if (intMode w).n = 64 then 18 else 10

/-- IDIV (R106). -/
def execIdiv (w : Wrd) (s : State) : Host.Outcome State Fault Refusal :=
  word w (intRep 0x005 w (fun m a b _ => intDiv m a b) (divLat w)) s

/-- IREM (R106). -/
def execIrem (w : Wrd) (s : State) : Host.Outcome State Fault Refusal :=
  word w (intRep 0x006 w (fun m a b _ => intRem m a b) (divLat w)) s

/-- IMIN (R104). -/
def execImin (w : Wrd) (s : State) : Host.Outcome State Fault Refusal :=
  word w (intRep 0x007 w (fun m a b _ => if m.val b < m.val a then b else a) 1) s

/-- IMAX (R104). -/
def execImax (w : Wrd) (s : State) : Host.Outcome State Fault Refusal :=
  word w (intRep 0x008 w (fun m a b _ => if m.val a < m.val b then b else a) 1) s

/-- IABS (R104, R105). -/
def execIabs (w : Wrd) (s : State) : Host.Outcome State Fault Refusal :=
  word w (intRep 0x009 w (fun m a _ _ => intAbs m a) 1) s

/-- INEG (R104, R105). -/
def execIneg (w : Wrd) (s : State) : Host.Outcome State Fault Refusal :=
  word w (intRep 0x00A w (fun m a _ _ => intNeg m a) 1) s

/-- IAND (R104). -/
def execIand (w : Wrd) (s : State) : Host.Outcome State Fault Refusal :=
  word w (intRep 0x010 w (fun _ a b _ => a &&& b) 1) s

/-- IOR (R104). -/
def execIor (w : Wrd) (s : State) : Host.Outcome State Fault Refusal :=
  word w (intRep 0x011 w (fun _ a b _ => a ||| b) 1) s

/-- IXOR (R104). -/
def execIxor (w : Wrd) (s : State) : Host.Outcome State Fault Refusal :=
  word w (intRep 0x012 w (fun _ a b _ => a ^^^ b) 1) s

/-- IANDN (R104): a and not b. -/
def execIandn (w : Wrd) (s : State) : Host.Outcome State Fault Refusal :=
  word w (intRep 0x013 w (fun m a b _ => a &&& (b ^^^ (2 ^ m.n - 1))) 1) s

/-- ISHL (R104, R105). -/
def execIshl (w : Wrd) (s : State) : Host.Outcome State Fault Refusal :=
  word w (intRep 0x014 w (fun m a b _ => intShl m a b) 1) s

/-- ISHR (R104): logical. -/
def execIshr (w : Wrd) (s : State) : Host.Outcome State Fault Refusal :=
  word w (intRep 0x015 w (fun m a b _ => a >>> (b % m.n)) 1) s

/-- ISAR (R104): arithmetic. -/
def execIsar (w : Wrd) (s : State) : Host.Outcome State Fault Refusal :=
  word w (intRep 0x016 w (fun m a b _ => wrapN m.n (toSigned m.n a / (2 ^ (b % m.n) : Nat))) 1) s

/-- IROT (R104). -/
def execIrot (w : Wrd) (s : State) : Host.Outcome State Fault Refusal :=
  word w (intRep 0x017 w (fun m a b _ => intRot m.n a b) 1) s

/-- ICLZ (R104). -/
def execIclz (w : Wrd) (s : State) : Host.Outcome State Fault Refusal :=
  word w (intRep 0x018 w (fun m a _ _ => intClz m.n a) 1) s

/-- IPOP (R104). -/
def execIpop (w : Wrd) (s : State) : Host.Outcome State Fault Refusal :=
  word w (intRep 0x019 w (fun m a _ _ => intPop m.n a) 1) s

/-- IBFX (R108). -/
def execIbfx (w : Wrd) (s : State) : Host.Outcome State Fault Refusal :=
  word w (intRep 0x01A w (fun m a _ _ => intBfx m (bits w.imm 7 0) (bits w.imm 15 8) a) 1) s

/-- IBFI (R108). -/
def execIbfi (w : Wrd) (s : State) : Host.Outcome State Fault Refusal :=
  word w (intRep 0x01B w (fun m a b _ => intBfi m.n (bits w.imm 7 0) (bits w.imm 15 8) a b) 1) s

/-- A repetition of `icmp` (R107). -/
def icmpRep (w : Wrd) : Act Unit :=
  let m := intMode w
  let code := bits w.mod 2 0
  let wide := m.n == 64
  if w.eng = .X then
    xRep w (usesOf 0x020 w) wide fun a b _ =>
      if isVector w then
        putCmp w wide ((span 0 (elemCount wide)).foldl (fun acc k =>
          if intCmp m code (elem wide a k) (intB m w (elem wide b k)) then acc + 2 ^ k else acc) 0) 0 1
      else
        putCmp w wide (if intCmp m code a.toNat (intB m w (b.toNat % 2 ^ 64)) then 1 else 0) 0 1
  else do
    let s ← get
    if guardOff w s then pure ()
    else
      let r := intCmp m code (regVal s w.sa).toNat (intB m w (regVal s w.sb).toNat)
      addPend (.cond (bits w.off 1 0)) (BitVec.allOnes 64) (if r then 1 else 0) 0 1 true none

/-- ICMP (R107). -/
def execIcmp (w : Wrd) (s : State) : Host.Outcome State Fault Refusal := word w (icmpRep w) s

/-- ISEL (R104). -/
def execIsel (w : Wrd) (s : State) : Host.Outcome State Fault Refusal :=
  word w (intRep 0x021 w (fun _ a b c => if c ≠ 0 then a else b) 1) s

/-- IMOV (R109). -/
def execImov (w : Wrd) (s : State) : Host.Outcome State Fault Refusal :=
  word w (intRep 0x022 w (fun _ a _ _ => a) 1) s

/-- The value of `ili` (R109): the 64-bit literal, or IMM extended to 64 bits. -/
def iliVal (w : Wrd) : Nat :=
  match w.lit2 with
  | some l => l.toNat
  | none => extend 32 (bit w.mod 5) w.imm.toNat

/-- ILI (R109). -/
def execIli (w : Wrd) (s : State) : Host.Outcome State Fault Refusal :=
  word w (intRep 0x023 w (fun m _ _ _ => iliVal w % 2 ^ m.n) 1) s

end Sys2Proof.Machine
end

