-- ==== Sys2Proof/Machine/Dispatch.lean ====
section
/-!
DEFINITION. The meaning of each instruction, one arm for each constructor.
-/

namespace Sys2Proof.Machine

open Sys2Proof

def exec (i : Instr) (s : State) : Host.Outcome State Fault Refusal :=
  match i with
  | .iadd w => Sys2Proof.Machine.execIadd w s
  | .isub w => Sys2Proof.Machine.execIsub w s
  | .imul w => Sys2Proof.Machine.execImul w s
  | .imulh w => Sys2Proof.Machine.execImulh w s
  | .imad w => Sys2Proof.Machine.execImad w s
  | .idiv w => Sys2Proof.Machine.execIdiv w s
  | .irem w => Sys2Proof.Machine.execIrem w s
  | .imin w => Sys2Proof.Machine.execImin w s
  | .imax w => Sys2Proof.Machine.execImax w s
  | .iabs w => Sys2Proof.Machine.execIabs w s
  | .ineg w => Sys2Proof.Machine.execIneg w s
  | .iand w => Sys2Proof.Machine.execIand w s
  | .ior w => Sys2Proof.Machine.execIor w s
  | .ixor w => Sys2Proof.Machine.execIxor w s
  | .iandn w => Sys2Proof.Machine.execIandn w s
  | .ishl w => Sys2Proof.Machine.execIshl w s
  | .ishr w => Sys2Proof.Machine.execIshr w s
  | .isar w => Sys2Proof.Machine.execIsar w s
  | .irot w => Sys2Proof.Machine.execIrot w s
  | .iclz w => Sys2Proof.Machine.execIclz w s
  | .ipop w => Sys2Proof.Machine.execIpop w s
  | .ibfx w => Sys2Proof.Machine.execIbfx w s
  | .ibfi w => Sys2Proof.Machine.execIbfi w s
  | .icmp w => Sys2Proof.Machine.execIcmp w s
  | .isel w => Sys2Proof.Machine.execIsel w s
  | .imov w => Sys2Proof.Machine.execImov w s
  | .ili w => Sys2Proof.Machine.execIli w s
  | .br w => Sys2Proof.Machine.execBr w s
  | .brc w => Sys2Proof.Machine.execBrc w s
  | .jmpi w => Sys2Proof.Machine.execJmpi w s
  | .call w => Sys2Proof.Machine.execCall w s
  | .ret w => Sys2Proof.Machine.execRet w s
  | .loop w => Sys2Proof.Machine.execLoop w s
  | .loopInit w => Sys2Proof.Machine.execLoopInit w s
  | .brq w => Sys2Proof.Machine.execBrq w s
  | .obsend w => Sys2Proof.Machine.execObsend w s
  | .nop w => Sys2Proof.Machine.execNop w s
  | .halt w => Sys2Proof.Machine.execHalt w s
  | .csrr w => Sys2Proof.Machine.execCsrr w s
  | .csrw w => Sys2Proof.Machine.execCsrw w s
  | .flgr w => Sys2Proof.Machine.execFlgr w s
  | .tkw w => Sys2Proof.Machine.execTkw w s
  | .tkrd w => Sys2Proof.Machine.execTkrd w s
  | .fork w => Sys2Proof.Machine.execFork w s
  | .join w => Sys2Proof.Machine.execJoin w s
  | .endit w => Sys2Proof.Machine.execEndit w s
  | .wfe w => Sys2Proof.Machine.execWfe w s
  | .sev w => Sys2Proof.Machine.execSev w s
  | .fadd w => Sys2Proof.Machine.execFadd w s
  | .fsub w => Sys2Proof.Machine.execFsub w s
  | .fmul w => Sys2Proof.Machine.execFmul w s
  | .ffma w => Sys2Proof.Machine.execFfma w s
  | .fmin w => Sys2Proof.Machine.execFmin w s
  | .fmax w => Sys2Proof.Machine.execFmax w s
  | .fdiv w => Sys2Proof.Machine.execFdiv w s
  | .fsqrt w => Sys2Proof.Machine.execFsqrt w s
  | .fcmp w => Sys2Proof.Machine.execFcmp w s
  | .fclass w => Sys2Proof.Machine.execFclass w s
  | .fscale w => Sys2Proof.Machine.execFscale w s
  | .fexpo w => Sys2Proof.Machine.execFexpo w s
  | .frint w => Sys2Proof.Machine.execFrint w s
  | .fnc w => Sys2Proof.Machine.execFnc w s
  | .fncRnd w => Sys2Proof.Machine.execFncRnd w s
  | .fncTab w => Sys2Proof.Machine.execFncTab w s
  | .cvt w => Sys2Proof.Machine.execCvt w s
  | .cvts w => Sys2Proof.Machine.execCvts w s
  | .cvtq w => Sys2Proof.Machine.execCvtq w s
  | .cvtd w => Sys2Proof.Machine.execCvtd w s
  | .vmov w => Sys2Proof.Machine.execVmov w s
  | .vbc w => Sys2Proof.Machine.execVbc w s
  | .vlix w => Sys2Proof.Machine.execVlix w s
  | .vperm w => Sys2Proof.Machine.execVperm w s
  | .vrot w => Sys2Proof.Machine.execVrot w s
  | .vbfly w => Sys2Proof.Machine.execVbfly w s
  | .vsum w => Sys2Proof.Machine.execVsum w s
  | .vmaxr w => Sys2Proof.Machine.execVmaxr w s
  | .vminr w => Sys2Proof.Machine.execVminr w s
  | .gop w => Sys2Proof.Machine.execGop w s
  | .gany w => Sys2Proof.Machine.execGany w s
  | .gall w => Sys2Proof.Machine.execGall w s
  | .gcnt w => Sys2Proof.Machine.execGcnt w s
  | .gmov w => Sys2Proof.Machine.execGmov w s
  | .lqdrop w => Sys2Proof.Machine.execLqdrop w s
  | .lease w => Sys2Proof.Machine.execLease w s
  | .free w => Sys2Proof.Machine.execFree w s
  | .bld w => Sys2Proof.Machine.execBld w s
  | .sldCol w => Sys2Proof.Machine.execSldCol w s
  | .sldBlk w => Sys2Proof.Machine.execSldBlk w s
  | .fmtld w => Sys2Proof.Machine.execFmtld w s
  | .fmtix w => Sys2Proof.Machine.execFmtix w s
  | .mma w => Sys2Proof.Machine.execMma w s
  | .chbuild w => Sys2Proof.Machine.execChbuild w s
  | .mclose w => Sys2Proof.Machine.execMclose w s
  | .mzero w => Sys2Proof.Machine.execMzero w s
  | .chstat w => Sys2Proof.Machine.execChstat w s
  | .ld w => Sys2Proof.Machine.execLd w s
  | .lda w => Sys2Proof.Machine.execLda w s
  | .ldg w => Sys2Proof.Machine.execLdg w s
  | .ldga w => Sys2Proof.Machine.execLdga w s
  | .pf w => Sys2Proof.Machine.execPf w s
  | .invalPage w => Sys2Proof.Machine.execInvalPage w s
  | .invalCtx w => Sys2Proof.Machine.execInvalCtx w s
  | .invalAll w => Sys2Proof.Machine.execInvalAll w s
  | .carve w => Sys2Proof.Machine.execCarve w s
  | .atadd w => Sys2Proof.Machine.execAtadd w s
  | .atmin w => Sys2Proof.Machine.execAtmin w s
  | .atmax w => Sys2Proof.Machine.execAtmax w s
  | .atand w => Sys2Proof.Machine.execAtand w s
  | .ator w => Sys2Proof.Machine.execAtor w s
  | .atxor w => Sys2Proof.Machine.execAtxor w s
  | .atxch w => Sys2Proof.Machine.execAtxch w s
  | .atcas w => Sys2Proof.Machine.execAtcas w s
  | .rdo w => Sys2Proof.Machine.execRdo w s
  | .phase w => Sys2Proof.Machine.execPhase w s
  | .fence w => Sys2Proof.Machine.execFence w s
  | .rclaim w => Sys2Proof.Machine.execRclaim w s
  | .rfill w => Sys2Proof.Machine.execRfill w s
  | .rfree w => Sys2Proof.Machine.execRfree w s
  | .rwaitf w => Sys2Proof.Machine.execRwaitf w s
  | .rwaite w => Sys2Proof.Machine.execRwaite w s
  | .st w => Sys2Proof.Machine.execSt w s
  | .stw w => Sys2Proof.Machine.execStw w s
  | .stg w => Sys2Proof.Machine.execStg w s
  | .btcpy w => Sys2Proof.Machine.execBtcpy w s
  | .btq w => Sys2Proof.Machine.execBtq w s
  | .waitc w => Sys2Proof.Machine.execWaitc w s
  | .tlwait w => Sys2Proof.Machine.execTlwait w s
  | .barinit w => Sys2Proof.Machine.execBarinit w s
  | .bararr w => Sys2Proof.Machine.execBararr w s
  | .bararrRem w => Sys2Proof.Machine.execBararrRem w s
  | .barexp w => Sys2Proof.Machine.execBarexp w s
  | .barwait w => Sys2Proof.Machine.execBarwait w s
  | .gdef w => Sys2Proof.Machine.execGdef w s
  | .gstep w => Sys2Proof.Machine.execGstep w s
  | .ldgs w => Sys2Proof.Machine.execLdgs w s
  | .rdxgo w => Sys2Proof.Machine.execRdxgo w s
  | .pgmig w => Sys2Proof.Machine.execPgmig w s
  | .stgs w => Sys2Proof.Machine.execStgs w s
  | .ldr w => Sys2Proof.Machine.execLdr w s
  | .mmar w => Sys2Proof.Machine.execMmar w s
  | .stgr w => Sys2Proof.Machine.execStgr w s
  | .strel w => Sys2Proof.Machine.execStrel w s
  | .ssend w => Sys2Proof.Machine.execSsend w s
  | .srecv w => Sys2Proof.Machine.execSrecv w s
  | .srecvLen w => Sys2Proof.Machine.execSrecvLen w s
  | .srecvFree w => Sys2Proof.Machine.execSrecvFree w s
  | .mcast w => Sys2Proof.Machine.execMcast w s
  | .cmb w => Sys2Proof.Machine.execCmb w s
  | .trap w => Sys2Proof.Machine.execTrap w s
  | .sysc w => Sys2Proof.Machine.execSysc w s
  | .eret w => Sys2Proof.Machine.execEret w s
  | .mspill w => Sys2Proof.Machine.execMspill w s
  | .mfillLink w => Sys2Proof.Machine.execMfillLink w s
  | .mfillBank w => Sys2Proof.Machine.execMfillBank w s
  | .chfrz w => Sys2Proof.Machine.execChfrz w s
  | .chfrzThaw w => Sys2Proof.Machine.execChfrzThaw w s
  | .chgraft w => Sys2Proof.Machine.execChgraft w s
  | .seal w => Sys2Proof.Machine.execSeal w s
  | .irrv w => Sys2Proof.Machine.execIrrv w s
  | .tbank w => Sys2Proof.Machine.execTbank w s
  | .mark w => Sys2Proof.Machine.execMark w s
  | .slipDeadlock core => Sys2Proof.Machine.execSlipDeadlock core s
  | .queueEntryValid core q entry => Sys2Proof.Machine.execQueueEntryValid core q entry s
  | .registerLoadData core stream seq => Sys2Proof.Machine.execRegisterLoadData core stream seq s
  | .rakeHandout launch => Sys2Proof.Machine.execRakeHandout launch s
  | .launchComplete launch => Sys2Proof.Machine.execLaunchComplete launch s
  | .leaseGrant bed => Sys2Proof.Machine.execLeaseGrant bed s
  | .partialArrival flight => Sys2Proof.Machine.execPartialArrival flight s
  | .close launch ch => Sys2Proof.Machine.execClose launch ch s
  | .faultDelivery core => Sys2Proof.Machine.execFaultDelivery core s
  | .impreciseReport flight => Sys2Proof.Machine.execImpreciseReport flight s
  | .preemptionRequest core => Sys2Proof.Machine.execPreemptionRequest core s
  | .preemptResume core => Sys2Proof.Machine.execPreemptResume core s
  | .linkFailure bed slot => Sys2Proof.Machine.execLinkFailure bed slot s
  | .globalStall cycles => Sys2Proof.Machine.execGlobalStall cycles s
  | .copyAccept die => Sys2Proof.Machine.execCopyAccept die s
  | .copyComplete die entry => Sys2Proof.Machine.execCopyComplete die entry s
  | .remoteArrival flight => Sys2Proof.Machine.execRemoteArrival flight s
  | .haloFillComplete fill => Sys2Proof.Machine.execHaloFillComplete fill s
  | .haloFillBegin fill => Sys2Proof.Machine.execHaloFillBegin fill s
  | .staleHaloTimeout core => Sys2Proof.Machine.execStaleHaloTimeout core s
  | .contributionArrival flight => Sys2Proof.Machine.execContributionArrival flight s
  | .gapTimeout die held => Sys2Proof.Machine.execGapTimeout die held s
  | .reductionStart die waiting => Sys2Proof.Machine.execReductionStart die waiting s
  | .reductionComplete die running => Sys2Proof.Machine.execReductionComplete die running s
  | .releaseComplete core => Sys2Proof.Machine.execReleaseComplete core s
  | .transplantStepDone transplant => Sys2Proof.Machine.execTransplantStepDone transplant s
  | .accessBounce core va => Sys2Proof.Machine.execAccessBounce core va s
  | .sevArrival flight => Sys2Proof.Machine.execSevArrival flight s
  | .sealRequest why => Sys2Proof.Machine.execSealRequest why s
  | .periodicSealTimer => Sys2Proof.Machine.execPeriodicSealTimer s
  | .sealOpen => Sys2Proof.Machine.execSealOpen s
  | .sealCommit => Sys2Proof.Machine.execSealCommit s
  | .uncorrectableError site => Sys2Proof.Machine.execUncorrectableError site s
  | .boundExpiry launch => Sys2Proof.Machine.execBoundExpiry launch s
  | .iterBoundExpiry core => Sys2Proof.Machine.execIterBoundExpiry core s
  | .queueEntryTake tid q => Sys2Proof.Machine.execQueueEntryTake tid q s
  | .kernel tid q => Sys2Proof.Machine.execKernel tid q s
  | .copy tid q => Sys2Proof.Machine.execCopy tid q s
  | .cond tid q => Sys2Proof.Machine.execCond tid q s
  | .loopNode tid q => Sys2Proof.Machine.execLoopNode tid q s
  | .switch tid q => Sys2Proof.Machine.execSwitch tid q s
  | .sealNode tid q => Sys2Proof.Machine.execSealNode tid q s
  | .signal tid q => Sys2Proof.Machine.execSignal tid q s
  | .waitev tid q => Sys2Proof.Machine.execWaitev tid q s
  | .completionRecordWrite tid q => Sys2Proof.Machine.execCompletionRecordWrite tid q s
  | .qwptrWrite tid q value => Sys2Proof.Machine.execQwptrWrite tid q value s
  | .crptrWrite tid q value => Sys2Proof.Machine.execCrptrWrite tid q value s
  | .evset tid bits => Sys2Proof.Machine.execEvset tid bits s
  | .apertureAccess acc => Sys2Proof.Machine.execApertureAccess acc s
  | .ringGeomStore bed ring off data => Sys2Proof.Machine.execRingGeomStore bed ring off data s
  | .ringCntbStore bed ring off data => Sys2Proof.Machine.execRingCntbStore bed ring off data s
  | .streamSgeomStore die launch sid off data => Sys2Proof.Machine.execStreamSgeomStore die launch sid off data s
  | .streamSerrStore die launch sid off data => Sys2Proof.Machine.execStreamSerrStore die launch sid off data s
  | .streamSlotArrival die sid => Sys2Proof.Machine.execStreamSlotArrival die sid s
  | .ecMirrorUpdate die sid => Sys2Proof.Machine.execEcMirrorUpdate die sid s
  | .conntabApply => Sys2Proof.Machine.execConntabApply s
  | .routeLoad schedule => Sys2Proof.Machine.execRouteLoad schedule s
  | .routeSwitch gen slot => Sys2Proof.Machine.execRouteSwitch gen slot s
  | .switchSlotReached => Sys2Proof.Machine.execSwitchSlotReached s
  | .generationDrained => Sys2Proof.Machine.execGenerationDrained s
  | .tenantConfig record => Sys2Proof.Machine.execTenantConfig record s
  | .registerWrite reg value => Sys2Proof.Machine.execRegisterWrite reg value s
  | .lock tid => Sys2Proof.Machine.execLock tid s
  | .start tid => Sys2Proof.Machine.execStart tid s
  | .stop tid => Sys2Proof.Machine.execStop tid s
  | .getReport tid nonce => Sys2Proof.Machine.execGetReport tid nonce s
  | .interfaceError tid => Sys2Proof.Machine.execInterfaceError tid s
  | .getCounters off len => Sys2Proof.Machine.execGetCounters off len s
  | .coldStart c => Sys2Proof.Machine.execColdStart c s
  | .warmStart c => Sys2Proof.Machine.execWarmStart c s
  | .packetDeparture flight => Sys2Proof.Machine.execPacketDeparture flight s
  | .packetReceive p => Sys2Proof.Machine.execPacketReceive p s
  | .ackReceive pkg seq => Sys2Proof.Machine.execAckReceive pkg seq s
  | .ackTimeout flight => Sys2Proof.Machine.execAckTimeout flight s
  | .portWidthChange port width => Sys2Proof.Machine.execPortWidthChange port width s
  | .correctableError site => Sys2Proof.Machine.execCorrectableError site s
  | .shutdown => Sys2Proof.Machine.execShutdown s
  | .waitcTargetReached core stream => Sys2Proof.Machine.execWaitcTargetReached core stream s

end Sys2Proof.Machine
end

