-- ==== Sys2Proof/Machine/Turns.lean ====
section
/-!
DEFINITION. What a step of the package is made of: the turn that comes, the time that passes, and the
moves that are not instructions; and a word placed where the next step fetches it (log 1).
-/

namespace Sys2Proof.Machine

open Sys2Proof

/-- The turn that comes: the next of the agenda, or one drawn freely (log 1).
(DESIGN CHOICE, log 1; DEDUCED, log 7) -/
def nextTurn (s : State) : Turn × State :=
  match s.agenda with
  | t :: r => (t, { s with agenda := r })
  | [] => (Config.schedule s.draws, { s with draws := s.draws + 1 })

/-- A core whose A engine waits for a ghost tag: slot-times pass that the engine could have issued, up to the
one at which the tag is held (R306). -/
def tickHalo (n c : Nat) (s : State) : State :=
  let k := s.core c
  let s' := s.at c 0
  match (k.stream 0).hold, fetchAt s'.cl.code s'.cs.bank s'.cs.pc with
  | .halo p, some (.ldgs w) =>
    if k.mode = .running ∧ !tagHeld w s' then
      s.setCore c (k.setStream 0 { k.stream 0 with hold := .halo (p + n) })
    else s
  | _, _ => s

/-- The slot-times of a turn count for every wait for a ghost tag: they pass with the wall clock, but not
while SCYC stands for a stall or a seal (R188, R306, R380). (DEDUCED, log 43) -/
def tickHalos (dt : Nat) (s : State) : State :=
  let n := if s.clk.hold then 0 else dt - Nat.min s.clk.stall dt
  if n = 0 then s else s.dom.cores.keys.foldl (fun s c => tickHalo n c s) s

/-- The state as the turn finds it: its wall cycles have passed, copies whose duration has passed are complete, and
accepted packets that waited are applied as far as they can be (R25, R188, R323, R378).
(DESIGN CHOICE, log 1) -/
def turnState (t : Turn) (s : State) : State := settleFabric (settleCopies (passTime t.dt (tickHalos t.dt s)))

/-! ### Streams that issue (R39, R344) -/

/-- One turn of stream `e` of core `c`: the slot of the word that it has come to, by the meaning of the
instruction set. -/
def streamTurn (run : Instr → State → Host.Outcome State Fault Refusal) (c e : Nat) (s : State) :
    Host.Outcome State Fault Refusal :=
  match fetch c e s with
  | .run i s => run i s
  | .done s => .next s

/-- The state in which the turn of a stream leaves the core with a precise fault to deliver; none where it
takes no such fault. -/
def faultAtTurn (run : Instr → State → Host.Outcome State Fault Refusal) (c : Nat) (s : State) (e : Nat) :
    Option State :=
  match streamTurn run c e s with
  | .next t =>
    if (t.core c).mode = .faulted ∧ ((t.core c).frame.map (·.prec)).getD false then some t else none
  | _ => none

/-- The precise fault at this boundary of the lowest of some streams (R344). -/
def lowestFault (run : Instr → State → Host.Outcome State Fault Refusal) (c : Nat) (s : State)
    (l : List Nat) : Option State := (l.filterMap (faultAtTurn run c s)).head?

/-- A report that reaches a running core at the boundary at which a stream of it takes a precise fault is
kept (R344). -/
def reportTie (run : Instr → State → Host.Outcome State Fault Refusal) (c : Nat) (s : State) :
    Option State :=
  let k := s.core c
  if k.tie && !k.reports.isEmpty && k.mode == .running then
    (lowestFault run c (s.setCore c { k with reports := [], tie := false }) k.inUse).map fun t =>
      t.setCore c { t.core c with reports := k.reports }
  else none

/-- A stream of lower number that takes a precise fault at the same boundary goes first (R344). Joint
sequencing has one program counter. -/
def lowerTie (run : Instr → State → Host.Outcome State Fault Refusal) (c e : Nat) (s : State) :
    Option State :=
  if (s.core c).mode == .running && s.seqn c != .joint && (faultAtTurn run c s e).isSome then
    lowestFault run c s ((s.core c).inUse.filter (· < e))
  else none

/-- The turn of a stream among the happenings of its boundary (R344). (DEDUCED, log 6) -/
def issueTurn (run : Instr → State → Host.Outcome State Fault Refusal) (c e : Nat) (s : State) :
    Host.Outcome State Fault Refusal :=
  match reportTie run c s with
  | some t => .next t
  | none =>
    match lowerTie run c e s with
    | some t => .next t
    | none => streamTurn run c e s

/-- A start of the package, which runs out of service too (R448, R449). -/
def isStart : Move → Bool
  | .agent (.coldStart _) => true
  | .agent (.warmStart _) => true
  | _ => false

/-- The package takes the move: it is in service, or the move starts it. -/
def takesMove (s : State) (m : Move) : Bool := s.power == .on || isStart m

/-- A word placed for a test: its text, with the engine that its template names. -/
def wordText (nbits w : Nat) : List Word :=
  let w := w % 2 ^ nbits
  let pw : Word := BitVec.ofNat 32 (w >>> 128)
  let e := w >>> 116 % 4
  let pw : Word := BitVec.ofNat 32 (pw.toNat % 2 ^ 30 + e <<< 30)
  pw :: ([BitVec.ofNat 32 (w >>> 160), BitVec.ofNat 32 (w >>> 192)].take (litCount pw))

/-- The code object that holds one word, with its template at the index that its patch word names. -/
def wordCode (nbits w : Nat) : Code :=
  let text := wordText nbits w
  let pw := text.headD 0
  let t := bits pw 29 24
  { Code.empty with
    text := text, entry := 0, groups := [(0, text.length)]
    banks := Tbl.empty.put (16 * bits pw 31 30)
      { mask := BitVec.ofNat 64 (2 ^ t), tm := Tbl.empty.put t (BitVec.ofNat 128 w) } }

/-- Core 0 holds one word of a launch, at its entry, and the next step issues it.
(DESIGN CHOICE, log 1) -/
def placeWord (nbits w : Nat) (s : State) : State :=
  let n := s.dom.nextLaunch
  let code := wordCode nbits w
  let l : Launch :=
    { Launch.init with
      ctx := n % 4096, code := code, cores := [0], total := 1, handed := 1, status := .running, closed := false
      origin := ⟨0, 0, 0, 0⟩ }
  let e := bits (code.text.headD 0) 31 30
  let s := (s.setLaunch n l).setCore 0 ((joinLaunch s n l 0).loaded 0 l)
  { s with
    agenda := [⟨0, .issue 0 e⟩]
    dom := { s.dom with nextLaunch := n + 1, ctxs := s.dom.ctxs.put (n % 4096) Ctx.init } }

end Sys2Proof.Machine
end

