-- ==== Sys2Proof/Machine/Step.lean ====
section
/-!
DEFINITION. One step of the package: one turn of a stream of a core or of another agent.
-/

namespace Sys2Proof.Machine

open Sys2Proof

/-- One step: the next turn, after the wall cycles before it. A stream that issues runs one slot of the
word that it has come to; another agent runs its step, when that names what exists; a package out of service takes only a start. -/
def step (s : State) : Host.Outcome State Fault Refusal :=
  let n := nextTurn s
  let t := n.1
  if takesMove s t.move then
    let s := turnState t n.2
    match t.move with
    | .issue c e => issueTurn exec c e s
    | .agent i => if agentOk i then exec i s else .next s
    | .publish c b => .next (publishBlock c b s)
    | .copyBlock d e b => .next (moveBlock d e b s)
    | .sumBlock d i b => .next (sumBlock d i b s)
    | .sealPublish c => .next (sealPublish c s)
  else .fault .outOfService

/-- The state with one word of the instruction set where the next step fetches: the only word of a
running launch of core 0, whose turn comes next. -/
def State.withFetchWord (s : State) (nbits w : Nat) : State := placeWord nbits w s

end Sys2Proof.Machine
end

