-- ==== Sys2Proof/WellFormed.lean ====
section
/-!
DEFINITION. Well-formed instructions: a word that passes the checks of R80 under its own opcode, and a
step of another agent that names what exists.
-/

namespace Sys2Proof

/-- The word of an opcode is well formed: the checks of R80 give the instruction, and only a word that
takes LIT2 holds a 64-bit literal (R73). -/
def wordOk (i : Instr) (opc : Nat) (w : Wrd) : Bool :=
  instrOf opc w == some i && (w.lit2.isNone || opc == 0x023)

/-- A well-formed instruction. -/
def WellFormed (i : Instr) : Bool :=
  match opcOf i with
  | some (o, w) => wordOk i o w
  | none => eventOk i

end Sys2Proof
end

