-- ==== Sys2Proof/Safety.lean ====
section
/-!
DEFINITION. The terms in which statements speak of the machine: what a part of a word does, the slot of a
word before and after its effect, a write issued, and the invariants of a package.
-/

namespace Sys2Proof.Machine

open Sys2Proof

/-! ### Parts of words -/

/-- A part of a word completes in a state. -/
def okB {α : Type} (a : Act α) (s : State) : Bool :=
  match a s with
  | .ok _ => true
  | .error _ => false

/-- The state after a part that completes; the state itself after one that does not. -/
def afterOf {α : Type} (a : Act α) (s : State) : State :=
  match a s with
  | .ok r => r.2
  | .error _ => s

/-- A part completes in a state with a value, and changes nothing. -/
def givesValue {α : Type} (a : Act α) (s : State) (x : α) : Prop := a s = .ok (x, s)

/-- What comes before the repetition of a word: the boundary and the token waits (R33, R36). -/
def slotEntry (w : Wrd) : Act Unit := do
  boundary
  takeTokens w

/-- The state in which the repetition at hand finds the package. -/
def atSlot (w : Wrd) (s : State) : State := afterOf (slotEntry w) s

/-- The issuing stream has a slot for the word: the package is in service, the stream may issue, its
boundary and its tokens are there, and a repetition is left. -/
def slotOpen (w : Wrd) (s : State) : Bool :=
  s.power == .on && s.canIssue && okB (slotEntry w) s && decide ((atSlot w s).cs.repd ≤ w.rep.toNat)

/-- What follows a repetition: the slot is counted and, after the last one, the signals are made and the
word ends with `fin` (R35, R39, R84). -/
def slotExit (w : Wrd) (fin : Act Unit) : Act Unit := do
  endSlot
  let s ← get
  if w.rep.toNat < s.cs.repd then do
    giveTokens w
    fin
    endWord w

/-- The state after a repetition whose effect left `t`. -/
def slotDone (w : Wrd) (t : State) : State := settle (slotExit w nextWord) t

/-- The word runs one repetition whose effect leaves `t`: the step answers the state after it. -/
def Runs (i : Instr) (w : Wrd) (s t : State) : Prop := exec i s = .next (slotDone w t)

/-- A write of the issuing stream, issued with latency L, whose data is there or still to arrive (R36, R270). -/
def pending (tgt : PTarget) (mask : Mask) (data : VReg) (L : Nat) (ready : Bool) (src : Option LoadSrc)
    (s : State) : State :=
  s.modStream fun t => { t with
    pend := insPend ⟨t.slot + L, t.nseq, tgt, mask, data, 0, ready, src⟩ t.pend, nseq := t.nseq + 1 }

/-- A write of the issuing stream, issued with latency L (R36). -/
def issued (tgt : PTarget) (mask : Mask) (data : VReg) (flg : BitVec 5) (L : Nat) (s : State) : State :=
  s.modStream fun t => { t with
    pend := insPend ⟨t.slot + L, t.nseq, tgt, mask, data, flg, true, none⟩ t.pend, nseq := t.nseq + 1 }

/-- A scalar register write, issued with latency L; a write of z is discarded (R22, R36). -/
def issuedReg (r : Reg) (x : Dword) (L : Nat) (s : State) : State :=
  if r = .sp .z then s else issued (.reg r) (BitVec.allOnes 64) (x.setWidth 2048) 0 L s

/-- The repetition of a word with latency-free effect on the issuing core alone. -/
def coreDone (w : Wrd) (s : State) (f : Core → Core) : State := (atSlot w s).modCore f

/-! ### Operands of X words (R28 to R31, R97 to R100) -/

/-- What a source of an X word reads: a vector register, the head of a queue, or a scalar, which a vector
word broadcasts. -/
def xVal (w : Wrd) (wide : Bool) (s : State) (r : Reg) : VReg :=
  match r with
  | .v i => s.cc.v.get 0 i.val
  | .lq i => ((headOf s.cluster (s.cc.loadQ i.val)).map (·.data)).getD 0
  | .lk i => ((headOf s.cluster (s.cc.loadQ i.val)).map (·.data)).getD 0
  | r => if isVector w then broadcast wide (regVal s r).toNat else (regVal s r).setWidth 2048

/-- A queue that a source reads has a head with its data. -/
def srcReady (used : Bool) (r : Reg) (s : State) : Bool :=
  let there (i : Nat) : Bool :=
    match headOf s.cluster (s.cc.loadQ i) with
    | none => false
    | some e => e.valid
  match r with
  | .lq i => !used || there i.val
  | .lk i => !used || there i.val
  | _ => true

/-- A store queue that the word fills has room. -/
def dstReady (w : Wrd) (s : State) : Bool :=
  match w.dst with
  | .sq i =>
    let l := (s.cc.storeQ i.val).entries
    match s.cluster with
    | none => decide (l.length < 16)
    | some c => (fillSlice c 0 l).isSome || decide (l.length < 16)
  | _ => true

/-- The queues of an X word are ready. -/
def xReady (w : Wrd) (u : Uses) (s : State) : Bool :=
  srcReady u.sa w.sa s && srcReady u.sb w.sb s && srcReady u.sc w.sc s && dstReady w s

/-- The state after a pop of load queue `q`. -/
def popOne (s : State) (q : Nat) : State :=
  match headOf s.cluster (s.cc.loadQ q) with
  | none => s
  | some e =>
    (s.modCore fun k => { k with lq := k.lq.put q (popped s.cluster (k.loadQ q)) }).modStream
      fun t => { t with clock := t.clock.max e.clock }

/-- The state of an X word at its effect: its slot, after the pops of the queues that it names. -/
def xPopped (w : Wrd) (u : Uses) (s : State) : State := (lqsOf w u).foldl popOne (atSlot w s)

/-- The word runs a repetition on X that its guard lets act and whose queues are ready. -/
def xOpen (w : Wrd) (u : Uses) (s : State) : Bool :=
  w.eng == .X && slotOpen w s && !guardOff w (atSlot w s) && xReady w u (atSlot w s)

/-- A source of an X word at its slot; 0 when the word does not use it. -/
def xArg (w : Wrd) (wide used : Bool) (s : State) (r : Reg) : VReg :=
  if used then xVal w wide (atSlot w s) r else 0

/-- The state after the vector result of a word (R97). -/
def vecWritten (w : Wrd) (wide : Bool) (f : Nat → Nat) (flg : BitVec 5) (L : Nat) (s : State) : State :=
  afterOf (putVec w wide (packElems wide f) flg L) s

/-- The state after the scalar result of an X word (R18, R97). -/
def scalarWritten (w : Wrd) (x : Nat) (flg : BitVec 5) (L : Nat) (s : State) : State :=
  if scalarOn w s then issued (.reg w.dst) s.laneMask (BitVec.ofNat 2048 (x % 2 ^ 64)) flg L s else s

/-! ### Integer words (R103 to R109) -/

/-- What R104 to R109 give of an integer word: its constructor, its opcode, its operation on values of the
width, and its latency (R102). -/
structure IntRule where
  make : Wrd → Instr
  opc : Nat
  fn : Wrd → IntFn
  lat : Nat

/-- The n-bit result of an exact integer (R104). -/
def exactly (f : Int → Int → Int → Int) (m : IntMode) (a b c : Nat) : Nat :=
  m.fit (f (m.val a) (m.val b) (m.val c))

/-- The integer words but the divisions and the compare. -/
def intRules : List IntRule := [
  ⟨.iadd, 0x000, fun _ => exactly fun a b _ => a + b, 1⟩,
  ⟨.isub, 0x001, fun _ => exactly fun a b _ => a - b, 1⟩,
  ⟨.imul, 0x002, fun _ => exactly fun a b _ => a * b, 3⟩,
  ⟨.imulh, 0x003, fun _ m a b _ => wrapN m.n ((m.val a * m.val b) / (2 ^ m.n : Nat)), 3⟩,
  ⟨.imad, 0x004, fun _ => exactly fun a b c => a * b + c, 3⟩,
  ⟨.imin, 0x007, fun _ m a b _ => if m.val b < m.val a then b else a, 1⟩,
  ⟨.imax, 0x008, fun _ m a b _ => if m.val a < m.val b then b else a, 1⟩,
  ⟨.iabs, 0x009, fun _ => exactly fun a _ _ => a.natAbs, 1⟩,
  ⟨.ineg, 0x00A, fun _ => exactly fun a _ _ => -a, 1⟩,
  ⟨.iand, 0x010, fun _ _ a b _ => a &&& b, 1⟩,
  ⟨.ior, 0x011, fun _ _ a b _ => a ||| b, 1⟩,
  ⟨.ixor, 0x012, fun _ _ a b _ => a ^^^ b, 1⟩,
  ⟨.iandn, 0x013, fun _ m a b _ => a &&& (b ^^^ (2 ^ m.n - 1)), 1⟩,
  ⟨.ishl, 0x014, fun _ m a b _ => m.fit (m.val a * (2 ^ (b % m.n) : Nat)), 1⟩,
  ⟨.ishr, 0x015, fun _ m a b _ => a / 2 ^ (b % m.n), 1⟩,
  ⟨.isar, 0x016, fun _ m a b _ => wrapN m.n (toSigned m.n a / (2 ^ (b % m.n) : Nat)), 1⟩,
  ⟨.irot, 0x017, fun _ m a b _ => intRot m.n a b, 1⟩,
  ⟨.iclz, 0x018, fun _ m a _ _ => intClz m.n a, 1⟩,
  ⟨.ipop, 0x019, fun _ m a _ _ => intPop m.n a, 1⟩,
  ⟨.ibfx, 0x01A, fun w m a _ _ => intBfx m (bits w.imm 7 0) (bits w.imm 15 8) a, 1⟩,
  ⟨.ibfi, 0x01B, fun w m a b _ => intBfi m.n (bits w.imm 7 0) (bits w.imm 15 8) a b, 1⟩,
  ⟨.isel, 0x021, fun _ _ a b c => if c ≠ 0 then a else b, 1⟩,
  ⟨.imov, 0x022, fun _ _ a _ _ => a, 1⟩,
  ⟨.ili, 0x023, fun w m _ _ _ => iliVal w % 2 ^ m.n, 1⟩]

/-- The divisions: a zero divisor gives all ones, and the dividend as the remainder (R106). -/
def divRules : List IntRule := [
  ⟨.idiv, 0x005, fun _ m a b _ => if b = 0 then 2 ^ m.n - 1 else m.fit ((m.val a).tdiv (m.val b)), 0⟩,
  ⟨.irem, 0x006, fun _ m a b _ => if b = 0 then a else wrapN m.n ((m.val a).tmod (m.val b)), 0⟩]

/-- The second operand of an integer word, at its width (R103). -/
def intSecond (w : Wrd) (b : Nat) : Nat :=
  if bit w.mod 3 then extend 32 (intMode w).natural w.imm.toNat % 2 ^ (intMode w).n else b % 2 ^ (intMode w).n

/-- The result of an integer word on A, M or S, as a 64-bit register (R41, R103). -/
def intOnScalars (r : IntRule) (w : Wrd) (s : State) : Dword :=
  let m := intMode w
  BitVec.ofNat 64 (extend m.n m.natural (r.fn w m ((regVal s w.sa).toNat % 2 ^ m.n)
    (intSecond w (regVal s w.sb).toNat) ((regVal s w.sc).toNat % 2 ^ m.n)))

/-- The third operand of element k on X: a g register of `isel` gives the lane's bit (R104). -/
def intThird (r : IntRule) (w : Wrd) (wide : Bool) (s : State) (c : VReg) (k : Nat) : Nat :=
  if r.opc = 0x021 ∧ isG w.sc then (regVal s w.sc).toNat >>> laneOf wide k % 2
  else elem wide c k % 2 ^ (intMode w).n

/-- Element k of an integer word on X, in its container (R98, R103). -/
def intOnElem (r : IntRule) (w : Wrd) (s : State) (k : Nat) : Nat :=
  let m := intMode w
  let wide := m.n == 64
  let u := usesOf r.opc w
  extend m.n m.natural (r.fn w m (elem wide (xArg w wide u.sa s w.sa) k % 2 ^ m.n)
    (intSecond w (elem wide (xArg w wide u.sb s w.sb) k))
    (intThird r w wide (xPopped w u s) (xArg w wide u.sc s w.sc) k))

/-- The scalar result of an integer word on X. -/
def intOnXScalar (r : IntRule) (w : Wrd) (s : State) : Nat :=
  let m := intMode w
  let wide := m.n == 64
  let u := usesOf r.opc w
  let c := xArg w wide u.sc s w.sc
  let first := 16 * (xPopped w u s).cluster.getD 0
  extend m.n m.natural (r.fn w m ((xArg w wide u.sa s w.sa).toNat % 2 ^ m.n)
    (intSecond w ((xArg w wide u.sb s w.sb).toNat % 2 ^ 64))
    (if r.opc = 0x021 ∧ isG w.sc then bits c first first else c.toNat % 2 ^ m.n))

/-- The lanes whose divisor is zero, as bits of the g register that a division writes (R106). -/
def zeroLanes (w : Wrd) (s : State) (opc : Nat) : Nat :=
  let wide := (intMode w).n == 64
  let b := xArg w wide (usesOf opc w).sb s w.sb
  (span 0 (elemCount wide)).foldl (fun acc k =>
    if intSecond w (elem wide b k) = 0 then acc + (if wide then 3 <<< (2 * k) else 1 <<< k) else acc) 0

/-- The compare of two values at a width and kind by a condition code (R107). -/
def compares (m : IntMode) (code a b : Nat) : Prop :=
  match code with
  | 0 => m.val a = m.val b
  | 1 => m.val a ≠ m.val b
  | 2 => m.val a < m.val b
  | 3 => m.val a ≤ m.val b
  | 4 => m.val b < m.val a
  | _ => m.val b ≤ m.val a

/-! ### Floating-point words (R97 to R116) -/

/-- What R111 to R116 give of a floating-point word: its constructor, its opcode, whether its elements are
lane pairs, its latency (R102), and its operation on the patterns of its operands. -/
structure FloatRule where
  make : Wrd → Instr
  opc : Nat
  wide : Wrd → Bool
  lat : Wrd → Nat
  fn : Wrd → State → Nat → Nat → Nat → FR

/-- An operation on the values of the operands under the mode, the saturation and the flushes of the word. -/
def onValues (f : FEnv → FV → FV → FV → FR) (w : Wrd) (s : State) (a b c : Nat) : FR :=
  let E := fenv w s
  f E (decodeF E.f a) (decodeF E.f b) (decodeF E.f c)

/-- The floating-point words that compute an element from elements. -/
def floatRules : List FloatRule := [
  ⟨.fadd, 0x100, isWide, fun w => fpLat w 4 5, onValues fun E x y _ => addF E x y⟩,
  ⟨.fsub, 0x101, isWide, fun w => fpLat w 4 5, onValues fun E x y _ => subF E x y⟩,
  ⟨.fmul, 0x102, isWide, fun w => fpLat w 4 5, onValues fun E x y _ => mulF E x y⟩,
  ⟨.ffma, 0x103, isWide, fun w => fpLat w 4 5, onValues fun E x y z => fmaF E x y z⟩,
  ⟨.fmin, 0x104, isWide, fun w => fpLat w 4 5, onValues fun E x y _ => minMaxF E false x y⟩,
  ⟨.fmax, 0x105, isWide, fun w => fpLat w 4 5, onValues fun E x y _ => minMaxF E true x y⟩,
  ⟨.fdiv, 0x106, isWide, fun w => fpLat w 12 22, onValues fun E x y _ => divF E x y⟩,
  ⟨.fsqrt, 0x107, isWide, fun w => fpLat w 12 22, onValues fun E x _ _ => sqrtF E x⟩,
  ⟨.fclass, 0x109, isWide, fun _ => 2, onValues fun E x _ _ => ⟨classF E.f x, 0, false⟩⟩,
  ⟨.fscale, 0x10A, isWide, fun _ => 3, fun w s a b _ =>
    scaleF (fenv w s) (decodeF (fenv w s).f a) (toSigned (if isWide w then 64 else 32) b)⟩,
  ⟨.fexpo, 0x10B, isWide, fun _ => 3, fun w s a _ _ =>
    let n := if isWide w then 64 else 32
    let r := expoF (fenv w s) n (decodeF (fenv w s).f a)
    ⟨extend n false r.val, r.flg, r.snan⟩⟩,
  ⟨.frint, 0x10C, isWide, fun _ => 3, onValues fun E x _ _ => rintF E x⟩,
  ⟨.fnc, 0x10D, fun _ => false, fun _ => 8, fun w s a _ _ =>
    fncVal (fenv w s) (s.cc.csrN 0x010).toNat (bits w.imm 3 0) (decodeF fp32 a)⟩,
  ⟨.fncTab, 0x10D, fun _ => false, fun _ => 2, fun w s a _ _ =>
    let v := (s.cc.csrN 0x010).toNat
    let fn := bits w.imm 7 4
    ⟨romCoef v (if fn = 8 then 6 else fn) (a % 2 ^ 32 % segments v) (bits w.imm 9 8), 0, false⟩⟩]

/-- The results of a floating-point word: of the enabled elements, or of the one scalar element. -/
def floatResults (r : FloatRule) (w : Wrd) (s : State) : List (Nat × FR) :=
  let u := usesOf r.opc w
  let t := xPopped w u s
  let a := xArg w (r.wide w) u.sa s w.sa
  let b := xArg w (r.wide w) u.sb s w.sb
  let c := xArg w (r.wide w) u.sc s w.sc
  results (r.wide w) (isVector w) (guardMask w t) (16 * t.cluster.getD 0) fun k =>
    if isVector w then r.fn w t (elem (r.wide w) a k) (elem (r.wide w) b k) (elem (r.wide w) c k)
    else r.fn w t (a.toNat % 2 ^ 64) (b.toNat % 2 ^ 64) (c.toNat % 2 ^ 64)

/-- The lanes of a result, as bits: those of its element, or the first of the issuing clusters. -/
def lanesAt (w : Wrd) (wide : Bool) (t : State) (k : Nat) : Nat :=
  if isVector w then lanesOf wide k else 1 <<< (16 * t.cluster.getD 0)

/-- The state after the results of a word: its elements in a vector, or its one element in a register. -/
def resultsWritten (w : Wrd) (wide : Bool) (out : Nat → Nat) (flg : BitVec 5) (L : Nat) (t : State) : State :=
  if isVector w then vecWritten w wide out flg L t else scalarWritten w (out 0) flg L t

/-- A value lies below another, with −0 below +0 (R112): the dyadic values are compared at any exponent that both
reach. -/
def below (x y : FV) : Prop :=
  let s (neg : Bool) (m : Nat) : Int := if neg then -(m : Int) else m
  match x, y with
  | .fin n m e, .fin n' m' e' =>
    (∃ k : Int, k ≤ e ∧ k ≤ e' ∧ s n m * 2 ^ (e - k).toNat < s n' m' * 2 ^ (e' - k).toNat) ∨
    (m = 0 ∧ m' = 0 ∧ n = true ∧ n' = false)
  | .fin _ _ _, .inf n => n = false
  | .inf n, .fin _ _ _ => n = true
  | .inf n, .inf n' => n = true ∧ n' = false
  | _, _ => False

/-- The results of `fcmp` (R113). -/
def fcmpResults (w : Wrd) (s : State) : List (Nat × FR) :=
  let wide := isWide w
  let u := usesOf 0x108 w
  let t := xPopped w u s
  let E := fenv w t
  let a := xArg w wide u.sa s w.sa
  let b := xArg w wide u.sb s w.sb
  results wide (isVector w) (guardMask w t) (16 * t.cluster.getD 0) fun k =>
    if isVector w then cmpF E (bits w.mod 4 2) (decodeF E.f (elem wide a k)) (decodeF E.f (elem wide b k))
    else cmpF E (bits w.mod 4 2) (decodeF E.f a.toNat) (decodeF E.f b.toNat)

/-- The result of a compare: bit k for element k. -/
def cmpBits (rs : List (Nat × FR)) : Nat := rs.foldl (fun acc r => acc + r.2.val * 2 ^ r.1) 0

/-- The state after the results of a compare of X. -/
def cmpWritten (w : Wrd) (wide : Bool) (v : Nat) (flg : BitVec 5) (L : Nat) (t : State) : State :=
  afterOf (putCmp w wide v flg L) t

/-- The source and the destination of a conversion are 64 bits wide (R117). -/
def cvtWide (w : Wrd) : Bool × Bool := (kindBits (cvtKinds w).1 == 64, kindBits (cvtKinds w).2 == 64)

/-- The results of `cvt` and `cvts` (R117 to R119). -/
def cvtResults (opc : Nat) (w : Wrd) (s : State) : List (Nat × FR) :=
  let sw := (cvtWide w).1
  let wide := sw || (cvtWide w).2
  let u := usesOf opc w
  let t := xPopped w u s
  let E := fenv w t
  let a := xArg w sw u.sa s w.sa
  let b := xArg w sw u.sb s w.sb
  results wide (isVector w) (guardMask w t) (16 * t.cluster.getD 0) fun k =>
    let x := if !isVector w then a.toNat % 2 ^ 64
      else if sw then elem true a k else if wide then elem false a (2 * k) else elem false a k
    let rnd := if !isVector w then b.toNat % 2 ^ 32
      else if wide then elem false b (2 * k) else elem false b k
    if opc = 0x111 then convertS E.sat E.ftzIn E.ftzOut (cvtKinds w).1 (cvtKinds w).2 x rnd
    else convert E.mode E.sat E.ftzIn E.ftzOut (cvtKinds w).1 (cvtKinds w).2 x

/-- What a conversion puts into its destination: a narrower one clears the upper lane of a pair. -/
def cvtElem (w : Wrd) (rs : List (Nat × FR)) (k : Nat) : Nat :=
  if isVector w && !(cvtWide w).2 then cvtOut (cvtKinds w).2 (valAt rs k) % 2 ^ 32
  else cvtOut (cvtKinds w).2 (valAt rs k)

/-- The two blocks of `cvtq` (R50, R120). -/
def cvtqBlock (w : Wrd) (s : State) (first : Nat) : Nat × List FR :=
  let u := usesOf 0x112 w
  let E := fenv w (xPopped w u s)
  quantBlock E.mode w.imm.toNat E.ftzIn E.ftzOut
    ((span first 32).map (elem false (xArg w false u.sa s w.sa)))

/-- The 64 results of `cvtd` (R50, R120). -/
def cvtdResults (w : Wrd) (s : State) : List (Nat × FR) :=
  let u := usesOf 0x113 w
  let E := fenv w (xPopped w u s)
  let a := xArg w false u.sa s w.sa
  let n := if w.imm.toNat = 7 then 6 else 8
  (span 0 64).map fun i => (i, dequant E w.imm.toNat (bits a (n * i + n - 1) (n * i))
    (if i < 32 then bits a 2023 2016 else bits a 2031 2024))

/-! ### Moves, reductions and masks (R124 to R126) -/

/-- What R124 gives of a vector move: its constructor, its opcode, its latency, and element i of its result
from the sources a and b, the first element and the number of elements of the issuing clusters. -/
structure MoveRule where
  make : Wrd → Instr
  opc : Nat
  lat : Nat
  fn : Wrd → State → VReg → VReg → Nat → Nat → Nat → Nat

/-- The vector moves. -/
def moveRules : List MoveRule := [
  ⟨.vmov, 0x120, 1, fun w _ a _ _ _ i => elem (isWide w) a i⟩,
  ⟨.vbc, 0x121, 1, fun w _ a _ first n i =>
    if isVecSrc w.sa then elem (isWide w) a (first + w.imm.toNat % n) else elem (isWide w) a i⟩,
  ⟨.vlix, 0x122, 1, fun w _ _ _ _ _ i => wrapN 64 ((i : Int) + toSigned 32 w.imm.toNat)⟩,
  ⟨.vperm, 0x123, 2, fun w _ a b first n i =>
    elem (isWide w) a (first + elem (isWide w) b i % n)⟩,
  ⟨.vrot, 0x124, 2, fun w t a _ first n i =>
    elem (isWide w) a (first + (i - first + ((regVal t w.sb).toNat + w.imm.toNat) % n) % n)⟩,
  ⟨.vbfly, 0x125, 2, fun w t a _ first n i =>
    elem (isWide w) a (first + ((i - first) ^^^ (((regVal t w.sb).toNat + w.imm.toNat) % n)) % n)⟩]

/-- The words that reduce a vector by a tree of two-operand nodes (R125). -/
def treeRules : List ((Wrd → Instr) × Nat × (FEnv → FV → FV → FR)) := [
  (.vsum, 0x126, addF),
  (.vmaxr, 0x127, fun E x y => minMaxF E true x y),
  (.vminr, 0x128, fun E x y => minMaxF E false x y)]

/-- The value of a reduction: the tree over the elements that the effective mask enables (R59, R99). -/
def treeValue (opc : Nat) (f : FEnv → FV → FV → FR) (w : Wrd) (s : State) : FR :=
  let wide := isWide w
  let u := usesOf opc w
  let t := xPopped w u s
  let E := fenv w t
  let r := elemRange wide t
  reduceTree (f E) E.f ((span r.1 r.2).map fun k =>
    if elemOn wide (guardMask w t) k then some ⟨elem wide (xArg w wide u.sa s w.sa) k % 2 ^ E.f.width, 0, false⟩
    else none)

/-- The words that count in a mask, with the value from the effective mask and the register (R126). -/
def maskRules : List ((Wrd → Instr) × Nat × (Mask → Mask → Nat)) := [
  (.gany, 0x131, fun m x => if m &&& x = 0 then 0 else 1),
  (.gall, 0x132, fun m x => if m &&& x = m then 1 else 0),
  (.gcnt, 0x133, fun m x => (span 0 64).foldl (fun c i => c + (if bit (m &&& x) i then 1 else 0)) 0)]

/-! ### Control words, clusters and the end of an iteration (R34, R127 to R132, R168, R200 to R207) -/

/-- The word runs one repetition whose effect leaves `t`, with an end of its own. -/
def RunsTo (i : Instr) (w : Wrd) (fin : Act Unit) (s t : State) : Prop :=
  exec i s = .next (settle (slotExit w fin) t)

/-- The word runs one repetition whose effect leaves `t`, with an end of its own, after which the agreement logs
are compared. -/
def ComparesTo (i : Instr) (w : Wrd) (fin : Act Unit) (s t : State) : Prop :=
  exec i s = .next (settle (do slotExit w fin; compareAfter) t)

/-- A control word runs: after its decision the branch group resolves, or the agreement logs are compared. -/
def ControlRuns (i : Instr) (w : Wrd) (s t : State) : Prop := ComparesTo i w finControl s t

/-- The core follows one program counter and X is not forked at the issuing stream. -/
def oneCounter (s : State) : Bool := s.cluster.isNone && s.seqn s.cur.core == .joint

/-- The state after a decision: in the branch group of the core, or of the stream alone. -/
def decided (d : Decision) (s : State) : State :=
  if oneCounter s then s.modCore fun k => { k with group := k.group ++ [some d] }
  else s.modStream fun t => { t with dec := some (d, afterGroup s) }

/-- The guard lets a scalar word act at its slot. -/
def acts (w : Wrd) (s : State) : Bool := slotOpen w s && scalarOn w (atSlot w s)

/-- The guard of a scalar word holds it back at its slot. -/
def heldBack (w : Wrd) (s : State) : Bool := slotOpen w s && !scalarOn w (atSlot w s)

/-- The state after the engine has ended its part of the iteration (R204). -/
def enditState (w : Wrd) (t : State) : State :=
  let n := afterOf nextWord t
  if scalarOn w t then
    let e := n.modStream fun x => { x with wait := 6 }
    if e.cc.liveStreams.isEmpty then endRun e.cur.core (if e.cl.nest.tt then .halted else .free) e else e
  else n

/-- The state after the slot of `wfe` (R207): the latch that it finds set is clear, or the engine will be held. -/
def wfeState (w : Wrd) (t : State) : State :=
  if !scalarOn w t then t
  else if t.cs.latch then t.modStream fun x => { x with latch := false }
  else t.modStream fun x => { x with hold := .wfe }

/-- The state after a `wfe`, past its word: the engine is held until a set reaches its latch (R207). -/
def wfeHeld (t : State) : State :=
  (afterOf nextWord t).modStream fun x => if x.hold = .wfe then { x with hold := .latch, wait := 7 } else x

/-- A `fork` may start its clusters here: it stands at the start of a fork region, X is not forked, and its
target lies in the region (R172, R200). -/
def forkHere (w : Wrd) (s : State) : Option (Nat × Nat) :=
  match s.cl.code.regions.find? fun r => r.1 = s.cs.pc with
  | none => none
  | some r =>
    if !s.cc.forked && (isZ w.sa || (decide (s.cs.pc < target w) && decide (target w ≤ r.2))) then some r else none

/-- The state with `n` tokens fewer in a queue, whose clocks the stream now knows (R33, R198). -/
def tokensTaken (q n : Nat) (s : State) : State :=
  let l := s.cc.tokens q
  (s.modCore fun k => { k with tok := k.tok.put q (l.drop n) }).modStream fun t =>
    { t with clock := t.clock.max ((l.take n).foldl Clk.max .zero) }

/-- The state with `n` tokens more in a queue (R33, R198). -/
def tokensGiven (q n : Nat) (s : State) : State :=
  s.modCore fun k => { k with tok := k.tok.put q (s.cc.tokens q ++ List.replicate n s.stamp) }

/-! ### Memory words (R266 to R288) -/

/-- The slot of a memory word, with its base register as committed before its first slot (R269). -/
def latched (w : Wrd) (s : State) : State := afterOf (latchBase w) (atSlot w s)

/-- How a memory word finds its access: the runs of its bytes from its address. -/
abbrev Resolver := Wrd → Nat → Act (List Chunk)

/-- A local access of the word's size, of an access kind: 0 read, 1 write, 2 read and write (R237). -/
def inLocal (acc : Nat) : Resolver := fun w a => resolveLocal a (sizeBytes (mSizeCode w)) acc

/-- A global access in the word's segment. -/
def inSegment (acc : Nat) : Resolver := fun w a => resolveGlobal (segOf w) a (sizeBytes (mSizeCode w)) acc

/-- The access that G of the word chooses (R267). -/
def byG (acc : Nat) : Resolver := fun w => if bit w.imm 13 then inLocal acc w else inSegment acc w

/-- The loads into a queue, with how they find their bytes and whether their order acquires. -/
def queueLoads : List ((Wrd → Instr) × Resolver × (Wrd → Bool)) := [
  (.ld, inLocal 0, fun _ => false), (.ldg, inSegment 0, hasAcq)]

/-- The loads into a register, with their latency (R102). -/
def registerLoads : List ((Wrd → Instr) × Resolver × (Wrd → Bool) × Nat) := [
  (.lda, inLocal 0, fun _ => false, 12), (.ldga, inSegment 0, hasAcq, 40)]

/-- The stores of a queue entry. -/
def queueStores : List ((Wrd → Instr) × Resolver) := [(.st, inLocal 1), (.stg, inSegment 1)]

/-- The state with one more entry at the tail of load queue `q` (R29). -/
def entryPushed (q : Nat) (data : VReg) (valid : Bool) (src : Option LoadSrc) (s : State) : State :=
  s.modCore fun k => { k with
    lq := k.lq.put q ⟨(k.loadQ q).entries ++ [⟨k.nextId, data, valid, 0, src, s.stamp⟩]⟩
    nextId := k.nextId + 1 }

/-- The state after the head `e` of store queue `q` has been popped (R273). -/
def entryPopped (q : Nat) (e : QEntry) (s : State) : State :=
  (s.modCore fun k => { k with sq := k.sq.put q ⟨(k.storeQ q).entries.drop 1⟩ }).modStream fun t =>
    { t with clock := t.clock.max e.clock }

/-- The state with the runs of a store held behind a release half of a scope (R274). -/
def storeBehind (w : Wrd) (scope : Nat) (l : List Chunk) (data : List Byte) (t : State) : State :=
  let u := (heldRuns l data).foldl (issueHeld w.ac) (dropFar scope (heldRuns l data) t)
  startRelease u.cur.core scope (.store (heldRuns l data)) u

/-- The state after a store with its order: written, or held behind its release half (R274). -/
def storeDone (w : Wrd) (l : List Chunk) (data : List Byte) (t : State) : State :=
  if hasRel w then storeBehind w (mScope w) l data t else storeRuns l data w.ac t

/-- What R275 gives of an atomic: its constructor, its opcode, and the new value from the old one, the operand
and the value to exchange; none when it does not write. -/
def atomRules : List ((Wrd → Instr) × Nat × (Wrd → Nat → Nat → Nat → Option Nat)) := [
  (.atadd, 0x290, fun _ m o _ => some (m + o)),
  (.atmin, 0x291, fun w m o _ => some (if atomVal w o < atomVal w m then o else m)),
  (.atmax, 0x292, fun w m o _ => some (if atomVal w m < atomVal w o then o else m)),
  (.atand, 0x293, fun _ m o _ => some (m &&& o)),
  (.ator, 0x294, fun _ m o _ => some (m ||| o)),
  (.atxor, 0x295, fun _ m o _ => some (m ^^^ o)),
  (.atxch, 0x296, fun _ _ o _ => some o),
  (.atcas, 0x297, fun _ m o x => if m = o then some x else none)]

/-- The place is this package's own: a local one, or memory that it is home of. -/
def ownPlace : Place → Bool
  | .host _ => false
  | .remote _ _ => false
  | _ => true

/-- The state with the old value `m` of an atomic on its way to the destination (R275). -/
def atomGiven (w : Wrd) (m : Nat) (t : State) : State :=
  if isZ w.dst then t
  else pending (.reg w.dst) (BitVec.allOnes 64) (BitVec.ofNat 2048 (extend (8 * sizeBytes (mSizeCode w)) (!bit w.imm 8) m))
    64 false none t

/-- The state after an atomic has given the old value `m` (R275): its acquire half, and the old value on its way
to the destination. -/
def atomDone (w : Wrd) (m : Nat) (t : State) : State :=
  atomGiven w m (if hasAcq w then acquireHalf t.cur.core t else t)

/-- The state with a contribution of the issuing core on its way to the engine of its home (R277). -/
def contributed (w : Wrd) (pa a : Nat) (x : List Dword) (t : State) : State :=
  let n := sizeBytes (mSizeCode w)
  let c : Contrib :=
    { id := t.dom.nextId, pkg := t.ident.pkg, core := t.cur.core, launch := t.cc.launch,
      num := t.cc.tlIssued.get 0 1 + 1, op := bits w.imm 10 8, last := bit w.imm 11, pa := pa, va := a, seg := segOf w,
      index := opndAt x 1 % 2 ^ 32,
      value := BitVec.ofNat 64 (opndAt x 0 % 2 ^ (8 * n)), since := t.clk.wcyc, cls := w.ac }
  let u : State := { t with dom := { t.dom with contribs := t.dom.contribs ++ [c], nextId := t.dom.nextId + 1 } }
  u.modCore (takeNumber 1)

/-- The state with a contribution of the issuing core on its way to a home in another package (R277, R431). -/
def contribSent (w : Wrd) (pa a : Nat) (x : List Dword) (t : State) : State :=
  let n := sizeBytes (mSizeCode w)
  let num := t.cc.tlIssued.get 0 1 + 1
  let u := sendPacket 2 4 t.cur.core (pkgBits pa) pa num 1 (bits w.imm 10 8 + if bit w.imm 11 then 8 else 0)
    (opndAt x 1 % 2 ^ 32) (atAddr pa (toBytes n (opndAt x 0 % 2 ^ (8 * n)))) [] t
  (noteVa t.dom.nextId t.cl.ctx (segOf w * 2 ^ 64 + a) u).modCore (takeNumber 1)

/-- The acquire half of a contribution waits until it has been applied (R242, R277). -/
def contribOpen (w : Wrd) (t : State) : State :=
  if hasAcq w then t.modCore fun k => { k with acquires := k.acquires ++ [.number 1 (k.tlIssued.get 0 1)] } else t

/-- The ring that a word names, in the bed of its core, when its configuration holds (R219, R281). -/
def ringAt (w : Wrd) (t : State) : Option (Nat × Ring) :=
  let b := t.bedOf t.cur.core
  let r := ringGeom (t.bed b) (bits w.imm 3 0)
  if ringOk t (bits w.imm 3 0) r then some (b, r) else none

/-! ### Words of the asynchronous engines (R291 to R336) -/

/-- The state after the word has taken the next number of a view and given it to its destination (R292). -/
def numbered (w : Wrd) (view : Nat) (t : State) : State :=
  issuedReg w.dst (BitVec.ofNat 64 (t.cc.tlIssued.get 0 view + 1)) 1 (t.modCore (takeNumber view))

/-- The number that the word takes. -/
def nextNumber (view : Nat) (t : State) : Nat := t.cc.tlIssued.get 0 view + 1

/-- The barrier of a copy descriptor: none, or its place (R322). -/
def copyPlace (d : CopyDesc) : Act (Option Place) :=
  if d.fl.testBit 0 then do
    let p ← barPlace d.bar
    pure (some p)
  else pure none

/-- The sectors that a copy declares have been added to its barrier (R322). -/
def copySectors (d : CopyDesc) (t : State) : Option Place → State → Prop
  | none, u => u = t
  | some p, u =>
    if d.fl.testBit 3 then
      ∃ b, barSectors (if d.fl.testBit 4 then some (d.fl / 32 % 16) else none) (d.len / 64 : Nat)
        (readBar t t.cur.core p) = some b ∧ u = writeBar t.cur.core p b t
    else u = t

/-- The state with a copy in the buffer of the barrow of the core's die (R294, R295, R321). -/
def copyQueued (w : Wrd) (d : CopyDesc) (src dst : List Chunk) (bar : Option Place) (t : State) : State :=
  let view := viewOf w 0
  let n := nextNumber view t
  let die := t.dieOf t.cur.core
  let u := (numbered w view t).modCore (pushCopy view n)
  let x := u.die die
  let far := (src ++ dst).any fun c =>
    match c.place with
    | .home pa _ => dieBits pa != die
    | _ => false
  let c : Copy :=
    { entry := x.nextEntry, core := t.cur.core, launch := t.cc.launch, view := view, num := n,
      src := src, dst := dst, len := d.len, cyc := d.cyc, bar := bar.bind barName,
      tag := if d.fl.testBit 4 then some (d.fl / 32 % 16) else none,
      dur := (ceilDiv d.len 512 + (if far then 160 else 40)), start := none,
      since := t.clk.wcyc, begun := u.cc.moves, got := .empty, written := [], cut := false }
  u.setDie die { x with copies := x.copies ++ [c], nextEntry := x.nextEntry + 1 }

/-- The state after `waitc` (R324): the acquire, or the stream held until the target. -/
def waitcState (w : Wrd) (t : State) : State :=
  let n := afterOf nextWord t
  let x := waitTarget w t
  if !scalarOn w t then n
  else if x ≤ t.clk.scyc then cycleReached x (hasAcq w) n
  else n.modStream fun y => { y with hold := .cycle x (hasAcq w), wait := 9 }

/-- The state with a step of a partition published behind its release half (R303). -/
def stepTaken (w : Wrd) (g : Grid) (id p n : Nat) (t : State) : State :=
  let view := viewOf w 2
  let u := numbered w view t
  let u := u.setLaunch u.cc.launch { u.cl with
    grids := u.cl.grids.put id { g with published := g.published.put p n } }
  startRelease u.cur.core 3 (.gstep u.cc.launch id p n view (nextNumber view t)) u

/-- The state with a parameter-block reduction behind its release half (R313). -/
def reduceQueued (w : Wrd) (block : List Byte) (bl fl dst : List Chunk) (bufs : List (List Chunk)) (die : Nat)
    (t : State) : State :=
  let view := viewOf w 1
  let u := numbered w view t
  let id := u.dom.nextId
  let r : Reduce :=
    { id := id, core := u.cur.core, launch := u.cc.launch, view := view, num := nextNumber view t,
      block := firstPa bl, flag := firstPa fl, dst := dst, bufs := bufs,
      fval := BitVec.ofNat 64 (fieldOf block 0x20 8), count := fieldOf block 0x10 8, fmt := fieldOf block 0x19 1,
      released := false, running := false, floor := 0, summed := [], flags := 0 }
  let v : State := { u with dom := { u.dom with nextId := id + 1 } }
  let v := v.setDie die { v.die die with reductions := (v.die die).reductions ++ [r] }
  startRelease v.cur.core 3 (.reduce v.cc.launch die id) v

/-- The state with a page transplant begun (R334, R422). -/
def transplantBegun (w : Wrd) (lo len dst : Nat) (pages : List (Nat × Dword × Nat)) (t : State) : State :=
  let u := numbered w 4 t
  let x : Transplant :=
    { id := u.dom.nextId, core := u.cur.core, launch := u.cc.launch, ctx := t.cl.ctx, num := nextNumber 4 t,
      va := lo, len := len, dst := dst, step := 0, copied := 0, pages := newBases dst pages }
  { u with dom := { u.dom with transplants := u.dom.transplants ++ [x], nextId := u.dom.nextId + 1 } }

/-- What the operands of `pgmig` must be (R334): an aligned range, a destination that is memory of this package,
aligned to the largest page and on another die than each page, and no page busy or under another transplant. -/
def transplantOk (t : State) (lo len dst : Nat) (pages : List (Nat × Dword × Nat)) : Prop :=
  lo % 65536 = 0 ∧ len % 65536 = 0 ∧ len ≠ 0 ∧ len ≤ 2 ^ 32 ∧
  (∀ x ∈ t.dom.transplants, ¬ (x.ctx = t.cl.ctx ∧ rangesMeet x.va x.len lo len = true)) ∧
  rangePages (lo / 2 ^ 64) (len / 65536) (lo % 2 ^ 64) len t = .ok (pages, t) ∧
  dst % (pages.foldl (fun z x => Nat.max z x.2.2) 65536) = 0 ∧ pkgBits dst = t.ident.pkg ∧ dst < 2 ^ 60 ∧
  dst % 2 ^ 45 + len ≤ 0xE80000000 ∧
  (∀ x ∈ pages, dieBits (entryPa x.2.1) ≠ dieBits dst) ∧ ∀ x ∈ pages, bit x.2.1 8 = false

/-- The bytes that a tagged grid load takes: the core's own, or those of memory (R306). -/
def gridBytes (t : State) (l : List Chunk) : List Byte :=
  l.flatMap fun c =>
    match c.place with
    | .home pa _ => (span pa c.len).map fun x => (t.cc.ownByte x).getD (memGet t.mem x)
    | _ => List.replicate c.len 0

/-- A fill or a publication under way still reads the slab that a store of step `n` would overwrite (R307). -/
def slabRead (g : Grid) (id p n : Nat) (t : State) : Prop :=
  (∃ f ∈ t.dom.fills, f.launch = t.cc.launch ∧ f.grid = id ∧ f.part = p ∧ f.step + 2 * g.dep = n) ∨
  (∃ r ∈ t.cc.releases, ∃ st view num, r.cont = .gstep t.cc.launch id p st view num ∧ st + 2 * g.dep = n)

/-! ### Matrix words (R136 to R164) -/

/-- The state in which the issuing stream waits with a WAIT code (R353). -/
def waiting (code : Nat) (t : State) : State :=
  t.modStream fun x => { x with wait := code, waitAt := t.cc.moves }

/-- The unsaturated fields of a bank load (R155): columns, rows of a repetition, first bank row, the bytes of a row. -/
structure BldArgs where
  cols : Nat
  rows : Nat
  first : Nat
  bytes : Nat
  pitch : Nat
  base : Nat
deriving DecidableEq, Repr

/-- The fields of a `bld` for its repetition at hand. -/
def bldArgs (w : Wrd) (t : State) : BldArgs :=
  let cols := bits w.imm 28 19 + 1
  let rows := bits w.imm 17 9 + 1
  let pitch := (regVal t w.sb).toNat
  { cols := cols, rows := rows, first := bits w.imm 8 0 + t.cs.repd * rows,
    bytes := packedBytes (matKind (fmtBF (activeFmt t.cc))) cols, pitch := pitch,
    base := (regVal t w.sa).toNat + t.cs.repd * rows * pitch }

/-- What R155 asks of a `bld`: a lease, wide for more than 512 columns, a tile that the format allows, aligned
addresses, and no repetition under DSPLIT. -/
def bldOk (w : Wrd) (t : State) : Prop :=
  let a := bldArgs w t
  let e := activeFmt t.cc
  t.cc.lease ≠ none ∧ (512 < a.cols → t.cc.lease = some true) ∧ (fmtBF e = 7 → w.rep.toNat = 0) ∧
  a.cols ≤ (if t.cc.lease = some true then 2 else 1) * largestN (fmtBF e) (fmtS e) ∧
  (regVal t w.sa).toNat % 64 = 0 ∧ a.pitch % 64 = 0 ∧ a.bytes ≤ a.pitch

/-- The record of a bank load (R155, R367). -/
def bldRecord (w : Wrd) (t : State) : BankSrc :=
  let a := bldArgs w t
  { kind := 0, sa := BitVec.ofNat 64 a.base, sb := BitVec.ofNat 64 a.pitch, seg := bits w.off 7 0,
    mem := bit w.mod 7, row0 := a.first, rows := a.rows, cols := a.cols, fmt := activeFmt t.cc,
    ftz := bit (t.cc.csrN 0x012) 0, wide := t.cc.lease == some true, core := t.cur.core }

/-- The state with the rows of a `bld`, after those that earlier turns have read, in the bank of the bed, or of both beds
under a wide lease (R145, R155). -/
def bldDone (w : Wrd) (t : State) (rows : List (List Byte)) (u : State) : State :=
  let r0 := t.cs.prog
  let before := if fmtBF (activeFmt t.cc) = 7 then heldRows t.cs (bldArgs w t).cols r0 else []
  if rows.isEmpty then u
  else (loadBeds u).zipIdx.foldl (fun s b =>
    bldBank (bldRecord w t) (bits w.imm 18 18) t.cl.ctx (bldArgs w t).first (r0 - before.length)
      (if t.cc.lease = some true then b.2 else 0) (before ++ rows) (r0 == 0) true b.1 s) u

/-- The fields of a scale load (R156). -/
structure SldArgs where
  cols : Nat
  group : Nat
  nm : Nat
  base : Nat
  bytes : Nat
deriving DecidableEq, Repr

/-- The fields of an `sld` for its repetition at hand; `blk` for block scales. -/
def sldArgs (w : Wrd) (blk : Bool) (t : State) : SldArgs :=
  let cols := bits w.imm 10 1 + 1
  let e := activeFmt t.cc
  let x := ((t.bed (t.bedOf t.cur.core)).bank (bits w.imm 11 11)).ownedBy t.cl.ctx
  { cols := cols, group := if blk then bits w.imm 15 12 + t.cs.repd else 0,
    nm := match x.tag with
      | some y => largestN y.1 y.2
      | none => largestN (fmtBF e) (fmtS e)
    base := (regVal t w.sa).toNat + (if blk then t.cs.repd * (regVal t w.sb).toNat else 0),
    bytes := if blk then cols else 4 * cols }

/-- What R156 asks of an `sld`. -/
def sldOk (w : Wrd) (blk : Bool) (t : State) : Prop :=
  let a := sldArgs w blk t
  t.cc.lease ≠ none ∧ (512 < a.cols → t.cc.lease = some true) ∧
  a.cols ≤ (if t.cc.lease = some true then 2 else 1) * a.nm ∧ (blk = true → a.group ≤ 15)

/-- The state with the scales of an `sld` in the bank of the bed, or of both beds under a wide lease. -/
def sldDone (w : Wrd) (blk : Bool) (t : State) (data : List Byte) (u : State) : State :=
  let a := sldArgs w blk t
  let src : BankSrc :=
    { kind := if blk then 2 else 1, sa := BitVec.ofNat 64 a.base, sb := 0, seg := bits w.off 7 0, mem := bit w.mod 7,
      row0 := a.group, rows := 1, cols := a.cols, fmt := activeFmt t.cc, ftz := false,
      wide := t.cc.lease == some true, core := t.cur.core }
  (loadBeds u).zipIdx.foldl (fun s b => sldBank src (bits w.imm 11 11) t.cl.ctx a.nm
    (if t.cc.lease = some true then b.2 else 0) data b.1 s) u

/-- The rows of an `mma` in the scratchpad (R142, R143). -/
def spadRows (w : Wrd) (a : MmaArgs) (n : Nat) (t : State) : List (Nat × List Byte) :=
  (((span 0 a.rows).map fun r => spadRead t.cc
    (((regVal t w.sa).toNat + t.cs.repd * a.rows * n * 256 + 256 * n * r) % 2 ^ t.cc.scr) (256 * n))).zipIdx.map
      fun r => (r.2, r.1)

/-- The rows of an `mma` from the entries of a queue (R143). -/
def queueRows (a : MmaArgs) (n : Nat) (l : List (List Byte)) : List (Nat × List Byte) :=
  (groupRows n a.rows l).zipIdx.map fun r => (r.2, r.1)

/-- The state with the rows of a command added to its link, counted as one contribution (R61, R149, R158). -/
def rowsAdded (st : MmaSite) (a : MmaArgs) (rows : List (Nat × List Byte)) (u : State) : State :=
  countMma st a (rows.foldl (fun s r => addRow st a r.1 r.2 s) u)

/-- What R160 asks of a chain that is built: a valid descriptor, no open or closing chain of that number on its dies,
streams that are not in use, and slots that are idle or the frozen chain's own. -/
def chainFree (ch : Nat) (d : ChainDesc) (clean : Bool) (t : State) : Prop :=
  descValid t d clean = true ∧ (∀ x ∈ chainDies d, (t.chain t.cc.launch x ch).barred = false) ∧
  (∀ h ∈ d.hops, strmBusy t h = false) ∧
  ∀ h ∈ d.hops, okB (linkTrap false d h) t = true ∧
    ∀ x ∈ hopLinks t d h, slotReady t t.cc.launch ch h.die x = true

/-- The state with a chain built: its descriptor in the tables of its dies, its links open, its streams bound (R160,
R419). -/
def chainBuilt (ch : Nat) (d : ChainDesc) (t : State) : State :=
  let l := t.cc.launch
  let u := bindStreams l ch d (openLinks l ch d (setChain l ch
    { state := 1, kept := 0, desc := d, flags := 0, builder := t.cur.core, close := none }
    ((chainDies d).foldl (replaceChain l ch) t)))
  advanceChain l (u.dieOf u.cur.core) ch u

/-- The chain of a word may be closed by its core (R161): it is open, its tail is on the core's bed and not another
context's, and the lease stands. -/
def closeOk (ch : Nat) (h : Hop) (t : State) : Prop :=
  let x := t.myChain ch
  t.cc.lease ≠ none ∧ x.state = 1 ∧ x.desc.hops.getLast? = some h ∧ hopHere t x.desc h = true ∧
  okB (linkTrap true x.desc h) t = true ∧ (512 < x.desc.cols → t.cc.lease = some true)

/-- The state with a close asked for (R152, R161): `t` is the state of the word's slot, `u` that of its turn. -/
def closeAsked (w : Wrd) (runs : List Chunk) (t u : State) : State :=
  let ch := bits w.imm 4 0
  let c := bits w.mod 4 2
  let req : CloseReq :=
    { core := t.cur.core, num := nextClose t.cc, begun := t.cc.moves, fmt := bits w.mod 7 5,
      rm := if c = 5 then (t.cc.csrN 0x011).toNat % 8 else c, sat := bit w.mod 1,
      ftzOut := bit (t.cc.csrN 0x012) 1, mem := bit w.imm 5, addr := (regVal t w.sa).toNat,
      pitch := (regVal t w.sb).toNat, runs := runs }
  (setChain u.cc.launch ch { t.myChain ch with state := 2, close := some req } u).modCore (takeNumber 3)

/-- The chain of a word may be zeroed (R162): it is open or closed, with no slot of another context's or chain's,
and no partial of it is in flight. -/
def zeroOk (ch : Nat) (t : State) : Prop :=
  let x := t.myChain ch
  (x.state = 1 ∨ x.state = 3) ∧ inFlight t t.cc.launch ch x.desc = false ∧
  ∀ h ∈ x.desc.hops.zipIdx, okB (linkTrap x.live x.desc h.1) t = true ∧
    (∀ y ∈ hopLinks t x.desc h.1, (y.state = 0 ∨ y.holds t t.cc.launch ch h.2 = true) ∧ y.dead t.cc.launch = false) ∧
    (h.1.stream = true → bit (strmBnd t h.1.die t.cc.launch h.1.sid) 31 = true →
      bits (strmBnd t h.1.die t.cc.launch h.1.sid) 4 0 = ch)

/-- The state with a chain zeroed (R162). -/
def chainZeroed (ch : Nat) (t : State) : State :=
  let l := t.cc.launch
  let x := t.myChain ch
  let u := bindStreams l ch x.desc
    (openLinks l ch x.desc (setChain l ch { x with state := 1, close := none, flags := 0 } t))
  advanceChain l (u.dieOf u.cur.core) ch u

/-! ### Many-die words (R413 to R415, R435 to R439, R452 to R463) -/

/-- The operands of a bulk transfer (R454): the remote address, the local one and the length of the repetition. -/
structure BulkArgs where
  ra : Nat
  la : Nat
  n : Nat
deriving DecidableEq, Repr

/-- The operands of the repetition at hand, from the values of SB and SC. -/
def bulkArgs (w : Wrd) (sb sc : Nat) (t : State) : BulkArgs :=
  let n := sc % 2 ^ 32
  ⟨memAddr w t, (sb + t.cs.repd * n) % 2 ^ 64, n⟩

/-- The limits of a bulk transfer (R454). -/
def bulkOk (a : BulkArgs) : Prop :=
  a.n % 64 = 0 ∧ 64 ≤ a.n ∧ a.n ≤ 65536 ∧ a.ra % 64 = 0 ∧ a.la % 64 = 0

/-- The state with one more unit of the repetition done (R236). -/
def unitCounted (t : State) : State :=
  t.modStream fun x => { x with prog := x.prog + 1, fpc := some x.pc, hold := .none }

/-- The units of a bulk store performed in order (R456). -/
def bulkStored (w : Wrd) (dst : List Chunk) (n : Nat) (data : List Byte) (u : State) : State :=
  (stgrUnits dst n).foldl (stgrUnit w.ac data) u

/-- A slot sent on a stream (R415): the claimed count passes it, and it is in flight. -/
def slotSent (w : Wrd) (die sid : Nat) (t : State) (data : List Byte) (u : State) : State :=
  let x := t.tstream die t.cc.launch sid
  (issuedReg w.dst (BitVec.ofNat 64 x.cc) 1 u).setTstream die t.cc.launch sid
    { x with
      cc := (x.cc + 1) % 2 ^ 32, flight := x.flight ++ [(some t.cur.core, data)]
      sent := some (t.clk.wcyc, t.cur.core) }

/-- A multicast sent (R461): an egress entry for the members outside the domain, one packet for the others. -/
def multicast (w : Wrd) (ms : List Nat) (data : List Byte) (t u : State) : State :=
  let va := bits w.imm 7 0 * 2 ^ 64 + (regVal t w.sb).toNat
  let grp := bits w.imm 12 8
  let u := if (ms.filter fun p => !t.inDomain p).isEmpty then u else mcastEgress grp va data u
  let ins := ms.filter t.inDomain
  if ins.isEmpty then u else sendPacket 3 6 u.cur.core (groupKey grp) va 0 grp 0 0 (atAddr 0 data) ins u

/-- The round that a contribution of the core joins (R462). -/
def roundAt (grp : Nat) (t : State) : Round :=
  (roundOf t grp (t.cc.rounds.get 0 grp)).getD ⟨grp, t.cc.rounds.get 0 grp, 0, 0, [], [], none⟩

/-- A contribution to a round (R438, R462): `t` is the state of the word's slot, `u` that after its load. -/
def roundJoined (w : Wrd) (grp : Nat) (data : List Byte) (t u : State) : State :=
  let x := roundAt grp t
  let x := if x.contribs.isEmpty then { x with op := bits w.imm 15 14, launch := t.cc.launch } else x
  let r := t.cc.rounds.get 0 grp
  let u := afterOf (slotOpnds [w.sb]) (u.modCore fun k => { k with rounds := k.rounds.put grp (r + 1) })
  let u := putRound { x with contribs := x.contribs ++ [(t.cur.core, BitVec.ofNat 2048 (ofBytes data))] } u
  (giveValue grp r u).modStream fun y => { y with hold := .round grp r, fpc := some y.pc }

/-! ### Steps of agents -/

/-- The data of a load and the state after its bytes have taken their values (R248); data that is there already
stays. -/
def dataOf (c : Nat) (src : Option LoadSrc) (d : VReg) (s : State) : VReg × State :=
  match src with
  | some x => settleOne c x d s
  | none => (d, s)

/-- The graph of a queue has come to a node of a kind, well formed, with nothing outstanding that it must wait for:
`g` is the graph at the node and `b` the node's bytes (R184, R185, R442). -/
def nodeAt (kind tid q : Nat) (g : Graph) (b : List Byte) (s : State) : Prop :=
  s.tsm tid = .run ∧ ∃ x a, liveGraph s (16 * tid + q) = some x ∧ x.wait = .none ∧ x.cur = some a ∧
    g = { x with node := a } ∧ cpRead s (tenantCtx s tid) a 0 64 = .ok b ∧ nodeOk b = true ∧ fieldOf b 0 1 = kind ∧
    ((fieldOf b 1 1).testBit 1 = true → outstanding s g = false)

/-- The state with one free value more drawn (log 4). -/
def oneDraw (t : State) : State := { t with draws := t.draws + 1 }

/-! ### What words leave as it is -/

/-- The register files and the control registers of two cores hold the same. -/
def sameRegs (j k : Core) : Prop :=
  k.a = j.a ∧ k.m = j.m ∧ k.w = j.w ∧ k.s = j.s ∧ k.v = j.v ∧ k.g = j.g ∧ k.csr = j.csr ∧ k.fflg = j.fflg ∧ k.ix = j.ix

/-- No register file of the issuing core changes but by the writes that its boundary commits (R36): a destination of
the word at hand is written by a pending write. -/
def regsKept (s t : State) : Prop :=
  sameRegs s.cc (t.core s.cur.core) ∨ sameRegs (afterOf boundary s).cc (t.core s.cur.core)

/-- The bytes of a store to a local store from `o` up leave the byte at `a`: below `edge` lie control blocks of 64
bytes, which a store reaches as a whole (R219, R414). -/
def outsideStore (edge o n a : Nat) : Prop :=
  if edge ≤ a then a < o ∨ o + n ≤ a else a / 64 < o / 64 ∨ (o + n - 1) / 64 < a / 64

/-- Between `s` and `t` no byte changes but those of the runs that `f` finds in `u`: memory-side lines, and with `blk`
the 64-byte blocks of the other runs in memory; the scratchpad, the bed store and the die store of the issuing core. -/
def leavesOutside (blk : Bool) (f : Act (List Chunk)) (u s t : State) : Prop :=
  let c := s.cur.core
  let on (p : Chunk → Prop) : Prop := ∀ l v, f u = .ok (l, v) → ∀ x ∈ l, p x
  (∀ a, on (fun x => ∀ pa ms, x.place = .home pa ms → ms = true ∨ blk = true →
      (a < pa ∨ pa + x.len ≤ a) ∧ (ms = false → a / 64 ≠ pa / 64)) → memGet t.mem a = memGet s.mem a) ∧
  (∀ a, on (fun x => ∀ o i, x.place = .spad o → i < x.len → (o + i) % 2 ^ s.cc.scr ≠ a) →
    memGet (t.core c).spad a = memGet s.cc.spad a) ∧
  (∀ a, on (fun x => ∀ o, x.place = .bedStore o → outsideStore 0x400 o x.len a) →
    memGet (t.bed (s.bedOf c)).store a = memGet (s.bed (s.bedOf c)).store a) ∧
  (∀ b, b ≠ s.bedOf c → t.bed b = s.bed b) ∧
  (∀ a, on (fun x => ∀ o, x.place = .dieStore o → outsideStore 0x800 o x.len a) →
    memGet ((t.launch s.cc.launch).store (s.dieOf c)) a = memGet ((s.launch s.cc.launch).store (s.dieOf c)) a) ∧
  (∀ n d, ¬ (n = s.cc.launch ∧ d = s.dieOf c) → (t.launch n).store d = (s.launch n).store d)

/-- Every other core is as before. -/
def othersKept (s t : State) : Prop := ∀ c, c ≠ s.cur.core → t.core c = s.core c

/-- Only the issuing core and the count of free values may differ: not its scratchpad, nor the bytes that it owns. -/
def coreOnly (s t : State) : Prop :=
  t.mem = s.mem ∧ t.hist = s.hist ∧ t.now = s.now ∧ t.dom.beds = s.dom.beds ∧ t.dom.dies = s.dom.dies ∧
  t.dom.launches = s.dom.launches ∧ t.recov = s.recov ∧ t.host = s.host ∧ t.fab = s.fab ∧ t.clk = s.clk ∧
  othersKept s t ∧ t.cc.spad = s.cc.spad ∧ t.cc.owned = s.cc.owned

/-- The runs of the element that an `stgs` stores (R307, R331). -/
def stgsRuns (w : Wrd) : Act (List Chunk) := do
  let s ← get
  let (g, l) ← gridCheck w
  let p := (regVal s w.sb).toNat
  resolveRange g.seg 1 2 0 (g.elemVa p (g.bankOf (regVal s w.sc).toNat) (l.headD 0)) (sizeBytes (mSizeCode w))

/-- The runs that a repetition of `stgr` stores to (R456). -/
def stgrRuns (w : Wrd) : Act (List Chunk) := do
  let s ← get
  let a := bulkArgs w (regVal s w.sb).toNat (regVal s w.sc).toNat s
  resolveRange (segOf w) 1 3 0 a.ra a.n

/-- The local run that a repetition of `ldr` fills (R454). -/
def ldrDest (w : Wrd) : Act (List Chunk) := do
  let s ← get
  let x ← slotOpnds [w.sb, w.sc]
  let a := bulkArgs w (opndAt x 0) (opndAt x 1) s
  resolveLocalRange a.la a.n 1 64

/-- The words that store nothing and change nothing but the issuing core (R127 to R132, R172, R200 to R207, R286, R323,
R394). -/
def coreWords (w : Wrd) : List Instr := [
  .br w, .brc w, .jmpi w, .call w, .ret w, .loop w, .loopInit w, .brq w, .fork w, .wfe w, .trap w, .sysc w, .btq w, .pf w,
  .fence w, .chstat w]

/-- The words that store nothing to memory at their slot: what some of them store comes later, by an engine, by a release
half or by another package. -/
def quietWords (w : Wrd) : List Instr := coreWords w ++ [
  .ld w, .lda w, .ldg w, .ldga w, .ldgs w, .rdo w, .phase w, .strel w, .sev w, .lease w, .free w,
  .rclaim w, .rfill w, .rfree w, .rwaitf w, .rwaite w, .carve w] ++ [
  .barinit w, .barexp w, .bararr w, .bararrRem w, .barwait w, .btcpy w, .tlwait w, .waitc w, .gdef w, .gstep w, .rdxgo w,
  .pgmig w, .bld w, .sldCol w, .sldBlk w, .mma w, .mmar w, .chbuild w, .mclose w, .mzero w] ++ [
  .ldr w, .ssend w, .srecv w, .srecvLen w, .srecvFree w, .mcast w, .cmb w, .mfillLink w, .mfillBank w, .chfrz w,
  .chfrzThaw w, .chgraft w, .seal w, .irrv w]

/-- The words that end a run, reunite the clusters or resume a context: they store nothing to memory, and put registers in
place of others. -/
def turningWords (w : Wrd) : List Instr := [.halt w, .endit w, .join w, .eret w]

/-- The invalidations reach the translations of other cores (R287). -/
def invalWords (w : Wrd) : List Instr := [.invalPage w, .invalCtx w, .invalAll w]

/-! ### Invariants -/

/-- The open and the sealed interval number stand as R374 says, and a seal under way has its number. -/
def SealNumbers (s : State) : Prop :=
  match s.recov.phase with
  | .idle => s.recov.k + 1 = s.recov.n
  | .quiesce m _ => m = s.recov.n ∧ s.recov.k + 1 = s.recov.n
  | .draining m => m + 1 = s.recov.n ∧ s.recov.k + 2 = s.recov.n

/-- The memory of the package is in its canonical form. -/
def MemoryCanonical (s : State) : Prop := s.mem.wf = true

/-- Two states hold the same bytes in the memory of the package. -/
def SameMemory (s t : State) : Prop := ∀ a, memGet t.mem a = memGet s.mem a

end Sys2Proof.Machine
end

