-- ==== Sys2Proof/Certificates/Slice0/Obligations.lean ====
section
/-!
DEFINITION. The statements about the machine, from the numbered rules of the spec.
-/

open Sys2Proof
open Sys2Proof.Machine

/-! ### Integer words -/

/-- R104: on A, M and S, a repetition that its guard lets act writes the result of the operation, at the
width and kind of MOD, to its destination at the latency of R102; on X, each enabled element of a vector word gets the
result of the operation on its own operands, and a scalar word writes the one result. -/
def Obligations.IntegerWords : Prop :=
  (∀ r ∈ intRules, ∀ w s, w.eng ≠ .X → slotOpen w s = true → guardOff w (atSlot w s) = false →
    Runs (r.make w) w s (issuedReg w.dst (intOnScalars r w (atSlot w s)) r.lat (atSlot w s))) ∧
  (∀ r ∈ intRules, ∀ w s, xOpen w (usesOf r.opc w) s = true →
    let t := xPopped w (usesOf r.opc w) s
    Runs (r.make w) w s
      (if isVector w then vecWritten w ((intMode w).n == 64) (intOnElem r w s) 0 r.lat t
       else scalarWritten w (intOnXScalar r w s) 0 r.lat t))

/-- R102, R106: a division writes its result, and a condition bit or bits of a g register for its zero
divisors, both at latency 18 for a width of 64 and 10 else. -/
def Obligations.DivisionsReportZeroDivisors : Prop :=
  ∀ r ∈ divRules, ∀ w s,
    let L := if (intMode w).n = 64 then 18 else 10
    let zero (b : Nat) (ones : VReg) : VReg := if intSecond w b = 0 then ones else 0
    (w.eng ≠ .X → slotOpen w s = true → guardOff w (atSlot w s) = false →
      Runs (r.make w) w s
        (issued (.cond (bits w.mod 1 0)) (BitVec.allOnes 64) (zero (regVal (atSlot w s) w.sb).toNat 1) 0 L
          (issuedReg w.dst (intOnScalars r w (atSlot w s)) L (atSlot w s)))) ∧
    (xOpen w (usesOf r.opc w) s = true →
      let t := xPopped w (usesOf r.opc w) s
      let wide := (intMode w).n == 64
      let tgt := PTarget.reg (.g (Fin.ofNat 8 (bits w.mod 2 0)))
      (isVector w = true → Runs (r.make w) w s
        (issued tgt (elemLanes wide (guardMask w t)) (BitVec.ofNat 2048 (zeroLanes w s r.opc)) 0 L
          (vecWritten w wide (intOnElem r w s) 0 L t))) ∧
      (isVector w = false →
        let t' := scalarWritten w (intOnXScalar r w s) 0 L t
        let b := (xArg w wide (usesOf r.opc w).sb s w.sb).toNat % 2 ^ 64
        Runs (r.make w) w s
          (if scalarOn w t then issued tgt t.laneMask (zero b (BitVec.ofNat 2048 (2 ^ 64 - 1))) 0 L t' else t')))

/-- R107: a compare writes 1 where the condition of MOD[2:0] holds between its operands and 0 elsewhere, at
latency 1: into the condition bit of OFF[1:0], or on X as `cmpWritten` puts a bit for each element. -/
def Obligations.ComparesWriteTheirCondition : Prop :=
  ∀ w s,
    let m := intMode w
    let wide := m.n == 64
    let code := bits w.mod 2 0
    (w.eng ≠ .X → slotOpen w s = true → guardOff w (atSlot w s) = false →
      ∀ r : Bool, (r = true ↔ compares m code (regVal (atSlot w s) w.sa).toNat
          (intSecond w (regVal (atSlot w s) w.sb).toNat)) →
        Runs (.icmp w) w s (issued (.cond (bits w.off 1 0)) (BitVec.allOnes 64) (if r then 1 else 0) 0 1 (atSlot w s))) ∧
    (xOpen w (usesOf 0x020 w) s = true →
      let t := xPopped w (usesOf 0x020 w) s
      let a := xArg w wide (usesOf 0x020 w).sa s w.sa
      let b := xArg w wide (usesOf 0x020 w).sb s w.sb
      ∃ v : Nat, Runs (.icmp w) w s (cmpWritten w wide v 0 1 t) ∧
        (isVector w = true → ∀ k, v.testBit k = true ↔
          (k < elemCount wide ∧ compares m code (elem wide a k) (intSecond w (elem wide b k)))) ∧
        (isVector w = false → (v = 1 ∧ compares m code a.toNat (intSecond w (b.toNat % 2 ^ 64))) ∨
          (v = 0 ∧ ¬ compares m code a.toNat (intSecond w (b.toNat % 2 ^ 64)))))

/-! ### Floating-point words -/

/-- R98, R99, R111: a floating-point word whose enabled elements meet no enabled condition writes the
results of its operation and their flags at its latency. -/
def Obligations.FloatWordsWriteResultsAndFlags : Prop :=
  ∀ r ∈ floatRules, ∀ w s, xOpen w (usesOf r.opc w) s = true →
    let t := xPopped w (usesOf r.opc w) s
    let rs := floatResults r w s
    trapOf (ften t) (lanesAt w (r.wide w) t) rs = none →
    Runs (r.make w) w s (resultsWritten w (r.wide w) (valAt rs) (flagsOf w rs) (r.lat w) t)

/-- R57: a floating-point word in whose enabled elements an enabled condition arose takes the
floating-point trap, with the conditions in AUX, the lanes in FAUX0 and the word in FAUX1; the repetition
leaves nothing, and the queues that it would have popped stand. -/
def Obligations.FloatTrapsStopTheRepetition : Prop :=
  ∀ r ∈ floatRules, ∀ w s c m, xOpen w (usesOf r.opc w) s = true →
    let t := xPopped w (usesOf r.opc w) s
    trapOf (ften t) (lanesAt w (r.wide w) t) (floatResults r w s) = some (c, m) →
    exec (r.make w) s = .next (takeFault
      { code := 0x10, aux := c, faux0 := BitVec.ofNat 64 m, faux1 := BitVec.ofNat 64 t.cs.pc }
      { s with draws := t.draws })

/-- R112: `fmin` and `fmax` return the smaller or the larger operand exactly, with −0 below +0; a number wins over a NaN,
two NaNs give the canonical NaN, and a signalling NaN raises NV; the input flush applies, and nothing else changes the
operand. -/
def Obligations.MinMaxReturnAnOperand : Prop :=
  ∀ (E : FEnv) (mx : Bool) (k a b : Nat), k < 4 → E.f = fmtOf k → a < 2 ^ E.f.width → b < 2 ^ E.f.width →
    let x := decodeF E.f a
    let y := decodeF E.f b
    let u := flushIn E.ftzIn E.f x
    let v := flushIn E.ftzIn E.f y
    let p := if u = x then a else E.f.zero x.sign
    let q := if v = y then b else E.f.zero y.sign
    let r := minMaxF E mx x y
    r.flg = (if x.isSnan || y.isSnan then flNV else 0) ∧
    (x.isNan = true → y.isNan = true → r.val = E.f.nan) ∧
    (x.isNan = true → y.isNan = false → r.val = q) ∧ (x.isNan = false → y.isNan = true → r.val = p) ∧
    (x.isNan = false → y.isNan = false →
      (below u v → r.val = if mx then q else p) ∧ (below v u → r.val = if mx then p else q) ∧
      (¬ below u v → ¬ below v u → r.val = p ∨ r.val = q)) ∧
    (∀ w s c, ∀ i ∈ floatRules, i.opc = (if mx then 0x105 else 0x104) →
      i.fn w s a b c = minMaxF (fenv w s) mx (decodeF (fenv w s).f a) (decodeF (fenv w s).f b))

/-- R70, R100, R113, R117 to R120: the random bits of a lane, the compares and the conversions, where no enabled condition
arises; `cvtq` writes the two blocks with their scales, and `cvtd` the 64 values of the two blocks. In a forked cluster
`cvtq` and `cvtd` take the invalid-patch fault, before any token wait. -/
def Obligations.ComparesAndConversions : Prop :=
  (∀ w s,
     (xOpen w (usesOf 0x10D w) s = true →
       let t := xPopped w (usesOf 0x10D w) s
       let lane := rndLane (t.cc.csrN 0x014) (regVal t w.sa)
       Runs (.fncRnd w) w s (if isVector w then vecWritten w false lane 0 3 t
         else scalarWritten w (lane (16 * t.cluster.getD 0)) 0 3 t)) ∧
     (xOpen w (usesOf 0x108 w) s = true →
       let t := xPopped w (usesOf 0x108 w) s
       let rs := fcmpResults w s
       trapOf (ften t) (lanesAt w (isWide w) t) rs = none →
       Runs (.fcmp w) w s (cmpWritten w (isWide w) (cmpBits rs) (flagsOf w rs) 2 t)) ∧
     (∀ r ∈ [(Instr.cvt, 0x110), (Instr.cvts, 0x111)], xOpen w (usesOf r.2 w) s = true →
       let t := xPopped w (usesOf r.2 w) s
       let rs := cvtResults r.2 w s
       let wide := (cvtWide w).1 || (cvtWide w).2
       trapOf (ften t) (lanesAt w wide t) rs = none →
       Runs (r.1 w) w s (resultsWritten w wide (cvtElem w rs) (flagsOf w rs) 3 t))) ∧
  (∀ w s,
     (xOpen w (usesOf 0x112 w) s = true → (atSlot w s).cluster = none →
       let t := xPopped w (usesOf 0x112 w) s
       let b0 := cvtqBlock w s 0
       let b1 := cvtqBlock w s 32
       let rs := (span 0 64).zip (b0.2 ++ b1.2)
       trapOf (ften t) id rs = none →
       Runs (.cvtq w) w s (afterOf (putVec w false
         (packBlocks w.imm.toNat (rs.map fun r => r.2.val) b0.1 b1.1) (flagsOf w rs) 6) t)) ∧
     (xOpen w (usesOf 0x113 w) s = true → (atSlot w s).cluster = none →
       let t := xPopped w (usesOf 0x113 w) s
       let rs := cvtdResults w s
       trapOf (ften t) id rs = none →
       Runs (.cvtd w) w s (vecWritten w false (valAt rs) (flagsOf w rs) 3 t)) ∧
     (s.power = .on → s.canIssue = true → s.cluster.isSome = true → ∀ i ∈ [Instr.cvtq w, .cvtd w],
       exec i s = .next (takeFault { code := 0x01 } s)))

/-! ### Moves, reductions and masks -/

/-- R99, R124, R125: each element of a vector move; a reduction writes the value of the tree over the enabled elements to its
s destination, at latency 8, or 10 for FP64. -/
def Obligations.VectorMovesAndReductions : Prop :=
  (∀ r ∈ moveRules, ∀ w s, xOpen w (usesOf r.opc w) s = true →
     let u := usesOf r.opc w
     let t := xPopped w u s
     let e := elemRange (isWide w) t
     Runs (r.make w) w s (vecWritten w (isWide w)
       (r.fn w t (xArg w (isWide w) u.sa s w.sa) (xArg w (isWide w) u.sb s w.sb) e.1 e.2) 0 r.lat t)) ∧
  (∀ r ∈ treeRules, ∀ w s, xOpen w (usesOf r.2.1 w) s = true →
     let t := xPopped w (usesOf r.2.1 w) s
     let v := treeValue r.2.1 r.2.2 w s
     trapOf (ften t) id [(0, v)] = none →
     Runs (r.1 w) w s (issued (.reg w.dst) t.laneMask (BitVec.ofNat 2048 v.val)
       (if bit w.mod 0 then 0 else BitVec.ofNat 5 v.flg) (if isWide w then 10 else 8) t))

/-- R126, R133: the words on masks, and `lqdrop`, which pops without data and whatever its guard says. -/
def Obligations.MaskWords : Prop :=
  ∀ w s,
    (xOpen w (usesOf 0x130 w) s = true →
      let t := xPopped w (usesOf 0x130 w) s
      ∀ x : Mask, (∀ i, i < 64 → bit x i =
          bit w.imm (2 * (if bit (regVal t w.sa) i then 1 else 0) + (if bit (regVal t w.sb) i then 1 else 0))) →
        Runs (.gop w) w s (issued (.reg w.dst) (guardMask w t) (x.setWidth 2048) 0 1 t)) ∧
    (∀ r ∈ maskRules, xOpen w (usesOf r.2.1 w) s = true →
      let t := xPopped w (usesOf r.2.1 w) s
      Runs (r.1 w) w s (issued (.reg w.dst) t.laneMask
        (BitVec.ofNat 2048 (r.2.2 (guardMask w t) (regVal t w.sa))) 0 1 t)) ∧
    (xOpen w (usesOf 0x134 w) s = true →
      let t := xPopped w (usesOf 0x134 w) s
      let x : Mask := if isZ w.sa then w.imm.signExtend 64 else regVal t w.sa
      Runs (.gmov w) w s (if isG w.dst then issued (.reg w.dst) (guardMask w t) (x.setWidth 2048) 0 1 t
        else scalarWritten w (regVal t w.sa).toNat 0 1 t)) ∧
    (slotOpen w s = true →
      (∀ q ∈ lqsOf w (usesOf 0x138 w), (headOf (atSlot w s).cluster ((atSlot w s).cc.loadQ q)).isSome = true) →
      Runs (.lqdrop w) w s (xPopped w (usesOf 0x138 w) s))

/-! ### Control words -/

/-- R127 to R132: the decision of each control word that acts, with its effect on the return stack, the loop
counter or the branch-outcome queue. A control word that its guard holds back records not taken, and changes no counter
and no stack; `brq` still pops its queue (R131). -/
def Obligations.ControlWordsDecide : Prop :=
  (∀ w s, acts w s = true →
    let t := atSlot w s
    ControlRuns (.br w) w s (decided (.goto (target w)) t) ∧
    (compares (intMode w) (bits w.mod 2 0) (regVal t w.sa).toNat (regVal t w.sb).toNat →
      ControlRuns (.brc w) w s (decided (.goto (target w)) t)) ∧
    (¬ compares (intMode w) (bits w.mod 2 0) (regVal t w.sa).toNat (regVal t w.sb).toNat →
      ControlRuns (.brc w) w s (decided .fall t)) ∧
    ControlRuns (.jmpi w) w s (decided (.goto (regVal t w.sa).toNat) t) ∧
    (t.cs.rs.length < 8 → ControlRuns (.call w) w s (decided (.goto (target w))
      (issued .rs (BitVec.allOnes 64) (BitVec.ofNat 2048 (afterGroup t)) 0 1 t))) ∧
    (∀ r x, t.cs.rs = r ++ [x] → ControlRuns (.ret w) w s (decided (.goto x) (t.modStream fun y => { y with rs := r }))) ∧
    (let v : Word := t.cs.lc.get 0 (bits w.mod 1 0) - 1
     ControlRuns (.loop w) w s (decided (if v = 0 then .fall else .goto (target w))
      (issued (.lc (bits w.mod 1 0)) (BitVec.allOnes 64) (v.setWidth 2048) 0 1 t))) ∧
    (let v : Word := if isZ w.sa then w.off.setWidth 32 else (regVal t w.sa).setWidth 32
     ControlRuns (.loopInit w) w s (decided (if v = 0 then .goto (target w) else .fall)
      (issued (.lc (bits w.mod 1 0)) (BitVec.allOnes 64) (v.setWidth 2048) 0 1 t))) ∧
    (∀ b c r, s.cur.stream < 4 → (if w.eng = .X then t.cc.obAX else t.cc.obXA) = (b, c) :: r →
      ControlRuns (.brq w) w s (decided (if b then .goto (target w) else .fall)
        ((t.modCore fun k => if w.eng = .X then { k with obAX := r } else { k with obXA := r }).modStream
          fun x => { x with clock := x.clock.max c }))) ∧
    (t.cc.pendReady = true → ControlRuns (.halt w) w s (decided .halt (dropLease s.cur.core t)))) ∧
  (∀ w s, heldBack w s = true →
    (∀ i ∈ [Instr.br w, .brc w, .jmpi w, .call w, .ret w, .loop w, .loopInit w, .halt w],
      ControlRuns i w s (decided .fall (atSlot w s))) ∧
    (∀ b c r, s.cur.stream < 4 → (if w.eng = .X then (atSlot w s).cc.obAX else (atSlot w s).cc.obXA) = (b, c) :: r →
      ControlRuns (.brq w) w s (decided .fall
        (((atSlot w s).modCore fun k => if w.eng = .X then { k with obAX := r } else { k with obXA := r }).modStream
          fun t => { t with clock := t.clock.max c }))))

/-- R34: in joint sequencing a group of four decisions (fewer when engines have ended, R204) sends all four
engines to the common target, or past the group, and stops the core at a group of `halt`; decisions that
disagree take the branch-disagreement fault, and what the words have done stands. R168: with a program counter of its own,
a decision takes effect at the end of its branch group. -/
def Obligations.BranchGroupsResolve : Prop :=
  (∀ t : State, 4 ≤ t.cc.group.length →
    (∀ x d : Nat, t.cc.group.filterMap id = List.replicate (x + 1) (.goto d) →
      resolveGroup t = .ok ((), t.modCore fun k => { k.setPc d with group := [] })) ∧
    (∀ x, t.cc.group.filterMap id = List.replicate (x + 1) .fall →
      resolveGroup t = .ok ((), t.modCore fun k => { k.setPc (groupEnd t.cl.code t.cs.pc) with group := [] })) ∧
    (∀ x, t.cc.group.filterMap id = List.replicate (x + 1) .halt →
      resolveGroup t = .ok ((), endRun t.cur.core .halted t)) ∧
    (∀ d e, d ∈ t.cc.group.filterMap id → e ∈ t.cc.group.filterMap id → d ≠ e →
      settle resolveGroup t = takeFault { code := 0x0B, keep := true } t)) ∧
  (∀ (s : State) (after : Nat), s.cs.lit = 0 → after ≤ s.cs.pc →
    (∀ d, s.cs.dec = some (.goto d, after) →
      applyDecision s = s.modStream fun t => { t with dec := none, pc := d }) ∧
    (s.cs.dec = some (.fall, after) → applyDecision s = s.modStream fun t => { t with dec := none }) ∧
    (s.cs.dec = some (.halt, after) →
      applyDecision s = haltWhenAll (s.modStream fun t => { t with dec := none, wait := 10 })))

/-- R21: a `call` made while 8 entries are held takes the return-stack overflow fault, a `ret` made while none is held the
underflow fault; no entry is pushed or popped, and no branch is taken. -/
def Obligations.ReturnStackFaults : Prop :=
  ∀ w s, acts w s = true →
    (8 ≤ (atSlot w s).cs.rs.length → exec (.call w) s = .next (takeFault { code := 0x09 } s)) ∧
    ((atSlot w s).cs.rs = [] → exec (.ret w) s = .next (takeFault { code := 0x0A } s)) ∧
    (∀ c, let t := takeFault { code := c } s
      t.cs.rs = s.cs.rs ∧ t.cs.pend = s.cs.pend ∧ t.cs.pc = s.cs.pc ∧ t.cs.dec = s.cs.dec ∧ t.cc.group = s.cc.group)

/-! ### Words on control registers, outcome queues and tokens -/

/-- R122, R123, R131, R132, R199: the words that move a value between a register and the control registers,
the flags, the token counts or the outcome queues, and `nop`. A register number that is not assigned takes the
unassigned-register fault, and a write at user privilege of a register that the user may not write the privilege fault. -/
def Obligations.PlainWords : Prop :=
  ∀ w s, slotOpen w s = true →
    let t := atSlot w s
    Runs (.nop w) w s t ∧
    (scalarOn w t = true →
      (∀ n, n = bits w.imm 11 0 → csrKnown n = true → Runs (.csrr w) w s (issuedReg w.dst (csrRead t n) 1 t)) ∧
      (∀ n, n = bits w.imm 11 0 → csrKnown n = true → (t.cc.csrN 0 ≠ 0 ∨ csrUser n = true) →
        Runs (.csrw w) w s (if csrFixed n then t else
          issued (if 0x100 ≤ n then .lc (n - 0x100) else .csr n) (BitVec.allOnes 64)
            ((regVal t w.sa).setWidth 2048) 0 1 t)) ∧
      Runs (.flgr w) w s (issued .fflgClear (BitVec.allOnes 64) (BitVec.ofNat 2048 (bits w.imm 4 0)) 0 1
        (issuedReg w.dst (t.cc.fflg.setWidth 64) 1 t)) ∧
      Runs (.tkrd w) w s (issuedReg w.dst (BitVec.ofNat 64 (t.cc.tokens (bits w.mod 2 0)).length) 1 t)) ∧
    (scalarOn w t = false → ∀ i ∈ [Instr.csrr w, .csrw w, .flgr w, .tkrd w], Runs i w s t) ∧
    (s.cur.stream < 4 → (if w.eng = .X then t.cc.obXA else t.cc.obAX).length < 16 →
      let e := [(scalarOn w t && regVal t w.sa != 0, t.stamp)]
      Runs (.obsend w) w s (t.modCore fun k =>
        if w.eng = .X then { k with obXA := k.obXA ++ e } else { k with obAX := k.obAX ++ e })) ∧
    (scalarOn w t = true →
      (csrKnown (bits w.imm 11 0) = false →
        ∀ i ∈ [Instr.csrr w, .csrw w], exec i s = .next (takeFault { code := 0x0F } s)) ∧
      (csrKnown (bits w.imm 11 0) = true → t.cc.csrN 0 = 0 → csrUser (bits w.imm 11 0) = false →
        exec (.csrw w) s = .next (takeFault { code := 0x0E } s)))

/-- R198: `tkw` takes or gives n tokens whatever its guard says; a take of more than are there and a give past
15 stop the word: with the token faults in joint sequencing, and with a wait under slip. -/
def Obligations.TokenWords : Prop :=
  ∀ w s, slotOpen w s = true → s.cur.stream < 4 →
    let t := atSlot w s
    let n := bits w.imm 3 0
    let a := bits w.mod 1 0
    let q := if a = 0 then takeQ w.eng true else if a = 1 then takeQ w.eng false
      else if a = 2 then tokQ w.eng false else tokQ w.eng true
    (a < 2 → n ≤ (t.cc.tokens q).length → Runs (.tkw w) w s (tokensTaken q n t)) ∧
    (2 ≤ a → (t.cc.tokens q).length + n ≤ 15 → Runs (.tkw w) w s (tokensGiven q n t)) ∧
    (t.seqn t.cur.core = .joint →
      (a < 2 → (t.cc.tokens q).length < n → exec (.tkw w) s = .next (takeFault { code := 0x03 } s)) ∧
      (2 ≤ a → 15 < (t.cc.tokens q).length + n → exec (.tkw w) s = .next (takeFault { code := 0x04 } s))) ∧
    (t.seqn t.cur.core = .slip →
      ((a < 2 ∧ (t.cc.tokens q).length < n) ∨ (2 ≤ a ∧ 15 < (t.cc.tokens q).length + n)) →
      exec (.tkw w) s = .next (t.modStream fun x => { x with wait := 1, waitAt := t.cc.moves }))

/-! ### Clusters, the end of an iteration and events -/

/-- R200: `fork` at the start of its region starts the four clusters: each at the word after it, or at the target when its
bits of SA are not all 0, with the pending writes of its own lanes. R202: `join` in a cluster sets its synchronisation bit;
with the fourth bit the clusters reunite: their pending writes are committed, s bank 0 is copied to the others, and X goes
on after the `join`. -/
def Obligations.ForkAndJoin : Prop :=
  (∀ w s r, slotOpen w s = true → forkHere w s = some r →
     exec (.fork w) s = .next (settle (do slotExit w (pure ()); forkAll w s.cs.pc)
       ((atSlot w s).modStream fun t => { t with base := regVal (atSlot w s) w.sa })) ∧
     ∀ t, t.cl.code.regions.find? (fun x => x.1 = s.cs.pc) = some r → ∃ t', forkAll w s.cs.pc t = .ok ((), t') ∧
       t'.cc.fork = some r ∧
       (∀ c, c < 4 →
         (t'.cc.stream (clusterStream c)).valid = true ∧ (t'.cc.stream (clusterStream c)).joinb = false ∧
         (t'.cc.stream (clusterStream c)).pc =
           clusterStart w t.cs.base (s.cs.pc + 1 + litsAt t.cl.code s.cs.pc) c ∧
         (t'.cc.stream (clusterStream c)).pend = t.cs.pend.map (clusterPend c) ∧
         (t'.cc.stream (clusterStream c)).lc = t.cs.lc ∧ (t'.cc.stream (clusterStream c)).rs = t.cs.rs ∧
         (t'.cc.stream (clusterStream c)).slot = t.cs.slot)) ∧
  (∀ w s f j, slotOpen w s = true → s.cc.fork = some (f, j) → s.cs.pc = j →
     exec (.join w) s = .next (settle (do
       slotExit w (changeStream fun t => { t with joinb := true, wait := 5 })
       joinAll) (atSlot w s)) ∧
     ∀ t, t.cc.fork = some (f, j) →
       ((∃ c, c < 4 ∧ (t.cc.stream (clusterStream c)).joinb = false) → joinAll t = .ok ((), t)) ∧
       ((∀ c, c < 4 → (t.cc.stream (clusterStream c)).joinb = true) → ∃ t', joinAll t = .ok ((), t') ∧
         t'.cc.fork = none ∧ (t'.cc.stream 1).pc = j + 1 ∧ (t'.cc.stream 1).joinb = false ∧
         (t'.cc.stream 1).pend = [] ∧
         (t'.cc.stream 1).slot =
           (span 0 4).foldl (fun m c => Nat.max m (t.cc.stream (clusterStream c)).slot) 0 ∧
         (let k := (clusterPends t.cc).foldl (fun k x => applyPend x.1 x.2 k) t.cc
          (t'.cc.stream 1).rs = (k.stream 1).rs ∧ (t'.cc.stream 1).lc = (k.stream 1).lc ∧
          t'.cc.v = k.v ∧ t'.cc.g = k.g ∧
          (∀ i c, i < 32 → c < 4 → t'.cc.s.get 0 (32 * c + i) = k.s.get 0 i))))

/-- R180, R204, R206, R207: `endit` ends its engine's part, and the iteration when it is the last; `wfe`
clears the latch that it finds set, or holds the engine; `sev` sends a set to each of its targets, and its own core has it
at once, with the message: a set ends the wait of a held engine and leaves the latch clear then, and else sets the latch. -/
def Obligations.EndsAndEvents : Prop :=
  ∀ w s, slotOpen w s = true →
    let t := atSlot w s
    ((scalarOn w t = false ∨ t.cc.pendReady = true) →
      ComparesTo (.endit w) w (finEndit w) s t ∧ ∀ x, finEndit w x = .ok ((), enditState w x)) ∧
    ((scalarOn w t = false ∨ t.cs.latch = true ∨ t.seqn t.cur.core ≠ .timed) →
      RunsTo (.wfe w) w finWfe s (wfeState w t) ∧ ∀ x, finWfe x = .ok ((), wfeHeld x)) ∧
    Runs (.sev w) w s (if scalarOn w t then
      (sevTargets w t).foldl (sendSev (if bit w.mod 2 then some (regVal t w.sb) else none)) t else t) ∧
    (∀ msg x e, e < 4 →
      let y := (sendSev msg x x.cur.core).cc
      y.mbx = msg.getD x.cc.mbx ∧
      ((x.cc.stream e).hold = .latch ∨ (x.cc.stream e).hold = .wfe →
        (y.stream e).hold = .woken x.clk.wcyc x.cc.moves ∧ (y.stream e).latch = false) ∧
      ((x.cc.stream e).hold ≠ .latch → (x.cc.stream e).hold ≠ .wfe →
        (x.cc.stream e).hold ≠ .woken x.clk.wcyc x.cc.moves → (y.stream e).latch = true))

/-! ### Memory words -/

/-- R29, R271: a queue load allocates an entry at its slot, with the bytes that its access gives; guarded off
the entry is all zeros. -/
def Obligations.QueueLoadsAllocateTheirEntry : Prop :=
  ∀ r ∈ queueLoads, ∀ w s, slotOpen w s = true →
    let t := latched w s
    let q := bits w.imm 11 9
    (t.cc.loadQ q).entries.length < 16 →
    (guardOff w t = true → Runs (r.1 w) w s (entryPushed q 0 true none t)) ∧
    (∀ l t1 v src t2, guardOff w t = false → r.2.1 w (memAddr w t) t = .ok (l, t1) →
      loadRuns l (r.2.2 w) w.ac 0 false t1 = .ok ((v, src), t2) → (t2.cc.loadQ q).entries.length < 16 →
      Runs (r.1 w) w s (entryPushed q v false src t2))

/-- R270, R271: a register load issues a write whose data arrives later, for the bytes that its access gives. -/
def Obligations.RegisterLoadsIssueTheirWrite : Prop :=
  ∀ r ∈ registerLoads, ∀ w s, slotOpen w s = true →
    let t := latched w s
    (guardOff w t = true → Runs (r.1 w) w s t) ∧
    (∀ l t1 v src t2, guardOff w t = false → r.2.1 w (memAddr w t) t = .ok (l, t1) →
      loadRuns l (r.2.2.1 w) w.ac (sizeBytes (mSizeCode w)) (bit w.imm 8) t1 = .ok ((v, src), t2) →
      Runs (r.1 w) w s (pending (.reg w.dst) (BitVec.allOnes 64) v r.2.2.2 false src t2))

/-- R273, R274: a store writes the low bytes of the queue entry that it pops, or of a w register, once its order
and its places allow; a store with a release half is held until that has completed. -/
def Obligations.StoresWriteTheirBytes : Prop :=
  ∀ w s, slotOpen w s = true →
    let t := latched w s
    let q := bits w.imm 11 9
    let n := sizeBytes (mSizeCode w)
    (∀ r ∈ queueStores, ∀ e, (t.cc.storeQ q).entries.head? = some e → e.valid = true →
      (guardOff w t = true → Runs (r.1 w) w s (entryPopped q e t)) ∧
      (∀ l t1 t2 t3, guardOff w t = false → r.2 w (memAddr w t) t = .ok (l, t1) → storeReady l t1 = .ok ((), t2) →
        (t2.cc.storeQ q).entries.head? = some e → storeReady l (entryPopped q e t2) = .ok ((), t3) →
        Runs (r.1 w) w s (storeDone w l (toBytes n e.data.toNat) t3))) ∧
    (guardOff w t = true → Runs (.stw w) w s t) ∧
    (∀ l t1 t2, guardOff w t = false →
      (if bit w.imm 13 then inSegment 1 w else inLocal 1 w) (memAddr w t) t = .ok (l, t1) →
      storeReady l t1 = .ok ((), t2) →
      Runs (.stw w) w s (storeDone w l (toBytes n (regVal t w.sb).toNat) t2))

/-- R213, R214, R237: bits [63:62] of a local address choose the scratchpad, which wraps, the bed store or the die store; a
range past the end of a store, and 3, take the memory fault of cause 7, and a misaligned access to a store that of cause 6.
R231: an access whose address has no valid translation takes the memory fault, with the cause, the level, the access kind
and the address in its frame. That an access both out of range and misaligned takes cause 7 is the model's own choice
(log 16). -/
def Obligations.AccessesResolveOrFault : Prop :=
  (∀ (t : State) (a n acc : Nat),
     let off := a % 2 ^ 62
     let place := a / 2 ^ 62 % 4
     let fault (cause at_ : Nat) : Stop :=
       .fault { code := 0x11, mfa := mfaWord t.cs.prog 0 15 acc cause, mfb := BitVec.ofNat 64 at_ } t
     (place = 0 → resolveLocal a n acc t = .ok ([⟨0, n, 15, .spad (off % 2 ^ t.cc.scr)⟩], t)) ∧
     (∀ limit p, (place = 1 ∧ limit = 2097152 ∧ p = Place.bedStore off) ∨
         (place = 2 ∧ limit = t.cl.ways.get 0 (t.dieOf t.cur.core) * 8388608 ∧ p = Place.dieStore off) →
       (off + n ≤ limit → off % (Nat.min n 64) = 0 → resolveLocal a n acc t = .ok ([⟨0, n, 15, p⟩], t)) ∧
       (off + n ≤ limit → off % (Nat.min n 64) ≠ 0 → resolveLocal a n acc t = .error (fault 6 a)) ∧
       (limit < off + n →
         resolveLocal a n acc t = .error (fault 7 (if off < limit then a + (limit - off) else a)))) ∧
     (place = 3 → resolveLocal a n acc t = .error (fault 7 a))) ∧
  (∀ (t : State) (seg a acc cause level : Nat), seg < 256 →
     staleLeaves t t.cur.core t.cl.ctx (seg * 2 ^ 64 + a % 2 ^ 64)
       (walk t (t.ctx t.cl.ctx) (seg * 2 ^ 64 + a % 2 ^ 64)) = [] →
     let fault : Stop :=
       .fault { code := 0x11, mfa := mfaWord t.cs.prog seg level acc cause, mfb := BitVec.ofNat 64 a } t
     (walk t (t.ctx t.cl.ctx) (seg * 2 ^ 64 + a % 2 ^ 64) = .stop cause level → translate seg a acc t = .error fault) ∧
     (∀ e, walk t (t.ctx t.cl.ctx) (seg * 2 ^ 64 + a % 2 ^ 64) = .leaf e level →
       leafStop (t.ctx t.cl.ctx) e acc = some cause → translate seg a acc t = .error fault))

/-- R275, R276: an atomic writes the new value and gives the old one to its destination at latency 64. Its
read-modify-write is one access: it gives the value that the location holds and writes the new one at once, published in
a memory-side line of memory, standing in a local store. -/
def Obligations.AtomicsAreOneAccess : Prop :=
  (∀ r ∈ atomRules, ∀ w s, slotOpen w s = true →
     let t := latched w s
     let n := sizeBytes (mSizeCode w)
     (guardOff w t = true → Runs (r.1 w) w s t) ∧
     (∀ v t0 c t1 t2 m t3, guardOff w t = false → slotOpnds [w.sb, w.sc] t = .ok (v, t0) →
       let o := opndAt v 0 % 2 ^ (8 * n)
       let x := opndAt v 1 % 2 ^ (8 * n)
       byG 2 w (memAddr w t) t0 = .ok ([c], t1) → ownPlace c.place = true →
       (hasRel w = true → okB (awaitRelease (mScope w)) t1 = true) → accessReady [c] t1 = .ok ((), t2) →
       okB (afterContribs [c] w.ac) t2 = true → rmw c (fun m => r.2.2 w m o x) t2 = .ok (m, t3) →
       Runs (r.1 w) w s (atomDone w m t3)) ∧
     (∀ v t0 c pa ms t1 m t2, guardOff w t = false → slotOpnds [w.sb, w.sc] t = .ok (v, t0) →
       byG 2 w (memAddr w t) t0 = .ok ([c], t1) → c.place = .remote pa ms →
       remoteAtomic w c pa r.2.1 n v t1 = .ok (m, t2) →
       let new := toBytes n ((r.2.2 w m (opndAt v 0 % 2 ^ (8 * n)) (opndAt v 1 % 2 ^ (8 * n))).getD m)
       Runs (r.1 w) w s (atomGiven w m (if ms then t2 else t2.modCore (·.keepNear (atAddr pa new)))))) ∧
  (∀ (t : State) (n : Nat) (f : Nat → Option Nat),
     (∀ pa level, logStall t (pa / 64) = false → t.cc.heldMeets pa n = false → rmw ⟨0, n, level, .home pa true⟩ f t =
       .ok (memNat t.mem pa n, match f (memNat t.mem pa n) with
         | some x => publishBytes (atAddr pa (toBytes n x)) t
         | none => t)) ∧
     (∀ p, (∃ o, p = Place.spad o ∨ p = Place.bedStore o ∨ p = Place.dieStore o) →
       let m := ofBytes (localRead t t.cur.core p n)
       rmw ⟨0, n, 15, p⟩ f t = .ok (m, match f m with
         | some x => localWrite t.cur.core p (toBytes n x) t
         | none => t)))

/-- R253, R277, R279, R280: an ordered contribution to a memory-side line, of this package or of another one of the seal
domain, sets out with the next number of view 1, and its acquire half waits for its application; a boundary begins a
release half, performs an acquire half, or does both with the release complete between them; a `fence` stands before the
next access of its engine, which waits while an earlier access has still to be performed and else takes the `fence` away. -/
def Obligations.ContributionsAndBoundaries : Prop :=
  (∀ w s, slotOpen w s = true →
    let t := atSlot w s
    let b := latched w s
    let at_ (level : Nat) (p : Place) : List Chunk := [⟨0, sizeBytes (mSizeCode w), level, p⟩]
    (∀ x b0 t1 t2 pa level, guardOff w b = false → slotOpnds [w.sb, w.sc] b = .ok (x, b0) →
      inSegment 2 w (memAddr w b) b0 = .ok (at_ level (.home pa true), t1) →
      (hasRel w = true → okB (awaitRelease (mScope w)) t1 = true) →
      accessReady (at_ level (.home pa true)) t1 = .ok ((), t2) →
      Runs (.rdo w) w s (contribOpen w (contributed w pa (memAddr w b) x t2))) ∧
    (∀ x b0 t1 t2 pa level, guardOff w b = false → slotOpnds [w.sb, w.sc] b = .ok (x, b0) →
      inSegment 2 w (memAddr w b) b0 = .ok (at_ level (.remote pa true), t1) →
      b.inDomain (pkgBits pa) = true → (hasRel w = true → okB (awaitRelease (mScope w)) t1 = true) →
      accessReady (at_ level (.remote pa true)) t1 = .ok ((), t2) → t2.reserved 2 t2.cur.core (pkgBits pa) = true →
      Runs (.rdo w) w s (contribOpen w (contribSent w pa (memAddr w b) x t2))) ∧
    (scalarOn w t = true →
      (mOrder w = 1 → Runs (.phase w) w s (acquireHalf t.cur.core t)) ∧
      (mOrder w = 2 → Runs (.phase w) w s (startRelease t.cur.core (mScope w) .none t)) ∧
      (mOrder w = 3 → okB (awaitRelease (mScope w)) t = true → Runs (.phase w) w s (acquireHalf t.cur.core t)) ∧
      Runs (.fence w) w s (t.modStream fun x => { x with fence := true })) ∧
    (scalarOn w t = false → Runs (.phase w) w s t ∧ Runs (.fence w) w s t)) ∧
  (∀ (t : State) (l : List Chunk), t.cs.fence = true → acqOpen t = false →
    (unperformed t = true → accessReady l t = .error (.stall 9 t)) ∧
    (unperformed t = false → t.cc.releases = [] →
      accessReady l t = .ok ((), t.modStream fun x => { x with fence := false })))

/-- R220, R281 to R284: the ring words. `rclaim` gives the address of the next slot and counts it claimed, when its core is
the next in cyclic order among those of the bed that wait to claim and no claim of the same wall cycle that comes after it
in that order has been served (log 104); `rfill` and `rfree` begin the release behind which they set the mark of their slot;
`rwaitf` and `rwaite` acquire once the count has passed theirs. That a ring word waits for an acquire that is still to act,
and for the accesses before a `fence`, is log 41. -/
def Obligations.RingWords : Prop :=
  ∀ w s b r t, slotOpen w s = true → guardOff w (atSlot w s) = false → accessReady [] (atSlot w s) = .ok ((), t) →
    ringAt w t = some (b, r) →
    let n := bits w.imm 3 0
    let x := t.bed b
    let k := (regVal t w.sa).toNat % 2 ^ 32
    ((ringCC x n + 2 ^ 32 - ringEC x n) % 2 ^ 32 ≠ r.nsl →
      nextCrn (x.ring n).last (insertN t.cur.core (claimers t b n)) = some t.cur.core →
      claimLate t (x.ring n) = false → okB issueOrder t = true →
      Runs (.rclaim w) w s (issuedReg w.dst (BitVec.ofNat 64 (r.addr (ringCC x n % r.nsl))) 2
        (t.setBed b { x with
          store := memWrite x.store (64 * n + 16) (toBytes 4 (ringCC x n + 1))
          marks := x.marks.put n (claimServed t (x.ring n)) }))) ∧
    (∀ j, r.find (regVal t w.sa).toNat = some j →
      (inWindow r.nsl (ringFC x n) (ringCC x n) j = true → markPending t b (x.ring n).fill (.ringFill t.cc.launch b n j) j = false →
        Runs (.rfill w) w s (startRelease t.cur.core 1 (.ringFill t.cc.launch b n j) t)) ∧
      (inWindow r.nsl (ringEC x n) (ringFC x n) j = true → markPending t b (x.ring n).free (.ringFree t.cc.launch b n j) j = false →
        Runs (.rfree w) w s (startRelease t.cur.core 1 (.ringFree t.cc.launch b n j) t))) ∧
    (okB issueOrder t = true → passed (ringFC x n) k = true → Runs (.rwaitf w) w s
      (issuedReg w.dst (BitVec.ofNat 64 (r.addr (k % r.nsl))) 2 (acquireHalf t.cur.core t))) ∧
    (okB issueOrder t = true → passed (ringEC x n) k = true → Runs (.rwaite w) w s (acquireHalf t.cur.core t))

/-- R286 to R288: `pf` changes nothing; the invalidations drop the translations that they name in the TLBs and
caches that they reach, `inval.all` at supervisor privilege only; `carve` sets the launch's ways on the core's
die and gives the number granted. -/
def Obligations.CarvingAndTranslations : Prop :=
  ∀ w s, slotOpen w s = true →
    let t := atSlot w s
    let c := t.cl.ctx
    let drop (p : Xlat → Bool) : State := dropXlats (mScope w) t.cur.core c p t
    Runs (.pf w) w s t ∧
    (guardOff w t = false →
      (okB (rootCheck (segOf w) (invalAddr w t)) t = true →
        Runs (.invalPage w) w s (drop fun x => x.covers c (segOf w * 2 ^ 64 + invalAddr w t))) ∧
      Runs (.invalCtx w) w s (drop fun x => x.ctx == c && !bit x.leaf 7) ∧
      (t.cc.csrN 0 ≠ 0 → Runs (.invalAll w) w s (drop fun x => x.ctx == c || bit x.leaf 7)) ∧
      (t.cc.csrN 0 = 0 → exec (.invalAll w) s = .next (takeFault { code := 0x0E } s)) ∧
      (let d := t.dieOf t.cur.core
       let n := carveGrant (t.cl.ways.get 0 d) (carveCount t d) (Nat.min ((regVal t w.sa).toNat % 256) 12)
       Runs (.carve w) w s (issuedReg w.dst (BitVec.ofNat 64 n) 1 (setGrant t.cc.launch d n t))))

/-! ### Words of the asynchronous engines -/

/-- R315, R316, R326, R327: what the barrier words do to a barrier of the core; a remote arrival leaves behind its
release half. -/
def Obligations.BarrierWords : Prop :=
  ∀ w s, acts w s = true →
    let t := atSlot w s
    let c := t.cur.core
    let a := (regVal t w.sa).toNat
    (∀ p u, barPlace a t = .ok (p, u) →
      let b := readBar u c p
      let n := (regVal t w.sb).toNat
      (1 ≤ n → n ≤ 65535 → Runs (.barinit w) w s (writeBar c p ⟨0, 0, 0, n, n, 0⟩ u)) ∧
      (∀ b', inI32 (regVal t w.sb).toInt = true → barSectors (tagOf w t) (regVal t w.sb).toInt b = some b' →
        Runs (.barexp w) w s (writeBar c p b' u)) ∧
      (∀ v t0 p u, slotOpnds [w.sa, w.sc] t = .ok (v, t0) → barPlace (opndAt v 0) t0 = .ok (p, u) →
        (hasRel w = true → okB (awaitRelease (if opndAt v 0 / 2 ^ 62 % 4 = 0 then 0 else 1)) t0 = true) →
        ∀ b', barArrive (tagVal w (opndAt v 1)) (readBar u c p) = some b' → Runs (.bararr w) w s (writeBar c p b' u)) ∧
      (1 ≤ (b.ph + 16 - n % 16) % 16 → (b.ph + 16 - n % 16) % 16 ≤ 8 →
        Runs (.barwait w) w s (observe c (fun x => x.bar.isSome && x.bar == barName p) (acquireHalf c u)))) ∧
    (let d := regVal t w.sb
     let pkg := bits d 43 32
     let bed := t.bedOf (bits d 9 0)
     a / 2 ^ 62 = 1 → a % 2 ^ 62 % 16 = 0 → a % 2 ^ 62 + 16 ≤ 2097152 → bits d 63 44 = 0 → bits d 31 10 = 0 →
     (pkg = t.ident.pkg → bed ≠ t.bedOf c) → t.inDomain pkg = true →
     (pkg ≠ t.ident.pkg → okB (remoteReady (pkg * 2 ^ 48)) t = true) →
     Runs (.bararrRem w) w s (startRelease c (if pkg = t.ident.pkg then 3 else 4)
       (.remoteArrive t.cc.launch pkg bed (a % 2 ^ 62) (tagOf w t)) t))

/-- R315: an arrival at a barrier with no arrival left, and sectors that leave the range of their count, take the
barrier-count fault and leave the barrier as it is. The completion step: a barrier whose slot 0 has no arrivals and no
sectors left moves to the next phase, with the arrivals of slot 1 counted off the new one. -/
def Obligations.BarrierCounts : Prop :=
  (∀ w s p u, acts w s = true → barPlace (regVal (atSlot w s) w.sa).toNat (atSlot w s) = .ok (p, u) →
     let t := atSlot w s
     let b := readBar u t.cur.core p
     let faulted := takeFault { code := 0x16 } { s with draws := u.draws }
     (inI32 (regVal t w.sb).toInt = true → barSectors (tagOf w t) (regVal t w.sb).toInt b = none →
       exec (.barexp w) s = .next faulted) ∧
     ((regVal t w.sb).toNat = 0 ∨ 65535 < (regVal t w.sb).toNat → exec (.barinit w) s = .next faulted)) ∧
  (∀ w s v t0 p u, acts w s = true → hasRel w = false → slotOpnds [w.sa, w.sc] (atSlot w s) = .ok (v, t0) →
     barPlace (opndAt v 0) t0 = .ok (p, u) → barArrive (tagVal w (opndAt v 1)) (readBar u s.cur.core p) = none →
     exec (.bararr w) s = .next (takeFault { code := 0x16 } { s with draws := u.draws })) ∧
  (∀ b : Barrier,
     ((b.arr0 ≠ 0 ∨ b.sec0 ≠ 0) → barStep b = b) ∧
     (b.arr0 = 0 → b.sec0 = 0 → (b.init - b.arr1 ≠ 0 ∨ b.sec1 ≠ 0) →
       barStep b = ⟨0, b.sec1, 0, b.init - b.arr1, b.init, (b.ph + 1) % 16⟩) ∧
     (∀ c, 1 ≤ c → (List.replicate c ()).foldl (fun o _ => o.bind (barArrive none)) (some ⟨0, 0, 0, c, c, b.ph⟩) =
       some ⟨0, 0, 0, c, c, (b.ph + 1) % 16⟩))

/-- R292, R294, R295, R321 to R325: `btcpy` queues its copy under the next number of its view; `btq` gives the
completion cycle of a copy; `tlwait` and `waitc` acquire once their number or their cycle has come. -/
def Obligations.CopiesAndWaits : Prop :=
  ∀ w s, slotOpen w s = true →
    let t := atSlot w s
    let c := t.cur.core
    let a := (regVal t w.sa).toNat
    (scalarOn w t = true →
      (∀ d src t1 dst t2 bar t3 u, a % 64 = 0 → d = copyDesc (spadRead t.cc (a % 2 ^ t.cc.scr) 64) → copyOk d = true →
        copyRange (d.fl.testBit 1) d.sseg d.src d.len 0 t = .ok (src, t1) →
        copyRange (d.fl.testBit 2) d.dseg d.dst d.len 1 t1 = .ok (dst, t2) →
        copyPlace d t2 = .ok (bar, t3) → okB awaitEntry t3 = true → copySectors d t3 bar u →
        Runs (.btcpy w) w s (copyQueued w d src dst bar u)) ∧
      (∀ x, 1 ≤ a → a ≤ t.cc.tlIssued.get 0 (viewOf w 0) → t.cc.tlIssued.get 0 (viewOf w 0) < a + 64 →
        (t.cc.copies.get [] (viewOf w 0)).find? (fun r => r.num = a) = some ⟨a, some x⟩ →
        Runs (.btq w) w s (issuedReg w.dst (BitVec.ofNat 64 x) 2 t)) ∧
      (a ≤ t.cc.tlDone.get 0 (bits w.imm 2 0) → a ≤ t.cc.tlIssued.get 0 (bits w.imm 2 0) →
        Runs (.tlwait w) w s (observe c (fun x => x.view == bits w.imm 2 0 && decide (x.num ≤ a)) (acquireHalf c t)))) ∧
    ((scalarOn w t = false ∨ t.seqn c ≠ .timed ∨ waitTarget w t ≤ t.clk.scyc) →
      RunsTo (.waitc w) w (finWaitc w) s t ∧ ∀ x, finWaitc w x = .ok ((), waitcState w x))

/-- R300 to R308, R328 to R331: `gdef` defines a grid from its descriptor, its owners and its pages; `gstep`
publishes the next step of a partition behind a release; `ldgs` gives the elements of a step, with an acquire half
when they touch ghost regions that hold it; `stgs` stores elements that touch none. -/
def Obligations.GridWords : Prop :=
  ∀ w s, slotOpen w s = true →
    let t := atSlot w s
    let q := bits w.imm 11 9
    let size := sizeBytes (mSizeCode w)
    let p := (regVal t w.sb).toNat
    let n := (regVal t w.sc).toNat
    (∀ l t1 d t2 lo t3 o t4 pages t5, scalarOn w t = true →
      resolveGlobal (bits w.imm 7 0) (regVal t w.sa).toNat 128 0 t = .ok (l, t1) → loadNow l 0 t1 = .ok (d, t2) →
      gridBusy t t.cc.launch (bits w.imm 11 8) = false →
      let g := gridDesc d
      gridOk d g = true →
      resolveRange g.seg 0 (2 * g.count / 65536 + 2) 0 (fieldOf d 48 8) (2 * g.count) t2 = .ok (lo, t3) →
      loadNow lo 0 t3 = .ok (o, t4) →
      let owners := (span 0 g.count).map fun i => fieldOf o (2 * i) 2
      (∀ x ∈ owners, x ∈ t.cl.cores) → gridPages g.seg (gridPageList g) .empty t4 = .ok (pages, t5) →
      Runs (.gdef w) w s (t5.setLaunch t5.cc.launch { t5.cl with
        grids := t5.cl.grids.put (bits w.imm 11 8) { g with owners := owners, pages := pages } })) ∧
    (∀ g, scalarOn w t = true →
      let part := (regVal t w.sa).toNat
      let step := (regVal t w.sb).toNat
      t.cl.grids.get? (bits w.imm 3 0) = some g → part < g.count → (g.owners[part]?).getD 0 = t.cur.core →
      step % g.dep = 0 → (∀ prev, g.published.get? part = some prev → step = prev + g.dep) →
      Runs (.gstep w) w s (stepTaken w g (bits w.imm 3 0) part step t)) ∧
    ((t.cc.loadQ q).entries.length < 16 → guardOff w t = true → Runs (.ldgs w) w s (entryPushed q 0 true none t)) ∧
    (∀ g es l t1, (t.cc.loadQ q).entries.length < 16 → guardOff w t = false → gridCheck w t = .ok ((g, es), t) →
      haloExpired t = false → resolveRange g.seg 0 2 0 (g.elemVa p (g.bankOf n) (es.headD 0)) size t = .ok (l, t1) →
      (∀ v src t2, regionsOf g es = [] → loadRuns l false w.ac 0 false t1 = .ok ((v, src), t2) →
        (t2.cc.loadQ q).entries.length < 16 →
        Runs (.ldgs w) w s (entryPushed q v false (src.map fun x => { x with one := true }) t2)) ∧
      (∀ t2, regionsOf g es ≠ [] → (∀ f ∈ regionsOf g es, n ∈ heldOf g p f) → accessReady l t1 = .ok ((), t2) →
        let u := acquireHalf t.cur.core t2
        (u.cc.loadQ q).entries.length < 16 →
        Runs (.ldgs w) w s (entryPushed q (BitVec.ofNat 2048 (ofBytes (gridBytes t l))) false none u))) ∧
    (∀ e, (t.cc.storeQ q).entries.head? = some e → e.valid = true →
      (guardOff w t = true → Runs (.stgs w) w s (entryPopped q e t)) ∧
      (∀ g es l t1 t2 t3, guardOff w t = false → gridCheck w t = .ok ((g, es), t) →
        resolveRange g.seg 1 2 0 (g.elemVa p (g.bankOf n) (es.headD 0)) size t = .ok (l, t1) →
        regionsOf g es = [] → (g.owners[p]?).getD 0 = t.cur.core → ¬ slabRead g (bits w.imm 3 0) p n t →
        storeReady l t1 = .ok ((), t2) → (t2.cc.storeQ q).entries.head? = some e →
        storeReady l (entryPopped q e t2) = .ok ((), t3) →
        Runs (.stgs w) w s (storeRuns l (toBytes size e.data.toNat) w.ac t3)))

/-- R312, R313, R332 to R334: `rdxgo` queues the reduction of a valid parameter block homed on one die behind a
release, and `pgmig` begins the transplant of a valid range, at supervisor privilege only. -/
def Obligations.ReductionsAndTransplants : Prop :=
  ∀ w s, acts w s = true →
    let t := atSlot w s
    let va := (regVal t w.sa).toNat
    (∀ bl t1 d t2 die dst bufs fl t3 t4 t5 t6 t7 t8, 
      resolveGlobal (bits w.imm 7 0) va 192 0 t = .ok (bl, t1) → loadNow bl 0 t1 = .ok (d, t2) → blockOk d = true →
      let f := fieldOf d
      let sg := f 0x1B 1
      let len := f 0x10 8 * redZ (f 0x19 1)
      okB (redRange (bits w.imm 7 0) va 192 1) t2 = true → afterOf (redRange (bits w.imm 7 0) va 192 1) t2 = t3 →
      okB (redRange sg (f 8 8) 8 0) t3 = true → afterOf (redRange sg (f 8 8) 8 0) t3 = t4 →
      redRange sg (f 8 8) 8 1 t4 = .ok (fl, t5) →
      okB (redRange sg (f 0 8) len 0) t5 = true → afterOf (redRange sg (f 0 8) len 0) t5 = t6 →
      redRange sg (f 0 8) len 1 t6 = .ok (dst, t7) →
      bufRanges sg len ((span 0 (f 0x18 1)).map fun i => f (0x40 + 8 * i) 8) t7 = .ok (bufs, t8) →
      homesOf (bl ++ fl ++ dst ++ bufs.flatten) = some [die] →
      Runs (.rdxgo w) w s (reduceQueued w d bl fl dst bufs die t8)) ∧
    (∀ pages,
      let lo := bits w.imm 7 0 * 2 ^ 64 + va
      let len := (regVal t w.sb).toNat
      let dst := (regVal t w.sc).toNat
      t.cc.csrN 0 ≠ 0 → transplantOk t lo len dst pages →
      Runs (.pgmig w) w s (transplantBegun w lo len dst pages t)) ∧
    (t.cc.csrN 0 = 0 → exec (.pgmig w) s = .next (takeFault { code := 0x0E } s))

/-! ### Matrix words -/

/-- R138, R154, R182: `lease` completes once the core holds the lease that it asks for; an exchange of a wide one for a
single one is done at once, a timetabled core that no other holds back has its lease at once, and otherwise the request is
made and the word waits for its grant; a close that is due on an array comes before a lease of it (log 107). `free` gives
up every lease. R141, R157: the words that load and select entries of the format table. -/
def Obligations.LeaseAndFormatWords : Prop :=
  (∀ w s, acts w s = true →
     let t := atSlot w s
     let wide := bit w.mod 0
     (t.cc.lease = some wide → Runs (.lease w) w s t) ∧
     (t.cc.lease = some true → wide = false → closeDue t t.cur.core (t.bedOf t.cur.core) = false →
       closeDue t t.cur.core (t.bedOf t.cur.core ^^^ 1) = false →
       Runs (.lease w) w s ((dropLease t.cur.core t).modCore fun k => { k with lease := some false })) ∧
     (t.cc.lease ≠ some wide → t.cc.lease ≠ some true → t.seqn t.cur.core ≠ .timed → exec (.lease w) s =
       .next (waiting 8 (t.modCore fun k => { k with leaseWant := some wide }))) ∧
     (t.cc.lease ≠ some wide → t.cc.lease ≠ some true → t.seqn t.cur.core = .timed →
       leaseConflict t t.cur.core wide = false → closeBefore t t.cur.core wide = false →
       Runs (.lease w) w s (t.modCore fun k => { k with lease := some wide })) ∧
     Runs (.free w) w s (dropLease t.cur.core t)) ∧
  (∀ w s, acts w s = true →
     let t := atSlot w s
     let v : Word := if bit w.mod 4 then w.imm else (regVal t w.sa).setWidth 32
     (validFmt v = true → Runs (.fmtld w) w s (t.modCore fun k => { k with fmt := k.fmt.put (bits w.mod 3 0) v })) ∧
     (validFmt v = false → exec (.fmtld w) s = .next (takeFault { code := 0x21 } s)) ∧
     Runs (.fmtix w) w s (t.modCore fun k =>
       if bit w.mod 4 then { k with pin := some (bits w.imm 3 0) } else { k with fb := bits w.imm 3 0, pin := none }))

/-- R145, R155, R156: a bank load and a scale load that their checks allow and whose turn has come fill the bank
from the rows that they read, and their record is kept with the context; the command counts in its turn. -/
def Obligations.BankLoads : Prop :=
  ∀ w s, slotOpen w s = true → guardOff w (atSlot w s) = false →
    let t := atSlot w s
    (∀ t1 rows t2, bldOk w t → needTurn t = .ok ((), t1) →
      readRows (bit w.mod 7) (bits w.off 7 0) (bldArgs w t).base (bldArgs w t).pitch (bldArgs w t).bytes
        ((bldArgs w t).rows - t.cs.prog) t.cs.prog t1 = .ok ((rows, none), t2) →
      Runs (.bld w) w s (afterOf turnDone (bldDone w t rows t2))) ∧
    (∀ r ∈ [(Instr.sldCol, false), (Instr.sldBlk, true)], ∀ t1 data t2, sldOk w r.2 t → takeTurn t = .ok ((), t1) →
      readRow (bit w.mod 7) (bits w.off 7 0) (sldArgs w r.2 t).base (sldArgs w r.2 t).bytes t1 = .ok (data, t2) →
      Runs (r.1 w) w s (afterOf turnDone (sldDone w r.2 t data t2)))

/-- R61, R143, R158: an `mma` that the checks of R158 allow and whose turn has come adds the products of its rows
to the elements of its link, from the scratchpad or from the entries of a queue, and counts one contribution; the command
counts in its turn. -/
def Obligations.MmaAddsItsRows : Prop :=
  ∀ w s st t1, slotOpen w s = true → guardOff w (atSlot w s) = false →
    let t := atSlot w s
    let a := mmaArgs w t.cs.repd
    let n := rowEntries (activeFmt t.cc) a.k
    mmaCheck w a t = .ok (st, t) → takeTurn t = .ok ((), t1) →
    (bit w.mod 7 = false → (bit (t1.cc.csrN 0x013) 3 = false ∨ snanMask t1 st a (spadRows w a n t) = 0) →
      Runs (.mma w) w s (afterOf turnDone (rowsAdded st a (spadRows w a n t) t1))) ∧
    (∀ l t2, bit w.mod 7 = true → a.rows * n ≤ 16 → okB (haveEntries (bits w.mod 2 0) (a.rows * n)) t = true →
      takeEntries (bits w.mod 2 0) (a.rows * n) t1 = .ok (l, t2) →
      (bit (t2.cc.csrN 0x013) 3 = false ∨ snanMask t2 st a (queueRows a n l) = 0) →
      Runs (.mma w) w s (afterOf turnDone (rowsAdded st a (queueRows a n l) t2)))

/-- R60, R61, R62: a product that is a multiple of the unit 2^(anchor − 80) and small enough adds exactly, so that
elements without overflow tags resolve to the exact sum of their units, in any order. -/
def Obligations.ElementsAddExactly : Prop :=
  ∀ (anchor : Int) (l : List Int) (x : Elem) (fl : Nat), x.op = false → x.on = false →
    (∀ p ∈ l, -(2 ^ 95 : Int) < p ∧ p < 2 ^ 95) →
    -(2 ^ 95 : Int) ≤ x.acc.toInt + l.sum → x.acc.toInt + l.sum < 2 ^ 95 →
    let y := (l.map fun p => (p, anchor - 80)).foldl (addProduct anchor) (x, fl)
    y.2 = fl ∧ resolveElem y.1 = (some (x.acc.toInt + l.sum), 0)

/-- R146, R147, R152, R160 to R163: `chbuild` builds a chain from a valid descriptor, `mclose` asks for the close of
one at its tail, `mzero` opens its links anew, and `chstat` reports on a hop. -/
def Obligations.ChainWords : Prop :=
  ∀ w s, acts w s = true →
    let t := atSlot w s
    let ch := bits w.imm 4 0
    let a := (regVal t w.sa).toNat
    (∀ d clean, a % 16 = 0 → readDesc t.cc (a % 2 ^ t.cc.scr) = (d, clean) → chainFree ch d clean t →
      Runs (.chbuild w) w s (chainBuilt ch d t)) ∧
    (∀ h runs t1 t2, closeOk ch h t →
      let pitch := (regVal t w.sb).toNat
      let n := packedBytes (bits w.mod 7 5) (t.myChain ch).desc.cols
      let len := (t.myChain ch).desc.mt * pitch + n
      pitch % 64 = 0 → n ≤ pitch → a % 64 = 0 →
      (if bit w.imm 5 then resolveRange (bits w.off 7 0) 1 (len / 65536 + 2) 0 a len t else .ok ([], t)) = .ok (runs, t1) →
      takeTurn t1 = .ok ((), t2) → Runs (.mclose w) w s (afterOf turnDone (closeAsked w runs t t2))) ∧
    (zeroOk ch t → Runs (.mzero w) w s (chainZeroed ch t)) ∧
    ((∀ h, (t.myChain ch).desc.hops[bits w.imm 8 5]? = some h → (t.myChain ch).live = true →
        okB (linkTrap true (t.myChain ch).desc h) t = true) →
      Runs (.chstat w) w s (issuedReg w.dst (chstatWord t ch (bits w.imm 8 5)) 2 t))

/-! ### Many-die words -/

/-- R145, R454 to R456: one unit of a bulk load and one row of an `mmar`, of which the last completes the repetition and
each other leaves the word waiting with its progress; a bulk store performs its units in order. The operands of a
repetition are those that its first unit has read (R37). -/
def Obligations.BulkTransfers : Prop :=
  ∀ w s, slotOpen w s = true →
    let t := latched w s
    let j := t.cs.prog
    (∀ x t0 dst src t1 tr data t2 t3, guardOff w t = false → slotOpnds [w.sb, w.sc] t = .ok (x, t0) →
      let a := bulkArgs w (opndAt x 0) (opndAt x 1) t
      bulkOk a → resolveLocalRange a.la a.n 1 64 t0 = .ok (dst, t0) →
      resolveRange (segOf w) 0 3 0 a.ra a.n t0 = .ok (src, t1) → okB (noEgress (segOf w) a.ra src) t1 = true →
      okB (needReads src) t1 = true → accessReady src t1 = .ok ((), tr) →
      let z := Nat.min 1024 (a.n - 1024 * j)
      ldrRuns (subRuns src (1024 * j) z) tr = .ok (data, t2) → storeReady (subRuns dst (1024 * j) z) t2 = .ok ((), t3) →
      let u := unitCounted (storeRuns (subRuns dst (1024 * j) z) data w.ac t3)
      (a.n ≤ 1024 * (j + 1) → Runs (.ldr w) w s (if hasAcq w then acquireHalf u.cur.core u else u)) ∧
      (1024 * (j + 1) < a.n → exec (.ldr w) s = .next (waiting 9 u))) ∧
    (∀ src dst t1 t2 data t3, guardOff w t = false →
      let a := bulkArgs w (regVal t w.sb).toNat (regVal t w.sc).toNat t
      bulkOk a → resolveLocalRange a.la a.n 0 64 t = .ok (src, t) →
      resolveRange (segOf w) 1 3 0 a.ra a.n t = .ok (dst, t1) → storeReady dst t1 = .ok ((), t2) →
      loadNow src w.ac t2 = .ok (data, t3) → Runs (.stgr w) w s (bulkStored w dst a.n data t3)) ∧
    (∀ x t0 st runs t1 t2 l t3, guardOff w (atSlot w s) = false →
      let v := atSlot w s
      slotOpnds [w.sa, w.sb] v = .ok (x, t0) →
      let m := mmaArgs w v.cs.repd
      let r := v.cs.prog
      let n := 256 * rowEntries st.fmt m.k
      opndAt x 1 < 256 → bit w.mod 7 = false → mmaCheck w m t0 = .ok (st, t0) →
      mmarRuns (opndAt x 1 % 256) (opndAt x 0 + v.cs.repd * m.rows * n) n m.rows 0 t0 = .ok (runs, t1) →
      okB (needReads runs.flatten) t1 = true → needTurn t1 = .ok ((), t2) →
      mmarRow ((runs[r]?).getD []) t2 = .ok (l, t3) →
      (bit (t3.cc.csrN 0x013) 3 = false ∨ snanMask t3 st m [(r, l)] = 0) →
      let u := unitCounted (addRow st m r l t3)
      (m.rows ≤ r + 1 → Runs (.mmar w) w s (afterOf turnDone (countMma st m u))) ∧
      (r + 1 < m.rows → exec (.mmar w) s = .next (waiting 9 (keepTurn u))))

/-- R457: a release store in the core's own package, or towards an egress page, waits behind its own release of machine
scope; towards a package of the domain it waits behind its release with its count. -/
def Obligations.ReleaseStores : Prop :=
  ∀ w s l t1 t2, slotOpen w s = true → guardOff w (latched w s) = false →
    let t := latched w s
    let data := toBytes (sizeBytes (mSizeCode w)) (regVal t w.sb).toNat
    inSegment 1 w (wrapN 64 (t.cs.base.toNat + w.off.toInt)) t = .ok (l, t1) → storeReady l t1 = .ok ((), t2) →
    ((∀ c pa ms, l = [c] → c.place = .remote pa ms → t.inDomain (pkgBits pa) = false) →
      Runs (.strel w) w s (storeBehind w 4 l data t2)) ∧
    (∀ c pa ms, l = [c] → c.place = .remote pa ms → t.inDomain (pkgBits pa) = true →
      let u := t2.modCore (needTracker (pkgBits pa))
      Runs (.strel w) w s (startRelease u.cur.core 4 (.strel (pkgBits pa) pa data 0) u))

/-- R414, R415, R459, R460: `ssend` sends a slot and gives its number; the receives give the address or the length of
a slot that has arrived, with an acquire half, and free it. -/
def Obligations.StreamWords : Prop :=
  ∀ w s, slotOpen w s = true → guardOff w (atSlot w s) = false →
    let t := atSlot w s
    let k := (regVal t w.sa).toNat % 2 ^ 32
    (let sid := bits w.imm 12 8
     let die := sendDie t (bit w.imm 13)
     let seg := bits w.imm 7 0
     ∀ x t0 src t1 data t2, slotOpnds [w.sa, w.sb] t = .ok (x, t0) →
      let a := opndAt x 0
      let n := opndAt x 1 % 2 ^ 32
      okB (strmCheck die sid (some (t.dieOf t.cur.core))) t0 = true →
      n % 64 = 0 → 64 ≤ n → n ≤ 65536 →
      (if bit w.imm 14 then resolveRange seg 0 3 0 a n t0 else resolveLocalRange a n 0 1 t0) = .ok (src, t1) →
      (bit w.imm 14 = true → okB (noEgress seg a src) t1 = true) →
      (hasRel w = true → okB sendRelease t1 = true) →
      strmUsed (t.tstream die t.cc.launch sid) ≠ strmNsl t die t.cc.launch sid →
      sendFirst t die sid = true → loadNow src 0 t1 = .ok (data, t2) →
      Runs (.ssend w) w s (slotSent w die sid t data t2)) ∧
    (let sid := bits w.imm 4 0
     let die := t.dieOf t.cur.core
     let l := t.cc.launch
     okB (strmCheck die sid none) t = true →
      (passed (strmFC t die l sid) k = true →
        Runs (.srecv w) w s (issuedReg w.dst (BitVec.ofNat 64 (0x8000000000000000 + strmSlot t die l sid k)) 2
          (acquireHalf t.cur.core t)) ∧
        Runs (.srecvLen w) w s (issuedReg w.dst
          (BitVec.ofNat 64 ((t.tstream die l sid).lens.get 0 (k % strmNsl t die l sid))) 2 (acquireHalf t.cur.core t))) ∧
      ((k + 2 ^ 32 - strmEC t die l sid) % 2 ^ 32 < (strmFC t die l sid + 2 ^ 32 - strmEC t die l sid) % 2 ^ 32 →
        k % strmNsl t die l sid ∉ (t.tstream die l sid).free →
        (loadsUnperformed t || storesUnperformed t) = false →
        Runs (.srecvFree w) w s (strmFree die l sid (k % strmNsl t die l sid) t)))

/-- R437, R438, R461, R462: a multicast sends its bytes to every member; a contribution joins its round and waits for
the root, which the word then stores. -/
def Obligations.GroupWords : Prop :=
  ∀ w s, slotOpen w s = true → guardOff w (atSlot w s) = false →
    let t := atSlot w s
    let grp := bits w.imm 12 8
    (∀ ms src data t2, groupOf t grp = some ms →
      let n := (regVal t w.sc).toNat % 2 ^ 32
      let out := (ms.map (·.1)).filter fun p => !t.inDomain p
      n % 64 = 0 → 64 ≤ n → n ≤ 1024 → (findRes t 3 t.cur.core 0 grp).isSome = true →
      resolveLocalRange (regVal t w.sa).toNat n 0 1 t = .ok (src, t) →
      (out ≠ [] → egressRoom t n = true) → loadNow src 0 t = .ok (data, t2) →
      Runs (.mcast w) w s (multicast w (ms.map (·.1)) data t t2)) ∧
    (∀ decl src dst data t2, (∀ g r, t.cs.hold ≠ .round g r) → cmbCheck grp t = .ok (decl, t) →
      resolveLocal (regVal t w.sa).toNat 256 0 t = .ok (src, t) → resolveLocal (regVal t w.sb).toNat 256 1 t = .ok (dst, t) →
      loadNow src 0 t = .ok (data, t2) →
      (roundAt grp t).contribs.length < decl →
      exec (.cmb w) s = .next (waiting 9 (roundJoined w grp data t t2))) ∧
    (∀ g r v dst t1, t.cs.hold = .round g r → (roundOf t g r).bind (·.root) = some v →
      resolveLocal (opndAt t.cs.opnd 0) 256 1 t = .ok (dst, t) → storeReady dst t = .ok ((), t1) →
      Runs (.cmb w) w s (storeRuns dst (toBytes 256 v.toNat) 0 t1))

/-! ### System and recovery words -/

/-- R342, R352, R394, R395: a precise fault records its frame and stops the core, and changes nothing else but the
stream that takes it; `trap` and `sysc` are complete when they take theirs; `eret` at supervisor privilege resumes the
served context when its save area holds a valid image, once the handler's closes and its stores have been performed
(log 12). -/
def Obligations.TrapsAndReturns : Prop :=
  (∀ (f : FaultInfo) (s : State),
    let t := takeFault f s
    t.cc.mode = .faulted ∧ t.cc.faultAt = s.clk.wcyc ∧
    t.cc.frame = some (frameOf s.cc s.cur.stream f) ∧ t.cs.fpc = some s.cs.pc ∧ t.cs.pc = s.cs.pc ∧ t.cs.repd = s.cs.repd ∧
    t.cs.pend = s.cs.pend ∧ t.cc.a = s.cc.a ∧ t.cc.m = s.cc.m ∧ t.cc.w = s.cc.w ∧ t.cc.s = s.cc.s ∧ t.cc.v = s.cc.v ∧
    t.cc.g = s.cc.g ∧ t.cc.csr = s.cc.csr ∧ t.cc.fflg = s.cc.fflg ∧ t.cc.lq = s.cc.lq ∧ t.cc.sq = s.cc.sq ∧
    (∀ c, c ≠ s.cur.core → t.core c = s.core c) ∧ t.mem = s.mem) ∧
  (∀ r ∈ [(Instr.trap, 0x28), (Instr.sysc, 0x29)], ∀ w s, acts w s = true →
    okB (slotExit w nextWord) (atSlot w s) = true →
    let t := slotDone w (atSlot w s)
    exec (r.1 w) s = .next (takeTrap { code := r.2, faux0 := w.imm.setWidth 64 } s.cs.pc t) ∧
    (let u := takeTrap { code := r.2, faux0 := w.imm.setWidth 64 } s.cs.pc t
     u.cc.mode = .faulted ∧ u.cs.fpc = some s.cs.pc ∧ u.cs.repd = 1 ∧ u.cs.pc = t.cs.pc ∧
     ∃ f, u.cc.frame = some f ∧ f.fcode = r.2 ∧ f.prec = true ∧ f.faux0 = w.imm.setWidth 64 ∧ f.priv = (t.cc.csrN 0).toNat)) ∧
  (∀ w s, acts w s = true →
    let t := atSlot w s
    (t.cc.csrN 0 = 0 → exec (.eret w) s = .next (takeFault { code := 0x0E } s)) ∧
    (t.cc.csrN 0 ≠ 0 → t.cc.served = none → exec (.eret w) s = .next (takeFault { code := 0x27 } s)) ∧
    (∀ v, t.cc.csrN 0 ≠ 0 → t.cc.served = some v → t.cc.tlIssued.get 0 3 ≤ t.cc.tlDone.get 0 3 →
      okB (awaitRelease 4) t = true →
      let u := afterOf (awaitRelease 4) t
      let l := u.launch v.launch
      let win := if l.nest.tt then 0 else l.nest.win
      ((∀ a, v.area = some a → imageOk u.mem a l.code win = true) →
        (∀ wide, imageLease u v.launch u.cur.core v.area = some wide → leaseConflict u u.cur.core wide = false) →
        okB (slotExit w nextWord) u = true → exec (.eret w) s = .next (resumeServed (slotDone w u))) ∧
      (∀ a, v.area = some a → imageOk u.mem a l.code win = false →
        exec (.eret w) s = .next (takeFault { code := 0x27 } { s with draws := u.draws }))))

/-- R396 to R403: the spills and fills of link slots and banks for a served context, the freezing and grafting of
chains, requests for seals, irrevocable stores, the switch of a template bank, and `mark`. An `irrv` asks for its seal and
waits at the word, which ends once its write has been handed over (`doIrrv`). That seal requests of one wall cycle are one
is the model's own choice (log 105). -/
def Obligations.RecoveryWords : Prop :=
  ∀ w s, acts w s = true →
    let t := atSlot w s
    let ch := bits w.imm 4 0
    let l := t.cc.launch
    let die := t.dieOf t.cur.core
    (∀ i ∈ [Instr.mspill w, .mfillLink w, .mfillBank w],
      (t.cc.csrN 0 = 0 → exec i s = .next (takeFault { code := 0x0E } s)) ∧
      (t.cc.csrN 0 ≠ 0 → t.cc.served = none → exec i s = .next (takeFault { code := 0x21 } s))) ∧
    (∀ v fc bed slot, t.cc.csrN 0 ≠ 0 → servedPlace t = some (v, fc, bed, slot) →
      let c := (t.launch v.launch).ctx
      let x := t.link bed slot
      (fc = 0x24 → Runs (.mspill w) w s t ∧ Runs (.mfillBank w) w s (refillBank c v.launch bed (slot % 2) t) ∧
        exec (.mfillLink w) s = .next (takeFault { code := 0x21 } s)) ∧
      (fc = 0x23 → exec (.mfillBank w) s = .next (takeFault { code := 0x21 } s)) ∧
      (fc = 0x23 → (x.state = 0 ∨ ∃ a, (t.ctx x.owner).linkArea.get? (4 * bed + slot) = some a) →
        towards t x (bed / 16) = false → linkAreaRoom t x.owner (4 * bed + slot) = true → Runs (.mspill w) w s (spillLink bed slot c t)) ∧
      (∀ a, fc = 0x23 → x.state = 0 → x.owner = c → (t.ctx c).linkArea.get? (4 * bed + slot) = some a →
        Runs (.mfillLink w) w s (fillLink bed slot c a t))) ∧
    ((t.myChain ch).live = true → Runs (.chfrz w) w s (freezeChain l die ch t)) ∧
    ((t.myChain ch).live = false → exec (.chfrz w) s = .next (takeFault { code := 0x22 } s)) ∧
    ((t.myChain ch).state = 4 → chainFailed t l ch (t.myChain ch).desc = false →
      Runs (.chfrzThaw w) w s (thawChain l die ch t)) ∧
    ((t.myChain ch).state ≠ 4 ∨ chainFailed t l ch (t.myChain ch).desc = true →
      exec (.chfrzThaw w) s = .next (takeFault { code := 0x22 } s)) ∧
    (∀ h, (t.myChain ch).desc.hops[bits w.imm 8 5]? = some h →
      let spare := { h with bed := bits w.imm 12 9, slot := bits w.imm 14 13 }
      (t.myChain ch).state = 4 → hopFailed t l ch (bits w.imm 8 5) (t.myChain ch).desc h = true → h.stream = false →
      h.die = die → ((t.myChain ch).desc.wide = true → spare.bed % 2 = 0) →
      (∀ b ∈ hopBeds (t.myChain ch).desc spare, spareOk t t.cl.ctx b spare.slot = true) →
      Runs (.chgraft w) w s (graftHop l die ch (bits w.imm 8 5) h spare t)) ∧
    (let n := sealNumber t
     let u := requestSeal (.launch l) (issuedReg w.dst (BitVec.ofNat 64 n) 1 t)
     RunsTo (.seal w) w finSeal s (if bit w.mod 0 then u.modStream fun x => { x with hold := .seal n } else u)) ∧
    (t.cs.hold = .handed → Runs (.irrv w) w s t) ∧
    (∀ c r t1 t2, t.cs.hold ≠ .handed →
      resolveGlobal (segOf w) (wrapN 64 ((regVal t w.sa).toNat + w.off.toInt)) (irrvSize w) 1 t = .ok (c :: r, t1) →
      accessReady (c :: r) t1 = .ok ((), t2) →
      exec (.irrv w) s = .next (waiting 9 ((requestSeal (.launch l) t2).modStream fun x => { x with
        hold := .irrv (sealNumber t) c.place (toBytes (irrvSize w) (regVal t w.sb).toNat) w }))) ∧
    Runs (.tbank w) w s (t.modStream fun x => { x with slot := x.slot + 23, bank := bits w.imm 3 0 }) ∧
    Runs (.mark w) w s t

/-- R85, R335, R463: a word whose guard is off has only the common effects: its repetition leaves the state of its slot,
or for a word that latches its base register, that state with the base latched; `ldgs` allocates its zero entry, and
`stgs` pops its entry. -/
def Obligations.GuardedOffWordsHaveNoEffect : Prop :=
  (∀ w s, slotOpen w s = true → w.eng ≠ .X → guardOff w (atSlot w s) = true →
    (∀ r ∈ intRules, Runs (r.make w) w s (atSlot w s)) ∧
    (∀ i ∈ [Instr.carve w, .invalPage w, .invalCtx w, .invalAll w, .rclaim w, .rfill w, .rfree w, .rwaitf w, .rwaite w,
        .bld w, .sldCol w, .sldBlk w, .mmar w, .ssend w, .srecv w, .srecvLen w, .srecvFree w, .mcast w, .cmb w],
      Runs i w s (atSlot w s)) ∧
    (bit w.mod 7 = false → Runs (.mma w) w s (atSlot w s)) ∧
    (∀ i ∈ [Instr.rdo w, .ldr w, .stgr w, .strel w], Runs i w s (latched w s)) ∧
    (let t := atSlot w s
     let q := bits w.imm 11 9
     ((t.cc.loadQ q).entries.length < 16 → Runs (.ldgs w) w s (entryPushed q 0 true none t)) ∧
     (∀ e, (t.cc.storeQ q).entries.head? = some e → e.valid = true → Runs (.stgs w) w s (entryPopped q e t)))) ∧
  (∀ w s, heldBack w s = true →
    (∀ i ∈ [Instr.free w, .fmtld w, .fmtix w, .lease w, .barinit w, .barexp w, .bararr w, .bararrRem w, .barwait w,
        .btcpy w, .btq w, .tlwait w, .gdef w, .gstep w, .rdxgo w, .pgmig w, .chbuild w, .mclose w, .mzero w, .chstat w,
        .mspill w, .mfillLink w, .mfillBank w, .chfrz w, .chfrzThaw w, .chgraft w, .irrv w, .mark w],
      Runs i w s (atSlot w s)) ∧
    (∀ i ∈ [Instr.trap w, .sysc w, .eret w], exec i s = .next (slotDone w (atSlot w s))) ∧
    RunsTo (.seal w) w finSeal s (atSlot w s) ∧
    exec (.waitc w) s = .next (slotDone w (atSlot w s)) ∧
    Runs (.tbank w) w s ((atSlot w s).modStream fun x => { x with slot := x.slot + 23 }))

/-! ### Steps of agents: cores, beds and chains -/

/-- R29, R206, R208, R245, R270, R343: data, completed releases, events and reports that arrive at a core. The model's
own choices: a core that has halted, or is free, takes a report that it has kept at once (log 44); the message that covers
the units of bulk stores is sent before the release completes (log 66); a set that finds an engine woken in the same cycle
may be the same set (log 82, in `setLatches`); queue numbers from 8 name the store queues (log 74); one report is taken at
each boundary (log 36). -/
def Obligations.ArrivalsAtCores : Prop :=
  ∀ s : State, s.power = .on →
    (∀ c q n, q < 8 → exec (.queueEntryValid c (8 + q) n) s = .next (s.setCore c (Core.moved { s.core c with
      sq := (s.core c).sq.put q ⟨((s.core c).storeQ q).entries.map fun x =>
        if x.id = n && x.slices == 15 then { x with valid := true } else x⟩ }))) ∧
    (∀ c q e, q < 8 → ((s.core c).loadQ q).entries.find? (fun x => x.id = e.id && !x.valid) = some e →
      let r := dataOf c e.src e.data s
      let u := r.2.setCore c (Core.moved { r.2.core c with
        lq := (r.2.core c).lq.put q ⟨((r.2.core c).loadQ q).entries.map fun x =>
          if x.id = e.id then { x with data := r.1, src := none, valid := true } else x⟩ })
      exec (.queueEntryValid c q e.id) s = .next (if (e.src.map (·.acq)).getD false then acquireHalf c u else u)) ∧
    (∀ c e p, ((s.core c).stream e).pend.find? (fun x => x.seq = p.seq && !x.ready) = some p →
      let r := dataOf c p.src p.data s
      let t := (r.2.core c).stream e
      let u := r.2.setCore c ((r.2.core c).setStream e { t with
        pend := t.pend.map fun x => if x.seq = p.seq then { x with data := r.1, src := none, ready := true } else x })
      exec (.registerLoadData c e p.seq) s = .next (if (p.src.map (·.acq)).getD false then acquireHalf c u else u)) ∧
    (∀ c r l, (s.core c).releases = r :: l → homesDone s c r = true →
      (unitsLeft (s.core c) r ≠ [] →
        exec (.releaseComplete c) s = .next ((unitsLeft (s.core c) r).foldl (coverUnits c) s)) ∧
      (unitsLeft (s.core c) r = [] → (∀ x, r.cont = .store x → runsReady s x = true) →
        (r.cont.ordered = true → arrivalsOpen s c = false) →
        exec (.releaseComplete c) s =
          .next (runCont c r (s.setCore c (freeTrackers r { s.core c with releases := l }))))) ∧
    (∀ v, s.dom.sevs.find? (·.id = v.id) = some v →
      s.dom.sevs.find? (fun x => x.src = v.src && x.core = v.core && x.launch = v.launch) = some v →
      (s.savedCtx v.launch v.core = true → coreAreaRoom s v.launch v.core = true) →
      let t : State := { s with dom := { s.dom with sevs := s.dom.sevs.filter (·.id != v.id) } }
      let u := State.onCtxCore v.launch v.core (setLatches t.clk.wcyc v.msg) t
      exec (.sevArrival v.id) s = .next (if s.savedCtx v.launch v.core then imageLatches v.launch v.core v.msg u else u)) ∧
    (∀ x, s.dom.reports.find? (·.id = x.id) = some x → (s.core x.core).launch = x.launch →
      let u : State := { s with dom := { s.dom with reports := s.dom.reports.filter (·.id != x.id) } }
      let k := (s.core x.core).keep x.rep
      ((s.core x.core).mode = .running → exec (.impreciseReport x.id) s = .next (u.setCore x.core
        { k with tie := (s.core x.core).tie || (s.core x.core).reports.isEmpty })) ∧
      ((s.core x.core).mode = .faulted → exec (.impreciseReport x.id) s = .next (u.setCore x.core k)) ∧
      ((s.core x.core).mode = .halted ∨ (s.core x.core).mode = .free → ∀ r rest, k.reports = r :: rest →
        exec (.impreciseReport x.id) s = .next (takeImprecise x.core r
          ((u.setCore x.core k).setCore x.core { k with reports := rest, tie := false })))) ∧
    (∀ (k : Core) r, (k.reports.length < 16 → (k.keep r).reports = k.reports ++ [r] ∧ (k.keep r).reportOvf = k.reportOvf) ∧
      (∀ x l, k.reports = x :: l → l.length = 15 → (k.keep r).reports = l ++ [r] ∧ (k.keep r).reportOvf = true))

/-- R149, R150, R171, R182, R306, R324, R346, R370: what comes about on a core, a bed or a chain once its conditions
hold: the deadlock fault, the delivery of a fault to the supervisor, the end of a wait, the grant of a lease, the arrival
of a partial, a close, and the failure of a link. R394: a launch that a fault of its supervisor level ends is reported with
the code of a `trap` or a `sysc`. That a device without a supervisor ends the launch in the same way is the model's own
choice (log 5), and so are the checks of room that a close waits for (log 97). -/
def Obligations.EventsOfCoresAndChains : Prop :=
  ∀ s : State, s.power = .on →
    (∀ c, (s.core c).mode = .running → s.seqn c = .slip →
      (∀ q ∈ (s.core c).lq.vals, ∀ e ∈ q.entries, e.valid = true) →
      (∀ q ∈ (s.core c).sq.vals, ∀ e ∈ q.entries, e.slices = 15 → e.valid = true) →
      (∀ e ∈ (s.core c).inUse, ((s.core c).stream e).wait = 10 ∨ ((s.core c).stream e).stuck (s.core c).moves = true) →
      (∃ e ∈ (s.core c).inUse, ((s.core c).stream e).wait ≠ 10 ∧ ((s.core c).stream e).wait ≠ 6) →
      exec (.slipDeadlock c) s = .next (takeImprecise c ⟨0x0C, 0, 0, 0, 0, 0⟩ s)) ∧
    (∀ c f, (s.core c).mode = .faulted → (s.core c).frame = some f → (s.core c).settled = true →
      (∀ sup, s.sup = some sup → f.priv = 0 → (s.launch (s.core c).launch).handler = false →
        coreAreaRoom s (s.core c).launch c = true →
        exec (.faultDelivery c) s = .next (startHandler c f sup s) ∧
        (let k := (startHandler c f sup s).core c
         k.mode = .running ∧ k.csrN 0 = 1 ∧ k.csrN 1 = 0 ∧ k.a.get 0 1 = BitVec.ofNat 64 (fstat f) ∧
         k.a.get 0 0 = (s.ctx (s.launch (s.core c).launch).ctx).coreVa.get 0 c ∧
         (k.stream 0).pc = sup.code.entry ∧ (∀ i, 2 ≤ i → k.a.get 0 i = 0) ∧ k.served.isSome = true)) ∧
      ((s.sup = none ∨ f.priv ≠ 0 ∨ (s.launch (s.core c).launch).handler = true) → exec (.faultDelivery c) s =
        .next (stopWith (((s.core c).served.map (·.launch)).getD (s.core c).launch) 0x42 f.fcode
          (f.priv != 0 || (s.launch (s.core c).launch).handler) 
          (if f.fcode = 0x28 ∨ f.fcode = 0x29 then [f.faux0.toNat] else []) s))) ∧
    (∀ c e target acq, ((s.core c).stream e).hold = .cycle target acq → (s.core c).mode = .running → target ≤ s.clk.scyc →
      exec (.waitcTargetReached c e) s = .next (endHold (s.at c e))) ∧
    (∀ c n w, ((s.core c).stream 0).hold = .halo n → (s.core c).mode = .running →
      fetchAt (s.at c 0).cl.code (s.at c 0).cs.bank (s.at c 0).cs.pc = some (.ldgs w) →
      ((s.core c).csrN 0x030).toNat ≤ n → tagHeld w (s.at c 0) = false →
      exec (.staleHaloTimeout c) s = .next (takeFault { code := 0x1A } (s.at c 0))) ∧
    (∀ b c, nextCrn (s.bed b).lastGrant (grantable s b) = some c →
      exec (.leaseGrant b) s = .next ((s.setCore c { s.core c with lease := (s.core c).leaseWant, leaseWant := none }).setBed b
        { s.bed b with lastGrant := c % 8 })) ∧
    (∀ p h, s.dom.partials.find? (·.id = p.id) = some p → (s.chain p.launch p.die p.chain).desc.hops[p.hop]? = some h →
      hopHeld s p.launch p.chain p.hop (s.chain p.launch p.die p.chain).desc h = true →
      exec (.partialArrival p.id) s = .next (landPartial p.launch p.die p.chain p
        { s with dom := { s.dom with partials := s.dom.partials.filter (·.id != p.id) } })) ∧
    (∀ l ch q h y r,
      let x := s.chain l (ch / 32) (ch % 32)
      let last := x.desc.hops.length - 1
      x.state = 2 → x.close = some q → x.desc.hops[last]? = some h → hopLinks s x.desc h = y :: r → y.state = 4 →
      hopHeld s l (ch % 32) last x.desc h = true → q.num = (s.ctxCore l q.core).closeNum + 1 → s.clk.hold = false →
      ctxRoom s l q.core = true → (q.mem = true → opRoom s q.runs = true ∧ runsMove s q.runs = false) →
      let t := closeTile s x.desc h q
      let u := (t.1.zipIdx.map fun r => (r.2, r.1)).foldl (closeRow l q) s
      exec (.close l ch) s = .next (completeNumber l q.core 3 q.num (noteClose l q.core q.num (unbind l x.desc
        (idleLinks l (ch % 32) x.desc
          (setChain l (ch % 32) { x with state := 3, close := none, flags := BitVec.ofNat 5 t.2 } u)))))) ∧
    (∀ b i, (s.link b i).state ≠ 0 →
      let y := s.link b i
      let x := s.chain y.launch (b / 16) y.chain
      exec (.linkFailure b i) s = .next (reportTo x.builder y.launch ⟨0x26, 0, BitVec.ofNat 64 (y.chain + 32 * y.hop), 0, 0, 0⟩
        (freezeChain y.launch (b / 16) y.chain (setLink b i { y with state := 6 } s))))

/-- R178 to R181, R187, R188, R193, R356, R362 to R364: the rake hands out iterations in order; a launch ends once its
iterations, their operations and its releases have; a core saves for a pre-emption and resumes; SCYC stands still in a
stall; a launch that passes a bound is stopped. The model's own choices: cause 3 for a bound that has plainly elapsed
(log 95); the wait for asynchronous operations, and for faults still to be told or served, before the last release (log 21);
the giving back of what a launch held, in the event of its end (log 45); what an image holds of leases (log 13); that a core
takes a report that it has kept as soon as it is restored (log 44). -/
def Obligations.LaunchSteps : Prop :=
  ∀ s : State, s.power = .on → ∀ n : Nat,
    let l := s.launch n
    let held := heldCores s n l
    (l.status = .running → l.handler = false → l.handed < l.total → sealing s = false →
      (l.handed = 0 → bedsFree s n l = true) →
      let u := if l.handed = 0 then startLaunch n s else s
      (l.nest.tt = true → exec (.rakeHandout n) s = .next (l.cores.foldl (loadIteration n 0)
        (u.setLaunch n { l with handed := l.total, startCycle := u.clk.scyc }))) ∧
      (∀ c, l.nest.tt = false → nextFree u n l = some c →
        let v := loadIteration n l.handed (u.setLaunch n { l with handed := l.handed + 1, lastServed := some c }) c
        exec (.rakeHandout n) s = .next v ∧ (v.core c).mode = .running ∧ (v.core c).launch = n ∧
        (v.core c).iter = l.handed ∧ (v.launch n).handed = l.handed + 1 ∧
        (∀ i, i < 4 → (v.core c).ix.get 0 i = ixValue l.nest l.handed i ∧ ((v.core c).stream i).pc = l.code.entry ∧
          ((v.core c).stream i).valid = true))) ∧
    (l.closed = false → l.handler = false → opsOpen s n = false →
      (l.status = .running → l.total ≤ l.ended → faultsOpen s n l = false → (∀ c ∈ l.cores, coreViewsDone s n c = true) →
        (l.lastRelease = false →
          exec (.launchComplete n) s = .next (held.foldl endRelease (s.setLaunch n { l with lastRelease := true }))) ∧
        (l.lastRelease = true → (∀ c ∈ held, (s.core c).releases = []) →
          exec (.launchComplete n) s = .next (closeLaunch n (s.setLaunch n { l with status := .completed })))) ∧
      (∀ code cause sup info, l.status = .stopped code cause sup info → (∀ c ∈ held, (s.core c).releases = []) →
        exec (.launchComplete n) s = .next (closeLaunch n s))) ∧
    (∀ c p, (s.core c).preempt = some p → sealing s = false → (s.launch (s.core c).launch).handler = false →
      ((s.core c).mode = .running → newAttempt (s.seqn c == .joint) (s.core c) p = true → s.quiet c false = true →
        (tokensZero (s.core c) = true → (s.core c).settled = true → saveRoom s c = true →
          exec (.preemptionRequest c) s = .next (saveCore c s)) ∧
        (tokensZero (s.core c) = false → exec (.preemptionRequest c) s = .next (failAttempt c p.failed s))) ∧
      ((s.core c).mode = .running → newAttempt (s.seqn c == .joint) (s.core c) p = true → s.quiet c false = false →
        waitsInside (s.core c) = true → exec (.preemptionRequest c) s = .next (failAttempt c p.failed s)) ∧
      ((s.core c).mode = .running → newAttempt (s.seqn c == .joint) (s.core c) p = false →
        exec (.preemptionRequest c) s = .next s) ∧
      ((s.core c).mode = .free ∨ (s.core c).mode = .halted → closeComing s c = false → saveRoom s c = true →
        exec (.preemptionRequest c) s = .next (saveCore c s)) ∧
      ((s.core c).mode = .free ∨ (s.core c).mode = .halted → closeComing s c = true ∨ saveRoom s c = false →
        exec (.preemptionRequest c) s = .next s)) ∧
    (∀ c i, (i < 2 → ((failAttempt c i s).core c).preempt = some ⟨i + 1, (s.core c).moves, wordMarks (s.core c)⟩ ∧ ((failAttempt c i s).core c).mode = (s.core c).mode) ∧
      (2 ≤ i → ((failAttempt c i s).core c).mode = .faulted ∧
        (((failAttempt c i s).core c).frame.map (·.fcode)) = some 0x1F)) ∧
    (∀ c m, nextSaved s c = some m → (s.core c).mode = .idle → sealing s = false → bedsFree s m (s.launch m) = true →
      leaseWaits s m c = false →
      let u := restoreBed m (s.bedOf c) s
      let k := restoredCore u m c (u.areaOf m c) 15
      exec (.preemptResume c) s =
        .next (takeKept c (resumeCore m c { k with launch := m, preempt := none, iterStart := u.clk.scyc - k.iterStart } u))) ∧
    (∀ i, exec (.globalStall i) s = .next { s with clk := { s.clk with stall := s.clk.stall + i } }) ∧
    (∀ i, s.clk.hold = false → i ≤ s.clk.stall → scycLimit s = none →
      (passTime i s).clk.scyc = s.clk.scyc ∧ (passTime i s).clk.wcyc = s.clk.wcyc + i) ∧
    (l.status = .running → l.handler = false →
      (stallsOver l = true → exec (.boundExpiry n) s = .next (stopLaunch n 0x40 2 s)) ∧
      (stallsOver l = false → l.accepted + l.bound ≤ s.clk.wcyc ∨ faultsOver l = true →
        exec (.boundExpiry n) s = .next (stopLaunch n 0x40 3 s))) ∧
    (∀ c m, m = ((s.core c).served.map (·.launch)).getD (s.core c).launch → (s.launch m).status = .running →
      (s.launch m).nest.tt = false → (s.core c).mode = .running ∨ (s.core c).mode = .faulted →
      (s.launch m).nest.itb < s.clk.scyc - (s.ctxCore m c).iterStart →
      exec (.iterBoundExpiry c) s = .next (stopLaunch m 0x40 1 s))

/-- R296 to R299, R303 to R305, R317, R422, R423: copies are accepted and complete, arrivals reach barriers of other
beds, halo fills begin and end, pages move in the steps of a transplant, and an access under a tombstone walks again. The
model's own choices: the bed store in which an arrival is applied (log 120), the answers to other packages (log 92), and
the pages copied one at a time (log 47). -/
def Obligations.TransfersOfEngines : Prop :=
  ∀ s : State, s.power = .on →
    (∀ d c, nextCopy s (s.die d) = some c →
      let x := startOf (busyChannels (s.die d)) (Nat.max c.cyc (s.clk.scyc + 1)) c.dur
      exec (.copyAccept d) s = .next (noteCycle c (x.1 + c.dur) (putCopy d { c with start := some x } s))) ∧
    (∀ d c st ch, (s.die d).copies.find? (·.entry = c.entry) = some c → c.start = some (st, ch) → s.clk.hold = false →
      st + c.dur ≤ s.clk.scyc →
      let u := (span 0 (c.len / 64)).foldl (fun x i => endBlock d c.entry i x) s
      copyWritten u d c.entry = true → exec (.copyComplete d c.entry) s = .next (completeNumber c.launch c.core c.view c.num
        (u.setDie d { u.die d with copies := (u.die d).copies.filter (·.entry != c.entry) }))) ∧
    (∀ r, s.dom.remote.find? (·.id = r.id) = some r → earlierArrival s r = false → arrivalRoom s r = true →
      let u : State := { s with dom := { s.dom with remote := s.dom.remote.filter (·.id != r.id) } }
      let fault : State := if r.pkg = s.ident.pkg then reportTo r.core r.launch ⟨0x16, 0, 0, 0, 0, 0⟩ u
        else sendAnswer r.pkg r.core r.seq 0x16 u
      (arrivalLaunch u r = none → exec (.remoteArrival r.id) s = .next fault) ∧
      (∀ n, arrivalLaunch u r = some n →
        let b := barArrive r.tag (barOf (memRead (u.ctxBedOf n r.bed).store r.off 16))
        (∀ x, b = some x →
          let v := ctxBed n r.bed r.off (barBytes x) u
          exec (.remoteArrival r.id) s =
            .next (if r.pkg = s.ident.pkg then v else sendAnswer r.pkg r.core r.seq 0 v)) ∧
        (b = none → exec (.remoteArrival r.id) s = .next fault))) ∧
    (∀ f g y l, s.dom.fills.find? (·.id = f.id) = some f → f.faces = y :: l → (s.launch f.launch).grids.get? f.grid = some g →
      let r := fillTarget g f.part y
      let key := 8 * r.1 + r.2
      (f.begun = false → sealing s = false → firstFill s f = true → axisReady g f.part f.step y = true →
        regionBusy s f g r = false →
        exec (.haloFillBegin f.id) s = .next (putFill { f with begun := true, since := s.now } (putGrid f.launch f.grid
          { g with heldSet := g.heldSet.put key ((g.heldSet.get [] key).filter fun x => x + 2 * g.dep != f.step) } s))) ∧
      (f.begun = true →
        let c := fillCells g f.part (g.bankOf f.step) y f.since (g.ghosts r.2) none s
        let g' := { g with
          heldSet := g.heldSet.put key (g.heldSet.get [] key ++ [f.step])
          latest := g.latest.put key f.step }
        let u := putGrid f.launch f.grid g' (dropFilled c.1 ((byBlock c.1).foldl (fun x b => publishBytes b x) c.2))
        fillRoom s g c.1 = true →
        exec (.haloFillComplete f.id) s = .next (if l.isEmpty then completeNumber f.launch f.core f.view f.num
            { u with dom := { u.dom with fills := u.dom.fills.filter (·.id != f.id) } }
          else putFill { f with faces := l, begun := false } u))) ∧
    (∀ t, s.dom.transplants.find? (·.id = t.id) = some t → sealing s = false → stepRoom t s = true →
      let u := transplantStep t s
      exec (.transplantStepDone t.id) s = .next (if 5 ≤ t.step then completeNumber t.launch t.core 4 t.num
          { u with dom := { u.dom with transplants := u.dom.transplants.filter (·.id != t.id) } }
        else { u with dom := { u.dom with
          transplants := u.dom.transplants.map fun x => if x.id = t.id then x.next else x } }) ∧
      (t.step = 1 → u = moveTargets t.pages s) ∧ (t.step = 2 → u = copyPages ((t.pages.drop t.copied).take 1) s)) ∧
    (∀ c va u, exec (.accessBounce c va) s = .next u →
      let stale (x : Xlat) : Bool :=
        x.covers (s.launch (s.core c).launch).ctx va && tombstone s (entryPa x.leaf + va % x.size)
      (u.core c).tlb = (s.core c).tlb.filter (fun x => !stale x) ∧
      (u.die (s.dieOf c)).xlat = (s.die (s.dieOf c)).xlat.filter (fun x => !stale x) ∧ u.mem = s.mem) ∧
    (∀ c va, ∃ u, exec (.accessBounce c va) s = .next u)

/-- R219, R310 to R313, R414, R415, R420: contributions are applied in the order of their indices, held until their turn,
and discarded past the gap bound; reductions start and complete; stores to control blocks of rings and streams, the
slots of streams that arrive, and the freed counts that return. The model's own choices: a slot that reaches above the
grant takes the local-range fault and is counted with nothing written (log 85), a target ends with the launch that opened
it (log 121), and the gap bound is met by an event (log 43). -/
def Obligations.ContributionsReductionsAndSlots : Prop :=
  ∀ s : State, s.power = .on →
    (∀ c, s.dom.contribs.find? (·.id = c.id) = some c →
      let d := dieBits c.pa
      let x := { c with since := s.clk.wcyc }
      let u : State := { s with dom := { s.dom with contribs := s.dom.contribs.filter (·.id != c.id) } }
      let first := takeable u d x && !(u.die d).input.any (takeable u d) && !aheadIn (u.die d).input x
      (aheadIn s.dom.contribs x = true → exec (.contributionArrival c.id) s = .next s) ∧
      (aheadIn s.dom.contribs x = false → first = true →
        exec (.contributionArrival c.id) s = .next (takeContrib d x u)) ∧
      (aheadIn s.dom.contribs x = false → first = false →
        exec (.contributionArrival c.id) s = .next (u.setDie d { u.die d with input := (u.die d).input ++ [x] }))) ∧
    (∀ d c, s.dom.contribs.find? (·.id = c.id) = none →
      s.dom.dies.entries.find? (fun e => e.2.input.any (·.id == c.id)) = some (d, s.die d) →
      (s.die d).input.find? (fun x => takeable s d x && !aheadIn (s.die d).input x) = some c →
      let u := s.setDie d { s.die d with input := (s.die d).input.filter (·.id != c.id) }
      exec (.contributionArrival c.id) s = .next (if gapPassed s c then discardContrib 3 c u else takeContrib d c u)) ∧
    (∀ d c i, i = ((s.die d).targets.get? c.pa).getD 0 →
      let u := s.setDie d { s.die d with
        targets := (s.die d).targets.put c.pa i
        openers := if ((s.die d).targets.get? c.pa).isSome then (s.die d).openers
          else (s.die d).openers.put c.pa (if c.pkg = s.ident.pkg then c.launch else 0) }
      (i < c.index → heldTwin u d c = false →
        takeContrib d c s = u.setDie d { u.die d with held := (s.die d).held ++ [c] }) ∧
      (c.index < i ∨ (i < c.index ∧ heldTwin u d c = true) → takeContrib d c s = discardContrib 2 c u) ∧
      (c.index = i → takeContrib d c s = applyDue d c.pa ((s.die d).held.length + 1) (applyContrib d c u))) ∧
    (∀ d c, ((s.die d).held ++ (s.die d).input).find? (·.id = c.id) = some c → c.since + 1048576 < s.clk.wcyc →
      exec (.gapTimeout d c.id) s = .next (discardContrib 3 c (s.setDie d { s.die d with
        held := (s.die d).held.filter (·.id != c.id), input := (s.die d).input.filter (·.id != c.id) }))) ∧
    (∀ d r, (s.die d).reductions.find? (·.id = r.id) = some r → sealing s = false →
      (startable (s.die d).reductions r = true → ((s.die d).reductions.filter (·.running)).length < 16 →
        (∀ x ∈ earlier (s.die d).reductions r.id, startable (s.die d).reductions x = false) →
        exec (.reductionStart d r.id) s = .next (putReduce d { r with running := true, floor := s.now } s)) ∧
      (r.running = true →
        let n := ceilDiv (r.count * redZ r.fmt) 64
        let u := (span 0 n).foldl (fun x i => sumBlock d r.id i x) s
        ∀ y, (u.die d).reductions.find? (·.id = r.id) = some y → n ≤ y.summed.length →
        reduceRoom u [] [⟨0, 8, 15, .home r.flag false⟩, ⟨0, 4, 15, .home (r.block + 0x1C) false⟩] = true →
        let v := publishRun r.flag (toBytes 8 r.fval.toNat) (publishRun (r.block + 0x1C) (toBytes 4 (y.flags % 32)) u)
        exec (.reductionComplete d r.id) s = .next (completeNumber r.launch r.core r.view r.num
          (v.setDie d { v.die d with reductions := (v.die d).reductions.filter (·.id != r.id) })))) ∧
    (∀ b n off data,
      exec (.ringGeomStore b n off data) s = .next (s.setBed b (bedWrite (64 * n + off) data (s.bed b))) ∧
      exec (.ringCntbStore b n off data) s = .next (s.setBed b (bedWrite (64 * n + 16 + off) data (s.bed b)))) ∧
    (∀ d l n off data,
      exec (.streamSgeomStore d l n off data) s = .next (dieWrite d l (64 * n + off) data s) ∧
      exec (.streamSerrStore d l n off data) s = .next (dieWrite d l (64 * n + 16 + off) data s)) ∧
    (∀ d l n x r, n < 32 → (s.tstream d l n).flight = x :: r →
      let t := s.tstream d l n
      let fc := strmFC s d l n
      let nsl := strmNsl s d l n
      let u := s.setTstream d l n { t with flight := r, lens := t.lens.put (fc % nsl) x.2.length }
      let full (y : State) : State := setStrm d l n 12 4 ((fc + 1) % 2 ^ 32) y
      let at_ := strmSlot s d l n fc
      ((s.launch l).ways.get 0 d * 8388608 < at_ + x.2.length → exec (.streamSlotArrival d (32 * l + n)) s =
        .next (full (reportTo (slotCore u d l n x.1) l (rangeReport 1 (2 ^ 63 + at_)) u))) ∧
      (at_ + x.2.length ≤ (s.launch l).ways.get 0 d * 8388608 → exec (.streamSlotArrival d (32 * l + n)) s =
        .next (gatherPartial d l n (full (u.setLaunch l { s.launch l with
          dieStore := (s.launch l).dieStore.put d (memWrite ((s.launch l).store d) at_ x.2) }))))) ∧
    (∀ d l n, n < 32 → exec (.ecMirrorUpdate d (32 * l + n)) s = .next (s.setTstream d l n
      (departQueue (strmNsl s d l n) 64 { s.tstream d l n with ecMirror := strmEC s d l n })))

/-- R374, R379 to R382, R385 to R389: seals are requested, open the next interval and commit in order; the egress of the
sealed intervals leaves at the commit; an uncorrectable error rolls the domain back to its last seal. That seal
requests of one wall cycle are one (log 105), that a packet whose answer the restored state still waits for stays in
flight (log 92), that the egress leaves by kind and place (log 65), and that the writes of irrevocable stores have the
reserve of the log (log 48), is the model's own choice. -/
def Obligations.SealsAndRollbacks : Prop :=
  ∀ s : State, s.power = .on →
    (∀ why, (s.recov.phase = .idle → requestSeal why s = { s with
        clk := { s.clk with hold := true }
        recov := { s.recov with phase := .quiesce s.recov.n [why], sealStart := s.clk.wcyc } }) ∧
      (∀ m l, s.recov.phase = .quiesce m l → s.recov.sealStart = s.clk.wcyc →
        requestSeal why s = { s with recov := { s.recov with phase := .quiesce m (l ++ [why]) } }) ∧
      (s.recov.phase ≠ .idle → (∀ m l, s.recov.phase = .quiesce m l → s.recov.sealStart ≠ s.clk.wcyc) →
        requestSeal why s = { s with recov := { s.recov with want := s.recov.want ++ [why] } })) ∧
    (∀ why, sealDue s why = true → sealAsked s why = false → exec (.sealRequest why) s = .next (requestSeal why s)) ∧
    (s.recov.lastResume + s.recov.ti ≤ s.clk.wcyc →
      (idleInterval s = true → exec .periodicSealTimer s =
        .next { s with recov := { s.recov with lastResume := s.clk.wcyc } }) ∧
      (idleInterval s = false → sealAsked s .periodic = false →
        exec .periodicSealTimer s = .next (requestSeal .periodic s))) ∧
    (∀ m whys, s.recov.phase = .quiesce m whys → sealReady s = true → ∃ t, exec .sealOpen s = .next t ∧
      t.recov.n = m + 1 ∧ t.recov.k = s.recov.k ∧ t.recov.phase = .draining m ∧ t.clk.hold = false ∧
      t.recov.seals.get? m = some ⟨sealImage m (chargeSeal whys (s.clk.wcyc - s.recov.sealStart) s.dom) s,
        s.clk.scyc, s.clk.wcyc⟩ ∧ t.recov.lastResume = s.clk.wcyc ∧
      t.mem = s.mem ∧ t.dom.cores = s.dom.cores ∧ t.recov.egress = s.recov.egress ∧ t.recov.undo = s.recov.undo) ∧
    (∀ m, s.recov.phase = .draining m →
      let r := s.recov
      let u : State := { s with recov := { r with
        k := m, phase := .idle
        undo := r.undo.filter fun e => decide (m < e.1), egress := r.egress.filter fun e => decide (m < e.interval)
        ingress := r.ingress.filter fun e => decide (m < e.1), seals := r.seals.filter fun j _ => j == m } }
      let v := (r.egress.filter fun e => decide (e.interval ≤ m)).foldl (fun x e => sendEgress e x) u
      let v := (allIrrvs m v.dom).foldl (fun x e => doIrrv e.core e.launch e.place e.data x) v
      ∃ t, exec .sealCommit s = .next t ∧
        t = nextSeal (commitCounters { v with dom := v.dom.mapCores fun k => k.mapStreams (·.pastSeal m) }) ∧
        t.recov.k = m ∧ t.recov.n = s.recov.n ∧
        t.recov.phase = (if s.recov.want = [] then .idle else .quiesce s.recov.n s.recov.want)) ∧
    (∀ x : ErrorSite, x.unit ≤ 8 → s.inDomain x.pkg = false → exec (.uncorrectableError x) s = .next s) ∧
    (∀ x : ErrorSite, x.unit ≤ 8 → s.inDomain x.pkg = true →
      let whys := restoredWhys s.recov.k s.lastSeal.dom
      (x.lost = true → exec (.uncorrectableError x) s = .next (stopDomain x s)) ∧
      (x.lost = false → ∃ t, exec (.uncorrectableError x) s = .next t ∧
        t.recov.k = s.recov.k ∧ t.recov.n = s.recov.k + 1 ∧
        t.recov.phase = (if whys.isEmpty then .idle else .quiesce (s.recov.k + 1) whys) ∧
        t.clk.scyc = s.lastSeal.scyc ∧ (s.recov.ingress = [] → t.mem = undoAll s) ∧
        t.fab.sent = s.fab.sent.filter (fun p => p.outside s || awaited s.lastSeal s p)))

/-! ### Steps of agents: the command processor -/

/-- R184, R185, R192, R379, R445 to R447: a queue entry is taken, each kind of node has its effect once its graph comes to
it, a malformed node stops the graph with E_GRAPH, and the record of a graph that has ended is written. The model's own
choices: that a GRAPH field of 0 is malformed, and that the end of a graph waits for its ASYNC nodes (log 22), the order in
which a COPY moves its blocks (log 52), and that a record waits for its ring (log 54). -/
def Obligations.GraphNodes : Prop :=
  ∀ s : State, s.power = .on → ∀ tid q : Nat,
    let key := 16 * tid + q
    let x := s.queue key
    (∀ b g, s.tsm tid = .run → queueExists s tid q = true → x.stopped = false → ringSize x.qsize = true →
      x.qrptr ≠ x.qwptr → x.graph = none → x.due = [] → ringFull s key = false →
      cpRead s (tenantCtx s tid) ((x.qbase + 64 * (x.qrptr.toNat % x.qsize)) % 2 ^ 64) 0 64 = .ok b →
      (entryGraph b = some g → exec (.queueEntryTake tid q) s =
        .next (s.setQueue key { x with qrptr := x.qrptr + 1, graph := some g })) ∧
      (entryGraph b = none → exec (.queueEntryTake tid q) s = .next (s.setQueue key { x with
        qrptr := x.qrptr + 1, due := [⟨BitVec.ofNat 64 (fieldOf b 0x10 8), 0x32, 0, 0, 0, 0, false, []⟩] }))) ∧
    (∀ g b next l n u, nodeAt 0 tid q g b s → successor (fieldOf b 8 8) = .ok next →
      cpRead s (tenantCtx s tid) (fieldOf b 0x10 8) 0 256 = .ok l →
      admitRecord s tid g.cls (fieldOf b 0x18 8) (g.cls != 3 || poolTurn s tid) ⟨key, x.qrptr.toNat, g.node, g.kernels + 1⟩ l = .ok (n, u) →
      let y := { g with kernels := g.kernels + 1, bound := (u.launch n).bound, var := (u.launch n).var }
      exec (.kernel tid q) s = .next (oneDraw (if (fieldOf b 1 1).testBit 0 then
          goTo key { y with async := (n, g.node) :: g.async } next u
        else setGraph key { y with wait := .launch n, next := next } u))) ∧
    (∀ g n, liveGraph s key = some g → g.wait = .launch n → (s.launch n).closed = true → g.next = none →
      exec (.kernel tid q) s = .next (goTo key g none s)) ∧
    (∀ g b next, nodeAt 1 tid q g b s → g.copies = [] → successor (fieldOf b 8 8) = .ok next →
      fieldOf b 0x20 8 % 64 = 0 → fieldOf b 0x20 8 < 2 ^ 40 →
      let c : GCopy := ⟨s.dom.nextId, g.node, fieldOf b 0x10 8, fieldOf b 0x18 8, fieldOf b 0x20 8, s.now, []⟩
      let u : State := { s with dom := { s.dom with nextId := s.dom.nextId + 1 } }
      exec (.copy tid q) s = .next (oneDraw (if (fieldOf b 1 1).testBit 0 then goTo key { g with copies := [c] } next u
        else setGraph key { g with copies := [c], wait := .copy c.id, next := next } u))) ∧
    (∀ g c, liveGraph s key = some g → g.wait = .copy c.id → g.copies = [c] →
      let left := (span 0 (c.len / 64)).filter fun i => !c.copied.any (· == i)
      (left = [] → exec (.copy tid q) s = .next (copyMoved key g c s)) ∧
      let u := (s.drawN left.length).2
      (left ≠ [] → ∃ i, left[(s.drawN left.length).1]? = some i ∧ exec (.copy tid q) s =
        .next (finishNode key { g with node := c.node }
          ((copyOne tid i c u).map (copyMoved key g { c with copied := i :: c.copied })) s))) ∧
    (∀ g b v next alt, nodeAt 2 tid q g b s → cpWord s tid (fieldOf b 0x10 8) = .ok v →
      successor (fieldOf b 8 8) = .ok next → successor (fieldOf b 0x28 8) = .ok alt →
      exec (.cond tid q) s =
        .next (oneDraw (goTo key g (if Nat.land v (fieldOf b 0x18 8) = fieldOf b 0x20 8 then next else alt) s))) ∧
    (∀ g b, nodeAt 3 tid q g b s → g.loops.length < 8 → exec (.loopNode tid q) s =
      .next (oneDraw (goTo key { g with loops := (g.node, fieldOf b 0x20 8) :: g.loops } none s))) ∧
    (∀ g node left rest b body next, liveGraph s key = some g → g.wait = .none → g.cur = none →
      g.loops = (node, left) :: rest → s.tsm tid = .run → cpRead s (tenantCtx s tid) node 0 64 = .ok b →
      nodeOk b = true → fieldOf b 0 1 = 3 → successor (fieldOf b 0x10 8) = .ok body → successor (fieldOf b 8 8) = .ok next →
      (fieldOf b 0x18 8 = 0 → 0 < left → exec (.loopNode tid q) s =
        .next (oneDraw (goTo key { g with node := node, loops := (node, left - 1) :: rest } body s))) ∧
      (fieldOf b 0x18 8 = 0 → left = 0 → exec (.loopNode tid q) s =
        .next (oneDraw (goTo key { g with node := node, loops := rest } next s))) ∧
      (∀ v, fieldOf b 0x18 8 ≠ 0 → cpWord s tid (fieldOf b 0x18 8) = .ok v → exec (.loopNode tid q) s =
        .next (oneDraw (if v ≠ 0 then goTo key { g with node := node, loops := (node, left) :: rest } body s
          else goTo key { g with node := node, loops := rest } next s)))) ∧
    (∀ g b i next, nodeAt 4 tid q g b s → cpWord s tid (fieldOf b 0x10 8) = .ok i → successor (fieldOf b 8 8) = .ok next →
      1 ≤ fieldOf b 0x20 8 → fieldOf b 0x20 8 ≤ 16 →
      (fieldOf b 0x20 8 ≤ i → exec (.switch tid q) s = .next (oneDraw (goTo key g next s))) ∧
      (∀ v dest, i < fieldOf b 0x20 8 → cpWord s tid ((fieldOf b 0x18 8 + 8 * i) % 2 ^ 64) = .ok v → successor v = .ok dest →
        exec (.switch tid q) s = .next (oneDraw (goTo key g dest s)))) ∧
    (∀ g b next, nodeAt 5 tid q g b s → successor (fieldOf b 8 8) = .ok next → exec (.sealNode tid q) s =
      .next (oneDraw (setGraph key { g with wait := .seal (sealNumber s), next := next } (requestSeal (.node tid q) s)))) ∧
    (∀ g n, liveGraph s key = some g → g.wait = .seal n → n ≤ s.recov.k → g.next = none →
      exec (.sealNode tid q) s = .next (goTo key g none s)) ∧
    (∀ g b next, nodeAt 6 tid q g b s → successor (fieldOf b 8 8) = .ok next →
      let num := fieldOf b 0x11 1
      (fieldOf b 0x10 1 = 1 → num ≤ 63 → exec (.signal tid q) s =
        .next (oneDraw (goTo key g next (setEvents tid (BitVec.ofNat 64 (2 ^ num)) s)))) ∧
      (fieldOf b 0x10 1 = 0 → num ≤ 63 → num < (s.host.confs.get .init tid).vn → egressRoom s 1 = true →
        exec (.signal tid q) s = .next (oneDraw (goTo key g next (pushEgress tid 4 num [] s))))) ∧
    (∀ g b next, nodeAt 7 tid q g b s → successor (fieldOf b 8 8) = .ok next → fieldOf b 0x10 1 ≤ 63 →
      bit (s.dom.events.get 0 tid) (fieldOf b 0x10 1) = false → exec (.waitev tid q) s =
        .next (oneDraw (setGraph key { g with wait := .event (fieldOf b 0x10 1), next := next } s))) ∧
    (∀ g n, liveGraph s key = some g → g.wait = .event n → bit (s.dom.events.get 0 tid) n = true →
      exec (.waitev tid q) s = .next (goTo key g g.next { s with dom := { s.dom with
        events := s.dom.events.put tid (s.dom.events.get 0 tid &&& ~~~(BitVec.ofNat 64 (2 ^ n))) } })) ∧
    (∀ g a b, liveGraph s key = some g → g.wait = .none → g.cur = some a → g.copies = [] → s.tsm tid = .run →
      cpRead s (tenantCtx s tid) a 0 64 = .ok b → nodeOk b = false →
      ∀ i ∈ [Instr.kernel tid q, .copy tid q, .cond tid q, .loopNode tid q, .switch tid q, .sealNode tid q,
        .signal tid q, .waitev tid q], exec i s = .next (endGraph key { g with node := a } { code := 0x32 } a s)) ∧
    (∀ r rest ba c, x.graph = none → x.due = r :: rest → ringSize x.csize = true → ringFull s key = false → egressRoom s 32 = true →
      cpRange s (tenantCtx s tid) 1 ((x.cbase + 32 * ((x.cwptr.toNat + pendingRecords s key) % x.csize)) % 2 ^ 64) 0 32 =
        .ok [c] → c.place = .host ba →
      exec (.completionRecordWrite tid q) s =
        .next (pushEgress key 3 ba (recordBytes r) (s.setQueue key { x with due := rest, last := some r }))) ∧
    (∀ g, liveGraph s key = some g → g.wait = .none → g.cur = none → g.loops = [] → outstanding s g = false →
      exec (.completionRecordWrite tid q) s = .next (writeRecord tid q (endGraph key g { code := 0 } 0 s)))

/-! ### Steps of agents: the host -/

/-- R442 to R444: the states of a tenant's trusted interface, the report of a locked one, and the tenant records. The
model's own choices: the form of what is digested and signed in a report (log 68), the refusal of records with fields out
of range (log 24), and what is dropped without a record when an interface leaves RUN: its graphs and their copies (log 52),
and what its cores hold (log 53). -/
def Obligations.TrustedInterfaces : Prop :=
  ∀ s : State, s.power = .on →
    (∀ tid, tid < 16 →
      (s.tsm tid = .unlocked → exec (.lock tid) s = .next (s.setTsm tid .locked)) ∧
      (s.tsm tid ≠ .unlocked → exec (.lock tid) s = .next s) ∧
      (s.tsm tid = .locked → exec (.start tid) s = .next (s.setTsm tid .run)) ∧
      (s.tsm tid ≠ .locked → exec (.start tid) s = .next s) ∧
      exec (.interfaceError tid) s = .next ((haltTenant tid s).setTsm tid .error) ∧
      exec (.stop tid) s =
        .next (((tenantCores s tid).foldl scrub (discardEntries tid (haltTenant tid s))).setTsm tid .unlocked)) ∧
    (∀ tid nonce, (s.tsm tid = .locked ∨ s.tsm tid = .run) → exec (.getReport tid nonce) s =
      .next (s.toHost (.tdisp (reportBytes (frozenBytes s tid) (s.host.confs.get .init tid) nonce)))) ∧
    (∀ tid nonce, (s.tsm tid = .unlocked ∨ s.tsm tid = .error) → exec (.getReport tid nonce) s = .next s) ∧
    (∀ b, let tid := fieldOf b 0 1
      (tid ≤ 15 → s.tsm tid ≠ .unlocked → exec (.tenantConfig b) s = .next ((haltTenant tid s).setTsm tid .error)) ∧
      ((tid ≤ 15 → s.tsm tid = .unlocked) →
        (confOk b = true → bedsMeet s tid (confOf b) = false → exec (.tenantConfig b) s =
          .next { s with host := { s.host with confs := s.host.confs.put tid (confOf b) } }) ∧
        (confOk b = false ∨ bedsMeet s tid (confOf b) = true →
          exec (.tenantConfig b) s = .next (s.toHost (.mgmt 0x46 0)))))

/-- R185, R212, R373, R388, R410, R411, R441, R444, R445, R448 to R450: what the host writes and reads: doorbells, events,
the aperture, the registers, the connection table, the counters; errors that are corrected, shutdown, and the starts. The
model's own choices: the clocks that a cold start leaves at 0 (log 2), a seal domain of this package alone (log 3), the
values that a register takes (log 24), the form of the counters (log 68), what a read through the aperture returns (log 69),
what a warm start keeps (log 70), and the checks of the connection table (log 71). -/
def Obligations.HostAccesses : Prop :=
  (∀ s : State, s.power = .on →
    (∀ tid q v, s.tsm tid = .run → queueExists s tid q = true →
      let key := 16 * tid + q
      let x := s.queue key
      (ringSize x.qsize = true → (v - x.qrptr).toNat ≤ x.qsize →
        exec (.qwptrWrite tid q v) s = .next (s.setQueue key { x with qwptr := v })) ∧
      (ringSize x.qsize = true → x.qsize < (v - x.qrptr).toNat → x.stopped = false → exec (.qwptrWrite tid q v) s =
        .next (s.setQueue key { x with qwptr := v, stopped := true, due := x.due ++ [⟨0, 0x32, 0, 0, 0, 0, false, []⟩] })) ∧
      ((x.cwptr - v).toNat ≤ x.csize → exec (.crptrWrite tid q v) s = .next (s.setQueue key { x with crptr := v })) ∧
      (x.csize < (x.cwptr - v).toNat → exec (.crptrWrite tid q v) s = .next s)) ∧
    (∀ tid b, tid < 16 → exec (.evset tid b) s = .next { s with
      dom := { s.dom with events := s.dom.events.upd 0 tid (· ||| b) }
      recov := { s.recov with ingress := s.recov.ingress ++ [(s.recov.n, .events tid b)] } }) ∧
    (∀ a : Aperture, a.tid < 16 → s.tsm a.tid ≠ .error → a.va + a.len ≤ 2 ^ 36 →
      (∀ l, a.data = none → cpRange s (tenantCtx s a.tid) 0 a.va 0 a.len = .ok l → exec (.apertureAccess a) s =
        .next (State.toHost { s with draws := s.draws + 1 } (.data (l.flatMap (outsideChunk s))))) ∧
      (∀ data l, a.data = some data → cpRange s (tenantCtx s a.tid) 1 a.va 0 a.len = .ok l → (∀ x ∈ l, cpRoom s x = true) →
        exec (.apertureAccess a) s = .next ((cutData data l).foldl hostWrite s))) ∧
    (connValid s.connNext s.ctbaseNext = true → unfinished s = [] →
      exec .conntabApply s = .next { s with conn := s.connNext, ctbase := s.ctbaseNext }) ∧
    (connValid s.connNext s.ctbaseNext = false → exec .conntabApply s = .next (s.toHost (.mgmt 0x44 1))) ∧
    (connValid s.connNext s.ctbaseNext = true → unfinished s ≠ [] →
      exec .conntabApply s = .next (s.toHost (.mgmt 0x44 2))) ∧
    (∀ v : Dword,
      (∀ i, i < 64 → exec (.registerWrite (.conn i) v) s = .next { s with connNext := s.connNext.put i (v.setWidth 32) }) ∧
      exec (.registerWrite .ctbase v) s = .next { s with ctbaseNext := v.toNat } ∧
      (1750000 ≤ v.toNat → v.toNat ≤ 175000000 →
        exec (.registerWrite .interval v) s = .next { s with recov := { s.recov with ti := v.toNat } }) ∧
      (∀ i, i < 64 → exec (.registerWrite (.members i) v) s =
        .next { s with recov := { s.recov with members := s.recov.members.put i v } }) ∧
      exec (.registerWrite .domainId v) s = .next { s with recov := { s.recov with domainId := v.toNat } } ∧
      (∀ tid i, tid < 16 → i < 128 → exec (.registerWrite (.msix tid i) v) s =
        .next { s with host := { s.host with msix := s.host.msix.put (128 * tid + i) v } }) ∧
      (∀ i, i < 16 → exec (.registerWrite (.pfMsix i) v) s =
        .next { s with host := { s.host with pfMsix := s.host.pfMsix.put i v } }) ∧
      (∀ tid q off, queueExists s tid q = true → off ∈ [0x00, 0x08, 0x18, 0x20, 0x2C] →
        (s.tsm tid = .unlocked → exec (.registerWrite (.queue tid q off) v) s = .next (s.setQueue (16 * tid + q)
          (queueField (s.host.confs.get .init tid).vn off v.toNat (s.queue (16 * tid + q))))) ∧
        (s.tsm tid ≠ .unlocked →
          exec (.registerWrite (.queue tid q off) v) s = .next ((haltTenant tid s).setTsm tid .error)))) ∧
    (∀ off len, len ≤ 1024 → off + len ≤ 262144 →
      exec (.getCounters off len) s = .next (s.toHost (.data ((span off len).map (counterByte s.life))))) ∧
    (counterByte s.life 0 = 1 ∧ ∀ a, 1 ≤ a → a < 0x20 → counterByte s.life a = 0) ∧
    (∀ d c, d < 8 → c < 64 → exec (.correctableError (.hbm d c)) s =
      .next { s with life := { s.life with ecc := s.life.ecc.upd 0 (64 * d + c) satInc } }) ∧
    (∀ x, (∀ d c, x ≠ .hbm d c) → exec (.correctableError x) s =
      .next { s with life := { s.life with ecc2 := s.life.ecc2.upd 0 (siteKey x) satInc } }) ∧
    exec .shutdown s = .next { saveCounters s with power := .off }) ∧
  (∀ s : State,
    (∀ x : ColdStart, x.failed = 0 → ∃ t, exec (.coldStart x) s = .next t ∧
      t.power = .on ∧ t.mem = [] ∧ t.dom = Dom.init ∧ t.recov = Recov.init ∧ t.conn = connReset ∧ t.ctbase = 0 ∧
      t.ident = { s.ident with signature := x.signature } ∧ t.clk = ⟨0, 0, false, 0, 0, x.fslot⟩) ∧
    (∀ x : WarmStart, x.failed = 0 → x.digestOk = true → ∃ t, exec (.warmStart x) s = .next t ∧
      t.power = .on ∧ t.mem = undoAll s ∧ t.host.confs = s.host.confs ∧ t.recov.k = s.recov.k ∧
      t.recov.n = s.recov.k + 1 ∧ t.recov.members = s.recov.members ∧ t.dom.launches = Tbl.empty) ∧
    (∀ x : WarmStart, x.failed = 0 → x.digestOk = false → ∃ t, exec (.warmStart x) s = .next t ∧
      t.power = .on ∧ t.mem = [] ∧ t.dom = Dom.init ∧ t.recov = Recov.init) ∧
    (∀ (x : ColdStart) (y : WarmStart), x.failed ≠ 0 → y.failed ≠ 0 →
      exec (.coldStart x) s = .next (State.toHost { s with power := .refused x.failed } (.mgmt 0x47 x.failed)) ∧
      exec (.warmStart y) s = .next (State.toHost { s with power := .refused y.failed } (.mgmt 0x47 y.failed))))

/-! ### Steps of agents: the fabric -/

/-- R427 to R436, R457: packets depart in the slots of their reservations as flits, are acknowledged, retried and received;
route schedules are loaded and switched, and port widths change. The model's own choices: the header flit, the order of the
bytes of a CRC and the SEQ of an acknowledgement (log 56), which packets of a reservation leave first (log 59), the order of
the causes of a refused load (log 62), a bounced packet that is neither accepted nor acknowledged (log 64), stores that wait
for their release (log 66), the packet that waits in stage 4 for its answer (log 92), a bank that keeps the generation that
drains there when a load is refused with cause 5 (log 122), and the generations that a switch may name while no schedule is
in force (log 123). -/
def Obligations.FabricSteps : Prop :=
  ∀ s : State, s.power = .on →
    (∀ p e, s.fab.sent.find? (fun x => x.id == p.id) = some p → p.members = [] → p.bounced = false →
      let t := s.fslot
      let at_ := firstSlots s e p
      let out : Sent := { p with
        stage := 1, at_ := t, gen := s.route.gen, hops := hopsOf e, dep := bits e 39 20, rty := bits e 19 0 }
      let again : Sent := { p with stage := 3, at_ := t }
      (p.stage = 0 → s.route.resOf p = some e → t ≤ at_.2 →
        ((t = at_.1 ∨ t = at_.2) → mayDepart s e p t = true →
          exec (.packetDeparture p.id) s = .next (emitTo out (putSent out s) p.pkg)) ∧
        ((t ≠ at_.1 ∧ t ≠ at_.2) ∨ mayDepart s e p t = false → exec (.packetDeparture p.id) s = .next s)) ∧
      (p.stage = 0 → s.route.resOf p = some e → at_.2 < t → exec (.packetDeparture p.id) s = .next (missed p s)) ∧
      (p.stage = 0 → s.route.resOf p = none → exec (.packetDeparture p.id) s = .next (missed p s)) ∧
      (∀ b, p.stage = 2 → s.genBank p.gen = some b → b.resOf p = some e → t % b.per = bits e 19 0 →
        mayDepart s e p t = true → exec (.packetDeparture p.id) s =
          .next (countRetrans (hopPort e 0) (emitTo again (putSent again s) p.pkg)))) ∧
    (∀ a, s.fab.sent.find? (fun x => x.id == a.id) = none → s.fab.acks.find? (fun x => x.id == a.id) = some a →
      a.slot ≤ s.fslot → exec (.packetDeparture a.id) s =
        .next (State.toHost { s with fab := { s.fab with acks := s.fab.acks.filter (·.id != a.id) } }
          (.packet a.pkg 11 [] (flitsOf a.seq 11 a.gen a.pkg
            (Config.packetHeader [s.ident.pkg, 0, 0, 0, 0, 0, if a.bad then 1 else 0, 0, 0]) [])))) ∧
    (∀ seq typ gen pkg i last data, let f := mkFlit seq typ gen pkg i last data
      f.data = data ∧ bits f.ctl 63 48 = seq % 65536 ∧ bits f.ctl 47 44 = typ % 16 ∧ bits f.ctl 43 39 = i % 32 ∧
      bit f.ctl 38 = last ∧ bits f.ctl 37 34 = gen % 16 ∧ bits f.ctl 33 22 = pkg % 4096 ∧ bits f.ctl 21 16 = 0 ∧
      bits f.ctl 15 0 = flitCrc f) ∧
    (∀ p, s.fab.sent.find? (fun x => x.id == p.id) = some p → p.at_ + 2 * p.hops ≤ s.fslot →
      (p.stage = 1 → exec (.ackTimeout p.id) s = .next (putSent { p with stage := 2 } s)) ∧
      (p.stage = 3 → exec (.ackTimeout p.id) s = .next (missed p s))) ∧
    (∀ pkg seq p, ackedPacket s pkg seq = some p →
      let left := p.members.filter (· != pkg)
      (left ≠ [] → exec (.ackReceive pkg seq) s = .next (putSent { p with members := left } s)) ∧
      (left = [] → exec (.ackReceive pkg seq) s = .next (if p.answered then putSent { p with stage := 4 } s
        else freeSequence p (acquireDone p.launch p.core (.packet p.id) (dropSent p.id s))))) ∧
    (∀ p : Packet, packetGood s p = true → p.typ < 11 → p.src ≠ s.ident.pkg → p.src < 4096 → p.core < 1024 →
      let seen := (s.fab.accepted.get [] p.src).any (· == p.seq)
      (seen = true → exec (.packetReceive p) s = .next (sendAck p (s.fab.refused.any (· == (p.src, p.seq))) s)) ∧
      (seen = false → p.typ ≠ 6 → inPackage s p = true →
        (touchesMemory p = false ∨ (sealing s = false ∧ tombstone s p.addr = false) →
          exec (.packetReceive p) s = .next (accept p false (applyOrWait p s))) ∧
        (touchesMemory p = true → sealing s = true → exec (.packetReceive p) s =
          .next (accept p false (applyOrWait { p with addr := standsAt s p.addr } s))) ∧
        (touchesMemory p = true → sealing s = false → tombstone s p.addr = true → exec (.packetReceive p) s =
          .next (sendPacket 6 9 p.core p.src (newHome s p.addr) p.seq 0 0 0 [] [] s))) ∧
      (∀ l, seen = false → p.typ = 6 → mcastRuns s p.tid p.addr p.data.length = .ok l →
        exec (.packetReceive p) s = .next (accept p false (applyOrWait p s)) ∧
        applyPacket p s = (cutData p.data l).foldl (fun x r => if x.inDomain p.src then cpWrite x r else hostWrite x r) s) ∧
      (canApply s p = true → (∀ x ∈ s.fab.waiting, inKey x ≠ inKey p) → applyOrWait p s = applyPacket p s) ∧
      (canApply s p = false → applyOrWait p s = { s with fab := { s.fab with waiting := s.fab.waiting ++ [p] } })) ∧
    (∀ p : Packet, packetGood s p = false → exec (.packetReceive p) s = .next s) ∧
    (∀ port width, port < 144 → width ≤ 8 →
      let t : State := { s with fab := { s.fab with widths := s.fab.widths.put port width } }
      exec (.portWidthChange port width) s =
        .next (if overPort s port width then (countRetrans port t).toHost (.notify port) else t)) ∧
    (∀ x : Schedule, let u := dueSwitch s
      let i := inactiveBank u
      (loadCause u x = 0 → exec (.routeLoad x) s = .next { u with fab := { u.fab with
        banks := u.fab.banks.put i ⟨x.gen, x.per, x.entries, x.groups, false⟩ } }) ∧
      (∀ c, loadCause u x = c → c ≠ 0 → c ≠ 5 → exec (.routeLoad x) s =
        .next (State.toHost { u with fab := { u.fab with banks := u.fab.banks.erase i } } (.mgmt 0x45 c))) ∧
      (loadCause u x = 5 → exec (.routeLoad x) s = .next (u.toHost (.mgmt 0x45 5)))) ∧
    (∀ gen slot, s.fslot + 4096 ≤ slot → let u := dueSwitch s
      (u.route.per = 0 ∨ (gen = (u.route.gen + 1) % 16 ∧ slot % u.route.per = 0) →
        exec (.routeSwitch gen slot) s = .next { u with fab := { u.fab with switch := some (gen, slot) } }) ∧
      (u.route.per ≠ 0 → ¬ (gen = (u.route.gen + 1) % 16 ∧ slot % u.route.per = 0) →
        exec (.routeSwitch gen slot) s = .next u)) ∧
    (∀ gen slot, s.fab.switch = some (gen, slot) → slot ≤ s.fslot → ∃ t, exec .switchSlotReached s = .next t ∧
      t = dueSwitch s ∧ t.fab.switch = none ∧ t.fab.active = (nextBank s gen).getD noBank ∧ t.fab.since = slot ∧
      (∀ b, s.fab.banks.get? s.fab.active = some b →
        t.fab.banks.get? s.fab.active = some { b with draining := true })) ∧
    ((∀ gen slot, s.fab.switch = some (gen, slot) → s.fslot < slot) → dueSwitch s = s) ∧
    exec .generationDrained s = .next (let u := dueSwitch s
      { u with fab := { u.fab with banks := u.fab.banks.filter fun _ b => !drained u b } })

/-! ### The step, decoding and the whole machine -/

/-- R39, R81: a step whose turn is a stream's runs the instruction that the fetch gives, in the state that the fetch
gives; one core under one program counter runs the word there on the engine that the word names. A step of another
agent that names what exists is that agent's. -/
def Obligations.StepRunsTheDecodedInstruction : Prop :=
  (∀ s m dt l, s.agenda = ⟨dt, m⟩ :: l → nextTurn s = (⟨dt, m⟩, { s with agenda := l })) ∧
  (∀ s c e i u, s.power = .on → (nextTurn s).1.move = .issue c e →
    let v := turnState (nextTurn s).1 (nextTurn s).2
    reportTie exec c v = none → lowerTie exec c e v = none → fetch c e v = .run i u → step s = exec i u) ∧
  (∀ (v : State) c e, (v.core c).reports = [] → v.seqn c = .joint →
    reportTie exec c v = none ∧ lowerTie exec c e v = none) ∧
  (∀ (v : State) c e i,
    let k := v.core c
    let code := (v.launch k.launch).code
    let s : State := { v with cur := ⟨c, e⟩ }
    ∀ pw, k.mode = .running → k.reports = [] → k.mismatch = none → v.seqn c = .joint → s.stopAsked = false → k.forked = false →
      (∀ t ∈ k.streams.vals, t.held = false) → code.text[(k.stream 0).pc]? = some pw →
      let E := bits pw 31 30
      (k.stream E).wait ≠ 6 → (k.stream E).pc = (k.stream 0).pc →
      fetchAt code (k.stream E).bank (k.stream E).pc = some i →
      fetch c e v = .run i { endHold s with cur := ⟨c, E⟩ }) ∧
  (∀ (c : Code) (bank p : Nat) pw b i o w, c.text[p]? = some pw → c.banks.get? (16 * bits pw 31 30 + bank) = some b →
    bit b.mask (bits pw 29 24) = true → p + 1 + litCount pw ≤ c.text.length →
    decodeText (b.tm.get 0 (bits pw 29 24)) pw ((c.text[p + 1]?).getD 0) ((c.text[p + 2]?).getD 0) = some i →
    opcOf i = some (o, w) → placeOk c p o w = true → fetchAt c bank p = some i) ∧
  (∀ s i, (nextTurn s).1.move = .agent i → takesMove s (.agent i) = true → agentOk i = true →
    step s = exec i (turnState (nextTurn s).1 (nextTurn s).2))

/-- R71 to R74: words that the spec writes out decode to the instructions that it says they are. -/
def Obligations.SpecWordsDecode : Prop :=
  let m := Wrd.blank .M
  let x := Wrd.blank .X
  let a := Wrd.blank .A
  let s := Wrd.blank .S
  decodeText 0x401020A1218000000000000000000000#128 0x40000000#32 0 0 =
    some (.fadd { x with dst := .v 1, sa := .v 2, sb := .v 3 }) ∧
  decodeText 0x401020A1218000000000000000000000#128 0x40050044#32 0 0 =
    some (.fadd { x with dst := .v 1, sa := .v 2, sb := .v 4 }) ∧
  decodeText 0x409020A1220000000000000000000000#128 0x41100000#32 0 0 =
    some (.fmul { x with dst := .v 1, sa := .v 2, sb := .v 4, sn := true }) ∧
  decodeText 0x401020A1218000000000000000000000#128 0x400B0002#32 0 0 =
    some (.fmul { x with dst := .v 1, sa := .v 2, sb := .v 3 }) ∧
  decodeText 0x401020A1218000000000000000000000#128 0x400A0013#32 0 0 =
    some (.fadd { x with dst := .v 1, sa := .v 2, sb := .v 3, ge := true, gn := 3 }) ∧
  decodeText 0x08D01200000000000000000000000000#128 0x420D0000#32 0x89ABCDEF 0x01234567 =
    some (.ili { x with dst := .s 4, lit2 := some 0x0123456789ABCDEF }) ∧
  decodeText 0x0D5000700000020000000000A0003000#128 0x41000000#32 0 0 =
    some (.loopInit { x with sa := .sp .z, mod := 0x04, imm := 10, off := 3 }) ∧
  decodeText 0x0D500000000000100000000050000000#128 0x43000000#32 0 0 = some (.loop { x with y := true, imm := 5 }) ∧
  decodeText 0x149000308000000000000000D0000000#128 0x45000000#32 0 0 = some (.fork { x with sa := .g 1, imm := 13 }) ∧
  decodeText 0xA0800002000003A03010004230040000#128 0x00100000#32 0 0 = some (.ldg { a with
    sa := .a 4, mod := 0x07, ac := 1, rep := 3, imm := 0x01000423, off := 0x0040, sn := true }) ∧
  decodeText 0xAC000100800000000000000000000000#128 0x00000000#32 0 0 = some (.btcpy { a with dst := .a 2, sa := .a 1 }) ∧
  decodeText 0xAEC00380800000000000000100000000#128 0x02800000#32 0 0 =
    some (.rdxgo { a with dst := .a 7, sa := .a 1, imm := 0x10, wp := true }) ∧
  decodeText 0xAE80007071F203001001000000000000#128 0x00000000#32 0 0 = some (.ldgs { a with
    sa := .sp .z, sb := .sp .stage, sc := .sp (.ix 0), mod := 0x06, rep := 1, imm := 0x00100000 }) ∧
  decodeText 0x81A00050800000001000000800000000#128 0x84000000#32 0 0 =
    some (.mma { m with sa := .m 1, rep := 1, imm := 0x80 }) ∧
  decodeText 0x81A90050800000000000407870000000#128 0x80000000#32 0 0 =
    some (.mma { m with sa := .m 1, imm := 0x40787, ge := true, gn := 2 }) ∧
  decodeText 0xE0E00000000000000000000000000000#128 0x80000000#32 0 0 = some (.mspill m) ∧
  decodeText 0xE1200000000000000000000000000000#128 0x81000000#32 0 0 = some (.mfillLink m) ∧
  decodeText 0xE2A00000000000100000000000000000#128 0x89000000#32 0 0 = some (.mark { m with y := true }) ∧
  decodeText 0xE0B00000000000000000000000000000#128 0xC0000000#32 0 0 = some (.eret s) ∧
  decodeText 0xD0F00061E20048000000000200010000#128 0xC0000000#32 0 0 =
    some (.strel { s with sa := .w 3, sb := .w 4, mod := 0x90, imm := 0x20, off := 0x10 }) ∧
  decodeText 0xD1F00060E10000000000080000000000#128 0xC0000000#32 0 0 =
    some (.cmb { s with sa := .w 1, sb := .w 2, imm := 0x8000 })

/-- R71 to R80: the words that the encoder writes for a well-formed instruction decode to it, with every field at every
value that its opcode admits. -/
def Obligations.EncodedWordsDecodeBack : Prop :=
  ∀ i o w, opcOf i = some (o, w) → WellFormed i = true →
    ∃ t p l0 l1, encode i = some (t, p, l0, l1) ∧ decodeText t p l0 l1 = some i

/-- R374: at every instant the sealed number is one or two below the open number, two while a seal drains; every step
keeps it, from every state. -/
def Obligations.StepKeepsSealNumbers : Prop :=
  ∀ s t, SealNumbers s → step s = .next t → SealNumbers t

/-- R219, R240: the memory of the package keeps its canonical form, addresses strictly rising and no byte listed that an
unlisted address reads as (log 76): every step keeps it, from every state. -/
def Obligations.StepKeepsMemoryCanonical : Prop :=
  ∀ s t, MemoryCanonical s → step s = .next t → MemoryCanonical t

/-- R25, R374, R411, R448: what a reset leaves: no byte of memory that is not zero, the interval numbers, the connection
table, the control registers of every core, and every trusted interface unlocked; the invariants hold there. That SCYC
is 0, that no launch is there, and what a number that no control register has reads, is the model's own choice (log 2). -/
def Obligations.ResetState : Prop :=
  let s := State.reset
  s.power = .on ∧ (∀ a, memGet s.mem a = 0) ∧ MemoryCanonical s ∧ SealNumbers s ∧ s.recov.n = 1 ∧ s.recov.k = 0 ∧
  (∀ i, i < 8 → s.conn.get 0 i = BitVec.ofNat 32 (2 ^ 31 + 2 ^ 30 + i * 2 ^ 24 + ((i + 1) % 8) * 2 ^ 20 + 16 * 2 ^ 8)) ∧
  (∀ i, 8 ≤ i → s.conn.get 0 i = 0) ∧ s.ctbase = 0 ∧ (∀ t, s.tsm t = .unlocked) ∧
  (∀ c n, (s.core c).csrN n =
    if n = 0 then 1 else if n = 2 then 2048 else if n = 0x010 then 3 else if n = 0x013 then 8
    else if n = 0x021 then 16 else if n = 0x030 then 4096 else 0) ∧
  s.clk.wcyc = 0 ∧ s.clk.scyc = 0 ∧ s.dom.launches = Tbl.empty

/-- R97 to R133, R157: the words that compute on registers, move values or wait for tokens leave every byte of memory and of the stores
as it is, every other core, and every recovery, host and fabric state. -/
def Obligations.ComputingWordsLeaveTheRest : Prop :=
  ∀ w s t, ∀ i ∈ [Instr.iadd w, .isub w, .imul w, .imulh w, .imad w, .idiv w, .irem w, .imin w, .imax w, .iabs w, .ineg w,
      .iand w, .ior w, .ixor w, .iandn w, .ishl w, .ishr w, .isar w, .irot w, .iclz w, .ipop w, .ibfx w, .ibfi w, .icmp w,
      .isel w, .imov w, .ili w, .nop w, .csrr w, .csrw w, .flgr w, .tkrd w, .tkw w, .obsend w, .fadd w, .fsub w, .fmul w,
      .ffma w, .fmin w, .fmax w, .fdiv w, .fsqrt w, .fcmp w, .fclass w, .fscale w, .fexpo w, .frint w, .fnc w, .fncRnd w,
      .fncTab w, .cvt w, .cvts w, .cvtq w, .cvtd w, .vmov w, .vbc w, .vlix w, .vperm w, .vrot w, .vbfly w, .vsum w,
      .vmaxr w, .vminr w, .gop w, .gany w, .gall w, .gcnt w, .gmov w, .lqdrop w, .fmtld w, .fmtix w, .tbank w, .mark w],
    exec i s = .next t →
      t.mem = s.mem ∧ t.hist = s.hist ∧ t.now = s.now ∧ t.dom.beds = s.dom.beds ∧ t.dom.dies = s.dom.dies ∧
      t.dom.launches = s.dom.launches ∧ t.recov = s.recov ∧ t.host = s.host ∧ t.fab = s.fab ∧ t.clk = s.clk ∧
      (∀ c, c ≠ s.cur.core → t.core c = s.core c) ∧ t.cc.spad = s.cc.spad ∧ t.cc.owned = s.cc.owned

/-- R39, R81, R83, R127 to R132, R180 to R207, R279 to R336, R394 to R403: no word but a store, an atomic or a spill
changes a byte of memory at its slot; none of them but an invalidation changes another core, and none but those that end a
run, reunite the clusters or resume a context changes a register but by the writes that its boundary commits (R36). Control
words and a few others change nothing but their core. -/
def Obligations.WordsThatStoreNothingLeaveMemory : Prop :=
  ∀ w s t,
    (∀ i ∈ coreWords w, exec i s = .next t → coreOnly s t) ∧
    (∀ i ∈ quietWords w ++ turningWords w ++ invalWords w, exec i s = .next t →
      t.mem = s.mem ∧ t.hist = s.hist ∧ t.now = s.now ∧ t.host = s.host) ∧
    (∀ i ∈ quietWords w ++ turningWords w, exec i s = .next t → othersKept s t) ∧
    (∀ i ∈ quietWords w ++ invalWords w, exec i s = .next t → regsKept s t)

/-- R240, R256, R273 to R276, R307, R397, R454, R456, R462: a store changes no byte at its slot but those of the runs that
its address resolves to, at the place and with the function that its meaning uses; with release order, and in memory that
is no memory-side line, its bytes come later. An atomic elsewhere than on a memory-side line may publish the rest of its
64-byte block. `mspill` changes no memory but the save area of the link slot. -/
def Obligations.StoresLeaveOtherBytes : Prop :=
  ∀ w s t,
    let u := latched w s
    let kept : Prop := othersKept s t ∧ t.host = s.host ∧ regsKept s t
    let stw : Resolver := fun w => if bit w.imm 13 then inSegment 1 w else inLocal 1 w
    (∀ r ∈ queueStores ++ [(Instr.stw, stw)], exec (r.1 w) s = .next t →
      leavesOutside false (r.2 w (memAddr w u)) u s t ∧ kept ∧ (hasRel w = true → t.mem = s.mem)) ∧
    (∀ r ∈ atomRules, exec (r.1 w) s = .next t →
      leavesOutside true (byG 2 w (memAddr w u)) (afterOf (slotOpnds [w.sb, w.sc]) u) s t ∧ kept) ∧
    (exec (.stgs w) s = .next t → leavesOutside false (stgsRuns w) (atSlot w s) s t ∧ kept) ∧
    (exec (.stgr w) s = .next t → leavesOutside false (stgrRuns w) u s t ∧ kept) ∧
    (exec (.ldr w) s = .next t → leavesOutside false (ldrDest w) u s t) ∧
    (exec (.cmb w) s = .next t → leavesOutside false
      (resolveLocal (opndAt (atSlot w s).cs.opnd 0) 256 1) (atSlot w s) s t) ∧
    (exec (.mspill w) s = .next t → othersKept s t ∧ regsKept s t ∧ ∀ a,
      (∀ v fc bed slot x, servedPlace (atSlot w s) = some (v, fc, bed, slot) →
        ((atSlot w s).ctx ((atSlot w s).link bed slot).owner).linkArea.get? (4 * bed + slot) = some x →
        a < x ∨ x + 2 ^ 21 ≤ a) → memGet t.mem a = memGet s.mem a)
end

