-- ==== Sys2Proof/Laws/Memory.lean ====
section
/-!
SUPPORT. The canonical form of a memory and its keeping by every operation that writes one; reads after
writes.
-/

namespace Sys2Proof.Machine

/-! ### The canonical form -/

/-- What the form says of the first listed byte. -/
theorem memWfFrom_cons {lo j : Nat} {x : Byte} {r : Memory} :
    memWfFrom lo ((j, x) :: r) = true ↔ lo ≤ j ∧ x ≠ 0 ∧ memWfFrom (j + 1) r = true := by
  simp only [memWfFrom, Bool.and_eq_true, decide_eq_true_eq, bne_iff_ne, and_assoc]

theorem memWfFrom_mono {m : Memory} {lo hi : Nat} (h : lo ≤ hi) (hm : memWfFrom hi m = true) :
    memWfFrom lo m = true := by
  cases m with
  | nil => rfl
  | cons e r =>
    obtain ⟨h1, h2, h3⟩ := memWfFrom_cons.mp hm
    exact memWfFrom_cons.mpr ⟨Nat.le_trans h h1, h2, h3⟩

/-- A byte put at or above the bound keeps the form above it. -/
theorem memWfFrom_memPut (m : Memory) (lo a : Nat) (b : Byte) (ha : lo ≤ a) (hm : memWfFrom lo m = true) :
    memWfFrom lo (memPut m a b) = true := by
  induction m generalizing lo with
  | nil =>
    simp only [memPut]
    split
    · rfl
    · rename_i hb
      exact memWfFrom_cons.mpr ⟨ha, hb, rfl⟩
  | cons e r ih =>
    obtain ⟨j, x⟩ := e
    obtain ⟨h1, h2, h3⟩ := memWfFrom_cons.mp hm
    simp only [memPut]
    split
    · rename_i hlt
      split
      · exact hm
      · rename_i hb
        exact memWfFrom_cons.mpr ⟨ha, hb, memWfFrom_cons.mpr ⟨hlt, h2, h3⟩⟩
    · split
      · rename_i heq
        subst heq
        split
        · exact memWfFrom_mono (by omega) h3
        · rename_i hb
          exact memWfFrom_cons.mpr ⟨h1, hb, h3⟩
      · exact memWfFrom_cons.mpr ⟨h1, h2, ih (j + 1) (by omega) h3⟩

theorem memPut_wf (m : Memory) (a : Nat) (b : Byte) (hm : m.wf = true) :
    Memory.wf (memPut m a b) = true :=
  memWfFrom_memPut m 0 a b (Nat.zero_le a) hm

theorem memWrite_wf (l : List Byte) (m : Memory) (a : Nat) (hm : m.wf = true) :
    Memory.wf (memWrite m a l) = true := by
  induction l generalizing m a with
  | nil => exact hm
  | cons b r ih => exact ih _ _ (memPut_wf m a b hm)

/-- Bytes put one by one keep the form. -/
theorem foldl_memPut_wf {α : Type} (f : α → Nat) (g : α → Byte) (l : List α) (m : Memory) (hm : m.wf = true) :
    Memory.wf (l.foldl (fun m e => memPut m (f e) (g e)) m) = true := by
  induction l generalizing m with
  | nil => exact hm
  | cons e r ih => exact ih _ (memPut_wf m _ _ hm)

theorem memWfFrom_filter (p : Host.Cell → Bool) (m : Memory) (lo : Nat) (hm : memWfFrom lo m = true) :
    memWfFrom lo (m.filter p) = true := by
  induction m generalizing lo with
  | nil => rfl
  | cons e r ih =>
    obtain ⟨j, x⟩ := e
    obtain ⟨h1, h2, h3⟩ := memWfFrom_cons.mp hm
    simp only [List.filter_cons]
    split
    · exact memWfFrom_cons.mpr ⟨h1, h2, ih (j + 1) h3⟩
    · exact memWfFrom_mono (by omega) (ih (j + 1) h3)

/-! ### Reads after writes -/

/-- A byte put leaves every other byte as it was. -/
theorem memGet_memPut_other (m : Memory) {a x : Nat} (b : Byte) (h : x ≠ a) :
    memGet (memPut m a b) x = memGet m x := by
  induction m with
  | nil =>
    simp only [memPut]
    split <;> simp [memGet, Ne.symm h]
  | cons e r ih =>
    obtain ⟨j, y⟩ := e
    simp only [memPut]
    split
    · split <;> simp [memGet, Ne.symm h]
    · split
      · rename_i heq
        subst heq
        split <;> simp [memGet, Ne.symm h]
      · simp [memGet, ih]

theorem memGet_below {m : Memory} {lo a : Nat} (h : a < lo) (hm : memWfFrom lo m = true) : memGet m a = 0 := by
  induction m generalizing lo with
  | nil => rfl
  | cons e r ih =>
    obtain ⟨j, x⟩ := e
    obtain ⟨h1, -, h3⟩ := memWfFrom_cons.mp hm
    have hj : j ≠ a := by omega
    exact (if_neg hj).trans (ih (lo := j + 1) (by omega) h3)

/-- A byte put in a canonical memory is what its address reads as. -/
theorem memGet_memPut_same (m : Memory) (lo a : Nat) (b : Byte) (hm : memWfFrom lo m = true) :
    memGet (memPut m a b) a = b := by
  induction m generalizing lo with
  | nil =>
    simp only [memPut]
    split
    · rename_i hb
      exact hb.symm
    · exact if_pos rfl
  | cons e r ih =>
    obtain ⟨j, x⟩ := e
    obtain ⟨-, -, h3⟩ := memWfFrom_cons.mp hm
    simp only [memPut]
    split
    · rename_i hlt
      split
      · rename_i hb
        have hj : j ≠ a := by omega
        exact ((if_neg hj).trans (memGet_below (lo := j + 1) (by omega) h3)).trans hb.symm
      · exact if_pos rfl
    · split
      · rename_i heq
        subst heq
        split
        · rename_i hb
          exact (memGet_below (lo := a + 1) (by omega) h3).trans hb.symm
        · exact if_pos rfl
      · rename_i hne
        exact (if_neg (Ne.symm hne)).trans (ih (j + 1) h3)

/-- What a byte of a canonical memory reads as after a byte has been put. -/
theorem memGet_memPut (m : Memory) (a x : Nat) (b : Byte) (hm : m.wf = true) :
    memGet (memPut m a b) x = if x = a then b else memGet m x := by
  split
  · rename_i h
    subst h
    exact memGet_memPut_same m 0 x b hm
  · rename_i h
    exact memGet_memPut_other m b h

/-- What a byte of a canonical memory reads as after a run of bytes has been written. -/
theorem memGet_memWrite (l : List Byte) (m : Memory) (a x : Nat) (hm : m.wf = true) :
    memGet (memWrite m a l) x = if a ≤ x then (l[x - a]?).getD (memGet m x) else memGet m x := by
  induction l generalizing m a with
  | nil => simp [memWrite]
  | cons b r ih =>
    simp only [memWrite]
    rw [ih _ _ (memPut_wf m a b hm), memGet_memPut _ _ _ _ hm]
    by_cases h : x = a
    · subst h
      simp [show ¬ x + 1 ≤ x by omega]
    · by_cases h2 : a ≤ x
      · have h3 : a + 1 ≤ x := by omega
        have h4 : x - a = (x - (a + 1)) + 1 := by omega
        simp [h2, h3, h, h4]
      · have h3 : ¬ a + 1 ≤ x := by omega
        simp [h2, h3, h]

/-- Writes leave every byte outside their run as it was. -/
theorem memGet_memWrite_outside (l : List Byte) (m : Memory) {a x : Nat} (h : x < a ∨ a + l.length ≤ x) :
    memGet (memWrite m a l) x = memGet m x := by
  induction l generalizing m a with
  | nil => rfl
  | cons b r ih =>
    simp only [List.length_cons] at h
    simp only [memWrite]
    rw [ih _ (by omega), memGet_memPut_other _ _ (by omega)]

/-! ### The operations on the memories of a package -/

@[simp] theorem logLine_mem (s : State) (n : Nat) : (logLine s n).mem = s.mem := by
  unfold logLine
  split <;> rfl

theorem foldl_logLine_mem {α : Type} (f : α → Nat) (l : List α) (s : State) :
    (l.foldl (fun s e => logLine s (f e)) s).mem = s.mem := by
  induction l generalizing s with
  | nil => rfl
  | cons e r ih => simp [ih]

/-- What a publication makes of the memory. -/
theorem publishBytes_mem (l : List (Nat × Byte)) (s : State) :
    (publishBytes l s).mem = l.foldl (fun m e => memPut m e.1 e.2) s.mem := by
  unfold publishBytes
  split
  · rename_i h
    simp [List.isEmpty_iff.mp h]
  · simp [foldl_logLine_mem]

theorem publishBytes_wf (l : List (Nat × Byte)) (s : State) (h : s.mem.wf = true) :
    (publishBytes l s).mem.wf = true := by
  rw [publishBytes_mem]
  exact foldl_memPut_wf _ _ _ _ h

theorem publishRun_wf (pa : Nat) (data : List Byte) (s : State) (h : s.mem.wf = true) :
    (publishRun pa data s).mem.wf = true := by
  unfold publishRun
  generalize blocks64 pa data = l
  induction l generalizing s with
  | nil => exact h
  | cons e r ih => exact ih _ (publishBytes_wf _ s h)

theorem spadWrite_wf (k : Core) (off : Nat) (data : List Byte) (h : k.spad.wf = true) :
    (spadWrite k off data).spad.wf = true :=
  foldl_memPut_wf _ _ _ _ h

theorem setErr_wf (m : Memory) (blk : Nat) (b : Bool) (h : m.wf = true) : (setErr m blk b).wf = true :=
  memPut_wf _ _ _ h

theorem ctlStore_wf (m : Memory) (blk rel : Nat) (data : List Byte) (ok : Bool) (mask : Nat) (h : m.wf = true) :
    (ctlStore m blk rel data ok mask).wf = true := by
  unfold ctlStore
  have h1 (c : Bool) : Memory.wf (if c = true then setErr m blk false else m) = true := by
    split
    · exact setErr_wf _ _ _ h
    · exact h
  dsimp only
  split
  · split
    · exact memWrite_wf _ _ _ (h1 _)
    · exact setErr_wf _ _ _ (h1 _)
  · exact h1 _

theorem bedRun_wf (whole : Bool) (b : Bed) (e : Nat × List Byte) (h : b.store.wf = true) :
    (bedRun whole b e).store.wf = true := by
  unfold bedRun
  split
  · exact memWrite_wf _ _ _ h
  · exact ctlStore_wf _ _ _ _ _ _ h

theorem bedWrite_wf (off : Nat) (data : List Byte) (b : Bed) (h : b.store.wf = true) :
    (bedWrite off data b).store.wf = true := by
  unfold bedWrite
  generalize blocks64 off data = l
  induction l generalizing b with
  | nil => exact h
  | cons e r ih => exact ih _ (bedRun_wf _ _ _ h)

theorem dieRun_wf (s : State) (die launch : Nat) (whole : Bool) (m : Memory) (e : Nat × List Byte)
    (h : m.wf = true) : (dieRun s die launch whole m e).wf = true := by
  unfold dieRun
  split
  · exact memWrite_wf _ _ _ h
  · exact ctlStore_wf _ _ _ _ _ _ h

theorem foldl_dieRun_wf (s : State) (die launch : Nat) (whole : Bool) (l : List (Nat × List Byte)) (m : Memory)
    (h : m.wf = true) : Memory.wf (l.foldl (dieRun s die launch whole) m) = true := by
  induction l generalizing m with
  | nil => exact h
  | cons e r ih => exact ih _ (dieRun_wf _ _ _ _ _ _ h)

/-- Undoing the log keeps the form of the memory. -/
theorem undoAll_wf (s : State) (h : s.mem.wf = true) : (undoAll s).wf = true := by
  unfold undoAll
  generalize s.recov.undo.reverse = l
  generalize s.mem = m at h
  induction l generalizing m with
  | nil => exact h
  | cons e r ih => exact ih _ (memWrite_wf _ _ _ h)

/-- The memory of a transplant's new pages keeps the form. -/
theorem movedCells_wf (mv : Nat → Nat) (p q : Host.Cell → Bool) (m : Memory) (h : m.wf = true) :
    Memory.wf ((m.filter p).foldl (fun x e => memPut x (mv e.1) e.2) (m.filter q)) = true :=
  foldl_memPut_wf _ _ _ _ (memWfFrom_filter q m 0 h)

theorem reset_mem_wf : State.reset.mem.wf = true := rfl

end Sys2Proof.Machine
end

