-- ==== Sys2Proof/Laws/Tbl.lean ====
section
/-!
SUPPORT. What reading a sparse table gives after an entry has been put or erased.
-/

namespace Sys2Proof.Tbl

theorem findIn_putIn_same {α : Type} (l : List (Nat × α)) (k : Nat) (x : α) :
    findIn (putIn l k x) k = some x := by
  induction l with
  | nil => simp [putIn, findIn]
  | cons e r ih =>
    obtain ⟨j, y⟩ := e
    simp only [putIn]
    split
    · simp [findIn]
    · split
      · simp [findIn]
      · rename_i _ h
        simp [findIn, Ne.symm h, ih]

theorem findIn_putIn_other {α : Type} (l : List (Nat × α)) {k j : Nat} (x : α) (h : j ≠ k) :
    findIn (putIn l k x) j = findIn l j := by
  induction l with
  | nil => simp [putIn, findIn, Ne.symm h]
  | cons e r ih =>
    obtain ⟨i, y⟩ := e
    simp only [putIn]
    split
    · simp [findIn, Ne.symm h]
    · split
      · rename_i hk
        subst hk
        simp [findIn, Ne.symm h]
      · simp [findIn, ih]

@[simp] theorem get?_put_same {α : Type} (t : Tbl α) (k : Nat) (x : α) : (t.put k x).get? k = some x :=
  findIn_putIn_same _ _ _

theorem get?_put_other {α : Type} (t : Tbl α) {k j : Nat} (x : α) (h : j ≠ k) :
    (t.put k x).get? j = t.get? j := findIn_putIn_other _ _ h

@[simp] theorem get_put_same {α : Type} (d : α) (t : Tbl α) (k : Nat) (x : α) :
    (t.put k x).get d k = x := by simp [get]

theorem get_put_other {α : Type} (d : α) (t : Tbl α) {k j : Nat} (x : α) (h : j ≠ k) :
    (t.put k x).get d j = t.get d j := by simp [get, get?_put_other t x h]

theorem get_put {α : Type} (d : α) (t : Tbl α) (k j : Nat) (x : α) :
    (t.put k x).get d j = if j = k then x else t.get d j := by
  split
  · rename_i h
    subst h
    simp
  · rename_i h
    exact get_put_other d t x h

@[simp] theorem get_empty {α : Type} (d : α) (k : Nat) : (Tbl.empty : Tbl α).get d k = d := rfl

end Sys2Proof.Tbl
end

