-- ==== Sys2Proof/Laws/State.lean ====
section
/-!
SUPPORT. What each update of the state leaves in each field, and what reading a numbered part gives after a
write of one.
-/

namespace Sys2Proof.Machine

open Sys2Proof

/-! ### `setCore` -/

@[simp] theorem State.setCore_ident (s : State) (c : Nat) (k : Core) : (s.setCore c k).ident = s.ident := rfl
@[simp] theorem State.setCore_power (s : State) (c : Nat) (k : Core) : (s.setCore c k).power = s.power := rfl
@[simp] theorem State.setCore_clk (s : State) (c : Nat) (k : Core) : (s.setCore c k).clk = s.clk := rfl
@[simp] theorem State.setCore_agenda (s : State) (c : Nat) (k : Core) : (s.setCore c k).agenda = s.agenda := rfl
@[simp] theorem State.setCore_draws (s : State) (c : Nat) (k : Core) : (s.setCore c k).draws = s.draws := rfl
@[simp] theorem State.setCore_cur (s : State) (c : Nat) (k : Core) : (s.setCore c k).cur = s.cur := rfl
@[simp] theorem State.setCore_now (s : State) (c : Nat) (k : Core) : (s.setCore c k).now = s.now := rfl
@[simp] theorem State.setCore_mem (s : State) (c : Nat) (k : Core) : (s.setCore c k).mem = s.mem := rfl
@[simp] theorem State.setCore_hist (s : State) (c : Nat) (k : Core) : (s.setCore c k).hist = s.hist := rfl
@[simp] theorem State.setCore_recov (s : State) (c : Nat) (k : Core) : (s.setCore c k).recov = s.recov := rfl
@[simp] theorem State.setCore_conn (s : State) (c : Nat) (k : Core) : (s.setCore c k).conn = s.conn := rfl
@[simp] theorem State.setCore_ctbase (s : State) (c : Nat) (k : Core) : (s.setCore c k).ctbase = s.ctbase := rfl
@[simp] theorem State.setCore_connNext (s : State) (c : Nat) (k : Core) : (s.setCore c k).connNext = s.connNext := rfl
@[simp] theorem State.setCore_ctbaseNext (s : State) (c : Nat) (k : Core) : (s.setCore c k).ctbaseNext = s.ctbaseNext := rfl
@[simp] theorem State.setCore_sup (s : State) (c : Nat) (k : Core) : (s.setCore c k).sup = s.sup := rfl
@[simp] theorem State.setCore_host (s : State) (c : Nat) (k : Core) : (s.setCore c k).host = s.host := rfl
@[simp] theorem State.setCore_fab (s : State) (c : Nat) (k : Core) : (s.setCore c k).fab = s.fab := rfl
@[simp] theorem State.setCore_life (s : State) (c : Nat) (k : Core) : (s.setCore c k).life = s.life := rfl
@[simp] theorem State.setCore_dom_beds (s : State) (c : Nat) (k : Core) :
    (s.setCore c k).dom.beds = s.dom.beds := rfl
@[simp] theorem State.setCore_dom_dies (s : State) (c : Nat) (k : Core) :
    (s.setCore c k).dom.dies = s.dom.dies := rfl
@[simp] theorem State.setCore_dom_launches (s : State) (c : Nat) (k : Core) :
    (s.setCore c k).dom.launches = s.dom.launches := rfl
@[simp] theorem State.setCore_dom_nextLaunch (s : State) (c : Nat) (k : Core) :
    (s.setCore c k).dom.nextLaunch = s.dom.nextLaunch := rfl
@[simp] theorem State.setCore_dom_poolLast (s : State) (c : Nat) (k : Core) :
    (s.setCore c k).dom.poolLast = s.dom.poolLast := rfl
@[simp] theorem State.setCore_dom_poolCount (s : State) (c : Nat) (k : Core) :
    (s.setCore c k).dom.poolCount = s.dom.poolCount := rfl
@[simp] theorem State.setCore_dom_ctxs (s : State) (c : Nat) (k : Core) :
    (s.setCore c k).dom.ctxs = s.dom.ctxs := rfl
@[simp] theorem State.setCore_dom_queues (s : State) (c : Nat) (k : Core) :
    (s.setCore c k).dom.queues = s.dom.queues := rfl
@[simp] theorem State.setCore_dom_events (s : State) (c : Nat) (k : Core) :
    (s.setCore c k).dom.events = s.dom.events := rfl
@[simp] theorem State.setCore_dom_partials (s : State) (c : Nat) (k : Core) :
    (s.setCore c k).dom.partials = s.dom.partials := rfl
@[simp] theorem State.setCore_dom_sevs (s : State) (c : Nat) (k : Core) :
    (s.setCore c k).dom.sevs = s.dom.sevs := rfl
@[simp] theorem State.setCore_dom_remote (s : State) (c : Nat) (k : Core) :
    (s.setCore c k).dom.remote = s.dom.remote := rfl
@[simp] theorem State.setCore_dom_contribs (s : State) (c : Nat) (k : Core) :
    (s.setCore c k).dom.contribs = s.dom.contribs := rfl
@[simp] theorem State.setCore_dom_reports (s : State) (c : Nat) (k : Core) :
    (s.setCore c k).dom.reports = s.dom.reports := rfl
@[simp] theorem State.setCore_dom_fills (s : State) (c : Nat) (k : Core) :
    (s.setCore c k).dom.fills = s.dom.fills := rfl
@[simp] theorem State.setCore_dom_transplants (s : State) (c : Nat) (k : Core) :
    (s.setCore c k).dom.transplants = s.dom.transplants := rfl
@[simp] theorem State.setCore_dom_saved (s : State) (c : Nat) (k : Core) :
    (s.setCore c k).dom.saved = s.dom.saved := rfl
@[simp] theorem State.setCore_dom_savedBeds (s : State) (c : Nat) (k : Core) :
    (s.setCore c k).dom.savedBeds = s.dom.savedBeds := rfl
@[simp] theorem State.setCore_dom_rounds (s : State) (c : Nat) (k : Core) :
    (s.setCore c k).dom.rounds = s.dom.rounds := rfl
@[simp] theorem State.setCore_dom_nextId (s : State) (c : Nat) (k : Core) :
    (s.setCore c k).dom.nextId = s.dom.nextId := rfl

/-! ### `setBed` -/

@[simp] theorem State.setBed_ident (s : State) (b : Nat) (x : Bed) : (s.setBed b x).ident = s.ident := rfl
@[simp] theorem State.setBed_power (s : State) (b : Nat) (x : Bed) : (s.setBed b x).power = s.power := rfl
@[simp] theorem State.setBed_clk (s : State) (b : Nat) (x : Bed) : (s.setBed b x).clk = s.clk := rfl
@[simp] theorem State.setBed_agenda (s : State) (b : Nat) (x : Bed) : (s.setBed b x).agenda = s.agenda := rfl
@[simp] theorem State.setBed_draws (s : State) (b : Nat) (x : Bed) : (s.setBed b x).draws = s.draws := rfl
@[simp] theorem State.setBed_cur (s : State) (b : Nat) (x : Bed) : (s.setBed b x).cur = s.cur := rfl
@[simp] theorem State.setBed_now (s : State) (b : Nat) (x : Bed) : (s.setBed b x).now = s.now := rfl
@[simp] theorem State.setBed_mem (s : State) (b : Nat) (x : Bed) : (s.setBed b x).mem = s.mem := rfl
@[simp] theorem State.setBed_hist (s : State) (b : Nat) (x : Bed) : (s.setBed b x).hist = s.hist := rfl
@[simp] theorem State.setBed_recov (s : State) (b : Nat) (x : Bed) : (s.setBed b x).recov = s.recov := rfl
@[simp] theorem State.setBed_conn (s : State) (b : Nat) (x : Bed) : (s.setBed b x).conn = s.conn := rfl
@[simp] theorem State.setBed_ctbase (s : State) (b : Nat) (x : Bed) : (s.setBed b x).ctbase = s.ctbase := rfl
@[simp] theorem State.setBed_connNext (s : State) (b : Nat) (x : Bed) : (s.setBed b x).connNext = s.connNext := rfl
@[simp] theorem State.setBed_ctbaseNext (s : State) (b : Nat) (x : Bed) : (s.setBed b x).ctbaseNext = s.ctbaseNext := rfl
@[simp] theorem State.setBed_sup (s : State) (b : Nat) (x : Bed) : (s.setBed b x).sup = s.sup := rfl
@[simp] theorem State.setBed_host (s : State) (b : Nat) (x : Bed) : (s.setBed b x).host = s.host := rfl
@[simp] theorem State.setBed_fab (s : State) (b : Nat) (x : Bed) : (s.setBed b x).fab = s.fab := rfl
@[simp] theorem State.setBed_life (s : State) (b : Nat) (x : Bed) : (s.setBed b x).life = s.life := rfl
@[simp] theorem State.setBed_dom_cores (s : State) (b : Nat) (x : Bed) :
    (s.setBed b x).dom.cores = s.dom.cores := rfl
@[simp] theorem State.setBed_dom_dies (s : State) (b : Nat) (x : Bed) :
    (s.setBed b x).dom.dies = s.dom.dies := rfl
@[simp] theorem State.setBed_dom_launches (s : State) (b : Nat) (x : Bed) :
    (s.setBed b x).dom.launches = s.dom.launches := rfl
@[simp] theorem State.setBed_dom_nextLaunch (s : State) (b : Nat) (x : Bed) :
    (s.setBed b x).dom.nextLaunch = s.dom.nextLaunch := rfl
@[simp] theorem State.setBed_dom_poolLast (s : State) (b : Nat) (x : Bed) :
    (s.setBed b x).dom.poolLast = s.dom.poolLast := rfl
@[simp] theorem State.setBed_dom_poolCount (s : State) (b : Nat) (x : Bed) :
    (s.setBed b x).dom.poolCount = s.dom.poolCount := rfl
@[simp] theorem State.setBed_dom_ctxs (s : State) (b : Nat) (x : Bed) :
    (s.setBed b x).dom.ctxs = s.dom.ctxs := rfl
@[simp] theorem State.setBed_dom_queues (s : State) (b : Nat) (x : Bed) :
    (s.setBed b x).dom.queues = s.dom.queues := rfl
@[simp] theorem State.setBed_dom_events (s : State) (b : Nat) (x : Bed) :
    (s.setBed b x).dom.events = s.dom.events := rfl
@[simp] theorem State.setBed_dom_partials (s : State) (b : Nat) (x : Bed) :
    (s.setBed b x).dom.partials = s.dom.partials := rfl
@[simp] theorem State.setBed_dom_sevs (s : State) (b : Nat) (x : Bed) :
    (s.setBed b x).dom.sevs = s.dom.sevs := rfl
@[simp] theorem State.setBed_dom_remote (s : State) (b : Nat) (x : Bed) :
    (s.setBed b x).dom.remote = s.dom.remote := rfl
@[simp] theorem State.setBed_dom_contribs (s : State) (b : Nat) (x : Bed) :
    (s.setBed b x).dom.contribs = s.dom.contribs := rfl
@[simp] theorem State.setBed_dom_reports (s : State) (b : Nat) (x : Bed) :
    (s.setBed b x).dom.reports = s.dom.reports := rfl
@[simp] theorem State.setBed_dom_fills (s : State) (b : Nat) (x : Bed) :
    (s.setBed b x).dom.fills = s.dom.fills := rfl
@[simp] theorem State.setBed_dom_transplants (s : State) (b : Nat) (x : Bed) :
    (s.setBed b x).dom.transplants = s.dom.transplants := rfl
@[simp] theorem State.setBed_dom_saved (s : State) (b : Nat) (x : Bed) :
    (s.setBed b x).dom.saved = s.dom.saved := rfl
@[simp] theorem State.setBed_dom_savedBeds (s : State) (b : Nat) (x : Bed) :
    (s.setBed b x).dom.savedBeds = s.dom.savedBeds := rfl
@[simp] theorem State.setBed_dom_rounds (s : State) (b : Nat) (x : Bed) :
    (s.setBed b x).dom.rounds = s.dom.rounds := rfl
@[simp] theorem State.setBed_dom_nextId (s : State) (b : Nat) (x : Bed) :
    (s.setBed b x).dom.nextId = s.dom.nextId := rfl

/-! ### `setDie` -/

@[simp] theorem State.setDie_ident (s : State) (d : Nat) (x : Die) : (s.setDie d x).ident = s.ident := rfl
@[simp] theorem State.setDie_power (s : State) (d : Nat) (x : Die) : (s.setDie d x).power = s.power := rfl
@[simp] theorem State.setDie_clk (s : State) (d : Nat) (x : Die) : (s.setDie d x).clk = s.clk := rfl
@[simp] theorem State.setDie_agenda (s : State) (d : Nat) (x : Die) : (s.setDie d x).agenda = s.agenda := rfl
@[simp] theorem State.setDie_draws (s : State) (d : Nat) (x : Die) : (s.setDie d x).draws = s.draws := rfl
@[simp] theorem State.setDie_cur (s : State) (d : Nat) (x : Die) : (s.setDie d x).cur = s.cur := rfl
@[simp] theorem State.setDie_now (s : State) (d : Nat) (x : Die) : (s.setDie d x).now = s.now := rfl
@[simp] theorem State.setDie_mem (s : State) (d : Nat) (x : Die) : (s.setDie d x).mem = s.mem := rfl
@[simp] theorem State.setDie_hist (s : State) (d : Nat) (x : Die) : (s.setDie d x).hist = s.hist := rfl
@[simp] theorem State.setDie_recov (s : State) (d : Nat) (x : Die) : (s.setDie d x).recov = s.recov := rfl
@[simp] theorem State.setDie_conn (s : State) (d : Nat) (x : Die) : (s.setDie d x).conn = s.conn := rfl
@[simp] theorem State.setDie_ctbase (s : State) (d : Nat) (x : Die) : (s.setDie d x).ctbase = s.ctbase := rfl
@[simp] theorem State.setDie_connNext (s : State) (d : Nat) (x : Die) : (s.setDie d x).connNext = s.connNext := rfl
@[simp] theorem State.setDie_ctbaseNext (s : State) (d : Nat) (x : Die) : (s.setDie d x).ctbaseNext = s.ctbaseNext := rfl
@[simp] theorem State.setDie_sup (s : State) (d : Nat) (x : Die) : (s.setDie d x).sup = s.sup := rfl
@[simp] theorem State.setDie_host (s : State) (d : Nat) (x : Die) : (s.setDie d x).host = s.host := rfl
@[simp] theorem State.setDie_fab (s : State) (d : Nat) (x : Die) : (s.setDie d x).fab = s.fab := rfl
@[simp] theorem State.setDie_life (s : State) (d : Nat) (x : Die) : (s.setDie d x).life = s.life := rfl
@[simp] theorem State.setDie_dom_cores (s : State) (d : Nat) (x : Die) :
    (s.setDie d x).dom.cores = s.dom.cores := rfl
@[simp] theorem State.setDie_dom_beds (s : State) (d : Nat) (x : Die) :
    (s.setDie d x).dom.beds = s.dom.beds := rfl
@[simp] theorem State.setDie_dom_launches (s : State) (d : Nat) (x : Die) :
    (s.setDie d x).dom.launches = s.dom.launches := rfl
@[simp] theorem State.setDie_dom_nextLaunch (s : State) (d : Nat) (x : Die) :
    (s.setDie d x).dom.nextLaunch = s.dom.nextLaunch := rfl
@[simp] theorem State.setDie_dom_poolLast (s : State) (d : Nat) (x : Die) :
    (s.setDie d x).dom.poolLast = s.dom.poolLast := rfl
@[simp] theorem State.setDie_dom_poolCount (s : State) (d : Nat) (x : Die) :
    (s.setDie d x).dom.poolCount = s.dom.poolCount := rfl
@[simp] theorem State.setDie_dom_ctxs (s : State) (d : Nat) (x : Die) :
    (s.setDie d x).dom.ctxs = s.dom.ctxs := rfl
@[simp] theorem State.setDie_dom_queues (s : State) (d : Nat) (x : Die) :
    (s.setDie d x).dom.queues = s.dom.queues := rfl
@[simp] theorem State.setDie_dom_events (s : State) (d : Nat) (x : Die) :
    (s.setDie d x).dom.events = s.dom.events := rfl
@[simp] theorem State.setDie_dom_partials (s : State) (d : Nat) (x : Die) :
    (s.setDie d x).dom.partials = s.dom.partials := rfl
@[simp] theorem State.setDie_dom_sevs (s : State) (d : Nat) (x : Die) :
    (s.setDie d x).dom.sevs = s.dom.sevs := rfl
@[simp] theorem State.setDie_dom_remote (s : State) (d : Nat) (x : Die) :
    (s.setDie d x).dom.remote = s.dom.remote := rfl
@[simp] theorem State.setDie_dom_contribs (s : State) (d : Nat) (x : Die) :
    (s.setDie d x).dom.contribs = s.dom.contribs := rfl
@[simp] theorem State.setDie_dom_reports (s : State) (d : Nat) (x : Die) :
    (s.setDie d x).dom.reports = s.dom.reports := rfl
@[simp] theorem State.setDie_dom_fills (s : State) (d : Nat) (x : Die) :
    (s.setDie d x).dom.fills = s.dom.fills := rfl
@[simp] theorem State.setDie_dom_transplants (s : State) (d : Nat) (x : Die) :
    (s.setDie d x).dom.transplants = s.dom.transplants := rfl
@[simp] theorem State.setDie_dom_saved (s : State) (d : Nat) (x : Die) :
    (s.setDie d x).dom.saved = s.dom.saved := rfl
@[simp] theorem State.setDie_dom_savedBeds (s : State) (d : Nat) (x : Die) :
    (s.setDie d x).dom.savedBeds = s.dom.savedBeds := rfl
@[simp] theorem State.setDie_dom_rounds (s : State) (d : Nat) (x : Die) :
    (s.setDie d x).dom.rounds = s.dom.rounds := rfl
@[simp] theorem State.setDie_dom_nextId (s : State) (d : Nat) (x : Die) :
    (s.setDie d x).dom.nextId = s.dom.nextId := rfl

/-! ### `setLaunch` -/

@[simp] theorem State.setLaunch_ident (s : State) (l : Nat) (x : Launch) : (s.setLaunch l x).ident = s.ident := rfl
@[simp] theorem State.setLaunch_power (s : State) (l : Nat) (x : Launch) : (s.setLaunch l x).power = s.power := rfl
@[simp] theorem State.setLaunch_clk (s : State) (l : Nat) (x : Launch) : (s.setLaunch l x).clk = s.clk := rfl
@[simp] theorem State.setLaunch_agenda (s : State) (l : Nat) (x : Launch) : (s.setLaunch l x).agenda = s.agenda := rfl
@[simp] theorem State.setLaunch_draws (s : State) (l : Nat) (x : Launch) : (s.setLaunch l x).draws = s.draws := rfl
@[simp] theorem State.setLaunch_cur (s : State) (l : Nat) (x : Launch) : (s.setLaunch l x).cur = s.cur := rfl
@[simp] theorem State.setLaunch_now (s : State) (l : Nat) (x : Launch) : (s.setLaunch l x).now = s.now := rfl
@[simp] theorem State.setLaunch_mem (s : State) (l : Nat) (x : Launch) : (s.setLaunch l x).mem = s.mem := rfl
@[simp] theorem State.setLaunch_hist (s : State) (l : Nat) (x : Launch) : (s.setLaunch l x).hist = s.hist := rfl
@[simp] theorem State.setLaunch_recov (s : State) (l : Nat) (x : Launch) : (s.setLaunch l x).recov = s.recov := rfl
@[simp] theorem State.setLaunch_conn (s : State) (l : Nat) (x : Launch) : (s.setLaunch l x).conn = s.conn := rfl
@[simp] theorem State.setLaunch_ctbase (s : State) (l : Nat) (x : Launch) : (s.setLaunch l x).ctbase = s.ctbase := rfl
@[simp] theorem State.setLaunch_connNext (s : State) (l : Nat) (x : Launch) : (s.setLaunch l x).connNext = s.connNext := rfl
@[simp] theorem State.setLaunch_ctbaseNext (s : State) (l : Nat) (x : Launch) : (s.setLaunch l x).ctbaseNext = s.ctbaseNext := rfl
@[simp] theorem State.setLaunch_sup (s : State) (l : Nat) (x : Launch) : (s.setLaunch l x).sup = s.sup := rfl
@[simp] theorem State.setLaunch_host (s : State) (l : Nat) (x : Launch) : (s.setLaunch l x).host = s.host := rfl
@[simp] theorem State.setLaunch_fab (s : State) (l : Nat) (x : Launch) : (s.setLaunch l x).fab = s.fab := rfl
@[simp] theorem State.setLaunch_life (s : State) (l : Nat) (x : Launch) : (s.setLaunch l x).life = s.life := rfl
@[simp] theorem State.setLaunch_dom_cores (s : State) (l : Nat) (x : Launch) :
    (s.setLaunch l x).dom.cores = s.dom.cores := rfl
@[simp] theorem State.setLaunch_dom_beds (s : State) (l : Nat) (x : Launch) :
    (s.setLaunch l x).dom.beds = s.dom.beds := rfl
@[simp] theorem State.setLaunch_dom_dies (s : State) (l : Nat) (x : Launch) :
    (s.setLaunch l x).dom.dies = s.dom.dies := rfl
@[simp] theorem State.setLaunch_dom_nextLaunch (s : State) (l : Nat) (x : Launch) :
    (s.setLaunch l x).dom.nextLaunch = s.dom.nextLaunch := rfl
@[simp] theorem State.setLaunch_dom_poolLast (s : State) (l : Nat) (x : Launch) :
    (s.setLaunch l x).dom.poolLast = s.dom.poolLast := rfl
@[simp] theorem State.setLaunch_dom_poolCount (s : State) (l : Nat) (x : Launch) :
    (s.setLaunch l x).dom.poolCount = s.dom.poolCount := rfl
@[simp] theorem State.setLaunch_dom_ctxs (s : State) (l : Nat) (x : Launch) :
    (s.setLaunch l x).dom.ctxs = s.dom.ctxs := rfl
@[simp] theorem State.setLaunch_dom_queues (s : State) (l : Nat) (x : Launch) :
    (s.setLaunch l x).dom.queues = s.dom.queues := rfl
@[simp] theorem State.setLaunch_dom_events (s : State) (l : Nat) (x : Launch) :
    (s.setLaunch l x).dom.events = s.dom.events := rfl
@[simp] theorem State.setLaunch_dom_partials (s : State) (l : Nat) (x : Launch) :
    (s.setLaunch l x).dom.partials = s.dom.partials := rfl
@[simp] theorem State.setLaunch_dom_sevs (s : State) (l : Nat) (x : Launch) :
    (s.setLaunch l x).dom.sevs = s.dom.sevs := rfl
@[simp] theorem State.setLaunch_dom_remote (s : State) (l : Nat) (x : Launch) :
    (s.setLaunch l x).dom.remote = s.dom.remote := rfl
@[simp] theorem State.setLaunch_dom_contribs (s : State) (l : Nat) (x : Launch) :
    (s.setLaunch l x).dom.contribs = s.dom.contribs := rfl
@[simp] theorem State.setLaunch_dom_reports (s : State) (l : Nat) (x : Launch) :
    (s.setLaunch l x).dom.reports = s.dom.reports := rfl
@[simp] theorem State.setLaunch_dom_fills (s : State) (l : Nat) (x : Launch) :
    (s.setLaunch l x).dom.fills = s.dom.fills := rfl
@[simp] theorem State.setLaunch_dom_transplants (s : State) (l : Nat) (x : Launch) :
    (s.setLaunch l x).dom.transplants = s.dom.transplants := rfl
@[simp] theorem State.setLaunch_dom_saved (s : State) (l : Nat) (x : Launch) :
    (s.setLaunch l x).dom.saved = s.dom.saved := rfl
@[simp] theorem State.setLaunch_dom_savedBeds (s : State) (l : Nat) (x : Launch) :
    (s.setLaunch l x).dom.savedBeds = s.dom.savedBeds := rfl
@[simp] theorem State.setLaunch_dom_rounds (s : State) (l : Nat) (x : Launch) :
    (s.setLaunch l x).dom.rounds = s.dom.rounds := rfl
@[simp] theorem State.setLaunch_dom_nextId (s : State) (l : Nat) (x : Launch) :
    (s.setLaunch l x).dom.nextId = s.dom.nextId := rfl

/-! ### `modCore` -/

@[simp] theorem State.modCore_ident (s : State) (f : Core → Core) : (s.modCore f).ident = s.ident := rfl
@[simp] theorem State.modCore_power (s : State) (f : Core → Core) : (s.modCore f).power = s.power := rfl
@[simp] theorem State.modCore_clk (s : State) (f : Core → Core) : (s.modCore f).clk = s.clk := rfl
@[simp] theorem State.modCore_agenda (s : State) (f : Core → Core) : (s.modCore f).agenda = s.agenda := rfl
@[simp] theorem State.modCore_draws (s : State) (f : Core → Core) : (s.modCore f).draws = s.draws := rfl
@[simp] theorem State.modCore_cur (s : State) (f : Core → Core) : (s.modCore f).cur = s.cur := rfl
@[simp] theorem State.modCore_now (s : State) (f : Core → Core) : (s.modCore f).now = s.now := rfl
@[simp] theorem State.modCore_mem (s : State) (f : Core → Core) : (s.modCore f).mem = s.mem := rfl
@[simp] theorem State.modCore_hist (s : State) (f : Core → Core) : (s.modCore f).hist = s.hist := rfl
@[simp] theorem State.modCore_recov (s : State) (f : Core → Core) : (s.modCore f).recov = s.recov := rfl
@[simp] theorem State.modCore_conn (s : State) (f : Core → Core) : (s.modCore f).conn = s.conn := rfl
@[simp] theorem State.modCore_ctbase (s : State) (f : Core → Core) : (s.modCore f).ctbase = s.ctbase := rfl
@[simp] theorem State.modCore_connNext (s : State) (f : Core → Core) : (s.modCore f).connNext = s.connNext := rfl
@[simp] theorem State.modCore_ctbaseNext (s : State) (f : Core → Core) : (s.modCore f).ctbaseNext = s.ctbaseNext := rfl
@[simp] theorem State.modCore_sup (s : State) (f : Core → Core) : (s.modCore f).sup = s.sup := rfl
@[simp] theorem State.modCore_host (s : State) (f : Core → Core) : (s.modCore f).host = s.host := rfl
@[simp] theorem State.modCore_fab (s : State) (f : Core → Core) : (s.modCore f).fab = s.fab := rfl
@[simp] theorem State.modCore_life (s : State) (f : Core → Core) : (s.modCore f).life = s.life := rfl
@[simp] theorem State.modCore_dom_beds (s : State) (f : Core → Core) :
    (s.modCore f).dom.beds = s.dom.beds := rfl
@[simp] theorem State.modCore_dom_dies (s : State) (f : Core → Core) :
    (s.modCore f).dom.dies = s.dom.dies := rfl
@[simp] theorem State.modCore_dom_launches (s : State) (f : Core → Core) :
    (s.modCore f).dom.launches = s.dom.launches := rfl
@[simp] theorem State.modCore_dom_nextLaunch (s : State) (f : Core → Core) :
    (s.modCore f).dom.nextLaunch = s.dom.nextLaunch := rfl
@[simp] theorem State.modCore_dom_poolLast (s : State) (f : Core → Core) :
    (s.modCore f).dom.poolLast = s.dom.poolLast := rfl
@[simp] theorem State.modCore_dom_poolCount (s : State) (f : Core → Core) :
    (s.modCore f).dom.poolCount = s.dom.poolCount := rfl
@[simp] theorem State.modCore_dom_ctxs (s : State) (f : Core → Core) :
    (s.modCore f).dom.ctxs = s.dom.ctxs := rfl
@[simp] theorem State.modCore_dom_queues (s : State) (f : Core → Core) :
    (s.modCore f).dom.queues = s.dom.queues := rfl
@[simp] theorem State.modCore_dom_events (s : State) (f : Core → Core) :
    (s.modCore f).dom.events = s.dom.events := rfl
@[simp] theorem State.modCore_dom_partials (s : State) (f : Core → Core) :
    (s.modCore f).dom.partials = s.dom.partials := rfl
@[simp] theorem State.modCore_dom_sevs (s : State) (f : Core → Core) :
    (s.modCore f).dom.sevs = s.dom.sevs := rfl
@[simp] theorem State.modCore_dom_remote (s : State) (f : Core → Core) :
    (s.modCore f).dom.remote = s.dom.remote := rfl
@[simp] theorem State.modCore_dom_contribs (s : State) (f : Core → Core) :
    (s.modCore f).dom.contribs = s.dom.contribs := rfl
@[simp] theorem State.modCore_dom_reports (s : State) (f : Core → Core) :
    (s.modCore f).dom.reports = s.dom.reports := rfl
@[simp] theorem State.modCore_dom_fills (s : State) (f : Core → Core) :
    (s.modCore f).dom.fills = s.dom.fills := rfl
@[simp] theorem State.modCore_dom_transplants (s : State) (f : Core → Core) :
    (s.modCore f).dom.transplants = s.dom.transplants := rfl
@[simp] theorem State.modCore_dom_saved (s : State) (f : Core → Core) :
    (s.modCore f).dom.saved = s.dom.saved := rfl
@[simp] theorem State.modCore_dom_savedBeds (s : State) (f : Core → Core) :
    (s.modCore f).dom.savedBeds = s.dom.savedBeds := rfl
@[simp] theorem State.modCore_dom_rounds (s : State) (f : Core → Core) :
    (s.modCore f).dom.rounds = s.dom.rounds := rfl
@[simp] theorem State.modCore_dom_nextId (s : State) (f : Core → Core) :
    (s.modCore f).dom.nextId = s.dom.nextId := rfl

/-! ### `modStream` -/

@[simp] theorem State.modStream_ident (s : State) (f : Stream → Stream) : (s.modStream f).ident = s.ident := rfl
@[simp] theorem State.modStream_power (s : State) (f : Stream → Stream) : (s.modStream f).power = s.power := rfl
@[simp] theorem State.modStream_clk (s : State) (f : Stream → Stream) : (s.modStream f).clk = s.clk := rfl
@[simp] theorem State.modStream_agenda (s : State) (f : Stream → Stream) : (s.modStream f).agenda = s.agenda := rfl
@[simp] theorem State.modStream_draws (s : State) (f : Stream → Stream) : (s.modStream f).draws = s.draws := rfl
@[simp] theorem State.modStream_cur (s : State) (f : Stream → Stream) : (s.modStream f).cur = s.cur := rfl
@[simp] theorem State.modStream_now (s : State) (f : Stream → Stream) : (s.modStream f).now = s.now := rfl
@[simp] theorem State.modStream_mem (s : State) (f : Stream → Stream) : (s.modStream f).mem = s.mem := rfl
@[simp] theorem State.modStream_hist (s : State) (f : Stream → Stream) : (s.modStream f).hist = s.hist := rfl
@[simp] theorem State.modStream_recov (s : State) (f : Stream → Stream) : (s.modStream f).recov = s.recov := rfl
@[simp] theorem State.modStream_conn (s : State) (f : Stream → Stream) : (s.modStream f).conn = s.conn := rfl
@[simp] theorem State.modStream_ctbase (s : State) (f : Stream → Stream) : (s.modStream f).ctbase = s.ctbase := rfl
@[simp] theorem State.modStream_connNext (s : State) (f : Stream → Stream) : (s.modStream f).connNext = s.connNext := rfl
@[simp] theorem State.modStream_ctbaseNext (s : State) (f : Stream → Stream) : (s.modStream f).ctbaseNext = s.ctbaseNext := rfl
@[simp] theorem State.modStream_sup (s : State) (f : Stream → Stream) : (s.modStream f).sup = s.sup := rfl
@[simp] theorem State.modStream_host (s : State) (f : Stream → Stream) : (s.modStream f).host = s.host := rfl
@[simp] theorem State.modStream_fab (s : State) (f : Stream → Stream) : (s.modStream f).fab = s.fab := rfl
@[simp] theorem State.modStream_life (s : State) (f : Stream → Stream) : (s.modStream f).life = s.life := rfl
@[simp] theorem State.modStream_dom_beds (s : State) (f : Stream → Stream) :
    (s.modStream f).dom.beds = s.dom.beds := rfl
@[simp] theorem State.modStream_dom_dies (s : State) (f : Stream → Stream) :
    (s.modStream f).dom.dies = s.dom.dies := rfl
@[simp] theorem State.modStream_dom_launches (s : State) (f : Stream → Stream) :
    (s.modStream f).dom.launches = s.dom.launches := rfl
@[simp] theorem State.modStream_dom_nextLaunch (s : State) (f : Stream → Stream) :
    (s.modStream f).dom.nextLaunch = s.dom.nextLaunch := rfl
@[simp] theorem State.modStream_dom_poolLast (s : State) (f : Stream → Stream) :
    (s.modStream f).dom.poolLast = s.dom.poolLast := rfl
@[simp] theorem State.modStream_dom_poolCount (s : State) (f : Stream → Stream) :
    (s.modStream f).dom.poolCount = s.dom.poolCount := rfl
@[simp] theorem State.modStream_dom_ctxs (s : State) (f : Stream → Stream) :
    (s.modStream f).dom.ctxs = s.dom.ctxs := rfl
@[simp] theorem State.modStream_dom_queues (s : State) (f : Stream → Stream) :
    (s.modStream f).dom.queues = s.dom.queues := rfl
@[simp] theorem State.modStream_dom_events (s : State) (f : Stream → Stream) :
    (s.modStream f).dom.events = s.dom.events := rfl
@[simp] theorem State.modStream_dom_partials (s : State) (f : Stream → Stream) :
    (s.modStream f).dom.partials = s.dom.partials := rfl
@[simp] theorem State.modStream_dom_sevs (s : State) (f : Stream → Stream) :
    (s.modStream f).dom.sevs = s.dom.sevs := rfl
@[simp] theorem State.modStream_dom_remote (s : State) (f : Stream → Stream) :
    (s.modStream f).dom.remote = s.dom.remote := rfl
@[simp] theorem State.modStream_dom_contribs (s : State) (f : Stream → Stream) :
    (s.modStream f).dom.contribs = s.dom.contribs := rfl
@[simp] theorem State.modStream_dom_reports (s : State) (f : Stream → Stream) :
    (s.modStream f).dom.reports = s.dom.reports := rfl
@[simp] theorem State.modStream_dom_fills (s : State) (f : Stream → Stream) :
    (s.modStream f).dom.fills = s.dom.fills := rfl
@[simp] theorem State.modStream_dom_transplants (s : State) (f : Stream → Stream) :
    (s.modStream f).dom.transplants = s.dom.transplants := rfl
@[simp] theorem State.modStream_dom_saved (s : State) (f : Stream → Stream) :
    (s.modStream f).dom.saved = s.dom.saved := rfl
@[simp] theorem State.modStream_dom_savedBeds (s : State) (f : Stream → Stream) :
    (s.modStream f).dom.savedBeds = s.dom.savedBeds := rfl
@[simp] theorem State.modStream_dom_rounds (s : State) (f : Stream → Stream) :
    (s.modStream f).dom.rounds = s.dom.rounds := rfl
@[simp] theorem State.modStream_dom_nextId (s : State) (f : Stream → Stream) :
    (s.modStream f).dom.nextId = s.dom.nextId := rfl

/-! ### `setStream` -/

@[simp] theorem Core.setStream_mode (k : Core) (e : Nat) (t : Stream) : (k.setStream e t).mode = k.mode := rfl
@[simp] theorem Core.setStream_launch (k : Core) (e : Nat) (t : Stream) : (k.setStream e t).launch = k.launch := rfl
@[simp] theorem Core.setStream_a (k : Core) (e : Nat) (t : Stream) : (k.setStream e t).a = k.a := rfl
@[simp] theorem Core.setStream_m (k : Core) (e : Nat) (t : Stream) : (k.setStream e t).m = k.m := rfl
@[simp] theorem Core.setStream_w (k : Core) (e : Nat) (t : Stream) : (k.setStream e t).w = k.w := rfl
@[simp] theorem Core.setStream_s (k : Core) (e : Nat) (t : Stream) : (k.setStream e t).s = k.s := rfl
@[simp] theorem Core.setStream_v (k : Core) (e : Nat) (t : Stream) : (k.setStream e t).v = k.v := rfl
@[simp] theorem Core.setStream_g (k : Core) (e : Nat) (t : Stream) : (k.setStream e t).g = k.g := rfl
@[simp] theorem Core.setStream_fflg (k : Core) (e : Nat) (t : Stream) : (k.setStream e t).fflg = k.fflg := rfl
@[simp] theorem Core.setStream_ix (k : Core) (e : Nat) (t : Stream) : (k.setStream e t).ix = k.ix := rfl
@[simp] theorem Core.setStream_mbx (k : Core) (e : Nat) (t : Stream) : (k.setStream e t).mbx = k.mbx := rfl
@[simp] theorem Core.setStream_csr (k : Core) (e : Nat) (t : Stream) : (k.setStream e t).csr = k.csr := rfl
@[simp] theorem Core.setStream_lq (k : Core) (e : Nat) (t : Stream) : (k.setStream e t).lq = k.lq := rfl
@[simp] theorem Core.setStream_sq (k : Core) (e : Nat) (t : Stream) : (k.setStream e t).sq = k.sq := rfl
@[simp] theorem Core.setStream_tok (k : Core) (e : Nat) (t : Stream) : (k.setStream e t).tok = k.tok := rfl
@[simp] theorem Core.setStream_obAX (k : Core) (e : Nat) (t : Stream) : (k.setStream e t).obAX = k.obAX := rfl
@[simp] theorem Core.setStream_obXA (k : Core) (e : Nat) (t : Stream) : (k.setStream e t).obXA = k.obXA := rfl
@[simp] theorem Core.setStream_group (k : Core) (e : Nat) (t : Stream) : (k.setStream e t).group = k.group := rfl
@[simp] theorem Core.setStream_agreed (k : Core) (e : Nat) (t : Stream) : (k.setStream e t).agreed = k.agreed := rfl
@[simp] theorem Core.setStream_fork (k : Core) (e : Nat) (t : Stream) : (k.setStream e t).fork = k.fork := rfl
@[simp] theorem Core.setStream_fmt (k : Core) (e : Nat) (t : Stream) : (k.setStream e t).fmt = k.fmt := rfl
@[simp] theorem Core.setStream_fb (k : Core) (e : Nat) (t : Stream) : (k.setStream e t).fb = k.fb := rfl
@[simp] theorem Core.setStream_pin (k : Core) (e : Nat) (t : Stream) : (k.setStream e t).pin = k.pin := rfl
@[simp] theorem Core.setStream_tlIssued (k : Core) (e : Nat) (t : Stream) : (k.setStream e t).tlIssued = k.tlIssued := rfl
@[simp] theorem Core.setStream_tlDone (k : Core) (e : Nat) (t : Stream) : (k.setStream e t).tlDone = k.tlDone := rfl
@[simp] theorem Core.setStream_tlOut (k : Core) (e : Nat) (t : Stream) : (k.setStream e t).tlOut = k.tlOut := rfl
@[simp] theorem Core.setStream_copies (k : Core) (e : Nat) (t : Stream) : (k.setStream e t).copies = k.copies := rfl
@[simp] theorem Core.setStream_closeNum (k : Core) (e : Nat) (t : Stream) : (k.setStream e t).closeNum = k.closeNum := rfl
@[simp] theorem Core.setStream_lease (k : Core) (e : Nat) (t : Stream) : (k.setStream e t).lease = k.lease := rfl
@[simp] theorem Core.setStream_leaseWant (k : Core) (e : Nat) (t : Stream) : (k.setStream e t).leaseWant = k.leaseWant := rfl
@[simp] theorem Core.setStream_spad (k : Core) (e : Nat) (t : Stream) : (k.setStream e t).spad = k.spad := rfl
@[simp] theorem Core.setStream_scr (k : Core) (e : Nat) (t : Stream) : (k.setStream e t).scr = k.scr := rfl
@[simp] theorem Core.setStream_owned (k : Core) (e : Nat) (t : Stream) : (k.setStream e t).owned = k.owned := rfl
@[simp] theorem Core.setStream_near (k : Core) (e : Nat) (t : Stream) : (k.setStream e t).near = k.near := rfl
@[simp] theorem Core.setStream_wrote (k : Core) (e : Nat) (t : Stream) : (k.setStream e t).wrote = k.wrote := rfl
@[simp] theorem Core.setStream_floors (k : Core) (e : Nat) (t : Stream) : (k.setStream e t).floors = k.floors := rfl
@[simp] theorem Core.setStream_acquires (k : Core) (e : Nat) (t : Stream) : (k.setStream e t).acquires = k.acquires := rfl
@[simp] theorem Core.setStream_tie (k : Core) (e : Nat) (t : Stream) : (k.setStream e t).tie = k.tie := rfl
@[simp] theorem Core.setStream_mismatch (k : Core) (e : Nat) (t : Stream) : (k.setStream e t).mismatch = k.mismatch := rfl
@[simp] theorem Core.setStream_floor (k : Core) (e : Nat) (t : Stream) : (k.setStream e t).floor = k.floor := rfl
@[simp] theorem Core.setStream_stores (k : Core) (e : Nat) (t : Stream) : (k.setStream e t).stores = k.stores := rfl
@[simp] theorem Core.setStream_arrived (k : Core) (e : Nat) (t : Stream) : (k.setStream e t).arrived = k.arrived := rfl
@[simp] theorem Core.setStream_counted (k : Core) (e : Nat) (t : Stream) : (k.setStream e t).counted = k.counted := rfl
@[simp] theorem Core.setStream_releases (k : Core) (e : Nat) (t : Stream) : (k.setStream e t).releases = k.releases := rfl
@[simp] theorem Core.setStream_nextId (k : Core) (e : Nat) (t : Stream) : (k.setStream e t).nextId = k.nextId := rfl
@[simp] theorem Core.setStream_tlb (k : Core) (e : Nat) (t : Stream) : (k.setStream e t).tlb = k.tlb := rfl
@[simp] theorem Core.setStream_trackers (k : Core) (e : Nat) (t : Stream) : (k.setStream e t).trackers = k.trackers := rfl
@[simp] theorem Core.setStream_rounds (k : Core) (e : Nat) (t : Stream) : (k.setStream e t).rounds = k.rounds := rfl
@[simp] theorem Core.setStream_frame (k : Core) (e : Nat) (t : Stream) : (k.setStream e t).frame = k.frame := rfl
@[simp] theorem Core.setStream_reports (k : Core) (e : Nat) (t : Stream) : (k.setStream e t).reports = k.reports := rfl
@[simp] theorem Core.setStream_reportOvf (k : Core) (e : Nat) (t : Stream) : (k.setStream e t).reportOvf = k.reportOvf := rfl
@[simp] theorem Core.setStream_served (k : Core) (e : Nat) (t : Stream) : (k.setStream e t).served = k.served := rfl
@[simp] theorem Core.setStream_faultAt (k : Core) (e : Nat) (t : Stream) : (k.setStream e t).faultAt = k.faultAt := rfl
@[simp] theorem Core.setStream_preempt (k : Core) (e : Nat) (t : Stream) : (k.setStream e t).preempt = k.preempt := rfl
@[simp] theorem Core.setStream_deferred (k : Core) (e : Nat) (t : Stream) : (k.setStream e t).deferred = k.deferred := rfl
@[simp] theorem Core.setStream_moves (k : Core) (e : Nat) (t : Stream) : (k.setStream e t).moves = k.moves := rfl
@[simp] theorem Core.setStream_iter (k : Core) (e : Nat) (t : Stream) : (k.setStream e t).iter = k.iter := rfl
@[simp] theorem Core.setStream_iterStart (k : Core) (e : Nat) (t : Stream) : (k.setStream e t).iterStart = k.iterStart := rfl

/-! ### Reading what has been written -/

@[simp] theorem Core.stream_setStream_same (k : Core) (e : Nat) (t : Stream) :
    (k.setStream e t).stream e = t := Tbl.get_put_same _ _ _ _

theorem Core.stream_setStream_other (k : Core) {e j : Nat} (t : Stream) (h : j ≠ e) :
    (k.setStream e t).stream j = k.stream j := Tbl.get_put_other _ _ _ h

@[simp] theorem State.core_setCore_same (s : State) (c : Nat) (k : Core) : (s.setCore c k).core c = k :=
  Tbl.get_put_same _ _ _ _

theorem State.core_setCore_other (s : State) {c j : Nat} (k : Core) (h : j ≠ c) :
    (s.setCore c k).core j = s.core j := Tbl.get_put_other _ _ _ h

@[simp] theorem State.bed_setBed_same (s : State) (b : Nat) (x : Bed) : (s.setBed b x).bed b = x :=
  Tbl.get_put_same _ _ _ _

theorem State.bed_setBed_other (s : State) {b j : Nat} (x : Bed) (h : j ≠ b) :
    (s.setBed b x).bed j = s.bed j := Tbl.get_put_other _ _ _ h

@[simp] theorem State.die_setDie_same (s : State) (d : Nat) (x : Die) : (s.setDie d x).die d = x :=
  Tbl.get_put_same _ _ _ _

theorem State.die_setDie_other (s : State) {d j : Nat} (x : Die) (h : j ≠ d) :
    (s.setDie d x).die j = s.die j := Tbl.get_put_other _ _ _ h

@[simp] theorem State.launch_setLaunch_same (s : State) (l : Nat) (x : Launch) :
    (s.setLaunch l x).launch l = x := Tbl.get_put_same _ _ _ _

theorem State.launch_setLaunch_other (s : State) {l j : Nat} (x : Launch) (h : j ≠ l) :
    (s.setLaunch l x).launch j = s.launch j := Tbl.get_put_other _ _ _ h

/-- The issuing core after a change of it. -/
@[simp] theorem State.cc_modCore (s : State) (f : Core → Core) : (s.modCore f).cc = f s.cc :=
  Tbl.get_put_same _ _ _ _

/-- The issuing stream after a change of it. -/
@[simp] theorem State.cs_modStream (s : State) (f : Stream → Stream) : (s.modStream f).cs = f s.cs := by
  simp [State.cs, State.modStream]

/-- A change of the issuing stream leaves another core as it was. -/
theorem State.core_modCore_other (s : State) (f : Core → Core) {c : Nat} (h : c ≠ s.cur.core) :
    (s.modCore f).core c = s.core c := Tbl.get_put_other _ _ _ h

theorem State.core_modStream_other (s : State) (f : Stream → Stream) {c : Nat} (h : c ≠ s.cur.core) :
    (s.modStream f).core c = s.core c := Tbl.get_put_other _ _ _ h

/-! ### The issuing core after a change of its stream -/

@[simp] theorem State.cc_modStream_mode (s : State) (f : Stream → Stream) : (s.modStream f).cc.mode = s.cc.mode := by
  simp [State.modStream]
@[simp] theorem State.cc_modStream_launch (s : State) (f : Stream → Stream) : (s.modStream f).cc.launch = s.cc.launch := by
  simp [State.modStream]
@[simp] theorem State.cc_modStream_a (s : State) (f : Stream → Stream) : (s.modStream f).cc.a = s.cc.a := by
  simp [State.modStream]
@[simp] theorem State.cc_modStream_m (s : State) (f : Stream → Stream) : (s.modStream f).cc.m = s.cc.m := by
  simp [State.modStream]
@[simp] theorem State.cc_modStream_w (s : State) (f : Stream → Stream) : (s.modStream f).cc.w = s.cc.w := by
  simp [State.modStream]
@[simp] theorem State.cc_modStream_s (s : State) (f : Stream → Stream) : (s.modStream f).cc.s = s.cc.s := by
  simp [State.modStream]
@[simp] theorem State.cc_modStream_v (s : State) (f : Stream → Stream) : (s.modStream f).cc.v = s.cc.v := by
  simp [State.modStream]
@[simp] theorem State.cc_modStream_g (s : State) (f : Stream → Stream) : (s.modStream f).cc.g = s.cc.g := by
  simp [State.modStream]
@[simp] theorem State.cc_modStream_fflg (s : State) (f : Stream → Stream) : (s.modStream f).cc.fflg = s.cc.fflg := by
  simp [State.modStream]
@[simp] theorem State.cc_modStream_ix (s : State) (f : Stream → Stream) : (s.modStream f).cc.ix = s.cc.ix := by
  simp [State.modStream]
@[simp] theorem State.cc_modStream_mbx (s : State) (f : Stream → Stream) : (s.modStream f).cc.mbx = s.cc.mbx := by
  simp [State.modStream]
@[simp] theorem State.cc_modStream_csr (s : State) (f : Stream → Stream) : (s.modStream f).cc.csr = s.cc.csr := by
  simp [State.modStream]
@[simp] theorem State.cc_modStream_lq (s : State) (f : Stream → Stream) : (s.modStream f).cc.lq = s.cc.lq := by
  simp [State.modStream]
@[simp] theorem State.cc_modStream_sq (s : State) (f : Stream → Stream) : (s.modStream f).cc.sq = s.cc.sq := by
  simp [State.modStream]
@[simp] theorem State.cc_modStream_tok (s : State) (f : Stream → Stream) : (s.modStream f).cc.tok = s.cc.tok := by
  simp [State.modStream]
@[simp] theorem State.cc_modStream_obAX (s : State) (f : Stream → Stream) : (s.modStream f).cc.obAX = s.cc.obAX := by
  simp [State.modStream]
@[simp] theorem State.cc_modStream_obXA (s : State) (f : Stream → Stream) : (s.modStream f).cc.obXA = s.cc.obXA := by
  simp [State.modStream]
@[simp] theorem State.cc_modStream_group (s : State) (f : Stream → Stream) : (s.modStream f).cc.group = s.cc.group := by
  simp [State.modStream]
@[simp] theorem State.cc_modStream_agreed (s : State) (f : Stream → Stream) : (s.modStream f).cc.agreed = s.cc.agreed := by
  simp [State.modStream]
@[simp] theorem State.cc_modStream_fork (s : State) (f : Stream → Stream) : (s.modStream f).cc.fork = s.cc.fork := by
  simp [State.modStream]
@[simp] theorem State.cc_modStream_fmt (s : State) (f : Stream → Stream) : (s.modStream f).cc.fmt = s.cc.fmt := by
  simp [State.modStream]
@[simp] theorem State.cc_modStream_fb (s : State) (f : Stream → Stream) : (s.modStream f).cc.fb = s.cc.fb := by
  simp [State.modStream]
@[simp] theorem State.cc_modStream_pin (s : State) (f : Stream → Stream) : (s.modStream f).cc.pin = s.cc.pin := by
  simp [State.modStream]
@[simp] theorem State.cc_modStream_tlIssued (s : State) (f : Stream → Stream) : (s.modStream f).cc.tlIssued = s.cc.tlIssued := by
  simp [State.modStream]
@[simp] theorem State.cc_modStream_tlDone (s : State) (f : Stream → Stream) : (s.modStream f).cc.tlDone = s.cc.tlDone := by
  simp [State.modStream]
@[simp] theorem State.cc_modStream_tlOut (s : State) (f : Stream → Stream) : (s.modStream f).cc.tlOut = s.cc.tlOut := by
  simp [State.modStream]
@[simp] theorem State.cc_modStream_copies (s : State) (f : Stream → Stream) : (s.modStream f).cc.copies = s.cc.copies := by
  simp [State.modStream]
@[simp] theorem State.cc_modStream_closeNum (s : State) (f : Stream → Stream) : (s.modStream f).cc.closeNum = s.cc.closeNum := by
  simp [State.modStream]
@[simp] theorem State.cc_modStream_lease (s : State) (f : Stream → Stream) : (s.modStream f).cc.lease = s.cc.lease := by
  simp [State.modStream]
@[simp] theorem State.cc_modStream_leaseWant (s : State) (f : Stream → Stream) : (s.modStream f).cc.leaseWant = s.cc.leaseWant := by
  simp [State.modStream]
@[simp] theorem State.cc_modStream_spad (s : State) (f : Stream → Stream) : (s.modStream f).cc.spad = s.cc.spad := by
  simp [State.modStream]
@[simp] theorem State.cc_modStream_scr (s : State) (f : Stream → Stream) : (s.modStream f).cc.scr = s.cc.scr := by
  simp [State.modStream]
@[simp] theorem State.cc_modStream_owned (s : State) (f : Stream → Stream) : (s.modStream f).cc.owned = s.cc.owned := by
  simp [State.modStream]
@[simp] theorem State.cc_modStream_near (s : State) (f : Stream → Stream) : (s.modStream f).cc.near = s.cc.near := by
  simp [State.modStream]
@[simp] theorem State.cc_modStream_wrote (s : State) (f : Stream → Stream) : (s.modStream f).cc.wrote = s.cc.wrote := by
  simp [State.modStream]
@[simp] theorem State.cc_modStream_floors (s : State) (f : Stream → Stream) : (s.modStream f).cc.floors = s.cc.floors := by
  simp [State.modStream]
@[simp] theorem State.cc_modStream_acquires (s : State) (f : Stream → Stream) : (s.modStream f).cc.acquires = s.cc.acquires := by
  simp [State.modStream]
@[simp] theorem State.cc_modStream_tie (s : State) (f : Stream → Stream) : (s.modStream f).cc.tie = s.cc.tie := by
  simp [State.modStream]
@[simp] theorem State.cc_modStream_mismatch (s : State) (f : Stream → Stream) : (s.modStream f).cc.mismatch = s.cc.mismatch := by
  simp [State.modStream]
@[simp] theorem State.cc_modStream_floor (s : State) (f : Stream → Stream) : (s.modStream f).cc.floor = s.cc.floor := by
  simp [State.modStream]
@[simp] theorem State.cc_modStream_stores (s : State) (f : Stream → Stream) : (s.modStream f).cc.stores = s.cc.stores := by
  simp [State.modStream]
@[simp] theorem State.cc_modStream_arrived (s : State) (f : Stream → Stream) : (s.modStream f).cc.arrived = s.cc.arrived := by
  simp [State.modStream]
@[simp] theorem State.cc_modStream_counted (s : State) (f : Stream → Stream) : (s.modStream f).cc.counted = s.cc.counted := by
  simp [State.modStream]
@[simp] theorem State.cc_modStream_releases (s : State) (f : Stream → Stream) : (s.modStream f).cc.releases = s.cc.releases := by
  simp [State.modStream]
@[simp] theorem State.cc_modStream_nextId (s : State) (f : Stream → Stream) : (s.modStream f).cc.nextId = s.cc.nextId := by
  simp [State.modStream]
@[simp] theorem State.cc_modStream_tlb (s : State) (f : Stream → Stream) : (s.modStream f).cc.tlb = s.cc.tlb := by
  simp [State.modStream]
@[simp] theorem State.cc_modStream_trackers (s : State) (f : Stream → Stream) : (s.modStream f).cc.trackers = s.cc.trackers := by
  simp [State.modStream]
@[simp] theorem State.cc_modStream_rounds (s : State) (f : Stream → Stream) : (s.modStream f).cc.rounds = s.cc.rounds := by
  simp [State.modStream]
@[simp] theorem State.cc_modStream_frame (s : State) (f : Stream → Stream) : (s.modStream f).cc.frame = s.cc.frame := by
  simp [State.modStream]
@[simp] theorem State.cc_modStream_reports (s : State) (f : Stream → Stream) : (s.modStream f).cc.reports = s.cc.reports := by
  simp [State.modStream]
@[simp] theorem State.cc_modStream_reportOvf (s : State) (f : Stream → Stream) : (s.modStream f).cc.reportOvf = s.cc.reportOvf := by
  simp [State.modStream]
@[simp] theorem State.cc_modStream_served (s : State) (f : Stream → Stream) : (s.modStream f).cc.served = s.cc.served := by
  simp [State.modStream]
@[simp] theorem State.cc_modStream_faultAt (s : State) (f : Stream → Stream) : (s.modStream f).cc.faultAt = s.cc.faultAt := by
  simp [State.modStream]
@[simp] theorem State.cc_modStream_preempt (s : State) (f : Stream → Stream) : (s.modStream f).cc.preempt = s.cc.preempt := by
  simp [State.modStream]
@[simp] theorem State.cc_modStream_deferred (s : State) (f : Stream → Stream) : (s.modStream f).cc.deferred = s.cc.deferred := by
  simp [State.modStream]
@[simp] theorem State.cc_modStream_moves (s : State) (f : Stream → Stream) : (s.modStream f).cc.moves = s.cc.moves := by
  simp [State.modStream]
@[simp] theorem State.cc_modStream_iter (s : State) (f : Stream → Stream) : (s.modStream f).cc.iter = s.cc.iter := by
  simp [State.modStream]
@[simp] theorem State.cc_modStream_iterStart (s : State) (f : Stream → Stream) : (s.modStream f).cc.iterStart = s.cc.iterStart := by
  simp [State.modStream]

end Sys2Proof.Machine
end

