-- ==== Sys2Proof/Laws/Slot.lean ====
section
/-!
SUPPORT. The frame of a slot: what the step of a word answers once the effect of its repetition is known.
-/

namespace Sys2Proof.Machine

open Sys2Proof

/-! ### Parts in sequence -/

/-- The bind of two parts: the second runs where the first completes. -/
theorem act_bind {α β : Type} (a : Act α) (f : α → Act β) (s : State) :
    (a >>= f) s = match a s with
      | .ok r => f r.1 r.2
      | .error e => .error e := by
  change Except.bind (a s) (fun r => f r.1 r.2) = _
  cases h : a s <;> simp [Except.bind]

theorem act_bind_ok {α β : Type} {a : Act α} {f : α → Act β} {s t : State} {x : α}
    (h : a s = .ok (x, t)) : (a >>= f) s = f x t := by
  rw [act_bind, h]

theorem act_bind_error {α β : Type} {a : Act α} {f : α → Act β} {s : State} {e : Stop}
    (h : a s = .error e) : (a >>= f) s = .error e := by
  rw [act_bind, h]

@[simp] theorem act_pure {α : Type} (x : α) (s : State) : (pure x : Act α) s = .ok (x, s) := rfl
@[simp] theorem act_get (s : State) : (get : Act State) s = .ok (s, s) := rfl
@[simp] theorem act_change (f : State → State) (s : State) : change f s = .ok ((), f s) := rfl
@[simp] theorem act_changeCore (f : Core → Core) (s : State) :
    changeCore f s = .ok ((), s.modCore f) := rfl
@[simp] theorem act_changeStream (f : Stream → Stream) (s : State) :
    changeStream f s = .ok ((), s.modStream f) := rfl
@[simp] theorem act_addPend (tgt : PTarget) (mask : Mask) (data : VReg) (flg : BitVec 5) (L : Nat) (s : State) :
    addPend tgt mask data flg L true none s = .ok ((), issued tgt mask data flg L s) := rfl
@[simp] theorem act_raise {α : Type} (f : FaultInfo) (s : State) :
    (raise f : Act α) s = .error (.fault f s) := rfl
@[simp] theorem act_raiseCode {α : Type} (c : Nat) (s : State) :
    (raiseCode c : Act α) s = .error (.fault { code := c } s) := rfl
@[simp] theorem act_stall {α : Type} (c : Nat) (s : State) :
    (stall c : Act α) s = .error (.stall c s) := rfl
@[simp] theorem act_raiseIf_false (c : Nat) (s : State) : raiseIf false c s = .ok ((), s) := rfl

/-- A write of a scalar register, completed. -/
@[simp] theorem act_writeReg (r : Reg) (x : Dword) (L : Nat) (s : State) :
    writeReg r x L s = .ok ((), issuedReg r x L s) := by
  unfold writeReg issuedReg
  split <;> rfl

theorem afterOf_ok {α : Type} {a : Act α} {s t : State} {x : α} (h : a s = .ok (x, t)) :
    afterOf a s = t := by
  simp [afterOf, h]

theorem okB_iff {α : Type} {a : Act α} {s : State} :
    okB a s = true ↔ ∃ x t, a s = .ok (x, t) := by
  unfold okB
  cases h : a s with
  | ok r => exact ⟨fun _ => ⟨r.1, r.2, rfl⟩, fun _ => rfl⟩
  | error e => simp

/-- A part that completes leaves the state that `afterOf` names. -/
theorem act_of_okB {a : Act Unit} {s : State} (h : okB a s = true) : a s = .ok ((), afterOf a s) := by
  obtain ⟨x, t, h⟩ := okB_iff.1 h
  simp [afterOf, h]

/-! ### The signals of a word never take an unkept fault -/

/-- A wait, or a fault that keeps what is done. -/
def Keeps : Stop → Prop
  | .stall _ _ => True
  | .fault f _ => f.keep = true

/-- A part that stops only so. -/
def Keeping {α : Type} (a : Act α) : Prop := ∀ s e, a s = .error e → Keeps e

theorem keeping_bind {α β : Type} {a : Act α} {f : α → Act β} (ha : Keeping a) (hf : ∀ x, Keeping (f x)) :
    Keeping (a >>= f) := by
  intro s e h
  rw [act_bind] at h
  cases hx : a s with
  | ok r =>
    rw [hx] at h
    exact hf _ _ _ h
  | error e' =>
    rw [hx] at h
    cases h
    exact ha _ _ hx

theorem keeping_of_ok {a : Act Unit} {s : State} {e : Stop} (h : a s = .error e) (hk : ∃ t, a s = .ok ((), t)) :
    Keeps e := by
  obtain ⟨t, ht⟩ := hk
  rw [ht] at h
  cases h

theorem keeping_signalFull : Keeping signalFull := by
  intro s e h
  unfold signalFull at h
  split at h <;> cases h <;> simp [Keeps]

theorem giveN_ok {q n : Nat} {s : State} (h : ¬ 15 < (s.cc.tokens q).length + n) :
    ∃ t, giveN q n s = .ok ((), t) := by
  unfold giveN
  simp [h]

theorem giveN_tokens {q n : Nat} {s t : State} (h : giveN q n s = .ok ((), t)) {p : Nat} (hp : p ≠ q) :
    t.cc.tokens p = s.cc.tokens p := by
  unfold giveN at h
  simp only at h
  split at h
  · unfold cannot at h
    split at h <;> simp at h
  · cases h
    simp [Core.tokens, Tbl.get_put_other _ _ _ hp]

/-- The signals of a word: a stop keeps what the word has done. -/
theorem keeping_giveTokens (w : Wrd) : Keeping (giveTokens w) := by
  intro s e h
  have hq : tokQ w.eng true ≠ tokQ w.eng false := by
    unfold tokQ
    simp
  unfold giveTokens at h
  rw [act_bind, act_get] at h
  simp only at h
  split at h
  · rw [act_bind] at h
    cases hr : signalFull s with
    | ok r =>
      unfold signalFull at hr
      split at hr <;> simp at hr
    | error e' =>
      rw [hr] at h
      cases h
      exact keeping_signalFull s _ hr
  · rename_i hf
    simp only [Bool.or_eq_true, Bool.and_eq_true, decide_eq_true_eq, not_or, not_and, Nat.not_le] at hf
    split at h
    · rename_i hsp
      obtain ⟨t, ht⟩ := giveN_ok (q := tokQ w.eng false) (n := 1) (s := s) (by have := hf.1 hsp; omega)
      rw [act_bind, ht] at h
      simp only at h
      split at h
      · rename_i hsn
        exact keeping_of_ok h
          (giveN_ok (by rw [giveN_tokens ht hq]; have := hf.2 hsn; omega))
      · cases h
    · split at h
      · rename_i hsn
        exact keeping_of_ok h (giveN_ok (by have := hf.2 hsn; omega))
      · cases h

/-- A part that always completes. -/
def Total (a : Act Unit) : Prop := ∀ s, ∃ t, a s = .ok ((), t)

theorem total_nextWord : Total nextWord := by
  intro s
  unfold nextWord
  simp only
  split
  · exact ⟨_, rfl⟩
  · split <;> exact ⟨_, rfl⟩

theorem total_pure : Total (pure ()) := fun s => ⟨s, rfl⟩

theorem keeping_total {a : Act Unit} (h : Total a) : Keeping a :=
  fun s _ he => keeping_of_ok he (h s)

/-- What follows a repetition stops only with a wait, or with a fault that keeps what is done. -/
theorem keeping_slotExit (w : Wrd) {fin : Act Unit} (hf : Total fin) : Keeping (slotExit w fin) := by
  have he : Keeping (endWord w) := keeping_total fun s => ⟨_, rfl⟩
  unfold slotExit
  refine keeping_bind (keeping_total fun s => ⟨_, rfl⟩) fun _ => keeping_bind (fun s e h => by cases h) fun s => ?_
  split
  · exact keeping_bind (keeping_giveTokens w) fun _ => keeping_bind (keeping_total hf) fun _ => he
  · exact keeping_total total_pure

/-! ### A repetition -/

/-- The step of a word whose repetition completes with `t` answers the state after it. -/
theorem settle_slot {w : Wrd} {body fin : Act Unit} {s t : State} (hf : Total fin)
    (hb : body (atSlot w s) = .ok ((), t)) (he : okB (slotEntry w) s = true)
    (hr : (atSlot w s).cs.repd ≤ w.rep.toNat) :
    settle (slot w body fin) s = settle (slotExit w fin) t := by
  have h : slot w body fin s = slotExit w fin t := by
    have e1 : ∀ k : Unit → Act Unit, (boundary >>= fun _ => takeTokens w >>= k) s = k () (atSlot w s) := by
      intro k
      have h := act_of_okB he
      unfold slotEntry at h
      rw [act_bind] at h ⊢
      cases hx : boundary s with
      | error e => simp [hx] at h
      | ok r =>
        rw [hx] at h
        simp only at h ⊢
        exact act_bind_ok h
    unfold slot
    rw [e1, act_bind, act_get]
    simp only [hr, if_true]
    rw [act_bind_ok hb]
    rfl
  unfold settle
  rw [h]
  cases hx : slotExit w fin t with
  | ok r => rfl
  | error e =>
    have := keeping_slotExit w hf t e hx
    cases e with
    | stall c x => rfl
    | fault f x =>
      simp [stopped, show f.keep = true from this]

/-- A word whose repetition completes runs it. -/
theorem word_runs {i : Instr} {w : Wrd} {s t : State} {body : Act Unit}
    (hi : exec i s = word w body s) (ho : slotOpen w s = true)
    (hb : body (atSlot w s) = .ok ((), t)) : Runs i w s t := by
  unfold slotOpen at ho
  simp only [Bool.and_eq_true, beq_iff_eq, decide_eq_true_eq] at ho
  obtain ⟨⟨⟨hp, hc⟩, he⟩, hr⟩ := ho
  unfold Runs
  rw [hi]
  unfold word issueWord
  simp only [hp, ne_eq, not_true, if_false, hc, if_true]
  rw [settle_slot total_nextWord hb he hr]
  rfl

end Sys2Proof.Machine
end

