-- ==== Sys2Proof/Laws/Operands.lean ====
section
/-!
SUPPORT. The operand forms of X words: what the checks, the reads and the pops of queues come to once the
queues are ready.
-/

namespace Sys2Proof.Machine

open Sys2Proof

/-! ### Heads of load queues -/

theorem lqHead_ok {s : State} {q : Nat} {e : QEntry} {read : Bool}
    (h : headOf s.cluster (s.cc.loadQ q) = some e) (hv : read = true → e.valid = true) :
    lqHead q read s = .ok (e, s) := by
  unfold lqHead
  rw [h]
  simp only
  cases read with
  | false => simp
  | true => simp [hv rfl]

/-- The source is a queue head that is there, whether or not its data is. -/
theorem srcReady_lq {s : State} {i : Fin 8} (h : srcReady true (.lq i) s = true) :
    ∃ e, headOf s.cluster (s.cc.loadQ i.val) = some e ∧ e.valid = true := by
  unfold srcReady at h
  cases hh : headOf s.cluster (s.cc.loadQ i.val) with
  | none => simp [hh] at h
  | some e => exact ⟨e, rfl, by simpa [hh] using h⟩

theorem srcReady_lk {s : State} {i : Fin 8} (h : srcReady true (.lk i) s = true) :
    ∃ e, headOf s.cluster (s.cc.loadQ i.val) = some e ∧ e.valid = true := by
  unfold srcReady at h
  cases hh : headOf s.cluster (s.cc.loadQ i.val) with
  | none => simp [hh] at h
  | some e => exact ⟨e, rfl, by simpa [hh] using h⟩

/-! ### Pops -/

/-- The pops of a word leave the clusters that it acts on. -/
@[simp] theorem popOne_cluster (s : State) (q : Nat) : (popOne s q).cluster = s.cluster := by
  unfold popOne
  split
  · rfl
  · simp [State.cluster, Core.forked]

theorem popOne_loadQ_other (s : State) {q p : Nat} (h : p ≠ q) :
    (popOne s q).cc.loadQ p = s.cc.loadQ p := by
  unfold popOne
  split
  · rfl
  · simp [Core.loadQ, Tbl.get_put_other _ _ _ h]

theorem popLq_ok {s : State} {q : Nat} {e : QEntry} (h : headOf s.cluster (s.cc.loadQ q) = some e) :
    popLq q s = .ok ((), popOne s q) := by
  unfold popLq
  rw [act_bind_ok (lqHead_ok (read := false) h (by simp)), act_bind, act_get]
  simp only [popOne, h]
  rfl

theorem popNamed_ok (l : List Nat) (s : State) (hn : l.Nodup)
    (h : ∀ q ∈ l, ∃ e, headOf s.cluster (s.cc.loadQ q) = some e) :
    popNamed l s = .ok ((), l.foldl popOne s) := by
  induction l generalizing s with
  | nil => rfl
  | cons q r ih =>
    obtain ⟨e, he⟩ := h q (by simp)
    have hq : q ∉ r := (List.nodup_cons.1 hn).1
    unfold popNamed
    rw [act_bind_ok (popLq_ok he)]
    simp only [List.foldl_cons]
    refine ih _ (List.nodup_cons.1 hn).2 fun p hp => ?_
    rw [popOne_cluster, popOne_loadQ_other s (fun hpq => hq (by rw [← hpq]; exact hp))]
    exact h p (by simp [hp])

theorem insertN_mem {x y : Nat} {l : List Nat} : y ∈ insertN x l ↔ y = x ∨ y ∈ l := by
  induction l with
  | nil => simp [insertN]
  | cons z r ih =>
    simp only [insertN]
    split
    · simp
    · split
      · rename_i h
        subst h
        simp
      · simp only [List.mem_cons, ih]
        constructor
        · rintro (h | h | h)
          · exact .inr (.inl h)
          · exact .inl h
          · exact .inr (.inr h)
        · rintro (h | h | h)
          · exact .inr (.inl h)
          · exact .inl h
          · exact .inr (.inr h)

theorem insertN_nodup {x : Nat} {l : List Nat} (h : l.Pairwise (· < ·)) :
    (insertN x l).Pairwise (· < ·) := by
  induction l with
  | nil => simp [insertN]
  | cons z r ih =>
    have hz := List.pairwise_cons.1 h
    simp only [insertN]
    split
    · rename_i hx
      refine List.pairwise_cons.2 ⟨fun y hy => ?_, h⟩
      rcases List.mem_cons.1 hy with rfl | hy
      · exact hx
      · exact Nat.lt_trans hx (hz.1 y hy)
    · split
      · exact h
      · rename_i h1 h2
        refine List.pairwise_cons.2 ⟨fun y hy => ?_, ih hz.2⟩
        rcases insertN_mem.1 hy with rfl | hy
        · omega
        · exact hz.1 y hy

/-- The queues that a word pops, as a source names them. -/
theorem mem_lqsOf {w : Wrd} {u : Uses} {q : Nat} (h : q ∈ lqsOf w u) :
    ∃ i : Fin 8, q = i.val ∧ ((u.sa = true ∧ w.sa = .lq i) ∨ (u.sb = true ∧ w.sb = .lq i) ∨
      (u.sc = true ∧ w.sc = .lq i)) := by
  unfold lqsOf at h
  have f {b : Bool} {r : Reg} {l : List Nat} (h : q ∈ addLq b r l) :
      (∃ i : Fin 8, q = i.val ∧ b = true ∧ r = .lq i) ∨ q ∈ l := by
    unfold addLq at h
    split at h
    · split at h
      · rcases insertN_mem.1 h with h | h
        · exact .inl ⟨_, h, ‹_›, rfl⟩
        · exact .inr h
      · exact .inr h
    · exact .inr h
  rcases f h with ⟨i, h1, h2, h3⟩ | h
  · exact ⟨i, h1, .inl ⟨h2, h3⟩⟩
  rcases f h with ⟨i, h1, h2, h3⟩ | h
  · exact ⟨i, h1, .inr (.inl ⟨h2, h3⟩)⟩
  rcases f h with ⟨i, h1, h2, h3⟩ | h
  · exact ⟨i, h1, .inr (.inr ⟨h2, h3⟩)⟩
  · simp at h

theorem lqsOf_nodup (w : Wrd) (u : Uses) : (lqsOf w u).Nodup := by
  have f {b : Bool} {r : Reg} {l : List Nat} (h : l.Pairwise (· < ·)) : (addLq b r l).Pairwise (· < ·) := by
    unfold addLq
    split
    · split
      · exact insertN_nodup h
      · exact h
    · exact h
  exact (f (f (f List.Pairwise.nil))).imp fun h => Nat.ne_of_lt h

/-! ### The frame of an X word -/

theorem queueCheck_ok {w : Wrd} {u : Uses} {s : State} (h : xReady w u s = true) :
    queueCheck w u true s = .ok ((), s) := by
  unfold xReady at h
  simp only [Bool.and_eq_true] at h
  obtain ⟨⟨⟨ha, hb⟩, hc⟩, hd⟩ := h
  have chk {b : Bool} {r : Reg} (h : srcReady b r s = true) : srcCheck true b r s = .ok ((), s) := by
    cases b with
    | false => cases r <;> rfl
    | true =>
      cases r with
      | lq i =>
        obtain ⟨e, he, hv⟩ := srcReady_lq h
        simp only [srcCheck, if_true]
        rw [act_bind_ok (lqHead_ok he fun _ => hv)]
        rfl
      | lk i =>
        obtain ⟨e, he, hv⟩ := srcReady_lk h
        simp only [srcCheck, Bool.and_self, if_true]
        rw [act_bind_ok (lqHead_ok he fun _ => hv)]
        rfl
      | _ => rfl
  unfold queueCheck
  rw [act_bind_ok (chk ha), act_bind_ok (chk hb), act_bind_ok (chk hc)]
  cases hw : w.dst with
  | sq i =>
    simp only
    unfold dstReady at hd
    simp only [hw] at hd
    rw [act_bind, act_get]
    simp only
    cases hcl : s.cluster with
    | none =>
      simp only [hcl, decide_eq_true_eq] at hd
      simp [needRoom, Nat.not_le.2 hd]
    | some c =>
      simp only [hcl, Bool.or_eq_true, decide_eq_true_eq] at hd
      simp only
      split
      · rfl
      · rename_i hf
        have := hd.resolve_left hf
        simp [needRoom, Nat.not_le.2 this]
  | _ => rfl

theorem xSrc_ok {w : Wrd} {wide : Bool} {r : Reg} {s : State} (h : srcReady true r s = true) :
    xSrc w wide r s = .ok (xVal w wide s r, s) := by
  cases r with
  | lq i =>
    obtain ⟨e, he, hv⟩ := srcReady_lq h
    unfold xSrc
    rw [act_bind, act_get]
    simp only
    rw [act_bind_ok (lqHead_ok he fun _ => hv)]
    simp [xVal, he]
  | lk i =>
    obtain ⟨e, he, hv⟩ := srcReady_lk h
    unfold xSrc
    rw [act_bind, act_get]
    simp only
    rw [act_bind_ok (lqHead_ok he fun _ => hv)]
    simp [xVal, he]
  | v i => rfl
  | _ =>
    unfold xSrc xVal
    rw [act_bind, act_get]
    simp only
    split <;> rfl

/-- What a repetition of an X word comes to once its queues are ready: its effect on the values of its
sources, after the pops. -/
theorem xRep_ok {w : Wrd} {u : Uses} {wide : Bool} {body : VReg → VReg → VReg → Act Unit} {s : State}
    (h : xOpen w u s = true) :
    xRep w u wide body (atSlot w s) =
      body (xArg w wide u.sa s w.sa) (xArg w wide u.sb s w.sb) (xArg w wide u.sc s w.sc) (xPopped w u s) := by
  unfold xOpen at h
  simp only [Bool.and_eq_true, Bool.not_eq_true'] at h
  obtain ⟨⟨_, hg⟩, hr⟩ := h
  have hr' := hr
  unfold xReady at hr'
  simp only [Bool.and_eq_true] at hr'
  obtain ⟨⟨⟨ha, hb⟩, hc⟩, _⟩ := hr'
  have arg (b : Bool) (r : Reg) (h : srcReady b r (atSlot w s) = true) :
      srcRead w wide b r (atSlot w s) = .ok (xArg w wide b s r, atSlot w s) := by
    cases b with
    | false => rfl
    | true => exact xSrc_ok h
  have pops : popNamed (lqsOf w u) (atSlot w s) = .ok ((), xPopped w u s) := by
    refine popNamed_ok _ _ (lqsOf_nodup w u) fun q hq => ?_
    obtain ⟨i, rfl, hi⟩ := mem_lqsOf hq
    have get {b : Bool} {r : Reg} (hb : b = true) (hr : r = .lq i) (h : srcReady b r (atSlot w s) = true) :
        ∃ e, headOf (atSlot w s).cluster ((atSlot w s).cc.loadQ i.val) = some e := by
      subst hb
      subst hr
      obtain ⟨e, he, _⟩ := srcReady_lq h
      exact ⟨e, he⟩
    rcases hi with ⟨h1, h2⟩ | ⟨h1, h2⟩ | ⟨h1, h2⟩
    · exact get h1 h2 ha
    · exact get h1 h2 hb
    · exact get h1 h2 hc
  unfold xRep
  rw [act_bind, act_get]
  simp only [hg, Bool.false_eq_true, if_false]
  rw [act_bind_ok (queueCheck_ok hr), act_bind_ok (arg _ _ ha), act_bind_ok (arg _ _ hb),
    act_bind_ok (arg _ _ hc), act_bind_ok pops]

theorem xOpen_eng {w : Wrd} {u : Uses} {s : State} (h : xOpen w u s = true) : w.eng = .X := by
  unfold xOpen at h
  simp only [Bool.and_eq_true, beq_iff_eq] at h
  exact h.1.1.1

theorem xOpen_slot {w : Wrd} {u : Uses} {s : State} (h : xOpen w u s = true) : slotOpen w s = true := by
  unfold xOpen at h
  simp only [Bool.and_eq_true] at h
  exact h.1.1.2

/-- An X word whose effect on its sources completes runs its repetition. -/
theorem x_runs {i : Instr} {w : Wrd} {u : Uses} {wide : Bool} {body : VReg → VReg → VReg → Act Unit}
    {s t : State} (hi : exec i s = word w (xRep w u wide body) s) (ho : xOpen w u s = true)
    (hb : body (xArg w wide u.sa s w.sa) (xArg w wide u.sb s w.sb) (xArg w wide u.sc s w.sc) (xPopped w u s) =
      .ok ((), t)) : Runs i w s t := by
  refine word_runs hi (xOpen_slot ho) ?_
  rw [xRep_ok ho]
  exact hb

/-! ### Destinations -/

theorem fillSlice_isSome (c : Nat) (v v' : VReg) (l : List QEntry) :
    (fillSlice c v l).isSome = (fillSlice c v' l).isSome := by
  induction l with
  | nil => rfl
  | cons e r ih =>
    simp only [fillSlice]
    split
    · rw [Option.isSome_map, Option.isSome_map]
      exact ih
    · simp only [Option.isSome_some]

/-- A push into a store queue that has room completes. -/
theorem pushSq_ok {i : Fin 8} {w : Wrd} {s : State} (hw : w.dst = .sq i) (h : dstReady w s = true) (v : VReg) :
    ∃ t, pushSq i.val v s = .ok ((), t) := by
  unfold dstReady at h
  simp only [hw] at h
  unfold pushSq
  rw [act_bind, act_get]
  simp only
  have room (h : (s.cc.storeQ i.val).entries.length < 16) :
      needRoom (s.cc.storeQ i.val).entries.length s = .ok ((), s) := by
    simp [needRoom, Nat.not_le.2 h]
  cases hc : s.cluster with
  | none =>
    simp only [hc, decide_eq_true_eq] at h
    exact ⟨_, (act_bind_ok (room h)).trans rfl⟩
  | some c =>
    have hfs := fillSlice_isSome c v 0 (s.cc.storeQ i.val).entries
    simp only [hc, Bool.or_eq_true, decide_eq_true_eq] at h
    simp only
    cases hn : fillSlice c v (s.cc.storeQ i.val).entries with
    | some l => exact ⟨_, rfl⟩
    | none =>
      rw [hn] at hfs
      have := h.resolve_left (by rw [← hfs]; simp)
      exact ⟨_, (act_bind_ok (room this)).trans rfl⟩

/-- The vector result of a word whose destination has room is written. -/
theorem putVec_ok {w : Wrd} {s : State} (h : dstReady w s = true) (wide : Bool) (v : VReg) (flg : BitVec 5)
    (L : Nat) : putVec w wide v flg L s = .ok ((), afterOf (putVec w wide v flg L) s) := by
  apply act_of_okB
  rw [okB_iff]
  unfold putVec
  simp only [act_bind, act_get]
  cases hw : w.dst with
  | v i => exact ⟨_, _, rfl⟩
  | sq i =>
    obtain ⟨t, ht⟩ := pushSq_ok hw h (mergeLanes (elemLanes wide (guardMask w s)) 0 v)
    simp only
    split
    · exact ⟨_, _, (act_bind_ok ht).trans rfl⟩
    · exact ⟨_, _, (act_bind_ok ht).trans rfl⟩
  | _ =>
    simp only
    split <;> exact ⟨_, _, rfl⟩

theorem popOne_dstReady (w : Wrd) (s : State) (q : Nat) : dstReady w (popOne s q) = dstReady w s := by
  have h (i : Nat) : (popOne s q).cc.storeQ i = s.cc.storeQ i := by
    unfold popOne
    split
    · rfl
    · simp [Core.storeQ]
  unfold dstReady
  simp only [popOne_cluster, h]

/-- The destination of an X word still has room after its pops. -/
theorem xPopped_dstReady {w : Wrd} {u : Uses} {s : State} (h : xOpen w u s = true) :
    dstReady w (xPopped w u s) = true := by
  have hf (l : List Nat) (t : State) : dstReady w (l.foldl popOne t) = dstReady w t := by
    induction l generalizing t with
    | nil => rfl
    | cons a l ih => simp only [List.foldl_cons, ih, popOne_dstReady]
  unfold xPopped
  rw [hf]
  unfold xOpen xReady at h
  simp only [Bool.and_eq_true] at h
  exact h.2.2

/-- The vector result of an X word, after its pops. -/
theorem vecWritten_ok {w : Wrd} {u : Uses} {s : State} (h : xOpen w u s = true) (wide : Bool) (f : Nat → Nat)
    (flg : BitVec 5) (L : Nat) : putVec w wide (packElems wide f) flg L (xPopped w u s) =
      .ok ((), vecWritten w wide f flg L (xPopped w u s)) := putVec_ok (xPopped_dstReady h) _ _ _ _

/-- The scalar result of an X word. -/
@[simp] theorem act_putScalar (w : Wrd) (x : Nat) (flg : BitVec 5) (L : Nat) (s : State) :
    putScalar w x flg L s = .ok ((), scalarWritten w x flg L s) := by
  unfold putScalar scalarWritten
  rw [act_bind, act_get]
  simp only
  split <;> rfl

end Sys2Proof.Machine
end

