-- ==== Sys2Proof/Machine/Allocate.lean ====
section
/-!
DEFINITION. The text and the template tables that the assembler makes of a sequence of instructions: which
template each word uses, and how its patch word amends it (R71 to R73, R86, R92). Source text (R87 to R91)
is not modelled.
-/

namespace Sys2Proof.Machine

open Sys2Proof

/-- The field value V by which field select `f` gives a template the field of `w` (R72). -/
def patchValue (opc : Nat) (w : Wrd) (f : Nat) : Nat :=
  match f with
  | 1 => bits w.imm 15 0
  | 2 => bits w.imm 31 16
  | 3 => regCode w.dst
  | 4 => regCode w.sa
  | 5 => regCode w.sb
  | 6 => regCode w.sc
  | 7 => w.off.toNat
  | 8 => w.rep.toNat
  | 9 => w.mod.toNat
  | 10 => w.ge.toNat * 16 + w.gi.toNat * 8 + w.gn.val
  | 11 => opc % 16
  | _ => 0

/-- The patch word of `w` on the template at an index, under a field select (R71). -/
def patchAt (index : Nat) (opc : Nat) (w : Wrd) (f : Nat) : Word :=
  encodePatch { w with lit2 := none } +
    BitVec.ofNat 32 (index <<< 24 + f <<< 16 + patchValue opc w f)

/-- The template that a word finds or places: its own, with IMM 0 when it carries LIT2 (R92). -/
def ownTemplate (opc : Nat) (w : Wrd) : BitVec 128 :=
  encodeTemplate opc (if w.lit2.isSome then { w with imm := 0 } else w)

/-- The literal words that follow a patch word (R73). -/
def literals (w : Wrd) (f : Nat) : List Word :=
  if f = 12 then [w.imm]
  else if f = 13 then
    let l := w.lit2.getD 0
    [l.setWidth 32, (l >>> 32).setWidth 32]
  else []

/-- The first field select of `fs` under which a template gives the instruction. -/
def selectOf (fs : List Nat) (i : Instr) (opc : Nat) (w : Wrd) (index : Nat) (t : BitVec 128) :
    Option Nat :=
  fs.find? fun f => decodeText t (patchAt index opc w f) w.imm 0 == some i

/-- The first template of a table, by index, that gives the instruction under one of the field selects. -/
def reuseOf (fs : List Nat) (i : Instr) (opc : Nat) (w : Wrd) (tm : Tbl (BitVec 128)) :
    Option (Nat × Nat) :=
  tm.entries.findSome? fun e => (selectOf fs i opc w e.1 e.2).map fun f => (e.1, f)

/-- Where a word finds its template: the index and the field select, by cases 1 to 3 of R92. -/
def templatePlace (i : Instr) (opc : Nat) (w : Wrd) (tm : Tbl (BitVec 128)) : Option (Nat × Nat) :=
  match tm.entries.find? fun e => e.2 == ownTemplate opc w with
  | some e => some (e.1, if w.lit2.isSome then 13 else 0)
  | none =>
    if w.lit2.isSome then none
    else match reuseOf (span 1 11) i opc w tm with
      | some x => some x
      | none => reuseOf [12] i opc w tm

/-- Template tables by 16 * engine + bank (R86). -/
abbrev Templates := Tbl (Tbl (BitVec 128))

/-- The table of an engine's bank. -/
def tableKey (w : Wrd) (bank : Nat) : Nat := 16 * engineCode w.eng + bank

/-- The words of one instruction under a bank, and the tables with its template (R92). None for a step of
another agent, or when the bank has no free index. -/
def allocate (bank : Nat) (i : Instr) (ts : Templates) : Option (Templates × List Word) :=
  match opcOf i with
  | none => none
  | some (opc, w) =>
    let key := tableKey w bank
    let tm := ts.get .empty key
    match templatePlace i opc w tm with
    | some (x, f) => some (ts, patchAt x opc w f :: literals w f)
    | none =>
      match (span 0 64).find? fun x => (tm.get? x).isNone with
      | none => none
      | some x =>
        let f := if w.lit2.isSome then 13 else 0
        some (ts.put key (tm.put x (ownTemplate opc w)), patchAt x opc w f :: literals w f)

/-- The tables with the templates that `.tmpl` places beforehand: bank, index and instruction (R91). -/
def presetTables (l : List (Nat × Nat × Instr)) : Templates :=
  l.foldl (fun ts x => match opcOf x.2.2 with
    | none => ts
    | some (opc, w) =>
      let key := tableKey w x.1
      ts.put key ((ts.get .empty key).put x.2.1 (ownTemplate opc w))) .empty

/-- The text of a sequence of instructions, each under its bank, and the tables it needs (R92). -/
def assemble (presets : List (Nat × Nat × Instr)) (l : List (Nat × Instr)) :
    Option (Templates × List Word) :=
  l.foldl (fun a x => match a with
    | none => none
    | some (ts, text) =>
      match allocate x.1 x.2 ts with
      | none => none
      | some (ts', ws) => some (ts', text ++ ws)) (some (presetTables presets, []))

end Sys2Proof.Machine
end

