-- ==== Sys2Proof/Tests/Slice0.lean ====
section
/-!
SUPPORT. Tests: ill-formed instructions that the checks refuse, words written out by the fields of R74 that decode
to their instructions, small tests of single steps, and for each statement concrete states and operands that meet
its hypotheses.
-/

namespace Sys2Proof.Tests

set_option Elab.async false

open Sys2Proof Sys2Proof.Machine

/-! ### Ill-formed instructions (R80) -/

/-- No instruction of a list is well formed. -/
def noneFormed (l : List Instr) : Bool := l.all fun i => !WellFormed i

/-- Checks of every word: its engines, its repetitions, each unused field, the guard, the alias class, LIT2. -/
def illCommon : List Instr := [
  .fadd { Wrd.blank .A with dst := .a 1, sa := .a 2, sb := .a 3 },
  .lease { Wrd.blank .M with rep := 1 },
  .nop { Wrd.blank .A with dst := .a 1 },
  .nop { Wrd.blank .A with sa := .a 1 },
  .nop { Wrd.blank .A with sb := .a 1 },
  .nop { Wrd.blank .A with sc := .a 1 },
  .nop { Wrd.blank .A with imm := 1 },
  .nop { Wrd.blank .A with off := 1 },
  .nop { Wrd.blank .A with mod := 1 },
  .nop { Wrd.blank .S with gn := 4 },
  .nop { Wrd.blank .A with ac := 1 },
  .imov { Wrd.blank .A with dst := .a 1, sa := .a 2, lit2 := some 7 },
  .eret (Wrd.blank .A)]

theorem test_ill_formed_common : noneFormed illCommon = true := by decide +kernel

/-- Checks of the integer, control and parallel words. -/
def illLow : List Instr := [
  .iadd { Wrd.blank .A with dst := .m 1, sa := .a 2, sb := .a 3 },
  .iadd { Wrd.blank .A with dst := .a 1, sa := .w 2, sb := .a 3 },
  .iadd { Wrd.blank .A with dst := .a 1, sa := .a 2, sb := .s 3 },
  .iadd { Wrd.blank .A with dst := .a 1, sa := .a 2, sb := .a 3, mod := 0x08 },
  .iadd { Wrd.blank .A with dst := .a 1, sa := .a 2, sb := .a 3, mod := 0x01 },
  .imulh { Wrd.blank .A with dst := .a 1, sa := .a 2, sb := .a 3, mod := 0x10 },
  .idiv { Wrd.blank .A with dst := .a 1, sa := .a 2, sb := .a 3, mod := 0x04 },
  .iabs { Wrd.blank .A with dst := .a 1, sa := .a 2, mod := 0x08 },
  .imad { Wrd.blank .A with dst := .a 1, sa := .a 2, sb := .a 3, sc := .m 4 },
  .icmp { Wrd.blank .A with sa := .a 2, sb := .a 3, off := 4 },
  .icmp { Wrd.blank .A with sa := .a 2, sb := .a 3, mod := 6 },
  .icmp { Wrd.blank .X with dst := .m 1, sa := .s 2, sb := .s 3 },
  .ibfx { Wrd.blank .A with dst := .a 1, sa := .a 2, imm := 0x0004 },
  .ibfx { Wrd.blank .A with dst := .a 1, sa := .a 2, imm := 0x013F + 0x100 },
  .ibfx { Wrd.blank .A with dst := .a 1, sa := .a 2, imm := 0x10104 },
  .ili { Wrd.blank .A with dst := .a 1, mod := 0x10 },
  .br { Wrd.blank .A with imm := 0x1000000 },
  .brc { Wrd.blank .A with sa := .a 1, sb := .a 2, mod := 0x08 },
  .brc { Wrd.blank .A with sa := .a 1, sb := .a 2, mod := 6 },
  .brc { Wrd.blank .A with sa := .sp .core, sb := .w 2 },
  .jmpi { Wrd.blank .X with sa := .v 1 },
  .loop { Wrd.blank .A with mod := 0x08 },
  .loopInit { Wrd.blank .A with sa := .a 1, mod := 4, off := 3 },
  .brq { Wrd.blank .M with imm := 0 },
  .csrr { Wrd.blank .A with dst := .a 1, imm := 0x1000 },
  .csrw { Wrd.blank .A with sa := .w 1 },
  .flgr { Wrd.blank .X with dst := .s 1, imm := 0x20 },
  .tkw { Wrd.blank .A with imm := 0 },
  .tkw { Wrd.blank .A with imm := 16 },
  .tkw { Wrd.blank .A with imm := 1, mod := 4 },
  .tkw { Wrd.blank .A with imm := 1, ge := true },
  .tkrd { Wrd.blank .A with dst := .a 1, mod := 8 },
  .fork { Wrd.blank .X with sa := .s 1 },
  .fork { Wrd.blank .X with sa := .sp .z, imm := 4 },
  .fork { Wrd.blank .X with sa := .g 1, ge := true },
  .join { Wrd.blank .X with ge := true },
  .sev { Wrd.blank .A with sa := .a 1, mod := 8 },
  .sev { Wrd.blank .A with sa := .a 1, mod := 1 }]

theorem test_ill_formed_low : noneFormed illLow = true := by decide +kernel

/-- Checks of the words of X. -/
def illX : List Instr := [
  .fadd { Wrd.blank .X with dst := .v 1, sa := .v 2, sb := .v 3, mod := 0x80 },
  .fadd { Wrd.blank .X with dst := .v 1, sa := .v 2, sb := .v 3, mod := 0x18 },
  .fadd { Wrd.blank .X with dst := .s 1, sa := .v 2, sb := .v 3 },
  .fadd { Wrd.blank .X with dst := .lq 1, sa := .v 2, sb := .v 3 },
  .fmin { Wrd.blank .X with dst := .v 1, sa := .v 2, sb := .v 3, mod := 0x02 },
  .fmin { Wrd.blank .X with dst := .v 1, sa := .v 2, sb := .v 3, mod := 0x04 },
  .fcmp { Wrd.blank .X with dst := .g 1, sa := .v 2, sb := .v 3, mod := 0x02 },
  .fclass { Wrd.blank .X with dst := .v 1, sa := .v 2, mod := 0x10 },
  .fnc { Wrd.blank .X with dst := .v 1, sa := .v 2, mod := 0x20 },
  .fnc { Wrd.blank .X with dst := .v 1, sa := .v 2, imm := 0x10 },
  .fncRnd { Wrd.blank .X with dst := .v 1, sa := .v 2, imm := 9 },
  .fncTab { Wrd.blank .X with dst := .v 1, sa := .v 2, imm := 0x9A },
  .fncTab { Wrd.blank .X with dst := .v 1, sa := .v 2, imm := 0x30A },
  .cvt { Wrd.blank .X with dst := .v 1, sa := .v 2, imm := 0x20 },
  .cvt { Wrd.blank .X with dst := .v 1, sa := .v 2, imm := 0x11 },
  .cvts { Wrd.blank .X with dst := .v 1, sa := .v 2, sb := .v 3, mod := 0x20, imm := 0 },
  .cvts { Wrd.blank .X with dst := .v 1, sa := .v 2, sb := .v 3, mod := 0x84, imm := 0 },
  .cvtq { Wrd.blank .X with dst := .v 1, sa := .v 2, imm := 3 },
  .cvtq { Wrd.blank .X with dst := .v 1, sa := .v 2, imm := 4, ge := true },
  .cvtq { Wrd.blank .X with dst := .v 1, sa := .s 2, imm := 4 },
  .cvtd { Wrd.blank .X with dst := .s 1, sa := .v 2, imm := 4 },
  .vmov { Wrd.blank .X with dst := .s 1, sa := .v 2 },
  .vmov { Wrd.blank .X with dst := .v 1, sa := .v 2, mod := 1 },
  .vbc { Wrd.blank .X with dst := .sp .z, sa := .v 2 },
  .vlix { Wrd.blank .X with dst := .v 1, mod := 0x80 },
  .vrot { Wrd.blank .X with dst := .v 1, sa := .v 2, sb := .v 3 },
  .vsum { Wrd.blank .X with dst := .v 1, sa := .v 2 },
  .vsum { Wrd.blank .X with dst := .s 1, sa := .s 2 },
  .gop { Wrd.blank .X with dst := .g 1, sa := .g 2, sb := .g 3, imm := 16 },
  .gop { Wrd.blank .X with dst := .s 1, sa := .g 2, sb := .g 3 },
  .gany { Wrd.blank .X with dst := .s 1, sa := .s 2 },
  .gcnt { Wrd.blank .X with dst := .sp .z, sa := .g 2 },
  .iadd { Wrd.blank .X with dst := .sp .z, sa := .s 1, sb := .s 2 },
  .gmov { Wrd.blank .X with dst := .g 1, sa := .s 2, imm := 1 },
  .gmov { Wrd.blank .X with dst := .s 1, sa := .s 2 },
  .lqdrop { Wrd.blank .X with sa := .lk 2 }]

theorem test_ill_formed_x : noneFormed illX = true := by decide +kernel

/-- Checks of the matrix and system words. -/
def illMatrix : List Instr := [
  .lease { Wrd.blank .M with mod := 2 },
  .bld { Wrd.blank .M with sa := .a 1, sb := .m 2 },
  .bld { Wrd.blank .M with sa := .m 1, sb := .m 2, mod := 1 },
  .bld { Wrd.blank .M with sa := .m 1, sb := .m 2, imm := 0x20000000 },
  .bld { Wrd.blank .M with sa := .m 1, sb := .m 2, off := 7 },
  .bld { Wrd.blank .M with sa := .m 1, sb := .m 2, imm := 0x400, rep := 255 },
  .bld { Wrd.blank .M with sa := .m 1, sb := .m 2, mod := 0x80, off := 0x100 },
  .sldCol { Wrd.blank .M with sa := .m 1, rep := 1 },
  .sldBlk { Wrd.blank .M with sa := .m 1, sb := .m 2, imm := 0x10001 },
  .fmtld { Wrd.blank .M with mod := 0x20, sa := .m 1 },
  .fmtld { Wrd.blank .M with mod := 0x10, imm := 0x80000000 },
  .fmtld { Wrd.blank .M with mod := 0x10, imm := 0x70000000 },
  .fmtld { Wrd.blank .M with mod := 0x10, imm := 0x77020000 },
  .fmtix { Wrd.blank .M with imm := 16 },
  .fmtix { Wrd.blank .M with mod := 1 },
  .mma { Wrd.blank .M with sa := .m 1, mod := 0x08 },
  .mma { Wrd.blank .M with sa := .m 1, mod := 0x80 },
  .mma { Wrd.blank .M with sa := .m 1, imm := 0x4000000 },
  .mma { Wrd.blank .M with sa := .m 1, off := 511, imm := 0x80 },
  .mmar { Wrd.blank .M with sa := .m 1, sb := .m 2, mod := 0x80 },
  .chbuild { Wrd.blank .M with sa := .m 1, imm := 32 },
  .mclose { Wrd.blank .M with sa := .m 1, sb := .m 2, mod := 0x18 },
  .mclose { Wrd.blank .M with sa := .m 1, sb := .m 2, mod := 1 },
  .mclose { Wrd.blank .M with sa := .m 1, sb := .m 2, off := 1 },
  .mzero { Wrd.blank .M with imm := 32 },
  .chstat { Wrd.blank .M with dst := .m 1, imm := 512 },
  .trap { Wrd.blank .A with imm := 0x10000 },
  .mfillLink { Wrd.blank .M with mod := 2 },
  .chfrz { Wrd.blank .M with imm := 32 },
  .chgraft { Wrd.blank .M with imm := 0x8000 },
  .seal { Wrd.blank .S with dst := .a 1 },
  .seal { Wrd.blank .S with dst := .w 1, mod := 2 },
  .irrv { Wrd.blank .S with sa := .w 1, sb := .w 2, mod := 4 },
  .irrv { Wrd.blank .S with sa := .w 1, sb := .w 2, imm := 0x100 },
  .tbank { Wrd.blank .A with imm := 16 },
  .mark (Wrd.blank .A)]

theorem test_ill_formed_matrix : noneFormed illMatrix = true := by decide +kernel

/-- Checks of the memory, asynchronous and many-die words. -/
def illMemory : List Instr := [
  .ld { Wrd.blank .A with sa := .a 1, mod := 0x08 },
  .ld { Wrd.blank .A with sa := .a 1, imm := 0x100 },
  .ld { Wrd.blank .A with sa := .a 1, imm := 0x1000 },
  .lda { Wrd.blank .A with dst := .a 1, sa := .a 2, mod := 4 },
  .lda { Wrd.blank .A with dst := .a 1, sa := .a 2, imm := 0x200 },
  .ldg { Wrd.blank .A with sa := .a 1, mod := 0x10 },
  .ldg { Wrd.blank .A with sa := .a 1, mod := 0xA8 },
  .ldga { Wrd.blank .A with dst := .sp .z, sa := .a 2 },
  .pf { Wrd.blank .A with sa := .a 2, mod := 0x07 },
  .pf { Wrd.blank .A with sa := .a 2, mod := 0x26 },
  .invalPage { Wrd.blank .A with sa := .a 2, imm := 0x000 },
  .invalPage { Wrd.blank .A with sa := .a 2, imm := 0x100, mod := 0x80 },
  .carve { Wrd.blank .A with dst := .sp .z, sa := .a 2 },
  .atadd { Wrd.blank .A with dst := .a 1, sa := .a 2, sb := .a 3, mod := 1 },
  .atadd { Wrd.blank .A with dst := .a 1, sa := .a 2, sb := .a 3, imm := 0x2007 },
  .atadd { Wrd.blank .A with dst := .a 1, sa := .a 2, sb := .a 3, imm := 0x0200 },
  .atcas { Wrd.blank .A with dst := .a 1, sa := .a 2, sb := .a 3, sc := .w 1 },
  .rdo { Wrd.blank .A with sa := .a 2, sb := .a 3, sc := .a 4, imm := 0x500 },
  .rdo { Wrd.blank .A with sa := .a 2, sb := .a 3, sc := .a 4, imm := 0x100, mod := 3 },
  .phase { Wrd.blank .A with mod := 0 },
  .phase { Wrd.blank .A with mod := 0xA8 },
  .fence { Wrd.blank .A with mod := 0x08 },
  .rclaim { Wrd.blank .A with dst := .a 1, imm := 16 },
  .rfill { Wrd.blank .A with sa := .a 1, imm := 16 },
  .st { Wrd.blank .S with sa := .w 1, imm := 1 },
  .stw { Wrd.blank .S with sa := .w 1, sb := .w 2, mod := 4 },
  .stw { Wrd.blank .S with sa := .w 1, sb := .w 2, imm := 7 },
  .stg { Wrd.blank .S with sa := .w 1, mod := 0x08 },
  .btcpy { Wrd.blank .A with dst := .a 1, sa := .a 2, imm := 1 },
  .btq { Wrd.blank .A with dst := .sp .z, sa := .a 2 },
  .waitc { Wrd.blank .A with sa := .a 1, mod := 0x10 },
  .tlwait { Wrd.blank .A with sa := .a 1, imm := 8 },
  .barinit { Wrd.blank .A with sa := .w 1, sb := .a 2 },
  .bararr { Wrd.blank .A with sa := .a 1, sc := .a 3, mod := 0x08 },
  .bararrRem { Wrd.blank .A with sa := .a 1, sb := .w 2, sc := .a 3, imm := 1 },
  .barexp { Wrd.blank .A with sa := .a 1, sb := .a 2, sc := .w 3 },
  .gdef { Wrd.blank .A with sa := .a 1, imm := 0x1000 },
  .gstep { Wrd.blank .A with dst := .a 1, sa := .a 2, sb := .a 3, imm := 0x10 },
  .ldgs { Wrd.blank .A with sa := .a 1, sb := .a 2, sc := .a 3, imm := 0x10 },
  .rdxgo { Wrd.blank .A with dst := .a 1, sa := .a 2, imm := 0x100 },
  .pgmig { Wrd.blank .A with dst := .a 1, sa := .a 2, sb := .a 3, sc := .a 4, imm := 0x100 },
  .ldr { Wrd.blank .A with sa := .a 1, sb := .a 2, sc := .a 3, mod := 0x08 },
  .ldr { Wrd.blank .A with sa := .a 1, sb := .a 2, sc := .a 3, imm := 0x100 },
  .stgr { Wrd.blank .S with sa := .w 1, sb := .w 2, sc := .w 3, mod := 0x90 },
  .strel { Wrd.blank .S with sa := .w 1, sb := .w 2, mod := 0x80 },
  .strel { Wrd.blank .S with sa := .w 1, sb := .w 2, mod := 0x94 },
  .ssend { Wrd.blank .S with dst := .w 1, sa := .w 2, sb := .w 3, imm := 1 },
  .srecv { Wrd.blank .A with dst := .a 1, sa := .a 2, imm := 0x80 },
  .mcast { Wrd.blank .S with sa := .w 1, sb := .w 2, sc := .w 3, imm := 0x2000 },
  .cmb { Wrd.blank .S with sa := .w 1, sb := .w 2, imm := 0xC000 },
  .cmb { Wrd.blank .S with sa := .w 1, sb := .w 2, imm := 1 }]

theorem test_ill_formed_memory : noneFormed illMemory = true := by decide +kernel

/-- Steps of agents that name what does not exist. -/
def illEvents : List Instr := [
  .slipDeadlock 1024, .queueEntryValid 0 16 0, .registerLoadData 0 7 0, .leaseGrant 128, .close 0 256,
  .faultDelivery 1024, .linkFailure 0 4, .copyAccept 8, .accessBounce 0 (2 ^ 72),
  .uncorrectableError ⟨0, 9, 0, false⟩, .kernel 16 0, .copy 0 16, .qwptrWrite 16 0 0, .evset 16 0,
  .apertureAccess ⟨0, 2 ^ 36, 1, none⟩, .apertureAccess ⟨0, 0, 2, some [0]⟩,
  .ringGeomStore 0 16 0 [0], .ringCntbStore 128 0 0 [0], .streamSgeomStore 0 0 32 0 [0], .streamSerrStore 0 0 0 64 [0],
  .routeSwitch 16 0, .tenantConfig [], .registerWrite (.conn 64) 0, .lock 16, .getCounters 0 1025,
  .ackReceive 4096 0, .portWidthChange 144 0, .portWidthChange 0 9, .correctableError (.hbm 8 0),
  .waitcTargetReached 0 7]

theorem test_ill_formed_events : noneFormed illEvents = true := by decide +kernel

/-! ### Words decode (R71 to R82) -/

/-- Each word of a list decodes to its instruction, and the instruction is well formed. -/
def decodesAll (l : List (BitVec 128 × BitVec 32 × Instr)) : Bool :=
  l.all fun x => decodeText x.1 x.2.1 0 0 == some x.2.2 && WellFormed x.2.2


/-- Words of R74 and R78, by their fields: integer. -/
def integerWords : List (BitVec 128 × BitVec 32 × Instr) := [
  (0x00000081018000000000000000000000, 0x00000000, .iadd { Wrd.blank .A with dst := .a 1, sa := .a 2, sb := .a 3, mod := 0x0, rep := 0 }),
  (0x005020A1218020001000000000000000, 0x40000000, .isub { Wrd.blank .X with dst := .v 1, sa := .v 2, sb := .v 3, mod := 0x40, rep := 1 }),
  (0x00A050D1518040002000000000000000, 0x80000000, .imul { Wrd.blank .M with dst := .m 1, sa := .m 2, sb := .m 3, mod := 0x80, rep := 2 }),
  (0x00F060E1618060003000000000000000, 0xC0000000, .imulh { Wrd.blank .S with dst := .w 1, sa := .w 2, sb := .w 3, mod := 0xc0, rep := 3 }),
  (0x01000081018210004000000000000000, 0x00000000, .imad { Wrd.blank .A with dst := .a 1, sa := .a 2, sb := .a 3, sc := .a 4, mod := 0x20, rep := 4 }),
  (0x015020A1218010805000000000000000, 0x40000000, .idiv { Wrd.blank .X with dst := .v 1, sa := .v 2, sb := .v 3, mod := 0x21, rep := 5 }),
  (0x01A050D1518030006000000000000000, 0x80000000, .irem { Wrd.blank .M with dst := .m 1, sa := .m 2, sb := .m 3, mod := 0x60, rep := 6 }),
  (0x01F060E1618050007000000000000000, 0xC0000000, .imin { Wrd.blank .S with dst := .w 1, sa := .w 2, sb := .w 3, mod := 0xa0, rep := 7 }),
  (0x02000081018070008000000000000000, 0x00000000, .imax { Wrd.blank .A with dst := .a 1, sa := .a 2, sb := .a 3, mod := 0xe0, rep := 8 }),
  (0x025020A1000018009000000000000000, 0x40000000, .iabs { Wrd.blank .X with dst := .v 1, sa := .v 2, mod := 0x30, rep := 9 }),
  (0x02A050D100002800A000000000000000, 0x80000000, .ineg { Wrd.blank .M with dst := .m 1, sa := .m 2, mod := 0x50, rep := 10 }),
  (0x041022A3238000000000000000000000, 0x40000000, .iand { Wrd.blank .X with dst := .v 5, sa := .v 6, sb := .v 7 }),
  (0x046052D3000004000800000010000000, 0x80000000, .ior { Wrd.blank .M with dst := .m 5, sa := .m 6, mod := 0x8, imm := 0x80000001 }),
  (0x04B062E3638000000000000000000000, 0xC0000000, .ixor { Wrd.blank .S with dst := .w 5, sa := .w 6, sb := .w 7 }),
  (0x04C00283038000000000000000000000, 0x00000000, .iandn { Wrd.blank .A with dst := .a 5, sa := .a 6, sb := .a 7 }),
  (0x051022A3000004000800000010000000, 0x40000000, .ishl { Wrd.blank .X with dst := .v 5, sa := .v 6, mod := 0x8, imm := 0x80000001 }),
  (0x056052D3538000000000000000000000, 0x80000000, .ishr { Wrd.blank .M with dst := .m 5, sa := .m 6, sb := .m 7 }),
  (0x05B062E3638000000000000000000000, 0xC0000000, .isar { Wrd.blank .S with dst := .w 5, sa := .w 6, sb := .w 7 }),
  (0x05C00283000004000800000010000000, 0x00000000, .irot { Wrd.blank .A with dst := .a 5, sa := .a 6, mod := 0x8, imm := 0x80000001 }),
  (0x061022A3000000000000000000000000, 0x40000000, .iclz { Wrd.blank .X with dst := .v 5, sa := .v 6 }),
  (0x066052D3000000000000000000000000, 0x80000000, .ipop { Wrd.blank .M with dst := .m 5, sa := .m 6 }),
  (0x06B062E3000000000000008040000000, 0xC0000000, .ibfx { Wrd.blank .S with dst := .w 5, sa := .w 6, imm := 0x804 }),
  (0x06C00283038000000000008040000000, 0x00000000, .ibfi { Wrd.blank .A with dst := .a 5, sa := .a 6, sb := .a 7, imm := 0x804 }),
  (0x08000000810011000000000000003000, 0x00000000, .icmp { Wrd.blank .A with sa := .a 1, sb := .a 2, mod := 0x22, off := 0x3 }),
  (0x085920A121B200000000000000000000, 0x40000000, .isel { Wrd.blank .X with dst := .v 1, sa := .v 2, sb := .v 3, sc := .g 4, ge := true, gn := 2 }),
  (0x08A050F0000000000000000000000000, 0x80000000, .imov { Wrd.blank .M with dst := .m 1, sa := .sp .z }),
  (0x08F06F80000000000FFFFFFFE0000000, 0xC0000000, .ili { Wrd.blank .S with dst := .w 31, imm := 0xfffffffe })]

/-- Words of R74 and R78, by their fields: control. -/
def controlWords : List (BitVec 128 × BitVec 32 × Instr) := [
  (0x0C0D8000000000000001234560000000, 0x00000000, .br { Wrd.blank .A with ge := true, gi := true, gn := 3, imm := 0x123456 }),
  (0x0C500010910022800000000070000000, 0x40000000, .brc { Wrd.blank .X with sa := .s 1, sb := .s 2, mod := 0x45, imm := 0x7 }),
  (0x0CA00051800000000000000000000000, 0x80000000, .jmpi { Wrd.blank .M with sa := .m 3 }),
  (0x0CF00000000000000000000090000000, 0xC0000000, .call { Wrd.blank .S with imm := 0x9 }),
  (0x0D000000000000000000000000000000, 0x00000000, .ret (Wrd.blank .A)),
  (0x0D500000000001100000000050000000, 0x40000000, .loop { Wrd.blank .X with y := true, mod := 0x2, imm := 0x5 }),
  (0x0D700062000002800000000060000000, 0xC0000000, .loopInit { Wrd.blank .S with sa := .w 4, mod := 0x5, imm := 0x6 }),
  (0x0D800000000000000000000080000000, 0x00000000, .brq { Wrd.blank .A with imm := 0x8 }),
  (0x0DD00014800000000000000000000000, 0x40000000, .obsend { Wrd.blank .X with sa := .s 9 }),
  (0x0E2000000000000FF000000000000000, 0x80000000, .nop { Wrd.blank .M with rep := 255 }),
  (0x0E700000000000000000000000000000, 0xC0100000, .halt { Wrd.blank .S with sn := true }),
  (0x10000080000000000000000130000000, 0x00000000, .csrr { Wrd.blank .A with dst := .a 1, imm := 0x13 }),
  (0x10700060800000000000000200000000, 0xC0000000, .csrw { Wrd.blank .S with sa := .w 1, imm := 0x20 }),
  (0x109011000000000000000001F0000000, 0x40000000, .flgr { Wrd.blank .X with dst := .s 2, imm := 0x1f })]

/-- Words of R74 and R78, by their fields: parallel. -/
def parallelWords : List (BitVec 128 × BitVec 32 × Instr) := [
  (0x140000000000010000000000F0000000, 0x00000000, .tkw { Wrd.blank .A with mod := 0x2, imm := 0xf }),
  (0x14605100000003800000000000000000, 0x80000000, .tkrd { Wrd.blank .M with dst := .m 2, mod := 0x7 }),
  (0x14900030800000000000000200000000, 0x40000000, .fork { Wrd.blank .X with sa := .g 1, imm := 0x20 }),
  (0x14D00000000000000000000000000000, 0x40000000, .join (Wrd.blank .X)),
  (0x15300000000000000000000000000000, 0xC0000000, .endit (Wrd.blank .S)),
  (0x15400000000000000000000000000000, 0x00800000, .wfe { Wrd.blank .A with wp := true }),
  (0x15B00060E10002000000000000000000, 0xC0000000, .sev { Wrd.blank .S with sa := .w 1, sb := .w 2, mod := 0x4 })]

/-- Words of R74 and R78, by their fields: float. -/
def floatWords : List (BitVec 128 × BitVec 32 × Instr) := [
  (0x401045C149800A000000000000000000, 0x40000000, .fadd { Wrd.blank .X with dst := .sq 3, sa := .lq 2, sb := .lk 3, mod := 0x14 }),
  (0x405020A2228010000000000000000000, 0x40000000, .fsub { Wrd.blank .X with dst := .v 1, sa := .v 4, sb := .v 5, mod := 0x20 }),
  (0x409045C1498022000000000000000000, 0x40000000, .fmul { Wrd.blank .X with dst := .sq 3, sa := .lq 2, sb := .lk 3, mod := 0x44 }),
  (0x40D020A222A334000000000000000000, 0x40000000, .ffma { Wrd.blank .X with dst := .v 1, sa := .v 4, sb := .v 5, sc := .v 6, mod := 0x68 }),
  (0x411045C1498030000000000000000000, 0x40000000, .fmin { Wrd.blank .X with dst := .sq 3, sa := .lq 2, sb := .lk 3, mod := 0x60 }),
  (0x415020A2228000800000000000000000, 0x40000000, .fmax { Wrd.blank .X with dst := .v 1, sa := .v 4, sb := .v 5, mod := 0x1 }),
  (0x419045C1498014000000000000000000, 0x40000000, .fdiv { Wrd.blank .X with dst := .sq 3, sa := .lq 2, sb := .lk 3, mod := 0x28 }),
  (0x41D020A2000006000000000000000000, 0x40000000, .fsqrt { Wrd.blank .X with dst := .v 1, sa := .v 4, mod := 0xc }),
  (0x421032C149800A000000000000000000, 0x40000000, .fcmp { Wrd.blank .X with dst := .g 5, sa := .lq 2, sb := .lk 3, mod := 0x14 }),
  (0x425020A2000010000000000000000000, 0x40000000, .fclass { Wrd.blank .X with dst := .v 1, sa := .v 4, mod := 0x20 }),
  (0x429045C1498020000000000000000000, 0x40000000, .fscale { Wrd.blank .X with dst := .sq 3, sa := .lq 2, sb := .lk 3, mod := 0x40 }),
  (0x42D020A2000000000000000000000000, 0x40000000, .fexpo { Wrd.blank .X with dst := .v 1, sa := .v 4, mod := 0x0 }),
  (0x431045C1000008000000000000000000, 0x40000000, .frint { Wrd.blank .X with dst := .sq 3, sa := .lq 2, mod := 0x10 }),
  (0x435020A2000000000000000080000000, 0x40000000, .fnc { Wrd.blank .X with dst := .v 1, sa := .v 4, mod := 0x0, imm := 0x8 }),
  (0x43502091000000000000000090000000, 0x40000000, .fncRnd { Wrd.blank .X with dst := .v 1, sa := .s 2, imm := 0x9 }),
  (0x435020A10000000000000028A0000000, 0x40000000, .fncTab { Wrd.blank .X with dst := .v 1, sa := .v 2, imm := 0x28a }),
  (0x441020A10000228000000001A0000000, 0x40000000, .cvt { Wrd.blank .X with dst := .v 1, sa := .v 2, mod := 0x45, imm := 0x1a }),
  (0x445020A1218040800000000010000000, 0x40000000, .cvts { Wrd.blank .X with dst := .v 1, sa := .v 2, sb := .v 3, mod := 0x81, imm := 0x1 }),
  (0x449020A1000002000000000070000000, 0x40000000, .cvtq { Wrd.blank .X with dst := .v 1, sa := .v 2, mod := 0x4, imm := 0x7 }),
  (0x44D02FC3800000000000000040000000, 0x40000000, .cvtd { Wrd.blank .X with dst := .v 31, sa := .lq 7, imm := 0x4 })]

/-- Words of R74 and R78, by their fields: vector. -/
def vectorWords : List (BitVec 128 × BitVec 32 × Instr) := [
  (0x481020C3800000000000000000000000, 0x40000000, .vmov { Wrd.blank .X with dst := .v 1, sa := .lq 7 }),
  (0x485020A10000000000000003F0000000, 0x40000000, .vbc { Wrd.blank .X with dst := .v 1, sa := .v 2, imm := 0x3f }),
  (0x48902100000000000FFFFFFFF0000000, 0x40000000, .vlix { Wrd.blank .X with dst := .v 2, imm := 0xffffffff }),
  (0x48D02121A20000000000000000000000, 0x40000000, .vperm { Wrd.blank .X with dst := .v 2, sa := .v 3, sb := .v 4 }),
  (0x49102121920000000000000010000000, 0x40000000, .vrot { Wrd.blank .X with dst := .v 2, sa := .v 3, sb := .s 4, imm := 0x1 }),
  (0x495045A1920000000000000010000000, 0x40000000, .vbfly { Wrd.blank .X with dst := .sq 3, sa := .v 3, sb := .s 4, imm := 0x1 }),
  (0x49901121800010000000000000000000, 0x40000000, .vsum { Wrd.blank .X with dst := .s 2, sa := .v 3, mod := 0x20 }),
  (0x49D01121800000000000000000000000, 0x40000000, .vmaxr { Wrd.blank .X with dst := .s 2, sa := .v 3 }),
  (0x4A101121800000000000000000000000, 0x40000000, .vminr { Wrd.blank .X with dst := .s 2, sa := .v 3 }),
  (0x4C1030B1318000000000000060000000, 0x40000000, .gop { Wrd.blank .X with dst := .g 1, sa := .g 2, sb := .g 3, imm := 0x6 }),
  (0x4C5010B1000000000000000000000000, 0x40000000, .gany { Wrd.blank .X with dst := .s 1, sa := .g 2 }),
  (0x4C9010B1000000000000000000000000, 0x40000000, .gall { Wrd.blank .X with dst := .s 1, sa := .g 2 }),
  (0x4CD010B1000000000000000000000000, 0x40000000, .gcnt { Wrd.blank .X with dst := .s 1, sa := .g 2 }),
  (0x4D103390800000000000000000000000, 0x40000000, .gmov { Wrd.blank .X with dst := .g 7, sa := .s 1 }),
  (0x4E100042800000003000000000000000, 0x40000000, .lqdrop { Wrd.blank .X with sa := .lq 5, rep := 3 })]

/-- Words of R74 and R78, by their fields: matrix. -/
def matrixWords : List (BitVec 128 × BitVec 32 × Instr) := [
  (0x80200000000000800000000000000000, 0x80000000, .lease { Wrd.blank .M with mod := 0x1 }),
  (0x80600000000000000000000000000000, 0x80000000, .free (Wrd.blank .M)),
  (0x80A00050D100400000FFDFE100007000, 0x80000000, .bld { Wrd.blank .M with sa := .m 1, sb := .m 2, mod := 0x80, imm := 0xffdfe10, off := 0x7 }),
  (0x80E0005080000000000000BFE0000000, 0x80000000, .sldCol { Wrd.blank .M with sa := .m 1, imm := 0xbfe }),
  (0x80E00050D100000010000203F0000000, 0x80000000, .sldBlk { Wrd.blank .M with sa := .m 1, sb := .m 2, rep := 1, imm := 0x203f }),
  (0x81200000000009800770500000000000, 0x80000000, .fmtld { Wrd.blank .M with mod := 0x13, imm := 0x77050000 }),
  (0x816000000000000000000000F0000000, 0x80000000, .fmtix { Wrd.blank .M with imm := 0xf }),
  (0x81A0005080000000203FF018301F4000, 0x80000000, .mma { Wrd.blank .M with sa := .m 1, rep := 2, imm := 0x3ff0183, off := 0x1f4 }),
  (0x81E000508000000000000001F0000000, 0x80000000, .chbuild { Wrd.blank .M with sa := .m 1, imm := 0x1f }),
  (0x82200050D100770000000003F0009000, 0x80000000, .mclose { Wrd.blank .M with sa := .m 1, sb := .m 2, mod := 0xee, imm := 0x3f, off := 0x9 }),
  (0x82600000000000000000000040000000, 0x80000000, .mzero { Wrd.blank .M with imm := 0x4 }),
  (0x82A05480000000000000001FF0000000, 0x80000000, .chstat { Wrd.blank .M with dst := .m 9, imm := 0x1ff })]

/-- Words of R74 and R78, by their fields: memory. -/
def memoryWords : List (BitVec 128 × BitVec 32 × Instr) := [
  (0xA000000080000340100000E00FFC0000, 0x00000000, .ld { Wrd.blank .A with sa := .a 1, mod := 0x6, ac := 0x2, rep := 1, imm := 0xe00, off := 0xffc0 }),
  (0xA0400100800001800000001000000000, 0x00000000, .lda { Wrd.blank .A with dst := .a 2, sa := .a 1, mod := 0x3, imm := 0x100 }),
  (0xA0800000800017800000102050000000, 0x00000000, .ldg { Wrd.blank .A with sa := .a 1, mod := 0x2f, imm := 0x10205 }),
  (0xA0C00180800004000000001070000000, 0x00000000, .ldga { Wrd.blank .A with dst := .a 3, sa := .a 1, mod := 0x8, imm := 0x107 }),
  (0xA1000000800023000004000070000000, 0x00000000, .pf { Wrd.blank .A with sa := .a 1, mod := 0x46, imm := 0x400007 }),
  (0xA1400000800020000000001070000000, 0x00000000, .invalPage { Wrd.blank .A with sa := .a 1, mod := 0x40, imm := 0x107 }),
  (0xA1400000800010000000002000000000, 0x00000000, .invalCtx { Wrd.blank .A with sa := .a 1, mod := 0x20, imm := 0x200 }),
  (0xA1400000800030000000003000000000, 0x00000000, .invalAll { Wrd.blank .A with sa := .a 1, mod := 0x60, imm := 0x300 }),
  (0xA1800081000000000000000000000000, 0x00000000, .carve { Wrd.blank .A with dst := .a 1, sa := .a 2 }),
  (0xA4000081018000000000000070008000, 0x00000000, .atadd { Wrd.blank .A with dst := .a 1, sa := .a 2, sb := .a 3, mod := 0x0, imm := 0x7, off := 0x8 }),
  (0xA4400081018001800000001070008000, 0x00000000, .atmin { Wrd.blank .A with dst := .a 1, sa := .a 2, sb := .a 3, mod := 0x3, imm := 0x107, off := 0x8 }),
  (0xA4800081018044000000000070008000, 0x00000000, .atmax { Wrd.blank .A with dst := .a 1, sa := .a 2, sb := .a 3, mod := 0x88, imm := 0x7, off := 0x8 }),
  (0xA4C00081018029800000000070008000, 0x00000000, .atand { Wrd.blank .A with dst := .a 1, sa := .a 2, sb := .a 3, mod := 0x53, imm := 0x7, off := 0x8 }),
  (0xA500008101800C000000000070008000, 0x00000000, .ator { Wrd.blank .A with dst := .a 1, sa := .a 2, sb := .a 3, mod := 0x18, imm := 0x7, off := 0x8 }),
  (0xA5400081018000000000020000008000, 0x00000000, .atxor { Wrd.blank .A with dst := .a 1, sa := .a 2, sb := .a 3, mod := 0x0, imm := 0x2000, off := 0x8 }),
  (0xA5800081018001800000000070008000, 0x00000000, .atxch { Wrd.blank .A with dst := .a 1, sa := .a 2, sb := .a 3, mod := 0x3, imm := 0x7, off := 0x8 }),
  (0xA5C00081018200000000000070008000, 0x00000000, .atcas { Wrd.blank .A with dst := .a 1, sa := .a 2, sb := .a 3, sc := .a 4, mod := 0x0, imm := 0x7, off := 0x8 }),
  (0xA600000101820C00000000C010008000, 0x00000000, .rdo { Wrd.blank .A with sa := .a 2, sb := .a 3, sc := .a 4, mod := 0x18, imm := 0xc01, off := 0x8 }),
  (0xA8300000000018000000000000000000, 0xC0000000, .phase { Wrd.blank .S with mod := 0x30 }),
  (0xA8400000000040000000000000000000, 0x00000000, .fence { Wrd.blank .A with mod := 0x80 }),
  (0xA88000800000000000000000F0000000, 0x00000000, .rclaim { Wrd.blank .A with dst := .a 1, imm := 0xf }),
  (0xA8C00000800000000000000010000000, 0x00000000, .rfill { Wrd.blank .A with sa := .a 1, imm := 0x1 }),
  (0xA9000081000000000000000020000000, 0x00000000, .rwaitf { Wrd.blank .A with dst := .a 1, sa := .a 2, imm := 0x2 }),
  (0xA9400001000000000000000030000000, 0x00000000, .rwaite { Wrd.blank .A with sa := .a 2, imm := 0x3 }),
  (0xA9800001000000000000000040000000, 0x00000000, .rfree { Wrd.blank .A with sa := .a 2, imm := 0x4 }),
  (0xC030006080000300400400E000000000, 0xC0000000, .st { Wrd.blank .S with sa := .w 1, mod := 0x6, rep := 4, imm := 0x400e00 }),
  (0xC0700060E10028200000020070000000, 0xC0000000, .stw { Wrd.blank .S with sa := .w 1, sb := .w 2, mod := 0x50, ac := 0x1, imm := 0x2007 }),
  (0xC0B00060800048000000002070000000, 0xC0000000, .stg { Wrd.blank .S with sa := .w 1, mod := 0x90, imm := 0x207 })]

/-- Words of R74 and R78, by their fields: async. -/
def asyncWords : List (BitVec 128 × BitVec 32 × Instr) := [
  (0xAC000100800000000000030000000000, 0x00000000, .btcpy { Wrd.blank .A with dst := .a 2, sa := .a 1, imm := 0x3000 }),
  (0xAC400100800000000000010000000000, 0x00000000, .btq { Wrd.blank .A with dst := .a 2, sa := .a 1, imm := 0x1000 }),
  (0xACB00060800004000800000000000000, 0xC0000000, .waitc { Wrd.blank .S with sa := .w 1, mod := 0x8, imm := 0x80000000 }),
  (0xACE00050800000000000000030000000, 0x80000000, .tlwait { Wrd.blank .M with sa := .m 1, imm := 0x3 }),
  (0xAD000000810000000000000000000000, 0x00000000, .barinit { Wrd.blank .A with sa := .a 1, sb := .a 2 }),
  (0xAD400000807008000000000000000000, 0x00000000, .bararr { Wrd.blank .A with sa := .a 1, sc := .sp .z, mod := 0x10 }),
  (0xAD400000810188000000000010000000, 0x00000000, .bararrRem { Wrd.blank .A with sa := .a 1, sb := .a 2, sc := .a 3, mod := 0x10, imm := 0x1 }),
  (0xAD800000810180000000000000000000, 0x00000000, .barexp { Wrd.blank .A with sa := .a 1, sb := .a 2, sc := .a 3 }),
  (0xADD00010910000000000000000000000, 0x40000000, .barwait { Wrd.blank .X with sa := .s 1, sb := .s 2 }),
  (0xAE00000080000000000000F070000000, 0x00000000, .gdef { Wrd.blank .A with sa := .a 1, imm := 0xf07 }),
  (0xAE4001808100000000000100F0000000, 0x00000000, .gstep { Wrd.blank .A with dst := .a 3, sa := .a 1, sb := .a 2, imm := 0x100f }),
  (0xAE80007000810300900100E0F0000000, 0x00000000, .ldgs { Wrd.blank .A with sa := .sp .z, sb := .a 1, sc := .a 2, mod := 0x6, rep := 9, imm := 0x100e0f }),
  (0xAEC07000800000000000030FF0000000, 0x00000000, .rdxgo { Wrd.blank .A with dst := .sp .z, sa := .a 1, imm := 0x30ff }),
  (0xAF000200810180000000000110000000, 0x00000000, .pgmig { Wrd.blank .A with dst := .a 4, sa := .a 1, sb := .a 2, sc := .a 3, imm := 0x11 }),
  (0xC0F00060E1618300000000E0F0000000, 0xC0000000, .stgs { Wrd.blank .S with sa := .w 1, sb := .w 2, sc := .w 3, mod := 0x6, imm := 0xe0f })]

/-- Words of R74 and R78, by their fields: manydie. -/
def manydieWords : List (BitVec 128 × BitVec 32 × Instr) := [
  (0xD00000008101C4600004000200040000, 0x00000000, .ldr { Wrd.blank .A with sa := .a 1, sb := .a 2, sc := .a 3, mod := 0x88, ac := 0x3, imm := 0x400020, off := 0x40 }),
  (0xD0600050D10000000000001830000000, 0x80000000, .mmar { Wrd.blank .M with sa := .m 1, sb := .m 2, imm := 0x183 }),
  (0xD0B00060E16180200000000200000000, 0xC0000000, .stgr { Wrd.blank .S with sa := .w 1, sb := .w 2, sc := .w 3, ac := 0x1, imm := 0x20 }),
  (0xD0F00060E10049800000000200010000, 0xC0000000, .strel { Wrd.blank .S with sa := .w 1, sb := .w 2, mod := 0x93, imm := 0x20, off := 0x10 }),
  (0xD13061E0E1003800000007F200000000, 0xC0000000, .ssend { Wrd.blank .S with dst := .w 3, sa := .w 1, sb := .w 2, mod := 0x70, imm := 0x7f20 }),
  (0xD14000810000000000000001F0000000, 0x00000000, .srecv { Wrd.blank .A with dst := .a 1, sa := .a 2, imm := 0x1f }),
  (0xD1400081000000000000000200000000, 0x00000000, .srecvLen { Wrd.blank .A with dst := .a 1, sa := .a 2, imm := 0x20 }),
  (0xD1400001000000000000000410000000, 0x00000000, .srecvFree { Wrd.blank .A with sa := .a 2, imm := 0x41 }),
  (0xD1B00060E1618000000001F010000000, 0xC0000000, .mcast { Wrd.blank .S with sa := .w 1, sb := .w 2, sc := .w 3, imm := 0x1f01 }),
  (0xD1F00060E1000000000009F000000000, 0xC0000000, .cmb { Wrd.blank .S with sa := .w 1, sb := .w 2, imm := 0x9f00 })]

/-- Words of R74 and R78, by their fields: system. -/
def systemWords : List (BitVec 128 × BitVec 32 × Instr) := [
  (0xE00000000000000000000FFFF0000000, 0x00000000, .trap { Wrd.blank .A with imm := 0xffff }),
  (0xE0600000000000000000000010000000, 0x80000000, .sysc { Wrd.blank .M with imm := 0x1 }),
  (0xE0B00000000000000000000000000000, 0xC0000000, .eret (Wrd.blank .S)),
  (0xE0E00000000000000000000000000000, 0x80000000, .mspill (Wrd.blank .M)),
  (0xE1200000000000000000000000000000, 0x80000000, .mfillLink (Wrd.blank .M)),
  (0xE1200000000000800000000000000000, 0x80000000, .mfillBank { Wrd.blank .M with mod := 0x1 }),
  (0xE16000000000000000000001F0000000, 0x80000000, .chfrz { Wrd.blank .M with imm := 0x1f }),
  (0xE1600000000000800000000010000000, 0x80000000, .chfrzThaw { Wrd.blank .M with mod := 0x1, imm := 0x1 }),
  (0xE1A0000000000000000007FFF0000000, 0x80000000, .chgraft { Wrd.blank .M with imm := 0x7fff }),
  (0xE1F06080000000800000000000000000, 0xC0000000, .seal { Wrd.blank .S with dst := .w 1, mod := 0x1 }),
  (0xE2300060E10001800000000FFFFF0000, 0xC0000000, .irrv { Wrd.blank .S with sa := .w 1, sb := .w 2, mod := 0x3, imm := 0xff, off := 0xfff0 }),
  (0xE24000000000000000000000F0000000, 0x00000000, .tbank { Wrd.blank .A with imm := 0xf }),
  (0xE2900000000000100000000000000000, 0x40000000, .mark { Wrd.blank .X with y := true })]

theorem test_decode_integer : decodesAll integerWords = true := by decide +kernel

theorem test_decode_control : decodesAll controlWords = true := by decide +kernel

theorem test_decode_parallel : decodesAll parallelWords = true := by decide +kernel

theorem test_decode_float : decodesAll floatWords = true := by decide +kernel

theorem test_decode_vector : decodesAll vectorWords = true := by decide +kernel

theorem test_decode_matrix : decodesAll matrixWords = true := by decide +kernel

theorem test_decode_memory : decodesAll memoryWords = true := by decide +kernel

theorem test_decode_async : decodesAll asyncWords = true := by decide +kernel

theorem test_decode_manydie : decodesAll manydieWords = true := by decide +kernel

theorem test_decode_system : decodesAll systemWords = true := by decide +kernel

/-- Words that no rule gives a meaning: reserved template bits, unassigned opcodes and register classes, amendments
that are not valid, a template of another engine. -/
theorem test_decode_refuses :
    decodeText 0x401020A1218000000000000000000001#128 0x40000000#32 0 0 = none ∧
    decodeText 0x03100000000000000000000000000000#128 0x40000000#32 0 0 = none ∧
    decodeText 0x401020A1340000000000000000000000#128 0x40000000#32 0 0 = none ∧
    decodeText 0x401020A1218000000000000000000000#128 0x400E0000#32 0 0 = none ∧
    decodeText 0x401020A1218000000000000000000000#128 0x40050144#32 0 0 = none ∧
    decodeText 0x401020A1218000000000000000000000#128 0x00000000#32 0 0 = none := by decide +kernel

/-- A literal amends IMM, and LIT2 gives the 64-bit value of `ili` (R72, R73). -/
theorem test_decode_literals :
    decodeText 0x08D01200000000000000000000000000#128 0x400C0000#32 0x89ABCDEF 0 =
      some (.ili { Wrd.blank .X with dst := .s 4, imm := 0x89ABCDEF }) ∧
    decodeText 0x08D01200000000000000000000000000#128 0x420D0000#32 0x89ABCDEF 0x01234567 =
      some (.ili { Wrd.blank .X with dst := .s 4, lit2 := some 0x0123456789ABCDEF }) := by decide +kernel

/-- The host's own question: the decoder and a step on a word laid out as the opcode table numbers it. -/
theorem test_table_word :
    decodeTableWord 160 (0x401020A1218000000000000000000000 + 0x40000000 * 2 ^ 128) =
      some (.fadd { Wrd.blank .X with dst := .v 1, sa := .v 2, sb := .v 3 }) := by decide +kernel

/-! ### States -/

/-- A state in which core 0 runs a launch and stream `e` issues. -/
def st (e : Nat) : State := { placeWord 192 0 State.reset with cur := ⟨0, e⟩ }

/-- A state with a register of every class of a number set. -/
def setReg (i v : Nat) (s : State) : State :=
  s.modCore fun k => { k with
    a := k.a.put i (BitVec.ofNat 64 v), w := k.w.put i (BitVec.ofNat 64 v)
    m := k.m.put i (BitVec.ofNat 64 v), s := k.s.put i (BitVec.ofNat 64 v) }

/-- A state with control register `n` set. -/
def setCsr (n v : Nat) (s : State) : State := s.modCore fun k => { k with csr := k.csr.put n (BitVec.ofNat 64 v) }

/-- A state with the core under slip. -/
def slip (s : State) : State := setCsr 1 5 s

/-- A state with the core at supervisor privilege. -/
def priv (s : State) : State := setCsr 0 1 s

/-- A state with the core at user privilege. -/
def user (s : State) : State := setCsr 0 0 s

/-- A part of a word completes with a value and a state that meet a condition. -/
def okAnd {α : Type} (a : Act α) (s : State) (p : α → State → Bool) : Bool :=
  match a s with
  | .ok r => p r.1 r.2
  | .error _ => false

/-- Words of each engine with registers of their own classes. -/
def wA : Wrd := { Wrd.blank .A with dst := .a 3, sa := .a 2, sb := .a 4, sc := .a 5 }
def wV : Wrd := { Wrd.blank .X with dst := .v 3, sa := .v 2, sb := .v 4, sc := .v 5 }
def wX : Wrd := { Wrd.blank .X with dst := .s 3, sa := .s 2, sb := .s 4, sc := .s 5 }
def wM : Wrd := { Wrd.blank .M with dst := .m 3, sa := .m 2, sb := .m 4, sc := .m 5 }
def wS : Wrd := { Wrd.blank .S with dst := .w 3, sa := .w 2, sb := .w 4, sc := .w 5 }

/-- An entry of a queue with its data. -/
def entry (i : Nat) (x : VReg) : QEntry := ⟨i, x, true, 0, none, .zero⟩

/-- A state with load queue `q` and store queue `q` holding an entry. -/
def withQ (q : Nat) (s : State) : State :=
  s.modCore fun k => { k with lq := k.lq.put q ⟨[entry 1 7]⟩, sq := k.sq.put q ⟨[entry 2 9]⟩ }

/-- A state whose issuing stream's condition 0 is set. -/
def cond0 (s : State) : State := s.modStream fun t => { t with cond := t.cond.put 0 true }

/-! ### The hypotheses of the statements are met -/

theorem met_IntegerWords_scalars :
    (∀ x ∈ [(wA, 0), (wM, 2), (wS, 3)], x.1.eng ≠ .X ∧ slotOpen x.1 (st x.2) = true ∧
      guardOff x.1 (atSlot x.1 (st x.2)) = false) ∧ intRules.length = 24 := by decide +kernel

theorem met_IntegerWords_x :
    (intRules.all fun r => xOpen wV (usesOf r.opc wV) (st 1) && isVector wV &&
      xOpen wX (usesOf r.opc wX) (st 1) && !isVector wX) = true := by decide +kernel

/-- X words that pop queues. -/
theorem met_IntegerWords_queues :
    (let w : Wrd := { wV with dst := .sq 0, sa := .lq 0, sb := .lk 0 }
     xOpen w (usesOf 0x000 w) (withQ 0 (st 1))) = true := by decide +kernel

theorem met_DivisionsReportZeroDivisors :
    (divRules.all fun r => slotOpen wA (st 0) && !guardOff wA (atSlot wA (st 0)) &&
      xOpen wV (usesOf r.opc wV) (st 1) && isVector wV && xOpen wX (usesOf r.opc wX) (st 1) && !isVector wX) = true := by
  decide +kernel

theorem met_ComparesWriteTheirCondition :
    slotOpen wA (st 0) = true ∧ guardOff wA (atSlot wA (st 0)) = false ∧
    compares (intMode wA) (bits wA.mod 2 0) (regVal (atSlot wA (st 0)) wA.sa).toNat
      (intSecond wA (regVal (atSlot wA (st 0)) wA.sb).toNat) ∧
    ¬ compares (intMode wA) 1 (regVal (atSlot wA (st 0)) wA.sa).toNat
      (intSecond wA (regVal (atSlot wA (st 0)) wA.sb).toNat) ∧
    xOpen { wV with dst := .g 1 } (usesOf 0x020 wV) (st 1) = true ∧ xOpen wX (usesOf 0x020 wX) (st 1) = true := by
  refine ⟨by decide +kernel, by decide +kernel, ?_, ?_, by decide +kernel, by decide +kernel⟩
  · show (intMode wA).val _ = (intMode wA).val _; decide +kernel
  · show ¬ (intMode wA).val _ ≠ (intMode wA).val _; decide +kernel

theorem met_FloatWordsWriteResultsAndFlags :
    ((floatRules.take 12).all fun r => xOpen wV (usesOf r.opc wV) (st 1) &&
      (trapOf (ften (xPopped wV (usesOf r.opc wV) (st 1)))
        (lanesAt wV (r.wide wV) (xPopped wV (usesOf r.opc wV) (st 1))) (floatResults r wV (st 1))).isNone &&
      xOpen wX (usesOf r.opc wX) (st 1)) = true := by decide +kernel

/-- An addition of signalling NaNs under the invalid trap (FTEN bit 3 at reset). -/
theorem met_FloatTrapsStopTheRepetition :
    (let s := setReg 2 0x7F800001 (st 1)
     floatRules.any fun r => xOpen wX (usesOf r.opc wX) s &&
      (trapOf (ften (xPopped wX (usesOf r.opc wX) s))
        (lanesAt wX (r.wide wX) (xPopped wX (usesOf r.opc wX) s)) (floatResults r wX s)).isSome) = true := by
  decide +kernel

/-- Operands on each side of the clauses of `fmin` and `fmax`: zeros of both signs, infinities, the least numbers,
NaNs. -/
theorem met_MinMaxReturnAnOperand :
    (fmtOf 0).width = 32 ∧ (decodeF fp32 0x7FC00000).isNan = true ∧ (decodeF fp32 0x7F800001).isSnan = true ∧
    (decodeF fp32 0x3F800000).isNan = false ∧
    below (decodeF fp32 0x80000000) (decodeF fp32 0) ∧ ¬ below (decodeF fp32 0) (decodeF fp32 0) ∧
    below (decodeF fp32 0xFF800000) (decodeF fp32 0x80000001) ∧ below (decodeF fp32 1) (decodeF fp32 2) := by
  have h0 : decodeF fp32 0x80000000 = .fin true 0 (-149) := by decide +kernel
  have h1 : decodeF fp32 0 = .fin false 0 (-149) := by decide +kernel
  have h2 : decodeF fp32 0xFF800000 = .inf true := by decide +kernel
  have h3 : decodeF fp32 0x80000001 = .fin true 1 (-149) := by decide +kernel
  have h4 : decodeF fp32 1 = .fin false 1 (-149) := by decide +kernel
  have h5 : decodeF fp32 2 = .fin false 2 (-149) := by decide +kernel
  refine ⟨by decide, by decide +kernel, by decide +kernel, by decide +kernel, ?_, ?_, ?_, ?_⟩
  · rw [h0, h1]; exact .inr ⟨rfl, rfl, rfl, rfl⟩
  · rw [h1]; simp [below]
  · rw [h2, h3]; rfl
  · rw [h4, h5]; exact .inl ⟨-149, by decide, by decide, by decide⟩

/-- The state after a `fork` of X. -/
def forkedX : State :=
  let s := (st 1).setLaunch (st 1).cc.launch { (st 1).cl with code := { (st 1).cl.code with regions := [(0, 3)] } }
  match exec (.fork { Wrd.blank .X with sa := .sp .z }) s with
  | .next t => t
  | _ => s

theorem met_ComparesAndConversions :
    (let t (o : Nat) (w : Wrd) := xPopped w (usesOf o w) (st 1)
     xOpen wV (usesOf 0x10D wV) (st 1) && xOpen wX (usesOf 0x10D wX) (st 1) &&
     xOpen wV (usesOf 0x108 wV) (st 1) && (trapOf (ften (t 0x108 wV)) (lanesAt wV (isWide wV) (t 0x108 wV))
       (fcmpResults wV (st 1))).isNone &&
     ([0x110, 0x111].all fun o => xOpen wV (usesOf o wV) (st 1) &&
       (trapOf (ften (t o wV)) (lanesAt wV false (t o wV)) (cvtResults o wV (st 1))).isNone) &&
     (atSlot wV (st 1)).cluster.isNone &&
     xOpen { wV with imm := 4 } (usesOf 0x112 wV) (st 1) &&
     (let w := { wV with imm := 4 }
      let rs := (span 0 64).zip ((cvtqBlock w (st 1) 0).2 ++ (cvtqBlock w (st 1) 32).2)
      (trapOf (ften (t 0x112 w)) id rs).isNone &&
      (trapOf (ften (t 0x113 w)) id (cvtdResults w (st 1))).isNone && xOpen w (usesOf 0x113 w) (st 1)) &&
     (let f : State := { forkedX with cur := ⟨0, 5⟩ }
      decide (f.power = .on) && f.canIssue && f.cluster.isSome)) = true := by
  decide +kernel

theorem met_VectorMovesAndReductions :
    ((moveRules.all fun r => xOpen wV (usesOf r.opc wV) (st 1)) &&
     treeRules.all fun r => xOpen wX (usesOf r.2.1 wX) (st 1) &&
      (trapOf (ften (xPopped wX (usesOf r.2.1 wX) (st 1))) id [(0, treeValue r.2.1 r.2.2 wX (st 1))]).isNone) = true := by
  decide +kernel

/-- With IMM 6, `gop` is the exclusive or of two masks; its operands here are all zero. -/
theorem met_MaskWords :
    (let w : Wrd := { Wrd.blank .X with dst := .g 1, sa := .g 2, sb := .g 3, imm := 6 }
     xOpen w (usesOf 0x130 w) (st 1) && (maskRules.all fun r => xOpen w (usesOf r.2.1 w) (st 1)) &&
     xOpen w (usesOf 0x134 w) (st 1) &&
     ((span 0 64).all fun i => bit (0 : Mask) i ==
       bit w.imm (2 * (if bit (regVal (atSlot w (st 1)) w.sa) i then 1 else 0) +
         (if bit (regVal (atSlot w (st 1)) w.sb) i then 1 else 0))) &&
     (let x : Wrd := { Wrd.blank .X with sa := .lq 0 }
      let s := withQ 0 (st 1)
      slotOpen x s && (lqsOf x (usesOf 0x138 x)).all fun q =>
        (headOf (atSlot x s).cluster ((atSlot x s).cc.loadQ q)).isSome)) = true := by decide +kernel

/-- A guard on condition 0 holds the words back; with an outcome in the queue of A for `brq`. -/
theorem met_ControlWordsDecide_held :
    (let w : Wrd := { wA with ge := true }
     let s := (st 0).modCore fun k => { k with obXA := [(true, .zero)] }
     heldBack w (st 0) && heldBack w s && decide (s.cur.stream < 4) && !(atSlot w s).cc.obXA.isEmpty) = true := by
  decide +kernel

/-- `acts` with the two outcomes of `brc`, an entry on the return stack and room for more, an outcome for `brq`,
and no write pending for `halt`. -/
theorem met_ControlWordsDecide :
    (let s := ((st 0).modCore fun k => { k with obXA := [(true, .zero)] }).modStream fun t => { t with rs := [4] }
     acts wA s && decide ((atSlot wA s).cs.rs = [] ++ [4]) && decide ((atSlot wA s).cs.rs.length < 8) &&
     !(atSlot wA s).cc.obXA.isEmpty && decide (s.cur.stream < 4) && (atSlot wA s).cc.pendReady &&
     acts wA (setReg 2 1 (st 0))) = true ∧
    compares (intMode wA) 0 (regVal (atSlot wA (st 0)) wA.sa).toNat (regVal (atSlot wA (st 0)) wA.sb).toNat ∧
    ¬ compares (intMode wA) 0 (regVal (atSlot wA (setReg 2 1 (st 0))) wA.sa).toNat
      (regVal (atSlot wA (setReg 2 1 (st 0))) wA.sb).toNat := by
  refine ⟨by decide +kernel, ?_, ?_⟩
  · show (intMode wA).val _ = (intMode wA).val _; decide +kernel
  · show ¬ (intMode wA).val _ = (intMode wA).val _; decide +kernel

/-- A state whose open branch group has recorded some decisions. -/
def grouped (l : List (Option Decision)) : State := (st 0).modCore fun k => { k with group := l }

theorem met_BranchGroupsResolve :
    4 ≤ (grouped [some (.goto 5), some (.goto 5), none, some (.goto 5)]).cc.group.length ∧
    (grouped [some (.goto 5), some (.goto 5), none, some (.goto 5)]).cc.group.filterMap id =
      List.replicate (2 + 1) (.goto 5) ∧
    (grouped [some .fall, some .fall, some .fall, some .fall]).cc.group.filterMap id = List.replicate (3 + 1) .fall ∧
    (grouped [some .halt, none, none, none]).cc.group.filterMap id = List.replicate (0 + 1) .halt ∧
    .goto 0xFFFFFF ∈ (grouped [some (.goto 0xFFFFFF), some .halt, none, none]).cc.group.filterMap id ∧
    .halt ∈ (grouped [some (.goto 0xFFFFFF), some .halt, none, none]).cc.group.filterMap id ∧
    Decision.goto 0xFFFFFF ≠ .halt := by decide +kernel

/-- Return stacks that hold 8 entries and none, the two boundary cases. -/
theorem met_ReturnStackFaults :
    (let s := (st 0).modStream fun t => { t with rs := [1, 2, 3, 4, 5, 6, 7, 8] }
     acts wA s && decide (8 ≤ (atSlot wA s).cs.rs.length) && acts wA (st 0) &&
     decide ((atSlot wA (st 0)).cs.rs = [])) = true := by decide +kernel

theorem met_BranchGroupsResolve_decisions :
    (let s (d : Decision) := (st 0).modStream fun t => { t with dec := some (d, 0) }
     ∀ d ∈ [Decision.goto 3, .fall, .halt], (s d).cs.lit = 0 ∧ 0 ≤ (s d).cs.pc ∧ (s d).cs.dec = some (d, 0)) := by
  decide +kernel

/-- Control registers at the boundary: SEED may be written by a user, FTV may not, and 0xFFF is not assigned. -/
theorem met_PlainWords :
    (let s := st 0
     let g : Wrd := { wA with ge := true }
     slotOpen wA s && scalarOn wA (atSlot wA s) && slotOpen g s && !scalarOn g (atSlot g s) &&
     csrKnown 0x010 && !csrKnown 0xFFF && csrKnown 0x011 && csrUser 0x011 && !csrUser 0 && csrKnown 0 &&
     decide ((atSlot wA (priv s)).cc.csrN 0 ≠ 0) && decide ((atSlot wA (user s)).cc.csrN 0 = 0) &&
     decide ((atSlot wA s).cc.obAX.length < 16) && decide ((atSlot wV (st 1)).cc.obXA.length < 16)) = true := by
  decide +kernel

/-- Takes of the tokens there are and of one more, and gives up to 15 and past it. -/
theorem met_TokenWords :
    (let full := (st 0).modCore fun k => { k with tok := k.tok.put (tokQ .A false) (List.replicate 14 .zero) }
     let t (m n : Nat) : Wrd := { Wrd.blank .A with mod := BitVec.ofNat 8 m, imm := BitVec.ofNat 32 n }
     slotOpen (t 0 1) (st 0) && decide ((st 0).cur.stream < 4) &&
     decide ((atSlot (t 0 1) (st 0)).seqn 0 = .joint) && decide ((atSlot (t 0 1) (slip (st 0))).seqn 0 = .slip) &&
     decide (((atSlot (t 0 1) (st 0)).cc.tokens (takeQ .A true)).length < 1) &&
     decide (0 ≤ ((atSlot (t 0 1) (st 0)).cc.tokens (takeQ .A true)).length) &&
     decide (((atSlot (t 2 1) full).cc.tokens (tokQ .A false)).length + 1 ≤ 15) &&
     decide (15 < ((atSlot (t 2 2) full).cc.tokens (tokQ .A false)).length + 2)) = true := by decide +kernel


/-- A fork region from word 0 to word 3, at its `fork` and at its `join`. -/
def forkable (pc : Nat) (s : State) : State :=
  (s.setLaunch s.cc.launch { s.cl with code := { s.cl.code with regions := [(0, 3)] } }).modStream fun t =>
    { t with pc := pc }

/-- The fork at its start, and the join of its region; with none, some and all of the synchronisation bits set. -/
theorem met_ForkAndJoin :
    (let w : Wrd := { Wrd.blank .X with sa := .sp .z }
     let s := forkable 0 (st 1)
     let j := (forkable 3 (st 1)).modCore fun k => { k with fork := some (0, 3) }
     slotOpen w s && decide (forkHere w (atSlot w s) = some (0, 3)) &&
     decide (s.cl.code.regions.find? (fun x => x.1 = s.cs.pc) = some (0, 3)) &&
     slotOpen (Wrd.blank .X) j && decide ((atSlot (Wrd.blank .X) j).cc.fork = some (0, 3)) &&
     decide ((atSlot (Wrd.blank .X) j).cs.pc = 3) && decide (j.cc.fork = some (0, 3)) &&
     !(j.cc.stream (clusterStream 0)).joinb &&
     (let all := j.modCore fun k => { k with streams := (span 0 7).foldl (fun m i =>
        m.upd .init i fun t => { t with joinb := true }) k.streams }
      (span 0 4).all fun c => (all.cc.stream (clusterStream c)).joinb)) = true := by decide +kernel

/-- A guarded word and its own guard's word; a set that finds stream 0 held, held with its latch read, and at work. -/
theorem met_EndsAndEvents :
    (let s := st 0
     let held (h : Hold) : State := s.modStream fun t => { t with hold := h }
     decide (((held .latch).cc.stream 0).hold = .latch) && decide (((held .wfe).cc.stream 0).hold = .wfe) &&
     decide ((s.cc.stream 0).hold ≠ .latch ∧ (s.cc.stream 0).hold ≠ .wfe ∧ (s.cc.stream 0).hold ≠ .woken s.clk.wcyc s.cc.moves) &&
     slotOpen wA s && scalarOn wA (atSlot wA s) && (atSlot wA s).cc.pendReady &&
     decide ((atSlot wA s).seqn 0 ≠ .timed) && slotOpen { wA with ge := true } s &&
     !scalarOn { wA with ge := true } (atSlot { wA with ge := true } s)) = true := by decide +kernel

/-! ### Memory words -/

/-- A page-table entry: an address and its low bits. -/
def pte (pa fl : Nat) : List Byte := toBytes 8 (pa + fl)

/-- Page tables of segment 0: 0 is memory, 0x20000000 memory-side memory, 0x40000000 a page of the host, 0x60000000 one
of package 1, and under 0x80000000 two pages of 64 KiB, the second read-only. -/
def tables : Memory :=
  let m : Memory := memWrite [] 0x100000 (pte 0x110000 1)
  let m := memWrite m 0x110000 (pte 0x120000 1)
  let m := memWrite m 0x120000 (pte 0x20000000 31 ++ pte 0x40000000 63 ++ pte (2 ^ 63 + 0x60000000) 31 ++
    pte (2 ^ 48 + 0x80000000) 63 ++ pte 0x130000 1)
  memWrite m 0x130000 (pte 0x310000 31 ++ pte 0x320000 23)

/-- A state whose launch has page tables, four ways of a die store, and a scratchpad of 32 KiB. -/
def mem (e : Nat) : State :=
  let s := st e
  let x : Ctx := { Ctx.init with pgroot := ⟨[(0, 0x100001)]⟩, keyset := 1 }
  let s : State := { s with mem := tables, dom := { s.dom with ctxs := s.dom.ctxs.put s.cc.launch x } }
  let s := s.setLaunch s.cc.launch { s.cl with ways := ⟨[(0, 4)]⟩ }
  s.modCore fun k => { k with scr := 15 }

/-- A state with bytes in the memory of the package, from page 0 of segment 0 on. -/
def putMem (o : Nat) (l : List Byte) (s : State) : State := { s with mem := memWrite s.mem (0x20000000 + o) l }

/-- A state with bytes in the scratchpad. -/
def putSpad (o : Nat) (l : List Byte) (s : State) : State := s.modCore fun k => spadWrite k o l

/-- A state whose issuing stream has waited for its release half. -/
def rel (s : State) : State := s.modStream fun t => { t with hold := .release 77 }

/-- The hypotheses of a load: its access resolves, and its bytes are there. -/
def loads (f : Resolver) (acq : Bool) (n : Nat) (sx : Bool) (w : Wrd) (s : State) : Bool :=
  let t := latched w s
  slotOpen w s && !guardOff w t && okAnd (f w (memAddr w t)) t fun l t1 =>
    okAnd (loadRuns l acq w.ac n sx) t1 fun _ t2 =>
      decide ((t2.cc.loadQ (bits w.imm 11 9)).entries.length < 16)

theorem met_QueueLoadsAllocateTheirEntry :
    ((queueLoads.all fun r => loads r.2.1 (r.2.2 wA) 0 false wA (mem 0)) &&
     loads (inLocal 0) false 0 false { wA with mod := 7 } (mem 0) &&
     loads (inSegment 0) true 0 false { wA with mod := 0x28 } (mem 0) &&
     (let g : Wrd := { wA with ge := true }
      slotOpen g (mem 0) && guardOff g (latched g (mem 0)) &&
      decide (((latched g (mem 0)).cc.loadQ 0).entries.length < 16))) = true := by decide +kernel

theorem met_RegisterLoadsIssueTheirWrite :
    ((registerLoads.all fun r => loads r.2.1 (r.2.2.1 wA) (sizeBytes (mSizeCode wA)) (bit wA.imm 8) wA (mem 0)) &&
     (let w : Wrd := { wA with mod := 3, imm := 0x100 }
      loads (inSegment 0) false 4 true w (setReg 2 0x20000FFC (mem 0)))) = true := by decide +kernel

/-- A store of 8 bytes: its head is there, its access resolves, and its places are open before and after the pop. -/
def stores (f : Resolver) (w : Wrd) (s : State) : Bool :=
  let t := latched w s
  slotOpen w s && !guardOff w t && (match (t.cc.storeQ 0).entries.head? with
    | none => false
    | some e => e.valid && okAnd (f w (memAddr w t)) t fun l t1 => okAnd (storeReady l) t1 fun _ t2 =>
        decide ((t2.cc.storeQ 0).entries.head? = some e) && okB (storeReady l) (entryPopped 0 e t2))

theorem met_StoresWriteTheirBytes :
    ((queueStores.all fun r => stores r.2 wS (withQ 0 (mem 3))) &&
     stores (inSegment 1) { wS with mod := 0x30 } (withQ 0 (mem 3)) &&
     stores (inSegment 1) { wS with mod := 0x30 } (setReg 2 0x20000040 (withQ 0 (mem 3))) &&
     stores (inSegment 1) { wS with mod := 0x90 } (setReg 2 0x40000040 (rel (withQ 0 (mem 3)))) &&
     (let g : Wrd := { wS with ge := true }
      slotOpen g (withQ 0 (mem 3)) && guardOff g (latched g (withQ 0 (mem 3)))) &&
     ([wS, { wS with imm := 0x2000 }].all fun w => okAnd ((if bit w.imm 13 then inSegment 1 w else inLocal 1 w)
        (memAddr w (latched w (mem 3)))) (latched w (mem 3)) fun l t1 => okB (storeReady l) t1)) = true := by decide +kernel

/-- Local addresses at the ends of the bed store and the die store, one byte past them, and misaligned ones; global
addresses with no translation, and a write to a read-only page. -/
theorem met_AccessesResolveOrFault :
    (let t := mem 0
     (∀ e ∈ [(2097152 : Nat), t.cl.ways.get 0 (t.dieOf t.cur.core) * 8388608], (e - 8) + 8 ≤ e ∧ (e - 8) % 8 = 0 ∧
       (e - 12) + 8 ≤ e ∧ (e - 12) % 8 ≠ 0 ∧ e < (e - 7) + 8) ∧
     staleLeaves t 0 t.cl.ctx 0x900000000000 (walk t (t.ctx t.cl.ctx) 0x900000000000) = [] ∧
     (match walk t (t.ctx t.cl.ctx) 0x900000000000 with
      | .stop _ _ => true
      | _ => false) = true ∧
     staleLeaves t 0 t.cl.ctx 0x80010000 (walk t (t.ctx t.cl.ctx) 0x80010000) = [] ∧
     (match walk t (t.ctx t.cl.ctx) 0x80010000 with
      | .leaf e _ => (leafStop (t.ctx t.cl.ctx) e 1).isSome
      | _ => false) = true) := by decide +kernel

/-- The hypotheses of an atomic on a place of the package. -/
def atomic (w : Wrd) (s : State) : Bool :=
  let t := latched w s
  slotOpen w s && !guardOff w t && okAnd (slotOpnds [w.sb, w.sc]) t fun v t0 => okAnd (byG 2 w (memAddr w t)) t0 fun l t1 =>
    match l with
    | [c] => (match c.place with
      | .remote pa _ => okB (remoteAtomic w c pa 0x290 8 v) t1
      | _ => ownPlace c.place && (!hasRel w || okB (awaitRelease (mScope w)) t1) && okAnd (accessReady [c]) t1 fun _ t2 =>
          okB (afterContribs [c] w.ac) t2 && okB (rmw c fun m => some (m + 1)) t2)
    | _ => false

/-- A domain of packages 0 and 1, with reservations of each kind and two groups in force. -/
def fabric (s : State) : State :=
  let r (kind pkg grp dep rty : Nat) : BitVec 128 := BitVec.ofNat 128
    (kind * 2 ^ 120 + pkg * 2 ^ 108 + grp * 2 ^ 88 + 2 ^ 93 + 5 * 2 ^ 80 + 0xFFFFFFFFFF * 2 ^ 40 + dep * 2 ^ 20 + rty)
  let b : RBank := ⟨1, 64, [r 0 1 0 3 9, r 1 1 0 4 10, r 2 1 0 6 12, r 3 0 3 7 13, r 4 0 3 8 14, r 3 0 4 7 13],
    [[0], [0], [0], [2, 0x20000, 0x10001], [2, 0x10000, 0x10005]], false⟩
  { s with
    recov := { s.recov with members := ⟨[(0, 3)]⟩ }
    fab := { s.fab with banks := s.fab.banks.put 0 b, active := 0 } }

/-- Atomics on memory and on each local store, a remote one behind its release, and one that is guarded off. -/
theorem met_AtomicsAreOneAccess :
    ([(wA, 0x20000000), ({ wA with imm := 0x2000 }, 8), ({ wA with imm := 0x2000 }, 2 ^ 62), ({ wA with imm := 0x2000 }, 2 ^ 63)].all fun x =>
      atomic x.1 (setReg 2 x.2 (mem 0))) = true ∧
    atomic { wA with mod := 0x90 } (rel (setReg 2 0x20000008 (mem 0))) = true ∧
    atomic wA (rel (setReg 2 0x60000008 (fabric (mem 0)))) = true ∧
    (let g : Wrd := { wA with ge := true }
     slotOpen g (mem 0) && guardOff g (latched g (mem 0))) = true ∧
    logStall (mem 0) (0x40000000 / 64) = false := by decide +kernel

/-- A load whose data is still to arrive, with acquire order or not. -/
def pendingLoad (acq : Bool) : LoadSrc := ⟨[⟨0, 4, 0x20000000, false⟩], 0, acq, false, 4, true, .A, 1, 0⟩

/-- A register write whose data is still to arrive. -/
def lateWrite : Pend := ⟨40, 66, .reg (.a 7), BitVec.allOnes 64, 0, 0, false, some (pendingLoad false)⟩

/-- A contribution in the package and to package 1; the three boundaries; a `fence` that waits for a load, and one
that passes. -/
theorem met_ContributionsAndBoundaries :
    (let r : Wrd := { wA with imm := 0xC00 }
     ([(0x20000008, Place.home 0x40000008 true), (0x60000008, Place.remote (2 ^ 48 + 0x80000008) true)].all fun x =>
       let s := setReg 2 x.1 (fabric (mem 0))
       let t := latched r s
       slotOpen r s && !guardOff r t && (okAnd (slotOpnds [r.sb, r.sc]) t fun _ t0 => okAnd (inSegment 2 r (memAddr r t)) t0 fun l t1 =>
         decide (l = [⟨0, 8, 2, x.2⟩]) && okAnd (accessReady l) t1 fun _ t2 =>
           t.inDomain 1 && t2.reserved 2 t2.cur.core 1))) = true ∧
    (let f := (mem 0).modStream fun t => { t with fence := true }
     let out := f.modCore fun k => { k with streams := k.streams.upd .init 0 fun t => { t with pend := [lateWrite] } }
     f.cs.fence = true ∧ acqOpen f = false ∧ unperformed f = false ∧ f.cc.releases = [] ∧ out.cs.fence = true ∧
       acqOpen out = false ∧ unperformed out = true) ∧
    (let p (m : Nat) : Wrd := { Wrd.blank .A with mod := BitVec.ofNat 8 m }
     mOrder (p 0x28) = 1 ∧ mOrder (p 0x30) = 2 ∧ mOrder (p 0x38) = 3 ∧ slotOpen (p 0x38) (rel (mem 0)) = true ∧
     okB (awaitRelease (mScope (p 0x38))) (atSlot (p 0x38) (rel (mem 0))) = true ∧
     scalarOn (p 0x38) (atSlot (p 0x38) (rel (mem 0))) = true ∧
     (atSlot (p 0) (mem 0)).cc.openLoads = [] ∧ storeHeld (atSlot wS (mem 3)).cc = false ∧
     scalarOn { p 8 with ge := true } (atSlot { p 8 with ge := true } (mem 0)) = false) := by decide +kernel

/-- A ring of four slots of 4,096 bytes with its counts. -/
def withRing (ec fc cc : Nat) : State :=
  let s := mem 0
  let s := s.setLaunch s.cc.launch { s.cl with nest := { s.cl.nest with rings := 8 } }
  let m := memWrite (memWrite [] (64 * 3) (toBytes 8 (0x1000 + 4 * 2 ^ 24))) (64 * 3 + 8)
    (toBytes 4 ec ++ toBytes 4 fc ++ toBytes 4 cc)
  s.setBed 0 { s.bed 0 with store := m }

/-- A full ring less one slot, slots claimed and filled, and counts that have and have not passed. -/
theorem met_RingWords :
    (let w : Wrd := { wA with imm := 3 }
     let s := withRing 1 2 4
     slotOpen w s && !guardOff w (atSlot w s) && okAnd (accessReady []) (atSlot w s) fun _ t => (match ringAt w t with
      | none => false
      | some (b, r) => decide ((ringCC (t.bed b) 3 + 2 ^ 32 - ringEC (t.bed b) 3) % 2 ^ 32 ≠ r.nsl) &&
        (span 0 4).any (fun j => decide (r.find (r.addr j) = some j) &&
          inWindow r.nsl (ringFC (t.bed b) 3) (ringCC (t.bed b) 3) j &&
          !markPending t b ((t.bed b).ring 3).fill (.ringFill t.cc.launch b 3 j) j) &&
        (span 0 4).any (fun j => inWindow r.nsl (ringEC (t.bed b) 3) (ringFC (t.bed b) 3) j &&
          !markPending t b ((t.bed b).ring 3).free (.ringFree t.cc.launch b 3 j) j) &&
        decide (nextCrn ((t.bed b).ring 3).last (insertN t.cur.core (claimers t b 3)) = some t.cur.core) &&
        !claimLate t ((t.bed b).ring 3) && okB issueOrder t &&
        passed (ringFC (t.bed b) 3) 1 && !passed (ringFC (t.bed b) 3) 2 && passed (ringEC (t.bed b) 3) 0)) = true := by
  decide +kernel

theorem met_CarvingAndTranslations :
    (slotOpen wA (mem 0) && !guardOff wA (atSlot wA (mem 0)) &&
     okB (rootCheck (segOf wA) (invalAddr wA (atSlot wA (mem 0)))) (atSlot wA (mem 0)) &&
     decide ((atSlot wA (user (mem 0))).cc.csrN 0 = 0) && slotOpen wA (user (mem 0)) &&
     decide ((atSlot wA (priv (mem 0))).cc.csrN 0 ≠ 0) && slotOpen wA (priv (mem 0))) = true := by decide +kernel

/-! ### Words of the asynchronous engines -/

/-- A state with a barrier at 0x100 of the scratchpad and at 0x2000 of the bed store. -/
def withBar (b : Barrier) (s : State) : State :=
  let s := putSpad 0x100 (barBytes b) s
  s.setBed 0 (bedWrite 0x2000 (barBytes b) (s.bed 0))

/-- The barrier of the words here: at 0x100, with phases, arrivals and sectors at the ends of their ranges. -/
theorem met_BarrierWords :
    (let s (n : Nat) := setReg 4 n (setReg 2 0x100 (withBar ⟨2, 1, 0, 3, 3, 5⟩ (mem 0)))
     let t (n : Nat) := atSlot wA (s n)
     let g : Wrd := { wA with sc := .sp .z }
     let x : State := (s 4).modCore fun k => { k with a := k.a.put 5 5 }
     acts wA (s 1) && acts g (s 1) && (okAnd (barPlace 0x100) (t 4) fun p _ =>
       let b := readBar (t 4) 0 p
       decide (1 ≤ (regVal (t 4) wA.sb).toNat) && inI32 4 && (barSectors (tagOf g (t 4)) 4 b).isSome &&
       ([(g, t 4), (wA, atSlot wA x)].all fun r => okAnd (slotOpnds [r.1.sa, r.1.sc]) r.2 fun v t0 =>
         okAnd (barPlace (opndAt v 0)) t0 fun p u => (barArrive (tagVal r.1 (opndAt v 1)) (readBar u 0 p)).isSome) &&
       decide (1 ≤ (b.ph + 16 - 4 % 16) % 16 ∧ (b.ph + 16 - 4 % 16) % 16 ≤ 8)) && acts wA x && acts g (s 65535) &&
     decide ((2 ^ 62 + 0x2000) / 2 ^ 62 = 1 ∧ (2 ^ 62 + 0x2000) % 2 ^ 62 % 16 = 0) &&
     decide (bits (0 : Dword) 43 32 = (t 1).ident.pkg) && (t 1).inDomain 0 && (fabric (t 1)).inDomain 1 &&
     okB (remoteReady (2 ^ 48)) (fabric (t 1)) &&
     decide ((t 1).bedOf (bits (8 : Dword) 9 0) ≠ (t 1).bedOf 0) &&
     acts wA (setReg 4 8 (setReg 2 (2 ^ 62 + 0x2000) (mem 0)))) = true := by decide +kernel

/-- A barrier with no arrival left, sectors past their range, and counts of 0 and 65,536. -/
theorem met_BarrierCounts :
    (let g : Wrd := { wA with sc := .sp .z }
     let s (n : Nat) (b : Barrier) := setReg 4 n (setReg 2 0x100 (withBar b (mem 0)))
     let none_ (b : Barrier) (f : Wrd → State → Barrier → Bool) (n : Nat) : Bool :=
       let t := atSlot g (s n b)
       acts g (s n b) && okAnd (barPlace (regVal t g.sa).toNat) t fun p u => f g t (readBar u 0 p)
     !hasRel g && (okAnd (slotOpnds [g.sa, g.sc]) (atSlot g (s 0 ⟨0, 0, 0, 0, 1, 0⟩)) fun v t0 =>
       okAnd (barPlace (opndAt v 0)) t0 fun p u => (barArrive (tagVal g (opndAt v 1)) (readBar u 0 p)).isNone) &&
     none_ ⟨0, 2147483647, 0, 1, 1, 0⟩ (fun w t b => inI32 (regVal t w.sb).toInt &&
       (barSectors (tagOf w t) (regVal t w.sb).toInt b).isNone) 1 &&
     none_ ⟨0, 0, 0, 1, 1, 0⟩ (fun w t _ => decide ((regVal t w.sb).toNat = 0)) 0 &&
     none_ ⟨0, 0, 0, 1, 1, 0⟩ (fun w t _ => decide (65535 < (regVal t w.sb).toNat)) 65536) = true := by
  decide +kernel

/-- A descriptor, from fields of given widths. -/
def desc (l : List (Nat × Nat)) : List Byte := l.flatMap fun p => toBytes p.1 p.2

/-- A copy descriptor (R321). -/
def copyOf (dst src cyc len bar fl : Nat) : List Byte :=
  desc [(8, dst), (8, src), (8, cyc), (8, len), (8, bar), (1, 0), (1, 0), (2, fl), (20, 0)]

/-- A copy within the scratchpad and one from memory with a barrier that counts its sectors. -/
theorem met_CopiesAndWaits :
    (([copyOf 0x1000 0 0 64 0 0, copyOf 0x1000 0x20000000 0 128 0x100 11].all fun l =>
      let s := setReg 2 0x200 (putSpad 0x200 l (withBar ⟨2, 1, 0, 3, 3, 5⟩ (mem 0)))
      let t := atSlot wA s
      let d := copyDesc (spadRead t.cc (0x200 % 2 ^ t.cc.scr) 64)
      slotOpen wA s && scalarOn wA t && copyOk d && (okAnd (copyRange (d.fl.testBit 1) d.sseg d.src d.len 0) t fun _ t1 =>
        okAnd (copyRange (d.fl.testBit 2) d.dseg d.dst d.len 1) t1 fun _ t2 => okAnd (copyPlace d) t2 fun b t3 =>
          okB awaitEntry t3 && decide (b.isSome = d.fl.testBit 0) && b.all fun p =>
            (barSectors none (d.len / 64 : Nat) (readBar t3 0 p)).isSome)) &&
     (let s := (setReg 2 1 (mem 0)).modCore fun k => { k with
        tlIssued := k.tlIssued.put 0 1, tlDone := k.tlDone.put 0 1, copies := k.copies.put 0 [⟨1, some 40⟩] }
      let t := atSlot wA s
      decide (1 ≤ t.cc.tlIssued.get 0 (viewOf wA 0)) && decide (1 ≤ t.cc.tlDone.get 0 (bits wA.imm 2 0)) &&
      decide (((t.cc.copies.get [] (viewOf wA 0)).find? (fun r => r.num = 1)) = some ⟨1, some 40⟩) &&
      decide (t.seqn 0 ≠ .timed))) = true := by decide +kernel

/-- A grid of one partition of 8 elements of 8 bytes with ghost regions of depth 1 on one axis (R300). -/
def gridOf : List Byte :=
  desc [(8, 0x10000), (4, 8), (4, 1), (4, 1), (1, 1), (1, 0), (1, 1), (1, 1), (1, 0), (1, 255), (1, 2), (1, 1), (1, 0),
    (3, 0), (6, 0), (2, 0), (8, 0), (8, 0x400), (8, 4096), (64, 0)]

/-- A state with the grid's descriptor and its owners in memory. -/
def gridState : State := setReg 2 0x800 (putMem 0x800 gridOf (putMem 0x400 (toBytes 2 0 ++ toBytes 2 0) (mem 0)))

/-- The word that defines grid 2. -/
def gdefWord : Wrd := { wA with mod := 3, imm := 0x200 }

/-- The state with grid 2 defined. -/
def gridDefined : State :=
  match exec (.gdef gdefWord) gridState with
  | .next t => { t with cur := ⟨0, 0⟩ }
  | _ => gridState

theorem met_GridWords_gdef :
    (let w := gdefWord
     let s := gridState
     let t := atSlot w s
     slotOpen w s && scalarOn w t && (okAnd (resolveGlobal 0 0x800 128 0) t fun l t1 => okAnd (loadNow l 0) t1 fun d t2 =>
       let g := gridDesc d
       !gridBusy t t.cc.launch 2 && gridOk d g &&
       okAnd (resolveRange g.seg 0 (2 * g.count / 65536 + 2) 0 (fieldOf d 48 8) (2 * g.count)) t2 fun lo t3 =>
         okAnd (loadNow lo 0) t3 fun o t4 => ((span 0 g.count).all fun i => t.cl.cores.any (· == fieldOf o (2 * i) 2)) &&
           okB (gridPages g.seg (gridPageList g) .empty) t4)) = true := by decide +kernel

theorem met_GridWords_gstep :
    (let w : Wrd := { wA with mod := 3, imm := 2 }
     let s := setReg 2 0 (setReg 4 3 gridDefined)
     let t := atSlot w s
     slotOpen w s && scalarOn w t && (match t.cl.grids.get? 2 with
      | none => false
      | some g => decide (0 < g.count ∧ (g.owners[0]?).getD 0 = t.cur.core ∧ 3 % g.dep = 0) &&
          (g.published.get? 0).isNone)) = true := by decide +kernel

/-- A grid load: its element, step and partition, and its bytes. -/
def gridLoad (w : Wrd) (s : State) (held : Bool) : Bool :=
  let t := atSlot w s
  slotOpen w s && !guardOff w t && decide ((t.cc.loadQ 0).entries.length < 16) && okAnd (gridCheck w) t fun x _ =>
    let p := (regVal t w.sb).toNat
    let n := (regVal t w.sc).toNat
    !haloExpired t && okAnd (resolveRange x.1.seg 0 2 0 (x.1.elemVa p (x.1.bankOf n) (x.2.headD 0)) 4) t fun l t1 =>
      if held then !(regionsOf x.1 x.2).isEmpty && (regionsOf x.1 x.2).all (fun f => (heldOf x.1 p f).any (· == n)) &&
        okB (accessReady l) t1
      else (regionsOf x.1 x.2).isEmpty && okB (loadRuns l false w.ac 0 false) t1

/-- Grid 2 with a change, and its operands: element `a`, partition 1, step 3. -/
def gridAt (f : Grid → Grid) (a : Nat) : State :=
  let s := setReg 5 3 (setReg 2 a (setReg 4 1 gridDefined))
  match s.cl.grids.get? 2 with
  | some g => s.setLaunch s.cc.launch { s.cl with grids := s.cl.grids.put 2 (f g) }
  | none => s

theorem met_GridWords_ldgs :
    gridLoad { wA with mod := 3, imm := 2 } (gridAt id 1) false = true ∧
    gridLoad { wA with mod := 3, imm := 2 } (gridAt (fun g => { g with heldSet := ⟨[(8, [3])]⟩ }) 0) true = true ∧
    (let g : Wrd := { wA with mod := 3, imm := 2, ge := true }
     slotOpen g (gridAt id 1) && guardOff g (atSlot g (gridAt id 1))) = true := by decide +kernel

theorem met_GridWords_stgs :
    (let w : Wrd := { wS with mod := 3, imm := 2 }
     let s : State := withQ 0 { gridAt id 1 with cur := ⟨0, 3⟩ }
     let t := atSlot w s
     slotOpen w s ∧ guardOff w t = false ∧ t.dom.fills = [] ∧ t.cc.releases = [] ∧
     (okAnd (gridCheck w) t fun x _ => (regionsOf x.1 x.2).isEmpty && decide ((x.1.owners[1]?).getD 0 = t.cur.core) &&
       okAnd (resolveRange x.1.seg 1 2 0 (x.1.elemVa 1 (x.1.bankOf 3) (x.2.headD 0)) 4) t fun l t1 =>
         okAnd (storeReady l) t1 fun _ t2 => decide ((t2.cc.storeQ 0).entries.head? = some (entry 2 9)) &&
           okB (storeReady l) (entryPopped 0 (entry 2 9) t2)) = true) := by decide +kernel

/-- A parameter block of two buffers (R312). -/
def block (fmt n : Nat) : List Byte :=
  desc ([(8, 0x1000), (8, 0x2000), (8, n), (1, 2), (1, fmt), (1, 0), (1, 0), (4, 0), (8, 77), (24, 0), (8, 0x3000),
    (8, 0x4000)] ++ List.replicate 14 (8, 0))

theorem met_ReductionsAndTransplants_rdxgo :
    (let s := setReg 2 0x800 (putMem 0x800 (block 0 24) (mem 0))
     let t := atSlot wA s
     acts wA s && okAnd (resolveGlobal 0 0x800 192 0) t fun bl t1 => okAnd (loadNow bl 0) t1 fun d t2 =>
       blockOk d && okAnd (redRange 0 0x800 192 1) t2 fun _ t3 => okAnd (redRange 0 0x2000 8 0) t3 fun _ t4 =>
         okAnd (redRange 0 0x2000 8 1) t4 fun fl t5 => okAnd (redRange 0 0x1000 96 0) t5 fun _ t6 =>
           okAnd (redRange 0 0x1000 96 1) t6 fun dst t7 => okAnd (bufRanges 0 96 [0x3000, 0x4000]) t7 fun bufs _ =>
             decide (homesOf (bl ++ fl ++ dst ++ bufs.flatten) = some [0]) && decide (fieldOf d 0 8 = 0x1000) &&
             decide (fieldOf d 8 8 = 0x2000)) = true := by decide +kernel

/-- A part that completes with a value and a state gives just these. -/
theorem ok_of_okAnd {α : Type} [DecidableEq α] {a : Act α} {s t : State} {v : α}
    (h : okAnd a s (fun x y => decide (x = v ∧ y = t)) = true) : a s = .ok (v, t) := by
  unfold okAnd at h
  split at h
  · rename_i r hr
    have h := of_decide_eq_true h
    rw [hr, ← h.1, ← h.2]
  · cases h

/-- The state of a transplant of the page of 64 KiB at 0x80000000 to die 2. -/
def migrating : State := priv (setReg 2 0x80000000 (setReg 4 65536 (setReg 5 (2 * 2 ^ 45 + 0x10000) (mem 0))))

theorem met_ReductionsAndTransplants_pgmig :
    (acts wA migrating = true ∧ (atSlot wA migrating).cc.csrN 0 ≠ 0 ∧ acts wA (user migrating) = true ∧
      (atSlot wA (user migrating)).cc.csrN 0 = 0) ∧
    transplantOk (atSlot wA migrating) 0x80000000 65536 (2 * 2 ^ 45 + 0x10000) [(0x130000, 0x31001F, 65536)] := by
  refine ⟨by decide +kernel, by decide, by decide, by decide, by decide, by decide +kernel, ?_, ?_⟩
  · exact ok_of_okAnd (by decide +kernel)
  · decide +kernel

/-! ### Matrix words -/

/-- A state whose core holds a lease, or wants one. -/
def leased (x : Option Bool) (s : State) : State := s.modCore fun k => { k with lease := x }

theorem met_LeaseAndFormatWords :
    (let w : Wrd := { wM with mod := 1 }
     acts wM (leased (some false) (st 2)) && acts wM (leased (some true) (st 2)) && acts w (leased none (st 2)) &&
     !closeDue (atSlot wM (leased (some true) (st 2))) 0 0 && !closeDue (atSlot wM (leased (some true) (st 2))) 0 1 &&
     (let x := atSlot w ((leased none (st 2)).setLaunch 1 { (st 2).cl with nest := { (st 2).cl.nest with tt := true } })
      decide (x.seqn 0 = .timed) && !leaseConflict x 0 true && !closeBefore x 0 true) &&
     decide ((atSlot w (leased none (st 2))).cc.lease = none) && decide ((atSlot w (st 2)).seqn 0 ≠ .timed) &&
     validFmt 0x77050000 && !validFmt 0x80000000) = true := by decide +kernel

/-- A chain descriptor of hops (bed, REM, slot) (R146). -/
def chain (rows cols : Nat) (hops : List (Nat × Nat × Nat × Nat)) : List Byte :=
  toBytes 16 ((hops.length - 1) + (cols - 1) * 2 ^ 16 + (rows - 1) * 2 ^ 32) ++
    hops.flatMap fun h => toBytes 16 (h.1 * 2 ^ 32 + h.2.1 * 2 ^ 16 + h.2.2.1 * 2 ^ 9 + h.2.2.2 * 2 ^ 7)

/-- A state with a lease and a descriptor of one hop of three contributions at 0x400. -/
def ready : State :=
  leased (some false) (setReg 2 0x400 (putSpad 0x400 (chain 2 4 [(3, 80, 0, 1)]) (mem 2)))

/-- One instruction run, and its stream at the front again. -/
def ran (i : Instr) (s : State) : State :=
  match exec i s with
  | .next t => { t with cur := s.cur }
  | _ => s

/-- The state with chain 0 built. -/
def built : State := ran (.chbuild wM) ready

/-- The state with bank 0 loaded from address 0. -/
def loadedBank : State := ran (.bld { wM with imm := 3 * 2 ^ 19 + 3 * 2 ^ 9 }) (setReg 2 0 (setReg 4 64 built))

/-- IMM of an `mma` of 2 rows of 4 entries into bank 0, hop 0 of chain 0. -/
def mmaWord : Wrd := { wM with imm := 0x181 }

theorem met_ChainWords_chbuild :
    (let s := ready
     let r := readDesc (atSlot wM s).cc (0x400 % 2 ^ (atSlot wM s).cc.scr)
     acts wM s = true ∧ chainFree 0 r.1 r.2 (atSlot wM s)) := by
  unfold chainFree; decide +kernel

theorem met_ChainWords_mclose :
    (let w : Wrd := { wM with imm := 0x20 }
     let s := setReg 2 0x8000 (setReg 4 128 built)
     let t := atSlot w s
     acts w s = true ∧ (∃ h ∈ (t.myChain 0).desc.hops, closeOk 0 h t) ∧
     (okAnd (resolveRange 0 1 2 0 0x8000 272) t fun _ t1 => okB takeTurn t1) = true ∧
     (t.myChain 0).desc.mt * 128 + packedBytes 0 (t.myChain 0).desc.cols ≤ 272 ∧
     packedBytes 0 (t.myChain 0).desc.cols ≤ 128) := by
  unfold closeOk; decide +kernel

theorem met_ChainWords_mzero :
    (let t := atSlot wM built
     acts wM built = true ∧ zeroOk 0 t ∧ (∀ h ∈ (t.myChain 0).desc.hops, okB (linkTrap true (t.myChain 0).desc h) t = true) ∧
     (t.myChain 0).live = true) := by
  unfold zeroOk; decide +kernel

theorem met_BankLoads_bld :
    (let w : Wrd := { wM with imm := 3 * 2 ^ 19 + 3 * 2 ^ 9 }
     let s := setReg 2 0 (setReg 4 64 built)
     let t := atSlot w s
     slotOpen w s = true ∧ guardOff w t = false ∧ bldOk w t ∧
     (okAnd needTurn t fun _ t1 => okAnd (readRows false 0 0 64 (bldArgs w t).bytes 4 0) t1 fun r _ => r.2.isNone) = true ∧
     t.cs.prog = 0 ∧ (bldArgs w t).rows = 4) := by
  unfold bldOk; decide +kernel

theorem met_BankLoads_sld :
    (let w (b : Bool) : Wrd := { wM with imm := 6 + b.toNat }
     let s := setReg 2 0 (setReg 4 64 loadedBank)
     slotOpen (w false) s = true ∧ guardOff (w false) (atSlot (w false) s) = false ∧
     slotOpen (w true) s = true ∧ guardOff (w true) (atSlot (w true) s) = false ∧
     sldOk (w false) false (atSlot (w false) s) ∧ sldOk (w true) true (atSlot (w true) s) ∧
     (okAnd takeTurn (atSlot (w true) s) fun _ t1 => okB (readRow false 0 0 4) t1 && okB (readRow false 0 0 16) t1) = true ∧
     (sldArgs (w true) true (atSlot (w true) s)).bytes = 4 ∧ (sldArgs (w false) false (atSlot (w false) s)).bytes = 16) := by
  unfold sldOk; decide +kernel

theorem met_MmaAddsItsRows :
    (let s := setReg 2 0 loadedBank
     let t := atSlot mmaWord s
     let a := mmaArgs mmaWord t.cs.repd
     slotOpen mmaWord s && !guardOff mmaWord t && (okAnd (mmaCheck mmaWord a) t fun st _ =>
       okAnd takeTurn t fun _ t1 =>
         decide (snanMask t1 st a (spadRows mmaWord a (rowEntries (activeFmt t.cc) a.k) t) = 0)) && !bit mmaWord.mod 7 &&
     (let q : Wrd := { mmaWord with sa := .sp .z, mod := 0x84, imm := 0x180 }
      let s := s.modCore fun k => { k with lq := k.lq.put 4 ⟨[entry 1 0, entry 2 0]⟩ }
      let t := atSlot q s
      let a := mmaArgs q t.cs.repd
      let n := rowEntries (activeFmt t.cc) a.k
      slotOpen q s && bit q.mod 7 && decide (a.rows * n ≤ 16) && okAnd (mmaCheck q a) t fun st _ =>
        okB (haveEntries (bits q.mod 2 0) (a.rows * n)) t && okAnd takeTurn t fun _ t1 => okAnd (takeEntries (bits q.mod 2 0) (a.rows * n)) t1 fun l t2 =>
          decide (snanMask t2 st a (queueRows a n l) = 0))) = true := by decide +kernel

/-- Products at the ends of their range whose partial sums leave no element. -/
theorem met_ElementsAddExactly :
    (let l : List Int := [2 ^ 95 - 1, -(2 ^ 95 - 1), -7]
     (∀ p ∈ l, -(2 ^ 95 : Int) < p ∧ p < 2 ^ 95) ∧
     -(2 ^ 95 : Int) ≤ (0 : BitVec 112).toInt + l.sum ∧ (0 : BitVec 112).toInt + l.sum < 2 ^ 95) := by decide

/-! ### Many-die words -/

/-- The state in which the word of the issuing stream has done `n` units, with the base and the operands that its first
unit has read. -/
def progress (n base : Nat) (l : List Nat) (s : State) : State :=
  if n = 0 then s
  else s.modStream fun t => { t with prog := n, base := BitVec.ofNat 64 base, opnd := l.map (BitVec.ofNat 64) }

/-- A bulk load of `n` bytes to a local address: its runs, and the unit at hand. -/
def bulkLoad (w : Wrd) (s : State) : Bool :=
  let t := latched w s
  let j := t.cs.prog
  slotOpen w s && !guardOff w t && okAnd (slotOpnds [w.sb, w.sc]) t fun x t0 =>
    let a := bulkArgs w (opndAt x 0) (opndAt x 1) t
    let z := Nat.min 1024 (a.n - 1024 * j)
    decide (a.n % 64 = 0 ∧ 64 ≤ a.n ∧ a.n ≤ 65536 ∧ a.ra % 64 = 0 ∧ a.la % 64 = 0 ∧ 1024 * j < a.n) &&
    okAnd (resolveLocalRange a.la a.n 1 64) t0 fun dst _ => okAnd (resolveRange (segOf w) 0 3 0 a.ra a.n) t0 fun src t1 =>
      okB (noEgress (segOf w) a.ra src) t1 && okB (needReads src) t1 && okAnd (accessReady src) t1 fun _ tr =>
        okAnd (ldrRuns (subRuns src (1024 * j) z)) tr fun _ t2 => okB (storeReady (subRuns dst (1024 * j) z)) t2

/-- The least and the greatest length, the first of two units, and the last. -/
theorem met_BulkTransfers_ldr :
    ([(64, 0), (2048, 0), (2048, 1), (65536, 63)].all fun x => bulkLoad wA (progress x.2 0x100 [2 ^ 62, x.1]
      (setReg 5 x.1 (setReg 4 (2 ^ 62) (setReg 2 0x100 (mem 0)))))) = true := by decide +kernel

theorem met_BulkTransfers_stgr :
    (let s := setReg 5 128 (setReg 4 (2 ^ 62 + 0x4000) (setReg 2 0x20000100 (mem 3)))
     let t := latched wS s
     let a := bulkArgs wS (2 ^ 62 + 0x4000) 128 t
     slotOpen wS s = true ∧ guardOff wS t = false ∧ bulkOk a ∧
     (okAnd (resolveLocalRange a.la a.n 0 64) t fun src _ => okAnd (resolveRange 0 1 3 0 a.ra a.n) t fun dst t1 =>
       okAnd (storeReady dst) t1 fun _ t2 => okB (loadNow src 0) t2) = true) := by
  unfold bulkOk; decide +kernel

theorem met_BulkTransfers_mmar :
    (let s (n : Nat) := progress n 0 [0x100, 0] (setReg 2 0x100 (setReg 4 0 loadedBank))
     [0, 1].all fun r =>
       let t := atSlot mmaWord (s r)
       let m := mmaArgs mmaWord t.cs.repd
       slotOpen mmaWord (s r) && !guardOff mmaWord t && decide (m.rows = 2) &&
       okAnd (slotOpnds [mmaWord.sa, mmaWord.sb]) t fun x t0 => decide (opndAt x 1 < 256) && okAnd (mmaCheck mmaWord m) t0 fun st _ =>
         let n := 256 * rowEntries st.fmt m.k
         okAnd (mmarRuns (opndAt x 1 % 256) (opndAt x 0) n m.rows 0) t0 fun runs t1 => okB (needReads runs.flatten) t1 &&
           okAnd needTurn t1 fun _ t2 =>
             okAnd (mmarRow ((runs[r]?).getD [])) t2 fun l t3 =>
               decide (snanMask t3 st m [(r, l)] = 0)) = true := by decide +kernel

theorem met_ReleaseStores :
    (let w : Wrd := { wS with mod := 0x90 }
     let s (a : Nat) := setReg 2 a (fabric (mem 3))
     let near (x : State) := slotOpen w x && !guardOff w (latched w x) &&
       okAnd (inSegment 1 w (wrapN 64 ((latched w x).cs.base.toNat + w.off.toInt))) (latched w x) fun l t1 =>
         l.all (fun c => match c.place with
           | .remote _ _ => false
           | _ => true) && okB (storeReady l) t1
     let far (x : State) := slotOpen w x && !guardOff w (latched w x) &&
       okAnd (inSegment 1 w (wrapN 64 ((latched w x).cs.base.toNat + w.off.toInt))) (latched w x) fun l t1 =>
         match l with
         | [c] => (match c.place with
           | .remote pa _ => (latched w x).inDomain (pkgBits pa)
           | _ => false) && okB (storeReady l) t1
         | _ => false
     near (s 0x20000100) && near (rel (s 0x40000100)) && far (s 0x60000100)) = true := by decide +kernel

/-- A stream descriptor of 4 slots (R413). -/
def stream (ec fc : Nat) : Memory :=
  memWrite [] 128 (toBytes 8 (4 * 2 ^ 40 + 2 ^ 16) ++ toBytes 4 ec ++ toBytes 4 fc)

/-- A state whose launch has stream 2 on die 0, with slots filled, and stream 5 towards die 1. -/
def streams : State :=
  let s := mem 0
  s.setLaunch s.cc.launch { s.cl with
    ways := ⟨[(0, 4), (1, 2)]⟩
    dieStore := ⟨[(0, stream 1 3), (1, memWrite [] 320 (toBytes 8 (4 * 2 ^ 40 + 2 ^ 16)))]⟩ }

theorem met_StreamWords_ssend :
    ([0x500, 0x4500].all fun im =>
      let w : Wrd := { wA with imm := BitVec.ofNat 32 im }
      let s := setReg 4 128 (setReg 2 0x200 streams)
      let t := atSlot w s
      let die := sendDie t false
      slotOpen w s && !guardOff w t && sendFirst t die 5 && okAnd (slotOpnds [w.sa, w.sb]) t fun x t0 =>
      decide (opndAt x 0 = 0x200 ∧ opndAt x 1 = 128) && okB (strmCheck die 5 (some (t.dieOf t.cur.core))) t0 &&
      okAnd (if bit w.imm 14 then resolveRange 0 0 3 0 0x200 128 else resolveLocalRange 0x200 128 0 1) t0 fun src t1 =>
        okB (noEgress 0 0x200 src) t1 && decide (strmUsed (t.tstream die t.cc.launch 5) ≠ strmNsl t die t.cc.launch 5) &&
        okB (loadNow src 0) t1) = true := by decide +kernel

/-- Slots that have arrived and have not, and the slot that may be freed: EC is 1 and FC is 3. -/
theorem met_StreamWords_srecv :
    (let w : Wrd := { wA with imm := 2 }
     let t := atSlot w streams
     let l := t.cc.launch
     slotOpen w streams && !guardOff w t && okB (strmCheck 0 2 none) t && passed (strmFC t 0 l 2) 2 &&
     !passed (strmFC t 0 l 2) 3 && decide ((2 + 2 ^ 32 - strmEC t 0 l 2) % 2 ^ 32 < (strmFC t 0 l 2 + 2 ^ 32 - strmEC t 0 l 2) % 2 ^ 32) &&
     decide (2 % strmNsl t 0 l 2 ∉ (t.tstream 0 l 2).free) && !(loadsUnperformed t || storesUnperformed t)) = true := by decide +kernel

theorem met_GroupWords_mcast :
    ([0x300, 0x400].all fun im =>
      let w : Wrd := { wS with imm := BitVec.ofNat 32 im }
      let s := setReg 5 64 (setReg 4 0x1000 (setReg 2 0 (fabric (mem 3))))
      let t := atSlot w s
      slotOpen w s && !guardOff w t && (groupOf t (bits w.imm 12 8)).isSome &&
      (findRes t 3 t.cur.core 0 (bits w.imm 12 8)).isSome && decide (egressFill t + 2 * 64 ≤ 67108864) &&
      okAnd (resolveLocalRange 0 64 0 1) t fun src _ => okB (loadNow src 0) t) = true := by decide +kernel

/-- A round whose root has come back. -/
def rooted (s : State) : State :=
  let t : State := s.modStream fun t => { t with hold := .round 3 1 }
  { t with dom := { t.dom with rounds := [⟨3, 1, 0, 1, [(0, 5), (1, 6)], [], some 99⟩] } }

theorem met_GroupWords_cmb :
    (let w : Wrd := { wS with imm := 0x300 }
     let s := setReg 4 0x1000 (setReg 2 0 (fabric (mem 3)))
     let t := atSlot w s
     let u := atSlot w (rooted s)
     slotOpen w s && !guardOff w t && decide (t.cs.hold = .none) && (okAnd (cmbCheck 3) t fun decl _ =>
       okAnd (resolveLocal 0 256 0) t fun src _ => okB (resolveLocal 0x1000 256 1) t && okB (loadNow src 0) t &&
         decide ((roundAt 3 t).contribs.length < decl)) &&
     slotOpen w (rooted s) && decide (u.cs.hold = .round 3 1) && decide ((roundOf u 3 1).bind (·.root) = some 99) &&
     okAnd (resolveLocal 0x1000 256 1) u fun dst _ => okB (storeReady dst) u) = true := by decide +kernel


/-! ### System and recovery words -/

theorem met_TrapsAndReturns_words :
    ([(wS, 3), (wX, 1)].all fun x => acts x.1 (mem x.2) && okB (slotExit x.1 nextWord) (atSlot x.1 (mem x.2))) = true := by
  decide +kernel

/-- A frame of a fault. -/
def frame (code : Nat) (faux0 : Dword) : Frame :=
  { fcode := code, fstr := 0, prec := true, fork := false, priv := 0, repn := 0, aux := 0, kind := 0, deferred := 0
    ovf := false, mfa := 0, mfb := 0, faux0 := faux0, faux1 := 0 }

/-- A supervisor that serves launch 1, with a save area or without one. -/
def serving (f : Frame) (area : Option Nat) (s : State) : State :=
  (priv s).modCore fun k => { k with served := some ⟨f, 1, area⟩ }

theorem met_TrapsAndReturns_eret :
    (let s := rel (serving (frame 0x11 0) none (mem 3))
     let b := rel (serving (frame 0x11 0) (some 0x300000) (mem 3))
     let u := afterOf (awaitRelease 4) (atSlot wS s)
     let l := u.launch 1
     acts wS (user (mem 3)) && decide ((atSlot wS (user (mem 3))).cc.csrN 0 = 0) && acts wS (priv (mem 3)) &&
     decide ((atSlot wS (priv (mem 3))).cc.csrN 0 ≠ 0) && decide ((atSlot wS (priv (mem 3))).cc.served = none) &&
     acts wS s && decide ((atSlot wS s).cc.csrN 0 ≠ 0) && decide ((atSlot wS s).cc.served = some ⟨frame 0x11 0, 1, none⟩) &&
     okB (awaitRelease 4) (atSlot wS s) && decide ((atSlot wS s).cc.tlIssued.get 0 3 ≤ (atSlot wS s).cc.tlDone.get 0 3) && (imageLease u 1 u.cur.core none).isNone && okB (slotExit wS nextWord) u &&
     acts wS b && okB (awaitRelease 4) (atSlot wS b) && !imageOk b.mem 0x300000 l.code 0) = true := by decide +kernel

/-- The place of link 1 of bed 0, for launch 1, as FAUX0 gives it. -/
def linkAux : Dword := ownerAux 0 1 1

theorem met_RecoveryWords_spills :
    (acts wM (user built) && acts wM (priv built) && decide ((atSlot wM (user built)).cc.csrN 0 = 0) &&
     decide ((atSlot wM (priv built)).cc.served = none) &&
     ([0x23, 0x24].all fun fc =>
       let s := serving (frame fc linkAux) none built
       acts wM s && (match servedPlace (atSlot wM s) with
         | some (_, c, bed, slot) => decide (c = fc) && decide (bed = 0) && decide (slot = 1)
         | none => false)) &&
     (let s := serving (frame 0x23 linkAux) none ready
      let t := atSlot wM s
      acts wM s && decide ((t.link 0 1).state = 0) && !towards t (t.link 0 1) 0 && linkAreaRoom t (t.link 0 1).owner 1) &&
     (let s := serving (frame 0x23 linkAux) none ready
      let x : Ctx := { s.ctx (s.launch 1).ctx with linkArea := ⟨[(1, 0x300000)]⟩ }
      let s : State := { s with dom := { s.dom with ctxs := s.dom.ctxs.put (s.launch 1).ctx x } }
      let s := setLink 0 1 { s.link 0 1 with owner := (s.launch 1).ctx } s
      let t := atSlot wM s
      acts wM s && decide ((t.ctx (t.launch 1).ctx).linkArea.get? 1 = some 0x300000) && decide ((t.link 0 1).state = 0) &&
      decide ((t.link 0 1).owner = (t.launch 1).ctx))) = true := by decide +kernel

/-- Chain 0 frozen, with its link retired or as it was. -/
def frozen (dead : Bool) : State :=
  ran (.chfrz wM) (if dead then setLink 0 1 { built.link 0 1 with retired := 1, state := 6 } built else built)

theorem met_RecoveryWords_chains :
    acts wM built = true ∧ ((atSlot wM built).myChain 0).live = true ∧ ((atSlot wM ready).myChain 0).live = false ∧
    acts wM ready = true ∧ acts wM (frozen false) = true ∧ ((atSlot wM (frozen false)).myChain 0).state = 4 ∧
    chainFailed (atSlot wM (frozen false)) 1 0 ((atSlot wM (frozen false)).myChain 0).desc = false ∧
    (let w : Wrd := { wM with imm := BitVec.ofNat 32 (9 * 2 ^ 9 + 2 * 2 ^ 13) }
     let t := atSlot w (frozen true)
     acts w (frozen true) = true ∧ (t.myChain 0).state = 4 ∧ chainFailed t 1 0 (t.myChain 0).desc = true ∧
     ∃ h ∈ (t.myChain 0).desc.hops, hopFailed t 1 0 0 (t.myChain 0).desc h = true ∧ h.stream = false ∧
       h.die = t.dieOf t.cur.core ∧ spareOk t t.cl.ctx 9 2 = true) := by decide +kernel

/-- An irrevocable store in the package and one to package 1. -/
theorem met_RecoveryWords_irrv :
    ([0x20000008, 0x60000008].all fun a =>
     let s := setReg 2 a (fabric (mem 3))
     let t := atSlot wS s
     let h := s.modStream fun x => { x with hold := .handed }
     acts wS s && decide (t.cs.hold ≠ .handed) && acts wS h && decide ((atSlot wS h).cs.hold = .handed) &&
     okAnd (resolveGlobal (segOf wS) (wrapN 64 ((regVal t wS.sa).toNat + wS.off.toInt)) (irrvSize wS) 1) t
       fun l t1 => okAnd (accessReady l) t1 fun _ _ => match l with
         | c :: _ => (match c.place with
           | .remote _ _ => decide (a = 0x60000008)
           | _ => decide (a = 0x20000008))
         | [] => false) = true := by decide +kernel

theorem met_GuardedOffWordsHaveNoEffect :
    ([({ wA with ge := true }, 0), ({ wM with ge := true }, 2), ({ wS with ge := true }, 3)].all fun x =>
      slotOpen x.1 (withQ 0 (mem x.2)) && guardOff x.1 (atSlot x.1 (withQ 0 (mem x.2))) &&
      heldBack x.1 (withQ 0 (mem x.2)) && !bit x.1.mod 7 &&
      decide (((atSlot x.1 (mem x.2)).cc.loadQ 0).entries.length < 16) &&
      decide (((atSlot x.1 (withQ 0 (mem x.2))).cc.storeQ 0).entries.head? = some (entry 2 9))) = true := by decide +kernel

/-! ### Steps of agents: cores, beds and chains -/

/-- A queue entry and a register write still to arrive, a release with nothing left to publish, and an event and a
report in flight. -/
def arriving : State :=
  let s := (mem 0).modCore fun k => { k with
    lq := k.lq.put 3 ⟨[⟨55, 0, false, 0, some (pendingLoad true), .zero⟩]⟩
    releases := [⟨77, 1, 0, none, .empty, .none⟩]
    streams := k.streams.upd .init 0 fun t => { t with pend := [lateWrite] } }
  { s with dom := { s.dom with
    sevs := [⟨5, 1, 0, 1, some 9⟩, ⟨6, 1, 0, 1, none⟩]
    reports := [⟨8, 0, 1, ⟨0x16, 0, 0, 0, 0, 0⟩⟩] } }

theorem met_ArrivalsAtCores :
    (decide (arriving.power = .on) &&
     (((arriving.core 0).loadQ 3).entries.find? fun x => x.id = 55 && !x.valid).isSome &&
     (((arriving.core 0).stream 0).pend.find? fun x => x.seq = 66 && !x.ready).isSome &&
     (match (arriving.core 0).releases with
      | r :: _ => homesDone arriving 0 r && (unitsLeft (arriving.core 0) r).isEmpty
      | [] => false) &&
     (let k : Core := { arriving.core 0 with
        releases := [⟨78, 4, 0, none, .empty, .remoteArrive 1 1 0 64 none⟩]
        trackers := [⟨1, 0, none, true, true, false⟩] }
      let s := arriving.setCore 0 k
      (match k.releases with
       | r :: _ => homesDone s 0 r && !(unitsLeft k r).isEmpty && r.cont.ordered && !arrivalsOpen s 0 &&
         runsReady s [(.bedStore 64, [1])]
       | [] => false)) &&
     decide (arriving.dom.sevs.find? (·.id = 5) = some ⟨5, 1, 0, 1, some 9⟩) &&
     decide (arriving.dom.sevs.find? (fun x => x.src = 1 && x.core = 0 && x.launch = 1) = some ⟨5, 1, 0, 1, some 9⟩) &&
     decide (arriving.dom.reports.find? (·.id = 8) = some ⟨8, 0, 1, ⟨0x16, 0, 0, 0, 0, 0⟩⟩) && !arriving.savedCtx 1 0 &&
     decide ((arriving.core 0).launch = 1) && decide ((arriving.core 0).mode = .running) &&
     decide ((arriving.modCore fun k => { k with mode := .faulted }).cc.mode = .faulted) &&
     decide ((arriving.modCore fun k => { k with mode := .halted }).cc.mode = .halted) &&
     decide ((arriving.cc.keep ⟨0x16, 0, 0, 0, 0, 0⟩).reports = ⟨0x16, 0, 0, 0, 0, 0⟩ :: []) &&
     decide (arriving.cc.reports.length < 16)) = true := by decide +kernel

/-- Core 0 under slip with every stream stuck but one that has yielded. -/
def stuck : State :=
  (slip (mem 0)).modCore fun k => { k with
    streams := k.streams.mapVals fun i t => { t with wait := if i = 3 then 10 else 1, waitAt := k.moves } }

/-- Core 0 stopped at a fault, with a supervisor and without. -/
def faulted (sup : Bool) : State :=
  let s := (mem 0).modCore fun k => { k with mode := .faulted, frame := some (frame 0x11 0) }
  if sup then { s with sup := some ⟨s.cl.code, 7⟩ } else s

/-- A clock of cycles since the start, all of them schedule cycles. -/
def atCycle (n : Nat) (s : State) : State := { s with clk := ⟨n, n, false, 0, 0, 0⟩ }

theorem met_EventsOfCoresAndChains_core :
    (let k := stuck.core 0
     decide (k.mode = .running) && decide (stuck.seqn 0 = .slip) && (k.lq.vals.all fun q => q.entries.all (·.valid)) &&
     (k.sq.vals.all fun q => q.entries.all fun e => e.slices != 15 || e.valid) &&
     (k.inUse.all fun e => decide ((k.stream e).wait = 10) || (k.stream e).stuck k.moves) &&
     (k.inUse.any fun e => decide ((k.stream e).wait ≠ 10) && decide ((k.stream e).wait ≠ 6)) &&
     ((faulted true).core 0).settled && coreAreaRoom (faulted true) 1 0 && (faulted true).sup.isSome && !((faulted true).launch 1).handler &&
     ((faulted false).core 0).settled && decide ((faulted false).sup = none) &&
     (let s := atCycle 50 ((mem 0).modStream fun t => { t with hold := .cycle 50 true })
      decide (((s.core 0).stream 0).hold = .cycle 50 true) && decide ((s.core 0).mode = .running) &&
      decide (50 ≤ s.clk.scyc)) &&
     (let s := (mem 0).setCore 3 { (mem 0).core 3 with mode := .running, leaseWant := some false }
      decide (nextCrn (s.bed 0).lastGrant (grantable s 0) = some 3)) &&
     decide ((built.link 0 1).state ≠ 0)) = true := by decide +kernel

/-- A state whose text is one `ldgs`, whose element is held by no ghost region, and which has waited for HWAIT. -/
def staleGhost : State :=
  let w : Wrd := { wA with dst := .a 0, mod := 3, imm := 2 }
  let s := gridAt id 0
  match encode (.ldgs w) with
  | some (t, p, _, _) =>
    let s := s.setLaunch 1 { s.cl with code := wordCode 160 (t.toNat + p.toNat * 2 ^ 128) }
    s.modStream fun x => { x with hold := .halo 4096, pc := 0 }
  | none => s

theorem met_EventsOfCoresAndChains_halo :
    (let w : Wrd := { wA with dst := .a 0, mod := 3, imm := 2 }
     let s := staleGhost
     decide (((s.core 0).stream 0).hold = .halo 4096) && decide ((s.core 0).mode = .running) &&
     decide (fetchAt (s.at 0 0).cl.code (s.at 0 0).cs.bank (s.at 0 0).cs.pc = some (.ldgs w)) &&
     decide (((s.core 0).csrN 0x030).toNat ≤ 4096) && !tagHeld w (s.at 0 0)) = true := by decide +kernel

/-- Chain 0 of one contribution, summed and its close asked for. -/
def closing : State :=
  let s := leased (some false) (setReg 2 0x400 (putSpad 0x400 (chain 2 4 [(1, 80, 0, 1)]) (mem 2)))
  let s := ran (.bld { wM with imm := 3 * 2 ^ 19 + 3 * 2 ^ 9 }) (setReg 2 0 (setReg 4 64 (ran (.chbuild wM) s)))
  ran (.mclose wM) (setReg 2 0x2000 (setReg 4 64 (ran (.mma mmaWord) (setReg 2 0 s))))

theorem met_EventsOfCoresAndChains_close :
    (let s := closing
     let x := s.chain 1 0 0
     decide (x.state = 2) && (match x.close, x.desc.hops[x.desc.hops.length - 1]? with
      | some q, some h => (match hopLinks s x.desc h with
        | y :: _ => decide (y.state = 4)
        | [] => false) && hopHeld s 1 0 (x.desc.hops.length - 1) x.desc h &&
        decide (q.num = (s.ctxCore 1 q.core).closeNum + 1) && !s.clk.hold && ctxRoom s 1 q.core &&
          (!q.mem || (opRoom s q.runs && !runsMove s q.runs))
      | _, _ => false)) = true := by decide +kernel

/-- A chain of two hops whose first has all its contributions: its partial is in flight. -/
def sending : State :=
  let s := leased (some false) (setReg 2 0x400 (putSpad 0x400 (chain 2 4 [(1, 80, 0, 1), (2, 80, 1, 2)]) (mem 2)))
  let s := ran (.bld { wM with imm := 3 * 2 ^ 19 + 3 * 2 ^ 9 }) (setReg 2 0 (setReg 4 64 (ran (.chbuild wM) s)))
  ran (.mma mmaWord) (setReg 2 0 s)

theorem met_EventsOfCoresAndChains_partial :
    (match sending.dom.partials with
     | p :: _ => (match (sending.chain p.launch p.die p.chain).desc.hops[p.hop]? with
       | some h => hopHeld sending p.launch p.chain p.hop (sending.chain p.launch p.die p.chain).desc h &&
         (sending.dom.partials.find? (·.id = p.id)).isSome
       | none => false)
     | [] => false) = true := by decide +kernel

/-- A launch of 12 iterations, 5 of them handed out, whose cores 0 and 1 are free. -/
def raking : State :=
  let s := mem 0
  let s := s.setLaunch 1 { s.launch 1 with
    nest := { (s.launch 1).nest with depth := 2, count := [4, 3, 0, 0], step := [1, 2, 0, 0], start := [10, 20, 0, 0] }
    handed := 5, total := 12, cores := [0, 1] }
  let s := s.setCore 0 { s.core 0 with mode := .free }
  s.setCore 1 { s.core 1 with mode := .free, launch := 1 }

/-- The state with its launch changed. -/
def withLaunch (f : Launch → Launch) (s : State) : State := s.setLaunch 1 (f (s.launch 1))

theorem met_LaunchSteps_handout :
    ([raking, withLaunch (fun l => { l with handed := 0 }) raking,
      withLaunch (fun l => { l with handed := 0, nest := { l.nest with tt := true } }) raking].all fun s =>
        let l := s.launch 1
        decide (l.status = .running) && !l.handler && decide (l.handed < l.total) && !sealing s && bedsFree s 1 l &&
        (l.nest.tt || (nextFree (if l.handed = 0 then startLaunch 1 s else s) 1 l).isSome)) = true := by decide +kernel

theorem met_LaunchSteps_complete :
    (let s := withLaunch (fun l => { l with handed := 12, ended := 12, closed := false }) raking
     let l := s.launch 1
     !l.closed && !l.handler && !opsOpen s 1 && decide (l.status = .running) && decide (l.total ≤ l.ended) &&
     !faultsOpen s 1 l && (l.cores.all fun c => coreViewsDone s 1 c) && ((heldCores s 1 l).all fun c => (s.core c).releases.isEmpty) && !l.lastRelease &&
     (let t := withLaunch (fun l => { l with status := .stopped 0x40 3 false [], closed := false }) raking
      !opsOpen t 1 && !(t.launch 1).closed && (heldCores t 1 (t.launch 1)).all fun c => (t.core c).releases.isEmpty)) = true := by
  decide +kernel

/-- A core asked to give way, with its streams at their yields, and with tokens there or none. -/
def asked (tokens : Bool) : State :=
  (mem 0).modCore fun k => { k with
    preempt := some ⟨1, 0, []⟩
    tok := if tokens then k.tok.put 0 [.zero] else .empty
    streams := k.streams.mapVals fun _ t => { t with yielded := true, fpc := none } }

theorem met_LaunchSteps_preempt :
    ([true, false].all fun b =>
      decide (((asked b).core 0).preempt = some ⟨1, 0, []⟩) && newAttempt true ((asked b).core 0) ⟨1, 0, []⟩ && !sealing (asked b) && !((asked b).launch 1).handler &&
      decide (((asked b).core 0).mode = .running) && (asked b).quiet 0 false &&
      (tokensZero ((asked b).core 0) == !b) && ((asked b).core 0).settled && saveRoom (asked b) 0 &&
      (let h := (asked b).modCore fun k => { k with mode := .halted }
       !closeComing h 0 && saveRoom h 0)) = true ∧
    (let k := stuck.core 0
     stuck.seqn 0 = .slip ∧ stuck.quiet 0 false = false ∧ waitsInside k = true ∧ newAttempt false k ⟨1, 0, []⟩ = true ∧
     newAttempt false k ⟨1, k.moves, wordMarks k⟩ = false) ∧
    (let s := ran (.preemptionRequest 0) (asked false)
     nextSaved s 0 = some 1 ∧ (s.core 0).mode = .idle ∧ sealing s = false ∧ bedsFree s 1 (s.launch 1) = true ∧
     leaseWaits s 1 0 = false) := by
  decide +kernel

/-- A stall longer than the interval, the bounds of a launch at their boundary, and the bound of an iteration. -/
theorem met_LaunchSteps_bounds :
    (let s := mem 0
     let q : State := { atCycle 50 s with clk := ⟨50, 40, false, 9, 0, 0⟩ }
     !q.clk.hold && decide (9 ≤ q.clk.stall) && decide (scycLimit q = none) &&
     stallsOver ((withLaunch (fun l => { l with stalls := 2 ^ 63 }) q).launch 1) && !stallsOver (q.launch 1) &&
     decide ((q.launch 1).accepted + (withLaunch (fun l => { l with bound := 50 - l.accepted }) q |>.launch 1).bound ≤ q.clk.wcyc) &&
     decide ((s.launch (((s.core 0).served.map (·.launch)).getD (s.core 0).launch)).status = .running) &&
     decide ((s.core 0).mode = .running) &&
     (let t := withLaunch (fun l => { l with nest := { l.nest with itb := 10 } }) (atCycle 11 s)
      decide ((t.launch 1).nest.itb < t.clk.scyc - (t.ctxCore 1 0).iterStart))) = true := by decide +kernel


/-! ### Steps of agents: engines, seals and the command processor -/

/-- A copy of two blocks from memory's page 0 to the scratchpad, queued at the barrow of die 0. -/
def copying : State :=
  atCycle 100 (ran (.btcpy wA) (setReg 2 0x200 (putSpad 0x200 (copyOf 0x1000 0x20000000 0 128 0 2) (mem 0))))

/-- The same copy under way, at its last cycle. -/
def copyEnding : State := atCycle 5000 (ran (.copyAccept 0) copying)

theorem met_TransfersOfEngines_copy :
    ((nextCopy copying (copying.die 0)).isSome && (match (copyEnding.die 0).copies with
      | c :: _ => (match c.start with
        | some (st, _) => decide (st + c.dur ≤ copyEnding.clk.scyc) && !copyEnding.clk.hold &&
          (((copyEnding.die 0).copies.find? (·.entry = c.entry)).isSome) &&
          copyWritten ((span 0 (c.len / 64)).foldl (fun x i => endBlock 0 c.entry i x) copyEnding) 0 c.entry
        | none => false)
      | [] => false)) = true := by decide +kernel

/-- An arrival that completes a phase and one for which no arrival is left. -/
theorem met_TransfersOfEngines_remote :
    (let s := withBar ⟨0, 0, 0, 1, 1, 5⟩ (mem 0)
     let s : State := { s with dom := { s.dom with remote := [⟨4, 0, 8, 0, 1, 0, 0, 0x2000, none⟩, ⟨6, 1, 8, 3, 0, 0, 0, 0x3000, none⟩] } }
     (match s.dom.remote with
      | [a, b] => decide (s.dom.remote.find? (·.id = a.id) = some a ∧ s.dom.remote.find? (·.id = b.id) = some b) &&
        !earlierArrival s a && !earlierArrival s b && arrivalRoom s a && arrivalRoom s b &&
        (let bar (r : RemoteArr) := (arrivalLaunch s r).bind fun n =>
           barArrive none (barOf (memRead (s.ctxBedOf n r.bed).store r.off 16))
         (arrivalLaunch s a).isSome && (bar a).isSome && (arrivalLaunch s b).isSome && (bar b).isNone) &&
        (arrivalLaunch s { a with bed := 9 }).isNone && decide (a.pkg = s.ident.pkg ∧ b.pkg ≠ s.ident.pkg)
      | _ => false)) = true := by
  decide +kernel

/-- A step of partition 1 of grid 2 published: its halo fill waits, and has begun. -/
def filling (begun : Bool) : State :=
  let s := ran (.gstep { wA with mod := 3, imm := 2 }) (setReg 2 1 (setReg 4 3 gridDefined))
  let s := ran (.releaseComplete 0) s
  match begun, s.dom.fills with
  | true, f :: _ => ran (.haloFillBegin f.id) s
  | _, _ => s

theorem met_TransfersOfEngines_fill :
    ((match (filling false).dom.fills with
      | f :: _ => (match f.faces, ((filling false).launch f.launch).grids.get? f.grid with
        | y :: _, some g => !f.begun && !sealing (filling false) && firstFill (filling false) f &&
          axisReady g f.part f.step y && !regionBusy (filling false) f g (fillTarget g f.part y)
        | _, _ => false)
      | [] => false) && (match (filling true).dom.fills with
      | f :: _ => f.begun && (match f.faces, ((filling true).launch f.launch).grids.get? f.grid with
        | y :: _, some g => fillRoom (filling true) g (fillCells g f.part (g.bankOf f.step) y f.since
          (g.ghosts (fillTarget g f.part y).2) none (filling true)).1
        | _, _ => false)
      | [] => false)) = true := by decide +kernel

/-- The transplant of one page under way. -/
def moving : State :=
  ran (.pgmig wA) (priv (setReg 2 0x80000000 (setReg 4 65536 (setReg 5 (2 * 2 ^ 45 + 0x10000) (mem 0)))))

theorem met_TransfersOfEngines_transplant :
    ((match moving.dom.transplants with
      | t :: _ => (moving.dom.transplants.find? (·.id = t.id)).isSome && decide (t.step < 5) && stepRoom t moving
      | [] => false) && !sealing moving) = true ∧
    (match exec (.accessBounce 0 0x80000010) moving with
     | .next _ => true
     | _ => false) = true := by decide +kernel

/-- A contribution of index 3 in flight, at an engine that holds one of index 4 and expects 3. -/
def contributing : State :=
  let s := ran (.rdo { wS with mod := 0 }) (setReg 5 3 (setReg 2 0x20000100 (mem 3)))
  match s.dom.contribs with
  | c :: _ =>
    let d : Contrib := { c with id := 99, index := 4, since := 7 }
    atCycle 2000000 (s.setDie 0 { s.die 0 with targets := (s.die 0).targets.put c.pa 3, held := [d] })
  | [] => s

/-- The contribution of a number is no longer on its way. -/
def removed (id : Nat) (s : State) : State :=
  { s with dom := { s.dom with contribs := s.dom.contribs.filter (·.id != id) } }

theorem met_ContributionsReductionsAndSlots_contribution :
    (match contributing.dom.contribs with
     | c :: _ => (contributing.dom.contribs.find? (·.id = c.id)).isSome && takeable contributing (dieBits c.pa) c &&
       decide (c.index = ((contributing.die 0).targets.get? c.pa).getD 0) && decide (dieBits c.pa = 0) &&
       !((contributing.die 0).input.any (takeable contributing 0)) && !aheadIn contributing.dom.contribs c &&
       !aheadIn (contributing.die 0).input c && !heldTwin contributing 0 { c with index := 5 } &&
       heldTwin (atCycle 8 contributing) 0 { c with index := 4 } &&
       (let s := (removed c.id contributing).setDie 0 { contributing.die 0 with input := [c] }
        takeable s 0 c && !gapPassed s { c with since := s.clk.wcyc } && gapPassed s { c with since := 7 } &&
        decide ((s.die 0).input.find? (fun x => takeable s 0 x && !aheadIn (s.die 0).input x) = some c) && decide (s.dom.contribs.find? (·.id = c.id) = none) &&
        decide (s.dom.dies.entries.find? (fun e => e.2.input.any (·.id == c.id)) = some (0, s.die 0))) &&
       (((contributing.die 0).held ++ (contributing.die 0).input).find? (·.id = 99)).any fun x =>
         decide (x.since + 1048576 < contributing.clk.wcyc)
     | [] => false) = true := by decide +kernel

/-- A parameter-block reduction that has been released, and one under way. -/
def reducing (running : Bool) : State :=
  let s := ran (.releaseComplete 0) (ran (.rdxgo wA) (setReg 2 0x800 (putMem 0x800 (block 0 24) (mem 0))))
  match running, (s.die 0).reductions with
  | true, r :: _ => ran (.reductionStart 0 r.id) s
  | _, _ => s

theorem met_ContributionsReductionsAndSlots_reduction :
    ((match ((reducing false).die 0).reductions with
      | r :: _ => startable ((reducing false).die 0).reductions r && !sealing (reducing false) &&
        decide ((((reducing false).die 0).reductions.filter (·.running)).length < 16) &&
        (earlier ((reducing false).die 0).reductions r.id).isEmpty
      | [] => false) && (match ((reducing true).die 0).reductions with
      | r :: _ => r.running && !sealing (reducing true) &&
        (let n := ceilDiv (r.count * redZ r.fmt) 64
         let u := (span 0 n).foldl (fun x i => sumBlock 0 r.id i x) (reducing true)
         ((u.die 0).reductions.find? (·.id = r.id)).any (fun y => decide (n ≤ y.summed.length)) &&
         reduceRoom u [] [⟨0, 8, 15, .home r.flag false⟩, ⟨0, 4, 15, .home (r.block + 0x1C) false⟩])
      | [] => false)) = true := by decide +kernel

theorem met_ContributionsReductionsAndSlots_slot :
    (let s := ran (.ssend { wA with imm := 0x500 }) (setReg 4 128 (setReg 2 0x200 streams))
     (5 : Nat) < 32 ∧ (s.tstream 1 1 5).flight ≠ [] ∧
       ∀ x ∈ (s.tstream 1 1 5).flight, strmSlot s 1 1 5 (strmFC s 1 1 5) + x.2.length ≤ (s.launch 1).ways.get 0 1 * 8388608 ∧
         (1 : Nat) * 8388608 < 8388608 - 64 + x.2.length) := by decide +kernel

/-- A state in the middle of a seal: requested, and draining. -/
def inSeal (drain : Bool) : State :=
  let s := requestSeal .log (atCycle 9000000 State.reset)
  if drain then ran .sealOpen s else s

theorem met_SealsAndRollbacks :
    (let s := atCycle 9000000 (mem 0)
     let w : State := { s with recov := { s.recov with wrote := true } }
     decide (s.recov.phase = .idle) && decide ((inSeal false).recov.phase = .quiesce 1 [.log] ∧
       (inSeal false).recov.sealStart = (inSeal false).clk.wcyc) && decide ((inSeal true).recov.phase = .draining 1) &&
     decide (s.recov.lastResume + s.recov.ti ≤ s.clk.wcyc) && sealDue w .periodic && !sealAsked w .periodic &&
     idleInterval (atCycle 9000000 State.reset) && !idleInterval w &&
     decide ((inSeal false).recov.phase = .quiesce 1 [.log]) && sealReady (inSeal false) && !(State.reset.inDomain 1) && State.reset.inDomain 0 &&
     decide ((inSeal true).recov.phase = .draining 1) && decide (8 ≤ 8)) = true := by decide +kernel

/-- A code object whose text is one `endit` of A (R93, R94). -/
def object : Memory :=
  let m := memWrite [] 0x20010000 (toBytes 4 0x435A4E4B ++ toBytes 2 1 ++ toBytes 2 0 ++ toBytes 4 0 ++ toBytes 4 1 ++ toBytes 2 64)
  let m := memWrite m 0x20010030 (toBytes 8 128)
  let m := memWrite m 0x20010088 (toBytes 4 1)
  let m := memWrite m 0x20010090 (toBytes 8 256 ++ toBytes 8 4416 ++ toBytes 8 4480 ++ toBytes 4 1)
  let m := memWrite m 0x200100B0 (toBytes 8 4608 ++ toBytes 8 4544)
  memWrite (memWrite m 0x20010100 (toBytes 8 1)) 0x20010108 (toBytes 16 (0x054 * 2 ^ 118))

/-- A loop-nest record for one iteration on core 0 (R176). -/
def nestRecord : List Byte :=
  desc [(8, 0x10000), (4, 0xFFFFFFFF), (4, 0x010001FF), (4, 1), (4, 0xF01), (8, 0), (8, 5000), (24, 0), (8, 0), (4, 1)]

/-- A running tenant 0 with queue 0, the beds 0 and 1 reserved, and page 0 of segment 0. -/
def tenant : State :=
  let s := State.reset
  let c : TConf := ⟨true, 1, 2, 4, 256, 0, 3, ⟨[(0, 0x100001)]⟩, []⟩
  let q : TQueue := { s.queue 0 with qbase := 0x400, qsize := 16, cbase := 0x40000000, csize := 16, qwptr := 1 }
  let h : HostIf := { s.host with confs := s.host.confs.put 0 c, vf := s.host.vf.put 0 .run }
  let s : State := { s with mem := tables, host := h }
  s.setQueue 0 q

/-- The tenant with an entry, a record and a node of a kind in memory. -/
def withNode (b : List Byte) : State :=
  putMem 0x800 b (putMem 0x400 (toBytes 8 0x800 ++ toBytes 8 0x0100 ++ toBytes 8 77) tenant)

/-- The graph of queue 0 at the node at 0x800. -/
def atNode (b : List Byte) : State := ran (.queueEntryTake 0 0) (withNode b)

/-- A node: its kind and flags, its successor and its fields. -/
def node (kind fl next : Nat) (l : List Byte) : List Byte :=
  toBytes 1 kind ++ toBytes 1 fl ++ toBytes 6 0 ++ toBytes 8 next ++ l

/-- The graph of queue 0 stands at a node of a kind, and its bytes meet a condition. -/
def stands (kind : Nat) (s : State) (p : Graph → List Byte → Bool) : Bool :=
  decide (s.tsm 0 = .run) && (match liveGraph s 0 with
    | none => false
    | some x => match x.cur with
      | none => false
      | some a => decide (x.wait = .none) && (match cpRead s (tenantCtx s 0) a 0 64 with
        | .ok b => nodeOk b && decide (fieldOf b 0 1 = kind) && (!(fieldOf b 1 1).testBit 1 || !outstanding s x) &&
          p { x with node := a } b
        | _ => false))

/-- A word that the command processor reads is there. -/
def wordThere (s : State) (va : Nat) : Bool :=
  match cpWord s 0 va with
  | .ok _ => true
  | _ => false

theorem met_GraphNodes_entry :
    (let s := withNode (node 0 0 0 [])
     let x := s.queue 0
     decide (s.tsm 0 = .run) && queueExists s 0 0 && !x.stopped && ringSize x.qsize && decide (x.qrptr ≠ x.qwptr) &&
     x.graph.isNone && x.due.isEmpty && !ringFull s 0 && (match cpRead s (tenantCtx s 0) 0x400 0 64 with
      | .ok b => (entryGraph b).isSome
      | _ => false) && (entryGraph (List.replicate 64 0)).isNone) = true := by decide +kernel

/-- The launch of an object of one word. -/
def kernelState : State :=
  let s := atNode (node 0 0 0 (toBytes 8 0x900 ++ toBytes 8 0))
  let s := putMem 0x900 nestRecord s
  { s with mem := object.foldl (fun m e => memWrite m e.1 [e.2]) s.mem }


/-- The node and its record; `test_a_program_runs` shows that the record is admitted. -/
theorem met_GraphNodes_kernel :
    stands 0 kernelState (fun _ b => match cpRead kernelState (tenantCtx kernelState 0) (fieldOf b 0x10 8) 0 256 with
      | .ok l => nestOk l
      | .error _ => false) = true := by decide +kernel

/-- A graph that waits for what has come about, with no node left. -/
def waitingFor (w : GWait) (s : State) : State :=
  match (s.queue 0).graph with
  | some g => s.setQueue 0 { s.queue 0 with graph := some { g with wait := w, cur := none, next := none } }
  | none => s

/-- The rest of the nodes, each at the boundary of its fields: a copy of no byte and of one block under way, the
outcomes of COND, the first and the last pass of a LOOP, the first and the last entry of a SWITCH, the last event. -/
theorem met_GraphNodes_nodes :
    (stands 1 (atNode (node 1 0 0 (toBytes 8 0 ++ toBytes 8 64 ++ toBytes 8 0))) (fun g b =>
       g.copies.isEmpty && decide (fieldOf b 0x20 8 % 64 = 0)) &&
     stands 2 (atNode (node 2 0 0 (toBytes 8 0x400 ++ toBytes 8 0xFFFF ++ toBytes 8 0x800))) (fun _ b =>
       wordThere tenant (fieldOf b 0x10 8)) && egressRoom tenant 1 &&
     stands 3 (atNode (node 3 0 0 (toBytes 8 0x800 ++ toBytes 8 0 ++ toBytes 8 1))) (fun g _ => decide (g.loops.length < 8)) &&
     stands 4 (atNode (node 4 0 0 (toBytes 8 0x600 ++ toBytes 8 0x600 ++ toBytes 8 16))) (fun _ b =>
       wordThere tenant (fieldOf b 0x10 8) && decide (1 ≤ fieldOf b 0x20 8 ∧ fieldOf b 0x20 8 ≤ 16)) &&
     stands 5 (atNode (node 5 0 0 [])) (fun _ _ => true) &&
     stands 6 (atNode (node 6 0 0 (toBytes 1 1 ++ toBytes 1 63))) (fun _ b => decide (fieldOf b 0x10 1 = 1)) &&
     stands 6 (atNode (node 6 0 0 (toBytes 1 0 ++ toBytes 1 3))) (fun _ b => decide (fieldOf b 0x11 1 < 4)) &&
     stands 7 (atNode (node 7 0 0 (toBytes 1 63))) (fun _ b => !bit ((tenant).dom.events.get 0 0) (fieldOf b 0x10 1))) = true := by
  decide +kernel

theorem met_GraphNodes_waits :
    (let c := ran (.copy 0 0) (atNode (node 1 0 0 (toBytes 8 0 ++ toBytes 8 64 ++ toBytes 8 64)))
     let l := ran (.loopNode 0 0) (atNode (node 3 0 0 (toBytes 8 0x800 ++ toBytes 8 0 ++ toBytes 8 1)))
     let e := waitingFor (.event 3) (setEvents 0 8 (atNode (node 7 0 0 [3])))
     let done := waitingFor .none (atNode (node 5 0 0 []))
     (match liveGraph c 0 with
      | some g => (match g.copies with
        | [x] => decide (g.wait = .copy x.id)
        | _ => false)
      | none => false) &&
     (match liveGraph l 0 with
      | some g => decide (g.wait = .none) && g.cur.isNone && decide (g.loops = [(0x800, 1)]) && decide (l.tsm 0 = .run)
      | none => false) &&
     (liveGraph (waitingFor (.seal 0) (atNode (node 5 0 0 []))) 0).any (fun g => decide (g.wait = .seal 0) && g.next.isNone) &&
     (liveGraph e 0).any (fun g => decide (g.wait = .event 3) && bit (e.dom.events.get 0 0) 3) &&
     (liveGraph done 0).any (fun g => decide (g.wait = .none) && g.cur.isNone && g.loops.isEmpty && !outstanding done g) &&
     (match liveGraph (atNode (node 8 0 0 [])) 0 with
      | some g => g.cur.isSome && g.copies.isEmpty && (match cpRead (atNode (node 8 0 0 [])) (tenantCtx tenant 0) 0x800 0 64 with
        | .ok b => !nodeOk b
        | _ => false)
      | none => false) &&
     (let s := done.setQueue 0 { done.queue 0 with graph := none, due := [⟨77, 0, 0, 0, 0, 0, false, []⟩] }
      ringSize (s.queue 0).csize && !ringFull s 0 && egressRoom s 32 && (match cpRange s (tenantCtx s 0) 1 0x40000000 0 32 with
        | .ok [c] => (match c.place with
          | .host _ => true
          | _ => false)
        | _ => false))) = true := by decide +kernel

/-! ### Steps of agents: the host and the fabric -/

/-- Tenant 0 runs, and tenant 1 is unlocked; a record of its own, one that overlaps tenant 0's beds, and a bad one. -/
theorem met_TrustedInterfaces :
    (let r (beds qn : Nat) : List Byte := desc [(1, 1), (1, 1), (2, 1), (1, qn), (1, 1), (2, 256), (8, 0), (16, beds)] ++
       List.replicate 224 0
     tenant.power = .on ∧ tenant.tsm 0 = .run ∧ tenant.tsm 1 = .unlocked ∧ (tenant.setTsm 2 .locked).tsm 2 = .locked ∧
     (tenant.setTsm 2 .error).tsm 2 = .error ∧ fieldOf (r 4 1) 0 1 = 1 ∧ confOk (r 4 1) = true ∧
     bedsMeet tenant 1 (confOf (r 4 1)) = false ∧ bedsMeet tenant 1 (confOf (r 1 1)) = true ∧ confOk (r 4 0) = false) := by
  decide +kernel

theorem met_HostAccesses_queues :
    (let x := tenant.queue 0
     queueExists tenant 0 1 && !queueExists tenant 0 2 && ringSize x.qsize && decide (((16 : Word) - x.qrptr).toNat ≤ x.qsize) &&
     decide (x.qsize < ((17 : Word) - x.qrptr).toNat) && !x.stopped && decide ((x.cwptr - 0).toNat ≤ x.csize) &&
     decide (x.csize < (x.cwptr - 1).toNat) && decide (tenant.tsm 0 ≠ .unlocked) &&
     queueExists (tenant.setTsm 0 .unlocked) 0 0) = true := by decide +kernel

theorem met_HostAccesses_rest :
    ((match cpRange tenant (tenantCtx tenant 0) 0 0 0 64 with
      | .ok _ => true
      | _ => false) && (match cpRange tenant (tenantCtx tenant 0) 1 0 0 64 with
      | .ok l => l.all (cpRoom tenant)
      | _ => false) && connValid State.reset.connNext State.reset.ctbaseNext && (unfinished tenant).isEmpty &&
     !connValid (State.reset.connNext.put 9 1) 0 && !(unfinished (mem 0)).isEmpty &&
     decide ((0 : Nat) + 1024 ≤ 262144)) = true := by decide +kernel

/-- A packet that waits for its first departure, and one that has departed. -/
def departing (stage : Nat) : State :=
  let s := fabric (atCycle (56 * 70) (mem 0))
  let p : Sent := ⟨5, 1, 9, 2, 1, 0, 1, 2 ^ 48, 0, 0, 0, [], 0, stage, none, false, 60, 60, 1, 6, 12, []⟩
  { s with fab := { s.fab with sent := [p] } }

theorem met_FabricSteps_sends :
    (let s := departing 0
     let r : State := { departing 2 with clk := (atCycle (56 * 76) s).clk }
     (match s.fab.sent with
      | p :: _ => decide (p.stage = 0) && p.members.isEmpty && !p.bounced && (match s.route.resOf p with
        | some e => mayDepart s e p s.fslot && decide (s.fslot = (firstSlots s e p).1) &&
          decide ((firstSlots { s with clk := (atCycle (56 * 71) s).clk } e p).1 ≠ 71) && decide ((firstSlots s e p).2 = 76)
        | none => false) && (s.route.resOf { p with pkg := 7 }).isNone
      | [] => false) &&
     (match r.fab.sent with
      | p :: _ => decide (p.stage = 2) && (match r.genBank p.gen with
        | some b => (match b.resOf p with
          | some e => mayDepart r e p r.fslot && decide (r.fslot % b.per = bits e 19 0)
          | none => false)
        | none => false)
      | [] => false) &&
     (match (departing 1).fab.sent with
      | p :: _ => decide (p.stage = 1) && decide (p.at_ + 2 * p.hops ≤ (departing 1).fslot) &&
        decide (ackedPacket (departing 1) 1 9 = some p)
      | [] => false) &&
     (let a : Ack := ⟨40, 1, 9, 1, true, 70⟩
      let k : State := { s with fab := { s.fab with acks := [a] } }
      (k.fab.sent.find? fun x => x.id == a.id).isNone && decide (k.fab.acks.find? (fun x => x.id == a.id) = some a) &&
      decide (a.slot ≤ k.fslot))) = true := by decide +kernel

/-- The page of the transplant has its tombstone. -/
def tombed : State :=
  match moving.dom.transplants with
  | t :: _ => ran (.transplantStepDone t.id) (ran (.transplantStepDone t.id) moving)
  | [] => moving

/-- A packet from package 1, with the flits of a header of zeros and of its payload. -/
def fromOne (typ addr : Nat) (data : List Byte) : Packet :=
  ⟨flitsOf 65535 typ 1 0 0 data, 1, 65535, typ, 1, 1023, 0, addr, 0, 0, data⟩

/-- Packets from package 1: accepted before, new, and a multicast; to a page with a tombstone; one with a bad flit. -/
theorem met_FabricSteps_receives :
    (let s := fabric tenant
     let p (typ : Nat) := fromOne typ 0x20000000 [1, 2]
     (packetGood s (p 2) && !packetGood s { p 2 with flits := (p 2).flits.map fun f => { f with ctl := f.ctl ^^^ 1 } } &&
      !packetGood s { p 2 with flits := (p 2).flits.take 1 } && decide ((p 2).typ < 11) && decide ((p 2).src ≠ s.ident.pkg) &&
      !(s.fab.accepted.get [] (p 2).src).any (· == (p 2).seq) && inPackage s (p 2) && canApply s (p 2) && touchesMemory (p 2) &&
      !sealing s && !tombstone s (p 2).addr && !touchesMemory (p 6) && !sealing (inSeal true) && sealing (inSeal false) &&
      s.fab.waiting.isEmpty &&
      (match mcastRuns s 0 0 2 with
       | .ok _ => true
       | _ => false) &&
      (let t : State := { s with fab := { s.fab with accepted := s.fab.accepted.put 1 [65535] } }
       (t.fab.accepted.get [] (p 2).src).any (· == (p 2).seq))) = true) ∧
    (let s := fabric tombed
     let p := fromOne 2 0x310040 [1, 2]
     packetGood s p = true ∧ p.seq ∉ s.fab.accepted.get [] p.src ∧ inPackage s p = true ∧ touchesMemory p = true ∧
       tombstone s p.addr = true ∧ sealing s = false) := by
  decide +kernel

/-- Schedules: a good one, a bad one, one for a bank whose generation drains, and the switch to the next. -/
theorem met_FabricSteps_schedules :
    (let s := fabric tenant
     let x (gen : Nat) : Schedule := ⟨gen, 64, 0, [], []⟩
     let d : State := { s with fab := { s.fab with banks := s.fab.banks.put 1 ⟨0, 64, [], [], true⟩ } }
     decide (loadCause s (x 2) = 0) && decide (loadCause s (x 16) = 1) && decide (loadCause d (x 2) = 5) &&
     decide (dueSwitch s = s) && decide (s.fslot + 4096 ≤ 4096) && decide (s.route.per ≠ 0) &&
     decide (2 = (s.route.gen + 1) % 16 ∧ 4096 % s.route.per = 0) && !(decide (3 = (s.route.gen + 1) % 16)) &&
     decide (State.reset.route.per = 0) &&
     (let w : State := { atCycle (56 * 4096) s with fab := { s.fab with switch := some (2, 4096) } }
      decide (w.fslot = 4096) && (w.fab.banks.get? w.fab.active).isSome &&
      decide (({ w with clk := (atCycle (56 * 4096 - 1) s).clk } : State).fslot < 4096)) &&
     decide ((143 : Nat) < 144 ∧ (8 : Nat) ≤ 8)) = true := by decide +kernel

/-! ### The step and decoding -/

/-- A state with one word placed where it fetches, `fadd v1, v2, v3`. -/
def placed : State := placeWord 160 (0x401020A1218000000000000000000000 + 0x40000000 * 2 ^ 128) State.reset

theorem met_StepRunsTheDecodedInstruction :
    ((nextTurn placed).1.move = .issue 0 1 ∧ placed.power = .on) ∧
    (match fetch 0 1 (turnState (nextTurn placed).1 (nextTurn placed).2) with
     | .run i _ => decide (i = .fadd { Wrd.blank .X with dst := .v 1, sa := .v 2, sb := .v 3 })
     | _ => false) = true ∧
    (let k := placed.core 0
     let code := (placed.launch k.launch).code
     k.mode = .running ∧ k.reports = [] ∧ k.mismatch = none ∧ placed.seqn 0 = .joint ∧ { placed with cur := ⟨0, 1⟩ }.stopAsked = false ∧
     k.forked = false ∧ (∀ t ∈ k.streams.vals, t.held = false) ∧ code.text[(k.stream 0).pc]? = some 0x40000000 ∧
     (k.stream 1).wait ≠ 6 ∧ (k.stream 1).pc = (k.stream 0).pc ∧ (fetchAt code (k.stream 1).bank (k.stream 1).pc).isSome = true) ∧
    (let c := (placed.launch (placed.core 0).launch).code
     (match c.banks.get? 16 with
      | some b => bit b.mask 0 && decide (0 + 1 + litCount 0x40000000 ≤ c.text.length) &&
        (match decodeText (b.tm.get 0 0) 0x40000000 0 0 with
         | some i => (match opcOf i with
           | some (o, w) => placeOk c 0 o w
           | none => false)
         | none => false)
      | none => false) = true) ∧
    (let s : State := { placed with agenda := [⟨3, .agent (.globalStall 5)⟩] }
     (nextTurn s).1.move = .agent (.globalStall 5) ∧ takesMove s (.agent (.globalStall 5)) = true ∧
     agentOk (.globalStall 5) = true) := by decide +kernel

theorem met_EncodedWordsDecodeBack :
    (opcOf (.nop (Wrd.blank .A))).isSome = true ∧ WellFormed (.nop (Wrd.blank .A)) = true := by decide +kernel

/-- A step from a state that meets the invariant: the stall of an agent, and each phase of a seal. -/
theorem met_StepKeepsSealNumbers :
    (let s : State := { placed with agenda := [⟨3, .agent (.globalStall 5)⟩] }
     (match step s with
      | .next _ => true
      | _ => false) = true ∧ s.recov.phase = .idle ∧ s.recov.k + 1 = s.recov.n ∧
     (inSeal true).recov.phase = .draining 1 ∧ (inSeal true).recov.k + 2 = (inSeal true).recov.n) := by decide +kernel

/-- A step from a state whose memory is in its form, with bytes listed. -/
theorem met_StepKeepsMemoryCanonical :
    (let s : State := { mem 0 with agenda := [⟨3, .agent (.globalStall 5)⟩] }
     (match step s with
      | .next _ => true
      | _ => false) = true ∧ MemoryCanonical s ∧ s.mem ≠ []) := by
  unfold MemoryCanonical; decide +kernel

/-- Words of each list that answer a next state: control, sync, memory, system and an invalidation. -/
theorem met_WordsThatStoreNothingLeaveMemory :
    (([Instr.br wA, .fence wA].all fun i => (coreWords wA).any (· == i) && (match exec i (mem 0) with
      | .next _ => true
      | _ => false)) &&
     ([Instr.ld wA, .phase { wA with mod := 0x28 }, .sev wA, .carve wA].all fun i => match exec i (mem 0) with
      | .next _ => true
      | _ => false) &&
     ([Instr.halt wA, .endit wA].all fun i => (turningWords wA).any (· == i) && (match exec i (mem 0) with
      | .next _ => true
      | _ => false)) &&
     (match exec (.invalCtx wA) (mem 0) with
      | .next _ => true
      | _ => false)) = true := by decide +kernel

/-- Stores that answer a next state: to memory-side memory, to the scratchpad, and an atomic. -/
theorem met_StoresLeaveOtherBytes :
    ((match exec (.stg wS) (setReg 2 0x20000040 (withQ 0 (mem 3))) with
      | .next t => decide (t.mem ≠ (mem 3).mem)
      | _ => false) && (match exec (.stw wS) (setReg 4 7 (mem 3)) with
      | .next t => decide (t.cc.spad ≠ (mem 3).cc.spad)
      | _ => false) && (match exec (.atadd wA) (setReg 2 0x20000000 (setReg 4 1 (mem 0))) with
      | .next t => decide (t.mem ≠ (mem 0).mem)
      | _ => false)) = true := by decide +kernel

theorem met_ComputingWordsLeaveTheRest :
    ([Instr.iadd wA, .nop (Wrd.blank .A), .imov wA, .ili wA].all fun i => match exec i (mem 0) with
      | .next _ => true
      | _ => false) = true := by decide +kernel

/-- An FP32 addition or multiplication of v2 and v`b` into v1, as in the example of R92. -/
def allocW (b : Fin 32) : Wrd := { Wrd.blank .X with dst := .v 1, sa := .v 2, sb := .v b }

/-- The example of R92: its six statements take three templates and the eight words of its table. -/
theorem test_allocate_example :
    (assemble [] [(0, .fadd (allocW 3)), (0, .fadd (allocW 4)), (0, .fmul { allocW 4 with sn := true }),
        (0, .fmul (allocW 3)), (0, .fadd { allocW 3 with ge := true, gn := 3 }),
        (0, .ili { Wrd.blank .X with dst := .s 4, lit2 := some 0x0123456789ABCDEF })] ==
      some (⟨[(16, ⟨[(0, 0x401020A1218000000000000000000000), (1, 0x409020A1220000000000000000000000),
          (2, 0x08D01200000000000000000000000000)]⟩)]⟩,
        [0x40000000, 0x40050044, 0x41100000, 0x400B0002, 0x400A0013, 0x420D0000, 0x89ABCDEF,
          0x01234567])) = true := by
  decide +kernel

/-- How a program comes to run: an entry of a queue, its KERNEL node and the hand-out of an iteration load it, and the
step that follows runs its first word, `endit` (R178 to R180, R184). -/
theorem test_a_program_runs :
    (let s := ran (.rakeHandout 1) (ran (.kernel 0 0) kernelState)
     let s : State := { s with agenda := [⟨1, .issue 0 0⟩] }
     (match fetch 0 0 (turnState (nextTurn s).1 (nextTurn s).2) with
      | .run i _ => decide (i = .endit (Wrd.blank .A))
      | _ => false) && decide ((s.core 0).mode = .running)) = true := by decide +kernel

/-- The host's placement runs the word that it places (R39, R71). -/
theorem test_placed_word_runs :
    (let s := State.reset.withFetchWord 160 (0x00000081018000000000000000000000)
     match fetch 0 0 (turnState (nextTurn s).1 (nextTurn s).2) with
     | .run i _ => decide (decodeTableWord 160 (0x00000081018000000000000000000000) = some i)
     | _ => false) = true := by decide +kernel

end Sys2Proof.Tests
end

namespace Sys2Proof.Machine

open Sys2Proof

/-! ### Branch groups (R34, R204) -/

/-- The core after a branch group whose decisions are all `d` (R34). -/
def groupResolved (d : Decision) (t : State) : State :=
  match d with
  | .fall => t.modCore fun k => { k.setPc (groupEnd t.cl.code t.cs.pc) with group := [] }
  | .halt => endRun t.cur.core .halted t
  | .goto p => t.modCore fun k => { k.setPc p with group := [] }

/-- A full group whose decisions agree resolves as the first of them. -/
theorem resolveGroup_agree {t : State} {d : Decision} {r : List Decision} (hlen : 4 ≤ t.cc.group.length)
    (hg : t.cc.group.filterMap id = d :: r) (hall : r.all (· == d) = true) :
    resolveGroup t = .ok ((), groupResolved d t) := by
  unfold resolveGroup
  rw [act_bind, act_get]
  simp only [if_neg (Nat.not_lt.2 hlen), hg, hall, if_true]
  cases d <;> rfl

/-- A full group with decisions that differ takes the branch-disagreement fault, which keeps what the words have done. -/
theorem resolveGroup_disagree {t : State} {d : Decision} {r : List Decision} (hlen : 4 ≤ t.cc.group.length)
    (hg : t.cc.group.filterMap id = d :: r) (hall : r.all (· == d) = false) :
    resolveGroup t = .error (.fault { code := 0x0B, keep := true } t) := by
  unfold resolveGroup
  rw [act_bind, act_get]
  simp only [if_neg (Nat.not_lt.2 hlen), hg, hall, Bool.false_eq_true, if_false]
  rfl

/-- A group of one decision, made by every engine that is left, resolves as that decision. -/
theorem resolveGroup_replicate {t : State} {d : Decision} {x : Nat} (hlen : 4 ≤ t.cc.group.length)
    (hg : t.cc.group.filterMap id = List.replicate (x + 1) d) :
    resolveGroup t = .ok ((), groupResolved d t) :=
  resolveGroup_agree hlen (hg.trans List.replicate_succ) (by simp)

/-- Of two decisions that differ, one is not the first of the group. -/
theorem not_all_first_of_ne {d e x : Decision} {r : List Decision} (hd : d ∈ x :: r) (he : e ∈ x :: r) (hne : d ≠ e) :
    r.all (· == x) = false := by
  rw [Bool.eq_false_iff, ne_eq, List.all_eq_true]
  intro hall
  have eq_first {y : Decision} (hy : y ∈ x :: r) : y = x := by
    rcases List.mem_cons.1 hy with rfl | hy
    · rfl
    · exact beq_iff_eq.1 (hall y hy)
  exact hne ((eq_first hd).trans (eq_first he).symm)

/-- Decisions that disagree take the fault, and what the words have done stands. -/
theorem settle_resolveGroup_of_ne {t : State} (hlen : 4 ≤ t.cc.group.length) {d e : Decision}
    (hd : d ∈ t.cc.group.filterMap id) (he : e ∈ t.cc.group.filterMap id) (hne : d ≠ e) :
    settle resolveGroup t = takeFault { code := 0x0B, keep := true } t := by
  obtain ⟨x, r, hg⟩ := List.exists_cons_of_ne_nil (List.ne_nil_of_mem hd)
  rw [hg] at hd he
  unfold settle
  rw [resolveGroup_disagree hlen hg (not_all_first_of_ne hd he hne)]
  rfl

/-! ### A stream's own decision (R166, R168) -/

/-- The stream after its own decision has taken effect. -/
def ownResolved (d : Decision) (s : State) : State :=
  match d with
  | .fall => s.modStream fun t => { t with dec := none }
  | .halt => haltWhenAll (s.modStream fun t => { t with dec := none, wait := 10 })
  | .goto p => s.modStream fun t => { t with dec := none, pc := p }

/-- At the end of its branch group the decision of a stream takes effect. -/
theorem applyDecision_at_groupEnd {s : State} {d : Decision} {after : Nat} (hlit : s.cs.lit = 0) (hpc : after ≤ s.cs.pc)
    (hd : s.cs.dec = some (d, after)) : applyDecision s = ownResolved d s := by
  unfold applyDecision
  simp only [hd, hlit, hpc, and_self, if_true]
  cases d <;> rfl

/-- Settles O11: a group's decisions are all equal to the first or differ, and a stream's own decision is one of three. -/
theorem branchGroupsResolve : Obligations.BranchGroupsResolve := by
  unfold Obligations.BranchGroupsResolve
  refine ⟨fun t hlen => ⟨fun x d hg => ?_, fun x hg => ?_, fun x hg => ?_, fun d e => ?_⟩,
    fun s after hlit hpc => ⟨fun p hd => ?_, fun hd => ?_, fun hd => ?_⟩⟩
  · exact resolveGroup_replicate hlen hg
  · exact resolveGroup_replicate hlen hg
  · exact resolveGroup_replicate hlen hg
  · exact settle_resolveGroup_of_ne hlen
  · exact applyDecision_at_groupEnd hlit hpc hd
  · exact applyDecision_at_groupEnd hlit hpc hd
  · exact applyDecision_at_groupEnd hlit hpc hd

end Sys2Proof.Machine

namespace Sys2Proof.Machine

open Sys2Proof

/-! ### The bank that a fetch notes (R402) -/

/-- Core 0 runs one word of X, `fadd v1, v2, v3`, under bank 0; the bank of the word that X ran last was 1. -/
def switchedBank : State :=
  let s := placeWord 160 (0x401020A1218000000000000000000000 + 0x40000000 * 2 ^ 128) State.reset
  { s with cur := ⟨0, 1⟩ }.modStream fun t => { t with wordBank := 1 }

/-- The bank under which the stream that issues reads its word (R402). -/
def Fetched.wordBank : Fetched → Nat
  | .run _ s => s.cs.wordBank
  | .done s => s.cs.wordBank

/-- R402: the fetch of a word that begins notes the active bank as the word's own. -/
theorem fetch_notes_bank : (fetch 0 1 switchedBank).wordBank = 0 := by decide +kernel

/-- The word there, and the state that O52 would have the fetch give, in which the bank is not noted. -/
theorem switchedBank_meets_joint_fetch :
    let k := switchedBank.core 0
    let code := (switchedBank.launch k.launch).code
    let s : State := { switchedBank with cur := ⟨0, 1⟩ }
    k.mode = .running ∧ k.reports = [] ∧ k.mismatch = none ∧ switchedBank.seqn 0 = .joint ∧ s.stopAsked = false ∧
    k.forked = false ∧ (∀ t ∈ k.streams.vals, t.held = false) ∧ code.text[(k.stream 0).pc]? = some 0x40000000 ∧
    (k.stream 1).wait ≠ 6 ∧ (k.stream 1).pc = (k.stream 0).pc ∧
    fetchAt code (k.stream 1).bank (k.stream 1).pc =
      some (.fadd { Wrd.blank .X with dst := .v 1, sa := .v 2, sb := .v 3 }) ∧
    ({ endHold s with cur := ⟨0, 1⟩ } : State).cs.wordBank = 1 := by decide +kernel

/-- Refutes O52: the fetch of a word that begins notes the word's bank in the stream (R402), and the state that the
statement names for joint sequencing does not have that note. -/
theorem not_stepRunsTheDecodedInstruction : ¬ Obligations.StepRunsTheDecodedInstruction := by
  unfold Obligations.StepRunsTheDecodedInstruction
  rintro ⟨-, -, -, hjoint, -⟩
  obtain ⟨hrun, hrep, hmis, hseq, hstop, hfork, hheld, htext, hwait, hpc, hword, hbank⟩ :=
    switchedBank_meets_joint_fetch
  have hfetch := hjoint switchedBank 0 1 _ 0x40000000 hrun hrep hmis hseq hstop hfork hheld htext hwait hpc hword
  have hnoted := congrArg Fetched.wordBank hfetch
  rw [fetch_notes_bank] at hnoted
  exact absurd (hnoted.trans hbank) (by decide)

end Sys2Proof.Machine

namespace Sys2Proof.Machine

open Sys2Proof

/-! ### The state that a reset leaves (R25, R374, R411, R448) -/

theorem connReset_get_listed : ∀ i < 8, connReset.get 0 i = connEntry i := by decide

theorem connReset_get_unlisted {i : Nat} (h : 8 ≤ i) : connReset.get 0 i = 0 := by
  have hne : ∀ j < 8, j ≠ i := fun j hj => by omega
  simp [connReset, Tbl.get, Tbl.get?, Tbl.findIn, hne]

/-- The default of a list of cases is that of what comes after the first case. -/
theorem ite_some_getD {α : Type} {c : Prop} [Decidable c] (x d : α) (rest : Option α) :
    (if c then some x else rest).getD d = if c then x else rest.getD d := by
  split <;> rfl

/-- What a control register reads after reset (R25). -/
theorem csrReset_get (n : Nat) : Core.csrReset.get 0 n =
    if n = 0 then 1 else if n = 2 then 2048 else if n = 0x010 then 3 else if n = 0x013 then 8
    else if n = 0x021 then 16 else if n = 0x030 then 4096 else 0 := by
  simp only [Core.csrReset, Tbl.get, Tbl.get?, Tbl.findIn, eq_comm (b := n), ite_some_getD, Option.getD_none]

theorem reset_sealNumbers : SealNumbers State.reset := rfl

theorem reset_memoryCanonical : MemoryCanonical State.reset := reset_mem_wf

/-- Settles O57: each part of the state after reset reads as R25, R374, R411 and R448 give it. -/
theorem resetState : Obligations.ResetState := by
  unfold Obligations.ResetState
  refine ⟨rfl, fun a => rfl, reset_memoryCanonical, reset_sealNumbers, rfl, rfl, connReset_get_listed,
    fun i => connReset_get_unlisted, rfl, fun t => rfl, fun c => csrReset_get, rfl, rfl, rfl⟩

end Sys2Proof.Machine

namespace Sys2Proof.Machine

open Sys2Proof

/-! ### A fill of a link slot (R397) -/

/-- The frame of a link-owner trap at slot 0 of bed 0 (R352, R366). -/
def ownerFrame : Frame :=
  { fcode := 0x23, fstr := 2, prec := true, fork := false, priv := 0, repn := 0, aux := 0, kind := 0, deferred := 0,
    ovf := false, mfa := 0, mfb := 0, faux0 := 0, faux1 := 0 }

/-- The M engine of core 0 serves a link-owner trap of launch 1: link slot 0 of bed 0 is idle and tagged with the
context, whose save area at address 0 records spilled state (bit 15 of LSTAT, R349). -/
def spilledState : State :=
  let s := { placeWord 192 0 State.reset with cur := ⟨0, 2⟩, mem := [(0x100001, 0x80)] }
  let s := s.modCore fun k => { k with csr := k.csr.put 0 1, served := some ⟨ownerFrame, 1, none⟩ }
  let s : State := { s with dom := { s.dom with ctxs := s.dom.ctxs.put 1 { Ctx.init with linkArea := ⟨[(0, 0)]⟩ } } }
  setLink 0 0 { Link.init with owner := 1 } s

/-- R397: `mfill.link` marks the save area empty, which clears a byte of memory at its slot. -/
theorem mfillLink_empties_area :
    (match exec (.mfillLink (Wrd.blank .M)) spilledState with
      | .next t => memGet t.mem 0x100001 == 0
      | _ => false) = true := by decide +kernel

theorem mfillLink_mem_quietWords (w : Wrd) : Instr.mfillLink w ∈ quietWords w := by
  simp [quietWords]

/-- Refutes O59: `mfill.link`, which is one of its words that store nothing, marks the save area empty (R397) and so
clears the spilled bit of the area's LSTAT (R349), a byte of memory, at its slot. -/
theorem not_wordsThatStoreNothingLeaveMemory : ¬ Obligations.WordsThatStoreNothingLeaveMemory := by
  unfold Obligations.WordsThatStoreNothingLeaveMemory
  intro h
  have hfill := mfillLink_empties_area
  split at hfill
  · rename_i t ht
    obtain ⟨-, hquiet, -⟩ := h (Wrd.blank .M) spilledState t
    obtain ⟨hmem, -⟩ := hquiet _ (by simp [mfillLink_mem_quietWords]) ht
    rw [hmem] at hfill
    exact absurd hfill (by decide +kernel)
  · cases hfill

end Sys2Proof.Machine

namespace Sys2Proof.Machine

open Sys2Proof

/-! ### Parts of words that leave a part of the state as it was -/

/-- Where the part completes, what `f` reads of the state is as it was. -/
def Leaves {α β : Type} (f : State → β) (a : Act α) : Prop := ∀ s x t, a s = .ok (x, t) → f t = f s

section Leaves

variable {α γ β : Type} {f : State → β}

theorem leaves_bind {a : Act α} {k : α → Act γ} (ha : Leaves f a) (hk : ∀ x, Leaves f (k x)) :
    Leaves f (a >>= k) := by
  intro s x t h
  rw [act_bind] at h
  cases hx : a s with
  | ok r =>
    rw [hx] at h
    exact (hk _ _ _ _ h).trans (ha _ _ _ hx)
  | error e => simp [hx] at h

theorem leaves_pure (x : α) : Leaves f (pure x : Act α) := by
  rintro s y t ⟨⟩
  rfl

theorem leaves_get : Leaves f (get : Act State) := by
  rintro s y t ⟨⟩
  rfl

theorem leaves_change {g : State → State} (h : ∀ s, f (g s) = f s) : Leaves f (change g) := by
  rintro s y t ⟨⟩
  exact h s

/-- A part that never completes. -/
theorem leaves_of_error {a : Act α} (h : ∀ s, ∃ e, a s = .error e) : Leaves f a := by
  intro s x t ht
  obtain ⟨e, he⟩ := h s
  rw [he] at ht
  cases ht

theorem leaves_raise (i : FaultInfo) : Leaves f (raise i : Act α) := leaves_of_error fun _ => ⟨_, rfl⟩

theorem leaves_raiseCode (c : Nat) : Leaves f (raiseCode c : Act α) := leaves_raise _

theorem leaves_stall (c : Nat) : Leaves f (stall c : Act α) := leaves_of_error fun _ => ⟨_, rfl⟩

theorem leaves_cannot (c k : Nat) : Leaves f (cannot c k : Act α) := by
  intro s x t h
  unfold cannot at h
  split at h <;> cases h

theorem leaves_ite {c : Prop} [Decidable c] {a b : Act α} (ha : Leaves f a) (hb : Leaves f b) :
    Leaves f (if c then a else b) := by
  split
  · exact ha
  · exact hb

/-- A part whose case the state decides. -/
theorem leaves_iteAt {c : State → Prop} [∀ s, Decidable (c s)] {a b : Act α} (ha : Leaves f a) (hb : Leaves f b) :
    Leaves f (fun s => if c s then a s else b s) := by
  intro s x t h
  dsimp only at h
  split at h
  · exact ha s x t h
  · exact hb s x t h

/-- A part that is run only under a condition. -/
theorem leaves_when {c : Prop} [Decidable c] {a : Act Unit} {k : Unit → Act α} (ha : Leaves f a)
    (hk : ∀ y, Leaves f (k y)) : Leaves f (if c then a >>= k else k ()) :=
  leaves_ite (leaves_bind ha hk) (hk ())

theorem leaves_raiseIf (c : Bool) (n : Nat) : Leaves f (raiseIf c n) :=
  leaves_ite (leaves_raiseCode n) (leaves_pure ())

/-- What a part leaves, `afterOf` leaves. -/
theorem Leaves.afterOf {a : Act α} (h : Leaves f a) (s : State) : f (afterOf a s) = f s := by
  unfold Machine.afterOf
  cases hx : a s with
  | ok r => exact h _ _ _ hx
  | error e => rfl

end Leaves

/-! ### What the boundary and the token waits change nothing of -/

/-- What reads nothing of the issuing core. -/
def OffCore {β : Type} (f : State → β) : Prop := ∀ s g, f (s.modCore g) = f s

theorem OffCore.modStream {β : Type} {f : State → β} (h : OffCore f) (s : State) (g : Stream → Stream) :
    f (s.modStream g) = f s := h s _

theorem offCore_draws : OffCore (·.draws) := fun _ _ => rfl

theorem offCore_cur : OffCore (·.cur) := fun _ _ => rfl

section OffCore

variable {β : Type} {f : State → β} (hf : OffCore f)
include hf

theorem leaves_changeStream (g : Stream → Stream) : Leaves f (changeStream g) := leaves_change fun s => hf.modStream s g

theorem leaves_changeCore (g : Core → Core) : Leaves f (changeCore g) := leaves_change fun s => hf s g

theorem leaves_boundary : Leaves f boundary := by
  intro s x t h
  unfold boundary at h
  split at h
  · cases h
    exact hf s _
  · cases h

theorem leaves_takeN (q n : Nat) : Leaves f (takeN q n) := by
  intro s x t h
  unfold takeN at h
  simp only at h
  split at h
  · exact leaves_cannot 3 1 _ _ _ h
  · exact (leaves_changeStream hf _ _ _ _ h).trans (hf s _)

theorem leaves_takeTokens (w : Wrd) : Leaves f (takeTokens w) := by
  unfold takeTokens
  refine leaves_bind leaves_get fun s => leaves_ite (leaves_pure ()) (leaves_bind (leaves_raiseIf _ _) fun _ => ?_)
  exact leaves_when (leaves_cannot _ _) fun _ => leaves_when (leaves_cannot _ _) fun _ =>
    leaves_when (leaves_takeN hf _ _) fun _ => leaves_when (leaves_takeN hf _ _) fun _ => leaves_changeStream hf _

theorem leaves_slotEntry (w : Wrd) : Leaves f (slotEntry w) :=
  leaves_bind (leaves_boundary hf) fun _ => leaves_takeTokens hf w

/-- The slot's state keeps what is not of the issuing core. -/
theorem atSlot_offCore (w : Wrd) (s : State) : f (atSlot w s) = f s := (leaves_slotEntry hf w).afterOf s

end OffCore

/-! ### A repetition that stops -/

/-- The parts of `slotOpen`. -/
theorem slotOpen_iff {w : Wrd} {s : State} : slotOpen w s = true ↔
    s.power = .on ∧ s.canIssue = true ∧ okB (slotEntry w) s = true ∧ (atSlot w s).cs.repd ≤ w.rep.toNat := by
  simp [slotOpen, and_assoc]

/-- What comes after the boundary and the token waits runs in the slot's state. -/
theorem bind_slotEntry {w : Wrd} {s : State} (h : okB (slotEntry w) s = true) (k : Unit → Act Unit) :
    (boundary >>= fun _ => takeTokens w >>= k) s = k () (atSlot w s) := by
  have hentry : (boundary >>= fun _ => takeTokens w) s = .ok ((), atSlot w s) := act_of_okB h
  rw [act_bind] at hentry ⊢
  cases hb : boundary s with
  | ok r =>
    rw [hb] at hentry
    exact act_bind_ok hentry
  | error e => simp [hb] at hentry

/-- An open slot runs the body of the word in the slot's state, and then what follows the repetition. -/
theorem slot_at {w : Wrd} {s : State} {body fin : Act Unit} (ho : slotOpen w s = true) :
    slot w body fin s = (body >>= fun _ => slotExit w fin) (atSlot w s) := by
  obtain ⟨-, -, he, hr⟩ := slotOpen_iff.1 ho
  unfold slot
  rw [bind_slotEntry he, act_bind, act_get]
  simp only [hr, if_true]
  rfl

/-- A repetition that stops, stops the slot. -/
theorem slot_of_error {w : Wrd} {s : State} {body fin : Act Unit} {e : Stop} (ho : slotOpen w s = true)
    (hb : body (atSlot w s) = .error e) : slot w body fin s = .error e := by
  rw [slot_at ho, act_bind_error hb]

/-- A word that may issue settles its slot. -/
theorem issueWord_of_open {w : Wrd} {s : State} {a : Act Unit} (ho : slotOpen w s = true) :
    issueWord a s = .next (settle a s) := by
  obtain ⟨hp, hc, -⟩ := slotOpen_iff.1 ho
  simp [issueWord, hp, hc]

/-- An ordinary word whose repetition stops. -/
theorem word_stops {w : Wrd} {s : State} {body : Act Unit} {e : Stop} (ho : slotOpen w s = true)
    (hb : body (atSlot w s) = .error e) : word w body s = .next (stopped s e) := by
  unfold word
  rw [issueWord_of_open ho, settle, slot_of_error ho hb]

/-- A control word whose decision stops. -/
theorem controlWord_stops {w : Wrd} {s : State} {body : Act Unit} {e : Stop} (ho : slotOpen w s = true)
    (hb : body (atSlot w s) = .error e) : controlWord w body s = .next (stopped s e) := by
  unfold controlWord
  rw [issueWord_of_open ho, settle, act_bind_error (slot_of_error ho hb)]

/-- A fault of the slot's state that keeps nothing is taken in the state before the slot. -/
theorem stopped_fault_atSlot (w : Wrd) (s : State) {f : FaultInfo} (h : f.keep = false) :
    stopped s (.fault f (atSlot w s)) = takeFault f s := by
  simp [stopped, h, show (atSlot w s).draws = s.draws from atSlot_offCore offCore_draws w s]

/-! ### The slot of a memory word -/

/-- The base register of a memory word is latched without a wait or a fault. -/
theorem latchBase_atSlot (w : Wrd) (s : State) : latchBase w (atSlot w s) = .ok ((), latched w s) := by
  refine act_of_okB (okB_iff.2 ?_)
  unfold latchBase
  split <;> exact ⟨_, _, rfl⟩

end Sys2Proof.Machine

namespace Sys2Proof.Machine

open Sys2Proof

/-! ### The return stack (R21) -/

theorem acts_iff {w : Wrd} {s : State} : acts w s = true ↔ slotOpen w s = true ∧ wordOff w (atSlot w s) = false := by
  simp [acts, wordOff]

/-- What a fault leaves of the stream that takes it. -/
theorem takeFault_cs (f : FaultInfo) (s : State) :
    (takeFault f s).cs = { s.cs with fpc := some s.cs.pc, wait := 0, hold := .none } := by
  rw [takeFault, State.cs, State.cc_modCore]
  exact Core.stream_setStream_same _ _ _

theorem takeFault_group (f : FaultInfo) (s : State) : (takeFault f s).cc.group = s.cc.group := by
  simp [takeFault]

/-- Settles O12: the decision of the word stops with the fault, and a fault leaves the return stack, the pending
writes, the program counter and the decisions as they were. -/
theorem returnStackFaults : Obligations.ReturnStackFaults := by
  unfold Obligations.ReturnStackFaults
  intro w s hacts
  obtain ⟨hopen, hon⟩ := acts_iff.1 hacts
  refine ⟨fun hfull => ?_, fun hempty => ?_, fun c => ?_⟩
  · rw [← stopped_fault_atSlot w s rfl]
    refine controlWord_stops hopen ?_
    rw [act_bind, act_get]
    simp [hon, raiseIf, hfull, act_bind]
  · rw [← stopped_fault_atSlot w s rfl]
    refine controlWord_stops hopen ?_
    rw [act_bind, act_get]
    simp [hon, hempty]
  · simp [takeFault_cs, takeFault_group]

end Sys2Proof.Machine

namespace Sys2Proof.Machine

open Sys2Proof

/-! ### Loads into a queue (R29, R271) -/

theorem needRoom_ok {n : Nat} (h : n < 16) (s : State) : needRoom n s = .ok ((), s) := by
  rw [needRoom, if_neg (Nat.not_le.2 h)]
  rfl

/-- A push into a queue with room is the push. -/
theorem pushLq_ok {q : Nat} {s : State} (h : (s.cc.loadQ q).entries.length < 16) (v : VReg) (valid : Bool)
    (src : Option LoadSrc) : pushLq q v valid src s = .ok ((), entryPushed q v valid src s) := by
  rw [pushLq, act_bind, act_get]
  exact act_bind_ok (needRoom_ok h s)

section

variable {w : Wrd} {s : State} (resolve : Nat → Act (List Chunk)) (acq : Bool)

/-- A queue load that is guarded off pushes zeros. -/
theorem queueLoad_off (hroom : ((latched w s).cc.loadQ (queueOf w)).entries.length < 16)
    (hoff : guardOff w (latched w s) = true) :
    queueLoad w resolve acq (atSlot w s) = .ok ((), entryPushed (queueOf w) 0 true none (latched w s)) := by
  rw [queueLoad, act_bind_ok (latchBase_atSlot w s), act_bind, act_get]
  simp only [act_bind_ok (needRoom_ok hroom _), hoff, if_true]
  exact pushLq_ok hroom 0 true none

/-- A queue load pushes what its access gives. -/
theorem queueLoad_on {l : List Chunk} {t1 t2 : State} {v : VReg} {src : Option LoadSrc}
    (hroom : ((latched w s).cc.loadQ (queueOf w)).entries.length < 16) (hon : guardOff w (latched w s) = false)
    (hl : resolve (memAddr w (latched w s)) (latched w s) = .ok (l, t1))
    (hv : loadRuns l acq w.ac 0 false t1 = .ok ((v, src), t2)) (hroom2 : (t2.cc.loadQ (queueOf w)).entries.length < 16) :
    queueLoad w resolve acq (atSlot w s) = .ok ((), entryPushed (queueOf w) v false src t2) := by
  rw [queueLoad, act_bind_ok (latchBase_atSlot w s), act_bind, act_get]
  simp only [act_bind_ok (needRoom_ok hroom _), hon, Bool.false_eq_true, if_false, act_bind_ok hl, act_bind_ok hv]
  exact pushLq_ok hroom2 v false src

end

/-- The instruction of a queue load runs its repetition. -/
theorem exec_queueLoad {r : (Wrd → Instr) × Resolver × (Wrd → Bool)} (hr : r ∈ queueLoads) (w : Wrd) (s : State) :
    exec (r.1 w) s = word w (queueLoad w (r.2.1 w) (r.2.2 w)) s := by
  simp only [queueLoads, List.mem_cons, List.not_mem_nil, or_false] at hr
  rcases hr with rfl | rfl <;> rfl

/-- Settles O17: the repetition of a queue load pushes zeros, or what its access gives. -/
theorem queueLoadsAllocateTheirEntry : Obligations.QueueLoadsAllocateTheirEntry := by
  unfold Obligations.QueueLoadsAllocateTheirEntry
  intro r hr w s hopen t q hroom
  refine ⟨fun hoff => ?_, fun l t1 v src t2 hon hl hv hroom2 => ?_⟩
  · exact word_runs (exec_queueLoad hr w s) hopen (queueLoad_off _ _ hroom hoff)
  · exact word_runs (exec_queueLoad hr w s) hopen (queueLoad_on _ _ hroom hon hl hv hroom2)

end Sys2Proof.Machine

namespace Sys2Proof.Machine

open Sys2Proof

/-! ### What accesses leave of the issuing stream: which one it is

An access reads and writes much of the package, and never changes which stream issues. -/

/-- A fold of steps that keep what `f` reads keeps it. -/
theorem foldl_keeps {α β : Type} {f : State → β} {g : State → α → State} (h : ∀ s x, f (g s x) = f s) (l : List α)
    (s : State) : f (l.foldl g s) = f s := by
  induction l generalizing s with
  | nil => rfl
  | cons x r ih => exact (ih (g s x)).trans (h s x)

/-! #### Loads that are settled -/

@[simp] theorem drawN_cur (s : State) (n : Nat) : (s.drawN n).2.cur = s.cur := by
  unfold State.drawN
  split <;> rfl

@[simp] theorem drawIn_cur (lo hi : Nat) (s : State) : (drawIn lo hi s).2.cur = s.cur := drawN_cur s _

@[simp] theorem takeInstant_cur (k : Core) (src : LoadSrc) (blk : Nat) (l : List Seg) (s : State) :
    (takeInstant k src blk l s).2.cur = s.cur := by
  unfold takeInstant
  cases segsInstant k src blk l with
  | none => exact drawIn_cur _ _ s
  | some t =>
    dsimp only
    split
    · rfl
    · exact drawIn_cur _ _ s

@[simp] theorem takeSegs_cur (c : Nat) (src : LoadSrc) (l : List Seg) (last : Option (Nat × Nat)) (s : State) :
    (takeSegs c src l last s).2.cur = s.cur := by
  induction l generalizing last s with
  | nil => rfl
  | cons g r ih =>
    unfold takeSegs
    dsimp only
    rw [ih, State.setCore_cur]
    cases last with
    | none => exact takeInstant_cur _ _ _ _ s
    | some p =>
      dsimp only
      split
      · rfl
      · exact takeInstant_cur _ _ _ _ s

@[simp] theorem settleOne_cur (c : Nat) (src : LoadSrc) (v : VReg) (s : State) : (settleOne c src v s).2.cur = s.cur :=
  takeSegs_cur c src src.segs none s

@[simp] theorem settleEntries_cur (c : Nat) (p : LoadSrc → Bool) (l : List QEntry) (s : State) :
    (settleEntries c p l s).2.cur = s.cur := by
  induction l generalizing s with
  | nil => rfl
  | cons e r ih =>
    unfold settleEntries
    dsimp only
    rw [ih]
    cases e.src with
    | none => rfl
    | some src =>
      dsimp only
      split
      · exact settleOne_cur c src e.data s
      · rfl

@[simp] theorem settlePends_cur (c : Nat) (p : LoadSrc → Bool) (l : List Pend) (s : State) :
    (settlePends c p l s).2.cur = s.cur := by
  induction l generalizing s with
  | nil => rfl
  | cons e r ih =>
    unfold settlePends
    dsimp only
    rw [ih]
    cases e.src with
    | none => rfl
    | some src =>
      dsimp only
      split
      · exact settleOne_cur c src e.data s
      · rfl

/-- The loads of one queue are settled. -/
def settleQueue (c : Nat) (p : LoadSrc → Bool) (s : State) (q : Nat) : State :=
  let r := settleEntries c p ((s.core c).lq.get .init q).entries s
  if r.1 = ((s.core c).lq.get .init q).entries then s
  else r.2.setCore c { r.2.core c with lq := (r.2.core c).lq.put q ⟨r.1⟩ }

@[simp] theorem settleQueue_cur (c : Nat) (p : LoadSrc → Bool) (s : State) (q : Nat) :
    (settleQueue c p s q).cur = s.cur := by
  unfold settleQueue
  dsimp only
  split
  · rfl
  · exact settleEntries_cur c p _ s

theorem settleLoads_eq (c : Nat) (p : LoadSrc → Bool) (s : State) :
    settleLoads c p s =
      let s := (span 0 8).foldl (settleQueue c p) s
      let r := settlePends c p ((s.core c).stream 0).pend s
      if r.1 = ((s.core c).stream 0).pend then s
      else r.2.setCore c ((r.2.core c).setStream 0 { (r.2.core c).stream 0 with pend := r.1 }) := rfl

@[simp] theorem settleLoads_cur (c : Nat) (p : LoadSrc → Bool) (s : State) : (settleLoads c p s).cur = s.cur := by
  have hqueues : ((span 0 8).foldl (settleQueue c p) s).cur = s.cur :=
    foldl_keeps (f := State.cur) (settleQueue_cur c p) (span 0 8) s
  rw [settleLoads_eq]
  dsimp only
  split
  · exact hqueues
  · rw [State.setCore_cur, settlePends_cur, hqueues]

/-! #### Bytes that are written -/

@[simp] theorem logLine_cur (s : State) (line : Nat) : (logLine s line).cur = s.cur := by
  unfold logLine
  split <;> rfl

@[simp] theorem publishBytes_cur (l : List (Nat × Byte)) (s : State) : (publishBytes l s).cur = s.cur := by
  unfold publishBytes
  split
  · rfl
  · exact foldl_keeps (f := State.cur) (fun s e => logLine_cur s _) l s

@[simp] theorem wordCells_cur (c pa n : Nat) (s : State) : (wordCells c pa n s).2.cur = s.cur := by
  unfold wordCells
  dsimp only
  split
  · rfl
  · split
    · exact takeSegs_cur c _ _ none s
    · rfl

@[simp] theorem ownRun_cur (c pa : Nat) (data : List Byte) (s : State) : (ownRun c pa data s).cur = s.cur :=
  wordCells_cur c pa data.length s

@[simp] theorem noteStore_cur (spad : Bool) (a : Nat) (data : List Byte) (cls : BitVec 2) (s : State) :
    (noteStore spad a data cls s).cur = s.cur := by
  unfold noteStore
  split <;> rfl

@[simp] theorem settleStore_cur (pa : Nat) (data : List Byte) (cls : BitVec 2) (s : State) :
    (settleStore pa data cls s).cur = s.cur := by
  unfold settleStore
  simp [apply_ite State.cur]

@[simp] theorem localWrite_cur (c : Nat) (p : Place) (data : List Byte) (s : State) :
    (localWrite c p data s).cur = s.cur := by
  cases p <;> rfl

@[simp] theorem egressStore_cur (c : Nat) (p : Place) (data : List Byte) (s : State) :
    (egressStore c p data s).cur = s.cur := by
  unfold egressStore
  rcases p with _ | _ | _ | _ | _ | ⟨_, _ | _⟩ <;> dsimp only <;> split <;> rfl

@[simp] theorem sendDirect_cur (c pa : Nat) (data : List Host.Cell) (s : State) :
    (sendDirect c pa data s).cur = s.cur := by
  unfold sendDirect
  split <;> rfl

@[simp] theorem storeBlock_cur (cls : BitVec 2) (c : Chunk × List Byte) (s : State) :
    (storeBlock cls c s).cur = s.cur := by
  obtain ⟨⟨off, len, level, place⟩, bytes⟩ := c
  cases place with
  | home pa ms => cases ms <;> simp [storeBlock]
  | remote pa ms => cases ms <;> simp [storeBlock, apply_ite State.cur]
  | spad o => simp [storeBlock]
  | bedStore o => simp [storeBlock]
  | dieStore o => simp [storeBlock]
  | host a => simp [storeBlock]

@[simp] theorem storeRuns_cur (l : List Chunk) (data : List Byte) (cls : BitVec 2) (s : State) :
    (storeRuns l data cls s).cur = s.cur :=
  foldl_keeps (f := State.cur) (fun s c => storeBlock_cur cls c s) _ s

/-! #### Parts of an access -/

theorem leaves_cur_raiseMem {α : Type} (vah lvl acc cause addr : Nat) :
    Leaves State.cur (raiseMem vah lvl acc cause addr : Act α) := leaves_of_error fun _ => ⟨_, rfl⟩

theorem leaves_cur_draw (n : Nat) : Leaves State.cur (draw n) := by
  intro s x t h
  have ht : (s.drawN n).2 = t := congrArg Prod.snd (Except.ok.inj h)
  rw [← ht, drawN_cur]

theorem leaves_cur_slotOpnds (l : List Reg) : Leaves State.cur (slotOpnds l) := by
  refine leaves_iteAt ?_ ?_
  · rintro s x t ⟨⟩
    rfl
  · rintro s x t ⟨⟩
    rfl

theorem leaves_cur_translate (seg addr acc : Nat) : Leaves State.cur (translate seg addr acc) := by
  unfold translate
  refine leaves_bind leaves_get fun s => leaves_bind (leaves_cur_draw _) fun i => ?_
  dsimp only
  split
  · exact leaves_cur_raiseMem _ _ _ _ _
  · split
    · exact leaves_cur_raiseMem _ _ _ _ _
    · exact leaves_when (leaves_stall 9) fun _ => leaves_when (leaves_change fun _ => rfl) fun _ => leaves_pure _

theorem leaves_cur_placeOf (e : Dword) (level seg addr acc : Nat) : Leaves State.cur (placeOf e level seg addr acc) := by
  unfold placeOf
  exact leaves_bind leaves_get fun s => leaves_ite (leaves_pure _) (leaves_ite (leaves_cur_raiseMem _ _ _ _ _)
    (leaves_ite (leaves_pure _) (leaves_bind (leaves_changeCore offCore_cur _) fun _ => leaves_pure _)))

theorem leaves_cur_resolveRange (seg acc fuel off addr len : Nat) :
    Leaves State.cur (resolveRange seg acc fuel off addr len) := by
  induction fuel generalizing off addr len with
  | zero => exact leaves_pure _
  | succ fuel ih =>
    unfold resolveRange
    exact leaves_bind (leaves_cur_translate _ _ _) fun _ => leaves_bind (leaves_cur_placeOf _ _ _ _ _) fun _ =>
      leaves_ite (leaves_pure _) (leaves_bind (ih _ _ _) fun _ => leaves_pure _)

theorem leaves_cur_passFence : Leaves State.cur passFence :=
  leaves_iteAt (leaves_pure ()) (leaves_iteAt (leaves_stall 9) (leaves_changeStream offCore_cur _))

theorem leaves_cur_accessReady (l : List Chunk) : Leaves State.cur (accessReady l) :=
  leaves_iteAt (leaves_stall 9) leaves_cur_passFence

theorem leaves_cur_remoteReady (pa : Nat) : Leaves State.cur (remoteReady pa) := by
  unfold remoteReady
  exact leaves_bind leaves_get fun _ => leaves_when (leaves_raiseCode _) fun _ =>
    leaves_bind (leaves_raiseIf _ _) fun _ => leaves_ite (leaves_stall 9) (leaves_pure _)

theorem leaves_cur_storeRoom (c : Chunk) : Leaves State.cur (storeRoom c) := by
  unfold storeRoom
  refine leaves_bind leaves_get fun s => ?_
  split
  · exact leaves_ite (leaves_stall 9) (leaves_pure _)
  · exact leaves_ite (leaves_pure _) (leaves_stall 9)
  · exact leaves_ite (leaves_cur_remoteReady _) (leaves_when (leaves_raiseCode _) fun _ =>
      leaves_ite (leaves_pure _) (leaves_stall 9))
  · exact leaves_pure _

theorem leaves_forM {α β : Type} {f : State → β} {a : α → Act PUnit} (h : ∀ x, Leaves f (a x)) (l : List α) :
    Leaves f (l.forM a) := by
  induction l with
  | nil => exact leaves_pure _
  | cons x r ih => exact leaves_bind (h x) fun _ => ih

theorem leaves_cur_storeReady (l : List Chunk) : Leaves State.cur (storeReady l) :=
  leaves_bind (leaves_cur_accessReady l) fun _ => leaves_forM leaves_cur_storeRoom _

/-- The requests of the remote runs of a unit, sent in order. -/
theorem sendRequests_cur (l : List (Nat × Nat)) (s : State) :
    (l.foldl (fun s r => sendPacket 0 0 s.cur.core (pkgBits r.1) r.1 r.2 0 0 0 [] [] s) s).cur = s.cur :=
  foldl_keeps (f := State.cur) (fun _ _ => by rfl) l s

theorem leaves_cur_requestRuns (l : List (Nat × Nat)) : Leaves State.cur (requestRuns l) := by
  unfold requestRuns
  refine leaves_bind leaves_get fun s => leaves_ite (leaves_pure _) ?_
  split
  · exact leaves_ite (leaves_stall 9) (leaves_pure _)
  · exact leaves_bind (leaves_change fun s => sendRequests_cur l s) fun _ =>
      leaves_bind (leaves_changeStream offCore_cur _) fun _ => leaves_stall 9

theorem leaves_cur_ldrRun (c : Chunk) : Leaves State.cur (ldrRun c) := by
  unfold ldrRun
  refine leaves_bind leaves_get fun s => ?_
  split
  · exact leaves_pure _
  · rintro s x t ⟨⟩
    rfl
  · exact leaves_pure _

theorem leaves_cur_runBytes (l : List Chunk) : Leaves State.cur (runBytes l) := by
  induction l with
  | nil => exact leaves_pure _
  | cons c r ih => exact leaves_bind (leaves_cur_ldrRun c) fun _ => leaves_bind ih fun _ => leaves_pure _

theorem leaves_cur_ldrRuns (l : List Chunk) : Leaves State.cur (ldrRuns l) :=
  leaves_bind (leaves_cur_requestRuns _) fun _ => leaves_cur_runBytes l

end Sys2Proof.Machine

namespace Sys2Proof.Machine

open Sys2Proof

/-! ### Bulk transfers and rows in memory (R454 to R456) -/

/-- A word whose repetition waits. -/
theorem word_waits {i : Instr} {w : Wrd} {s u : State} {body : Act Unit} {c : Nat} (hi : exec i s = word w body s)
    (ho : slotOpen w s = true) (hb : body (atSlot w s) = .error (.stall c u)) : exec i s = .next (waiting c u) :=
  hi.trans (word_stops ho hb)

/-- The limits of a bulk transfer are checked without effect. -/
theorem bulkCheck_ok {a : BulkArgs} (h : bulkOk a) (seg acc : Nat) (s : State) :
    bulkCheck seg a.ra a.la a.n acc s = .ok ((), s) := by
  obtain ⟨hn, hlo, hhi, hra, hla⟩ := h
  have hrange : ¬ (a.n % 64 ≠ 0 ∨ a.n < 64 ∨ 65536 < a.n ∨ a.ra % 64 ≠ 0) := by omega
  simp [bulkCheck, hrange, hla]

/-- The check of egress pages has no effect. -/
theorem noEgress_ok {seg addr : Nat} {l : List Chunk} {s : State} (h : okB (noEgress seg addr l) s = true) :
    noEgress seg addr l s = .ok ((), s) := by
  unfold noEgress at h ⊢
  generalize l.find? _ = egress at h ⊢
  cases egress with
  | none => rfl
  | some c => cases h

theorem raiseIf_of_okB {c : Bool} {n : Nat} {s : State} (h : okB (raiseIf c n) s = true) :
    raiseIf c n s = .ok ((), s) := by
  cases c with
  | false => rfl
  | true => cases h

/-- The check of reservations has no effect. -/
theorem needReads_ok {l : List Chunk} {s : State} (h : okB (needReads l) s = true) : needReads l s = .ok ((), s) := by
  unfold needReads at h ⊢
  exact raiseIf_of_okB h

theorem doStore_ok {l : List Chunk} {s t : State} (h : storeReady l s = .ok ((), t)) (data : List Byte) (cls : BitVec 2) :
    doStore l data cls s = .ok ((), storeRuns l data cls t) := act_bind_ok h

/-! #### `ldr` (R454) -/

/-- What follows a unit of `ldr`: a wait for the next one, or the acquire half. -/
def afterUnit (w : Wrd) (more : Prop) [Decidable more] (c : Nat) : Act Unit := do
  if more then stall 9
  if hasAcq w then change (acquireHalf c)

theorem afterUnit_last {w : Wrd} {more : Prop} [Decidable more] {c : Nat} (h : ¬ more) (u : State) :
    afterUnit w more c u = .ok ((), if hasAcq w then acquireHalf c u else u) := by
  unfold afterUnit
  rw [if_neg h]
  split <;> rfl

theorem afterUnit_more {w : Wrd} {more : Prop} [Decidable more] {c : Nat} (h : more) (u : State) :
    afterUnit w more c u = .error (.stall 9 u) := by
  unfold afterUnit
  rw [if_pos h]
  rfl

theorem ldrRep_unit {w : Wrd} {s t0 t1 tr t2 t3 : State} {x : List Dword} {dst src : List Chunk} {data : List Byte}
    (hon : guardOff w (latched w s) = false) (hx : slotOpnds [w.sb, w.sc] (latched w s) = .ok (x, t0)) :
    let t := latched w s
    let j := t.cs.prog
    let a := bulkArgs w (opndAt x 0) (opndAt x 1) t
    let z := Nat.min 1024 (a.n - 1024 * j)
    bulkOk a → resolveLocalRange a.la a.n 1 64 t0 = .ok (dst, t0) →
    resolveRange (segOf w) 0 3 0 a.ra a.n t0 = .ok (src, t1) → okB (noEgress (segOf w) a.ra src) t1 = true →
    okB (needReads src) t1 = true → accessReady src t1 = .ok ((), tr) →
    ldrRuns (subRuns src (1024 * j) z) tr = .ok (data, t2) → storeReady (subRuns dst (1024 * j) z) t2 = .ok ((), t3) →
    ldrRep w (atSlot w s) = afterUnit w (1024 * (j + 1) < a.n) t.cur.core
      (unitCounted (storeRuns (subRuns dst (1024 * j) z) data w.ac t3)) := by
  intro t j a z hok hdst hsrc hegress hreads hready hdata hstore
  unfold ldrRep
  rw [act_bind_ok (latchBase_atSlot w s), act_bind, act_get]
  simp only [hon, Bool.false_eq_true, if_false]
  refine (act_bind_ok hx).trans ((act_bind_ok (bulkCheck_ok hok _ _ _)).trans ((act_bind_ok hdst).trans
    ((act_bind_ok hsrc).trans ((act_bind_ok (noEgress_ok hegress)).trans ((act_bind_ok (needReads_ok hreads)).trans
    ((act_bind_ok hready).trans ((act_bind_ok hdata).trans (act_bind_ok (doStore_ok hstore data w.ac)))))))))

/-! #### `stgr` (R456) -/

theorem stgrRep_ok {w : Wrd} {s t1 t2 t3 : State} {src dst : List Chunk} {data : List Byte}
    (hon : guardOff w (latched w s) = false) :
    let t := latched w s
    let a := bulkArgs w (regVal t w.sb).toNat (regVal t w.sc).toNat t
    bulkOk a → resolveLocalRange a.la a.n 0 64 t = .ok (src, t) →
    resolveRange (segOf w) 1 3 0 a.ra a.n t = .ok (dst, t1) → storeReady dst t1 = .ok ((), t2) →
    loadNow src w.ac t2 = .ok (data, t3) → stgrRep w (atSlot w s) = .ok ((), bulkStored w dst a.n data t3) := by
  intro t a hok hsrc hdst hstore hdata
  unfold stgrRep
  rw [act_bind_ok (latchBase_atSlot w s), act_bind, act_get]
  simp only [hon, Bool.false_eq_true, if_false]
  exact (act_bind_ok (bulkCheck_ok hok _ _ _)).trans ((act_bind_ok hsrc).trans ((act_bind_ok hdst).trans
    ((act_bind_ok hstore).trans (act_bind_ok hdata))))

/-! #### `mmar` (R455) -/

theorem turnDone_ok (s : State) : turnDone s = .ok ((), afterOf turnDone s) := by
  refine act_of_okB (okB_iff.2 ?_)
  unfold turnDone
  rw [act_bind, act_get]
  dsimp only
  split <;> exact ⟨_, _, rfl⟩

/-- The trap of an array word is not taken where it is off, or no row holds a signalling NaN. -/
theorem snanTrap_ok {st : MmaSite} {a : MmaArgs} {rows : List (Nat × List Byte)} {keep : Bool} {s : State}
    (h : bit (s.cc.csrN 0x013) 3 = false ∨ snanMask s st a rows = 0) : snanTrap st a rows keep s = .ok ((), s) := by
  unfold snanTrap
  rw [act_bind, act_get]
  dsimp only
  rw [if_neg (by rcases h with h | h <;> simp [h])]
  rfl

/-- What follows a row of `mmar`: a wait for the next one, or the count of the contribution. -/
def afterRow (st : MmaSite) (m : MmaArgs) (r : Nat) : Act Unit := do
  if r + 1 < m.rows then do
    change keepTurn
    stall 9
  change (countMma st m)
  turnDone

theorem afterRow_last {st : MmaSite} {m : MmaArgs} {r : Nat} (h : m.rows ≤ r + 1) (u : State) :
    afterRow st m r u = .ok ((), afterOf turnDone (countMma st m u)) := by
  unfold afterRow
  rw [if_neg (Nat.not_lt.2 h)]
  exact turnDone_ok _

theorem afterRow_more {st : MmaSite} {m : MmaArgs} {r : Nat} (h : r + 1 < m.rows) (u : State) :
    afterRow st m r u = .error (.stall 9 (keepTurn u)) := by
  unfold afterRow
  rw [if_pos h]
  rfl

theorem mmarRep_row {w : Wrd} {v t0 t1 t2 t3 : State} {x : List Dword} {st : MmaSite} {runs : List (List Chunk)}
    {l : List Byte} (hon : guardOff w v = false) (hx : slotOpnds [w.sa, w.sb] v = .ok (x, t0)) :
    let m := mmaArgs w v.cs.repd
    let r := v.cs.prog
    let n := 256 * rowEntries st.fmt m.k
    opndAt x 1 < 256 → bit w.mod 7 = false → mmaCheck w m t0 = .ok (st, t0) →
    mmarRuns (opndAt x 1 % 256) (opndAt x 0 + v.cs.repd * m.rows * n) n m.rows 0 t0 = .ok (runs, t1) →
    okB (needReads runs.flatten) t1 = true → needTurn t1 = .ok ((), t2) →
    mmarRow ((runs[r]?).getD []) t2 = .ok (l, t3) →
    (bit (t3.cc.csrN 0x013) 3 = false ∨ snanMask t3 st m [(r, l)] = 0) →
    mmarRep w v = afterRow st m r (unitCounted (addRow st m r l t3)) := by
  intro m r n hseg hmod hcheck hruns hreads hturn hrow hsnan
  have hplace : (decide (256 ≤ opndAt x 1) || bit w.mod 7) = false := by simp [hmod, hseg]
  unfold mmarRep
  rw [act_bind, act_get]
  simp only [hon, Bool.false_eq_true, if_false]
  refine (act_bind_ok hx).trans ?_
  rw [hplace]
  exact (act_bind_ok (act_raiseIf_false _ _)).trans ((act_bind_ok hcheck).trans ((act_bind_ok hruns).trans
    ((act_bind_ok (needReads_ok hreads)).trans ((act_bind_ok hturn).trans ((act_bind_ok hrow).trans
    (act_bind_ok (snanTrap_ok hsnan)))))))

/-- Settles O35: a unit of `ldr` and a row of `mmar` end in the repetition's result or in a wait, and a bulk store in its
units; no part of a unit of `ldr` changes which stream issues, so that the acquire half is that of its core. -/
theorem bulkTransfers : Obligations.BulkTransfers := by
  unfold Obligations.BulkTransfers
  intro w s hopen t j
  refine ⟨?ldr, ?stgr, ?mmar⟩
  case ldr =>
    intro x t0 dst src t1 tr data t2 t3 hon hx a hok hdst hsrc hegress hreads hready z hdata hstore u
    have hcur : u.cur = t.cur :=
      calc u.cur = t3.cur := storeRuns_cur _ data w.ac t3
        _ = t2.cur := leaves_cur_storeReady _ _ _ _ hstore
        _ = tr.cur := leaves_cur_ldrRuns _ _ _ _ hdata
        _ = t1.cur := leaves_cur_accessReady _ _ _ _ hready
        _ = t0.cur := leaves_cur_resolveRange _ _ _ _ _ _ _ _ _ hsrc
        _ = t.cur := leaves_cur_slotOpnds _ _ _ _ hx
    have hunit := ldrRep_unit hon hx hok hdst hsrc hegress hreads hready hdata hstore
    rw [hcur]
    refine ⟨fun hlast => ?_, fun hmore => ?_⟩
    · exact word_runs rfl hopen (hunit.trans (afterUnit_last (Nat.not_lt.2 hlast) u))
    · exact word_waits rfl hopen (hunit.trans (afterUnit_more hmore u))
  case stgr =>
    intro src dst t1 t2 data t3 hon a hok hsrc hdst hstore hdata
    exact word_runs rfl hopen (stgrRep_ok hon hok hsrc hdst hstore hdata)
  case mmar =>
    intro x t0 st runs t1 t2 l t3 hon v hx m r n hseg hmod hcheck hruns hreads hturn hrow hsnan u
    have hunit := mmarRep_row hon hx hseg hmod hcheck hruns hreads hturn hrow hsnan
    refine ⟨fun hlast => ?_, fun hmore => ?_⟩
    · exact word_runs rfl hopen (hunit.trans (afterRow_last hlast u))
    · exact word_waits rfl hopen (hunit.trans (afterRow_more hmore u))

end Sys2Proof.Machine

namespace Sys2Proof.Machine

open Sys2Proof

/-! ### Steps of agents -/

/-- A package in service takes an agent's step. -/
theorem agentStep_on {s : State} (h : s.power = .on) (f : State → State) : agentStep f s = .next (f s) := by
  simp [agentStep, h]

theorem exec_queueEntryValid (c q n : Nat) (s : State) :
    exec (.queueEntryValid c q n) s = execQueueEntryValid c q n s := rfl

theorem exec_registerLoadData (c e n : Nat) (s : State) :
    exec (.registerLoadData c e n) s = execRegisterLoadData c e n s := rfl

theorem exec_releaseComplete (c : Nat) (s : State) :
    exec (.releaseComplete c) s = execReleaseComplete c s := rfl

theorem exec_sevArrival (id : Nat) (s : State) : exec (.sevArrival id) s = execSevArrival id s := rfl

theorem exec_impreciseReport (id : Nat) (s : State) :
    exec (.impreciseReport id) s = execImpreciseReport id s := rfl

/-! ### Data that arrives (R29, R270) -/

theorem exec_storeEntryValid {s : State} (hon : s.power = .on) (c q n : Nat) :
    exec (.queueEntryValid c (8 + q) n) s = .next (sealEntry c q n s) := by
  rw [exec_queueEntryValid, execQueueEntryValid, agentStep_on hon]
  rw [if_pos (Nat.le_add_right 8 q), Nat.add_sub_cancel_left]

theorem exec_loadEntryValid {s : State} (hon : s.power = .on) {c q : Nat} (hq : q < 8) {e : QEntry}
    (he : ((s.core c).loadQ q).entries.find? (fun x => x.id = e.id && !x.valid) = some e) :
    exec (.queueEntryValid c q e.id) s = .next (fillEntry c q e s) := by
  rw [exec_queueEntryValid, execQueueEntryValid, agentStep_on hon]
  rw [if_neg (Nat.not_le.2 hq), he]

theorem exec_registerLoadData_pending {s : State} (hon : s.power = .on) {c e : Nat} {p : Pend}
    (hp : ((s.core c).stream e).pend.find? (fun x => x.seq = p.seq && !x.ready) = some p) :
    exec (.registerLoadData c e p.seq) s = .next (fillPend c e p s) := by
  rw [exec_registerLoadData, execRegisterLoadData, agentStep_on hon]
  rw [hp]

/-! ### Releases (R245) -/

theorem finishRelease_cover {s : State} {c : Nat} {r : Release} {l : List Release}
    (hr : (s.core c).releases = r :: l) (hhome : homesDone s c r = true) (hleft : unitsLeft (s.core c) r ≠ []) :
    finishRelease c s = (unitsLeft (s.core c) r).foldl (coverUnits c) s := by
  unfold finishRelease
  simp [hr, hhome, hleft]

/-- The conditions of a release half that has completed at every home. -/
theorem releaseDone_of {s : State} {c : Nat} {r : Release} (hhome : homesDone s c r = true)
    (hleft : unitsLeft (s.core c) r = []) (hruns : ∀ x, r.cont = .store x → runsReady s x = true)
    (hopen : r.cont.ordered = true → arrivalsOpen s c = false) : releaseDone s c r = true := by
  have hmark : (r.cont.ordered && arrivalsOpen s c) = false := by simpa using hopen
  unfold releaseDone
  cases hc : r.cont with
  | store x => simp [hhome, hleft, hruns x hc]
  | _ =>
    rw [hc] at hmark
    simp [hhome, hleft, hmark]

theorem finishRelease_done {s : State} {c : Nat} {r : Release} {l : List Release}
    (hr : (s.core c).releases = r :: l) (hleft : unitsLeft (s.core c) r = []) (hdone : releaseDone s c r = true) :
    finishRelease c s = runCont c r (s.setCore c (freeTrackers r { s.core c with releases := l })) := by
  unfold finishRelease
  simp [hr, hleft, hdone]

/-! ### Events (R206, R208) -/

/-- The state without a set of latches on its way. -/
def sevTaken (v : Sev) (s : State) : State :=
  { s with dom := { s.dom with sevs := s.dom.sevs.filter (·.id != v.id) } }

theorem arriveSev_first {s : State} {v : Sev} (hv : s.dom.sevs.find? (·.id = v.id) = some v)
    (hfirst : s.dom.sevs.find? (fun x => x.src = v.src && x.core = v.core && x.launch = v.launch) = some v)
    (hroom : s.savedCtx v.launch v.core = true → coreAreaRoom s v.launch v.core = true) :
    arriveSev v.id s =
      let u := setCtxLatches v.launch v.core v.msg (sevTaken v s)
      if s.savedCtx v.launch v.core then imageLatches v.launch v.core v.msg u else u := by
  have hwait : ¬ (v.id ≠ v.id ∨ s.savedCtx v.launch v.core = true ∧ (!coreAreaRoom s v.launch v.core) = true) := by
    rintro (h | ⟨hsaved, hfull⟩)
    · exact h rfl
    · simp [hroom hsaved] at hfull
  unfold arriveSev
  rw [hv]
  dsimp only
  rw [hfirst]
  dsimp only
  rw [if_neg hwait]
  rfl

/-! ### Imprecise reports (R343) -/

theorem keep_of_room {k : Core} {r : Report} (h : k.reports.length < 16) :
    k.keep r = { k with reports := k.reports ++ [r] } := if_pos h

theorem keep_of_full {k : Core} {r : Report} (h : ¬ k.reports.length < 16) :
    k.keep r = { k with reports := k.reports.drop 1 ++ [r], reportOvf := true } := if_neg h

@[simp] theorem keep_mode (k : Core) (r : Report) : (k.keep r).mode = k.mode := by
  unfold Core.keep
  split <;> rfl

/-- A core that runs no iteration takes the oldest report that it has kept. -/
theorem takeKept_resting {c : Nat} {s : State} {r : Report} {rest : List Report}
    (hmode : (s.core c).mode.resting = true) (hr : (s.core c).reports = r :: rest) :
    takeKept c s = takeImprecise c r (s.setCore c { s.core c with reports := rest, tie := false }) := by
  unfold takeKept
  simp only [hmode, hr]

/-- A core that serves a fault keeps what it has. -/
theorem takeKept_of_not_resting {c : Nat} {s : State} (hmode : (s.core c).mode.resting = false) : takeKept c s = s := by
  unfold takeKept
  simp only [hmode]

/-- The state without a report on its way. -/
def reportTaken (x : ReportFlight) (s : State) : State :=
  { s with dom := { s.dom with reports := s.dom.reports.filter (·.id != x.id) } }

@[simp] theorem reportTaken_core (x : ReportFlight) (s : State) (c : Nat) : (reportTaken x s).core c = s.core c := rfl

theorem exec_impreciseReport_found {s : State} (hon : s.power = .on) {x : ReportFlight}
    (hx : s.dom.reports.find? (·.id = x.id) = some x) :
    exec (.impreciseReport x.id) s = .next (deliverReport x (reportTaken x s)) := by
  rw [exec_impreciseReport, execImpreciseReport, agentStep_on hon, hx]
  rfl

section

variable {s : State} {x : ReportFlight} (hl : (s.core x.core).launch = x.launch)
include hl

theorem deliverReport_running (hm : (s.core x.core).mode = .running) :
    deliverReport x s = s.setCore x.core { (s.core x.core).keep x.rep with
      tie := (s.core x.core).tie || (s.core x.core).reports.isEmpty } := by
  simp [deliverReport, hl, hm]

/-- A core with a fault to deliver, or that runs no iteration, keeps the report and takes it if it can. -/
theorem deliverReport_kept
    (hm : (s.core x.core).mode = .faulted ∨ (s.core x.core).mode = .halted ∨ (s.core x.core).mode = .free) :
    deliverReport x s = takeKept x.core (s.setCore x.core ((s.core x.core).keep x.rep)) := by
  rcases hm with hm | hm | hm <;> simp [deliverReport, hl, hm]

end

/-- Settles O42: each step finds what has arrived, its conditions hold, and it does what the statement names. -/
theorem arrivalsAtCores : Obligations.ArrivalsAtCores := by
  unfold Obligations.ArrivalsAtCores
  intro s hon
  refine ⟨?stored, ?loaded, ?register, ?release, ?latches, ?report, ?kept⟩
  case stored => exact fun c q n _ => exec_storeEntryValid hon c q n
  case loaded => exact fun c q e hq he => exec_loadEntryValid hon hq he
  case register => exact fun c e p hp => exec_registerLoadData_pending hon hp
  case release =>
    intro c r l hr hhome
    rw [exec_releaseComplete, execReleaseComplete, agentStep_on hon]
    refine ⟨fun hleft => ?_, fun hleft hruns hopen => ?_⟩
    · rw [finishRelease_cover hr hhome hleft]
    · rw [finishRelease_done hr hleft (releaseDone_of hhome hleft hruns hopen)]
  case latches =>
    intro v hv hfirst hroom t u
    rw [exec_sevArrival, execSevArrival, agentStep_on hon, arriveSev_first hv hfirst hroom]
    rfl
  case report =>
    intro x hx hl u k
    rw [exec_impreciseReport_found hon hx]
    have hlaunch : ((reportTaken x s).core x.core).launch = x.launch := hl
    refine ⟨fun hm => ?_, fun hm => ?_, fun hm r rest hr => ?_⟩
    · rw [deliverReport_running hlaunch hm]
      rfl
    · rw [deliverReport_kept hlaunch (.inl hm), takeKept_of_not_resting (by simp [Mode.resting, hm])]
      rfl
    · have hrest : (s.core x.core).mode.resting = true := by rcases hm with hm | hm <;> simp [Mode.resting, hm]
      rw [deliverReport_kept hlaunch (.inr hm), takeKept_resting (by simpa using hrest) (by simpa using hr),
        State.core_setCore_same]
      rfl
  case kept =>
    intro k r
    refine ⟨fun hroom => ?_, fun x l hfull hlen => ?_⟩
    · simp [keep_of_room hroom]
    · simp [keep_of_full, hfull, hlen]

end Sys2Proof.Machine

namespace Sys2Proof.Machine

open Sys2Proof

/-! ### Elements that add exactly (R60 to R62) -/

/-- A product with the unit of the window as its last place is a whole number of units. -/
theorem toUnits_windowUnit (anchor m : Int) : toUnits anchor m (anchor - 80) = (m, false) := by
  have hsh : anchor - 80 - anchor + 80 = 0 := by omega
  rw [toUnits, hsh]
  exact congrArg (·, false) (Int.mul_one m)

/-- A number of units that neither sets OP nor ON is added to the accumulator. -/
theorem addUnits_small {p : Int} (hlo : -(2 ^ 95 : Int) < p) (hhi : p < 2 ^ 95) (x : Elem) (fl : Nat) :
    addUnits p (x, fl) = ({ x with acc := x.acc + BitVec.ofInt 112 p }, fl) := by
  rw [addUnits, if_neg (Int.not_le.2 hhi), if_neg (Int.not_le.2 hlo)]

theorem addProduct_windowUnit {p : Int} (hlo : -(2 ^ 95 : Int) < p) (hhi : p < 2 ^ 95) (anchor : Int) (x : Elem)
    (fl : Nat) : addProduct anchor (x, fl) (p, anchor - 80) = ({ x with acc := x.acc + BitVec.ofInt 112 p }, fl) := by
  unfold addProduct
  split
  · rename_i hp
    change p = 0 at hp
    simp [hp]
  · simp [toUnits_windowUnit, addUnits_small hlo hhi]

/-- Products in units of the window add to the accumulator their sum modulo 2^112, and change nothing else. -/
theorem foldl_addProduct_windowUnit (anchor : Int) (l : List Int) (x : Elem) (fl : Nat)
    (hsmall : ∀ p ∈ l, -(2 ^ 95 : Int) < p ∧ p < 2 ^ 95) :
    (l.map fun p => (p, anchor - 80)).foldl (addProduct anchor) (x, fl) =
      ({ x with acc := x.acc + BitVec.ofInt 112 l.sum }, fl) := by
  induction l generalizing x with
  | nil => simp
  | cons p r ih =>
    obtain ⟨⟨hlo, hhi⟩, hrest⟩ := List.forall_mem_cons.1 hsmall
    rw [List.map_cons, List.foldl_cons, addProduct_windowUnit hlo hhi, ih _ hrest, List.sum_cons, BitVec.ofInt_add,
      BitVec.add_assoc]

/-- An accumulator reads as an exact sum that lies in the window, whatever the sums before it were. -/
theorem toInt_add_ofInt_of_window {a : BitVec 112} {n : Int} (hlo : -(2 ^ 95 : Int) ≤ a.toInt + n)
    (hhi : a.toInt + n < 2 ^ 95) : (a + BitVec.ofInt 112 n).toInt = a.toInt + n := by
  rw [BitVec.toInt_add, BitVec.toInt_ofInt, Int.add_bmod_bmod]
  exact Int.bmod_eq_of_le (by omega) (by omega)

/-- An element without tags whose accumulator lies in the window resolves to it. -/
theorem resolveElem_of_window {x : Elem} (hop : x.op = false) (hon : x.on = false)
    (hlo : -(2 ^ 95 : Int) ≤ x.acc.toInt) (hhi : x.acc.toInt < 2 ^ 95) : resolveElem x = (some x.acc.toInt, 0) := by
  rw [resolveElem, hop, hon]
  exact (if_neg (Int.not_le.2 hhi)).trans (if_neg (Int.not_lt.2 hlo))

/-- Settles O33: the accumulator takes the sum modulo 2^112, in which the exact sum of the statement fits. -/
theorem elementsAddExactly : Obligations.ElementsAddExactly := by
  unfold Obligations.ElementsAddExactly
  intro anchor l x fl hop hon hsmall hlo hhi
  have hsum := toInt_add_ofInt_of_window hlo hhi
  rw [foldl_addProduct_windowUnit anchor l x fl hsmall]
  refine ⟨rfl, ?_⟩
  rw [resolveElem_of_window (x := { x with acc := x.acc + BitVec.ofInt 112 l.sum }) hop hon (hsum ▸ hlo)
    (hsum ▸ hhi), hsum]

end Sys2Proof.Machine

namespace Sys2Proof.Machine

open Sys2Proof

/-! ### Rows of `mma` (R61, R143, R158) -/

/-- The check of queue entries has no effect. -/
theorem haveEntries_ok {q n : Nat} {s : State} (h : okB (haveEntries q n) s = true) :
    haveEntries q n s = .ok ((), s) := by
  unfold haveEntries cannot at h ⊢
  dsimp only at h ⊢
  split
  · rename_i hfew
    rw [okB, if_pos hfew] at h
    cases hseq : s.seqn s.cur.core <;> simp [hseq] at h
  · rename_i hfew
    rw [okB, if_neg hfew] at h
    split
    · rename_i hwait
      simp [hwait] at h
    · rfl

/-- What follows the turn of an `mma` once its rows are there: their products, and the count of the contribution. -/
theorem addRows_ok {st : MmaSite} {a : MmaArgs} {rows : List (Nat × List Byte)} {u : State}
    (h : bit (u.cc.csrN 0x013) 3 = false ∨ snanMask u st a rows = 0) :
    (do
      snanTrap st a rows false
      change fun s => countMma st a (rows.foldl (fun (s : State) (r : Nat × List Byte) => addRow st a r.1 r.2 s) s)
      turnDone : Act Unit) u = .ok ((), afterOf turnDone (rowsAdded st a rows u)) :=
  (act_bind_ok (snanTrap_ok h)).trans ((act_bind_ok (act_change _ u)).trans (turnDone_ok _))

section

variable {w : Wrd} {t t1 : State} {st : MmaSite} (hon : guardOff w t = false)
  (hcheck : mmaCheck w (mmaArgs w t.cs.repd) t = .ok (st, t)) (hturn : takeTurn t = .ok ((), t1))
include hon hcheck hturn

/-- A repetition of `mma` from the scratchpad. -/
theorem mmaRep_spad (hq : bit w.mod 7 = false) :
    let a := mmaArgs w t.cs.repd
    let rows := spadRows w a (rowEntries (activeFmt t.cc) a.k) t
    (bit (t1.cc.csrN 0x013) 3 = false ∨ snanMask t1 st a rows = 0) →
    mmaRep w t = .ok ((), afterOf turnDone (rowsAdded st a rows t1)) := by
  intro a rows hsnan
  unfold mmaRep
  rw [act_bind, act_get]
  simp only [hon, hq, Bool.false_eq_true, if_false, Bool.false_and]
  rw [act_bind_ok hcheck, act_bind_ok (act_raiseIf_false _ _), act_bind_ok hturn, act_bind_ok (act_pure _ _)]
  exact addRows_ok hsnan

/-- A repetition of `mma` from the entries of a queue. -/
theorem mmaRep_queue {l : List (List Byte)} {t2 : State} (hq : bit w.mod 7 = true) :
    let a := mmaArgs w t.cs.repd
    let n := rowEntries (activeFmt t.cc) a.k
    a.rows * n ≤ 16 → okB (haveEntries (bits w.mod 2 0) (a.rows * n)) t = true →
    takeEntries (bits w.mod 2 0) (a.rows * n) t1 = .ok (l, t2) →
    (bit (t2.cc.csrN 0x013) 3 = false ∨ snanMask t2 st a (queueRows a n l) = 0) →
    mmaRep w t = .ok ((), afterOf turnDone (rowsAdded st a (queueRows a n l) t2)) := by
  intro a n hmax hhave htake hsnan
  have hfits : (true && decide (16 < a.rows * n)) = false := by simpa using hmax
  unfold mmaRep
  rw [act_bind, act_get]
  simp only [hon, hq, Bool.false_eq_true, if_false, if_true]
  rw [act_bind_ok hcheck, hfits, act_bind_ok (act_raiseIf_false _ _), act_bind_ok (haveEntries_ok hhave),
    act_bind_ok hturn, act_bind_ok htake, act_bind_ok (act_pure _ _)]
  exact addRows_ok hsnan

end

/-- Settles O32: the rows come from the scratchpad or from a queue, and then both forms add them alike. -/
theorem mmaAddsItsRows : Obligations.MmaAddsItsRows := by
  unfold Obligations.MmaAddsItsRows
  intro w s st t1 hopen hon t a n hcheck hturn
  refine ⟨fun hq hsnan => ?_, fun l t2 hq hmax hhave htake hsnan => ?_⟩
  · exact word_runs rfl hopen (mmaRep_spad hon hcheck hturn hq hsnan)
  · exact word_runs rfl hopen (mmaRep_queue hon hcheck hturn hq hmax hhave htake hsnan)

end Sys2Proof.Machine

namespace Sys2Proof.Machine

open Sys2Proof

/-! ### Floating-point traps (R57) -/

/-- The effect of a floating-point word on the values of its sources. -/
theorem exec_floatRule {r : FloatRule} (hr : r ∈ floatRules) (w : Wrd) (s : State) :
    exec (r.make w) s = word w (fpRep r.opc w (r.wide w) (r.lat w) fun t _ a b c => r.fn w t a b c) s := by
  simp only [floatRules, List.mem_cons, List.not_mem_nil, or_false] at hr
  rcases hr with rfl | rfl | rfl | rfl | rfl | rfl | rfl | rfl | rfl | rfl | rfl | rfl | rfl | rfl <;> rfl

theorem trapCheck_hit {lanes : Nat → Nat} {rs : List (Nat × FR)} {t : State} {c m : Nat}
    (h : trapOf (ften t) lanes rs = some (c, m)) :
    trapCheck lanes rs t = .error (.fault
      { code := 0x10, aux := c, faux0 := BitVec.ofNat 64 m, faux1 := BitVec.ofNat 64 t.cs.pc } t) := by
  unfold trapCheck
  rw [act_bind, act_get]
  simp only [h]
  rfl

/-- A floating-point repetition computes the results of its rule, and stops where their check does. -/
theorem fpRep_trap {r : FloatRule} {w : Wrd} {s : State} {e : Stop} (ho : xOpen w (usesOf r.opc w) s = true)
    (h : trapCheck (lanesAt w (r.wide w) (xPopped w (usesOf r.opc w) s)) (floatResults r w s)
      (xPopped w (usesOf r.opc w) s) = .error e) :
    fpRep r.opc w (r.wide w) (r.lat w) (fun t _ a b c => r.fn w t a b c) (atSlot w s) = .error e := by
  unfold fpRep
  rw [xRep_ok ho, act_bind, act_get]
  exact act_bind_error h

/-- A word whose repetition stops with a fault that keeps nothing takes it in the state before the slot, where the
draws of the repetition have been made. -/
theorem word_faults {w : Wrd} {s u : State} {body : Act Unit} {f : FaultInfo} (ho : slotOpen w s = true)
    (hk : f.keep = false) (hb : body (atSlot w s) = .error (.fault f u)) :
    word w body s = .next (takeFault f { s with draws := u.draws }) := by
  rw [word_stops ho hb, stopped, hk]
  rfl

/-- Settles O5: the check of the results stops the repetition, and the fault keeps nothing of it. -/
theorem floatTrapsStopTheRepetition : Obligations.FloatTrapsStopTheRepetition := by
  unfold Obligations.FloatTrapsStopTheRepetition
  intro r hr w s c m hopen t htrap
  rw [exec_floatRule hr]
  exact word_faults (xOpen_slot hopen) rfl (fpRep_trap hopen (trapCheck_hit htrap))

end Sys2Proof.Machine

namespace Sys2Proof.Machine

open Sys2Proof

/-! ### The clusters of a slot (R100, R172) -/

/-- A change of the issuing core that leaves the fork leaves the clusters that a word acts on. -/
theorem modCore_cluster {s : State} {g : Core → Core} (h : (g s.cc).fork = s.cc.fork) :
    (s.modCore g).cluster = s.cluster := by
  rw [State.cluster, State.cc_modCore, Core.forked, h]
  rfl

@[simp] theorem modStream_cluster (s : State) (g : Stream → Stream) : (s.modStream g).cluster = s.cluster :=
  modCore_cluster rfl

@[simp] theorem applyPend_fork (e : Nat) (p : Pend) (k : Core) : (applyPend e p k).fork = k.fork := by
  cases p with
  | mk due seq tgt mask data flg ready src =>
    cases tgt with
    | reg r =>
      cases r with
      | s i => exact (apply_ite Core.fork _ _ _).trans (ite_self _)
      | _ => rfl
    | _ => rfl

@[simp] theorem commitStream_fork (e : Nat) (k : Core) : (commitStream e k).fork = k.fork := by
  have hpends (l : List Pend) (k : Core) : (l.foldl (fun k p => applyPend e p k) k).fork = k.fork := by
    induction l generalizing k with
    | nil => rfl
    | cons p r ih => rw [List.foldl_cons, ih, applyPend_fork]
  exact hpends _ _

theorem leaves_cluster_boundary : Leaves State.cluster boundary :=
  leaves_iteAt (leaves_change fun _ => modCore_cluster (commitStream_fork _ _)) (leaves_stall 9)

theorem leaves_cluster_takeN (q n : Nat) : Leaves State.cluster (takeN q n) :=
  leaves_iteAt (leaves_cannot 3 1) fun _ _ _ h =>
    (leaves_change (modStream_cluster · _) _ _ _ h).trans (modCore_cluster rfl)

theorem leaves_cluster_takeTokens (w : Wrd) : Leaves State.cluster (takeTokens w) := by
  unfold takeTokens
  refine leaves_bind leaves_get fun s => leaves_ite (leaves_pure ()) (leaves_bind (leaves_raiseIf _ _) fun _ => ?_)
  exact leaves_when (leaves_cannot _ _) fun _ => leaves_when (leaves_cannot _ _) fun _ =>
    leaves_when (leaves_cluster_takeN _ _) fun _ => leaves_when (leaves_cluster_takeN _ _) fun _ =>
      leaves_change fun s => modStream_cluster s _

/-- What comes before a repetition leaves the clusters that the word acts on. -/
theorem atSlot_cluster (w : Wrd) (s : State) : (atSlot w s).cluster = s.cluster :=
  Leaves.afterOf (a := slotEntry w)
    (leaves_bind leaves_cluster_boundary fun _ => leaves_cluster_takeTokens w) s

/-! ### Words with an invalid-patch check of their own (R83) -/

/-- A word that passes its own check is an ordinary word. -/
theorem checkedWord_of_good {bad : State → Bool} {s : State} (h : bad s = false) (w : Wrd) (body : Act Unit) :
    checkedWord w bad body s = word w body s := by
  have hslot : checkedSlot w bad body nextWord s = slot w body nextWord s := if_neg (by simp [h])
  simp [checkedWord, word, issueWord, settle, hslot]

/-- A word that fails its own check takes the invalid-patch fault in the state before its slot. -/
theorem checkedWord_of_bad {bad : State → Bool} {s : State} (hon : s.power = .on) (hissue : s.canIssue = true)
    (h : bad s = true) (w : Wrd) (body : Act Unit) :
    checkedWord w bad body s = .next (takeFault { code := 0x01 } s) := by
  have hslot : checkedSlot w bad body nextWord s = .error (.fault { code := 0x01 } s) := if_pos h
  rw [checkedWord, issueWord, if_neg (not_not_intro hon), if_pos hissue, settle, hslot]
  rfl

/-! ### Results without a trap (R57, R97) -/

theorem trapOf_eq_none {en : Nat} {lanes : Nat → Nat} {rs : List (Nat × FR)} :
    trapOf en lanes rs = none ↔ (rs.filter fun r => r.2.cause &&& en != 0).isEmpty = true := by
  simp [trapOf]

/-- Whether a repetition traps does not depend on the lanes of its elements. -/
theorem trapCheck_none {lanes lanes' : Nat → Nat} {rs : List (Nat × FR)} {t : State}
    (h : trapOf (ften t) lanes' rs = none) : trapCheck lanes rs t = .ok ((), t) := by
  have hnone : trapOf (ften t) lanes rs = none := trapOf_eq_none.2 (trapOf_eq_none.1 h)
  unfold trapCheck
  rw [act_bind, act_get]
  simp only [hnone]
  rfl

/-- The result of a compare is written without a wait or a fault. -/
theorem putCmp_ok (w : Wrd) (wide : Bool) (v : Nat) (flg : BitVec 5) (L : Nat) (t : State) :
    putCmp w wide v flg L t = .ok ((), cmpWritten w wide v flg L t) := by
  refine act_of_okB (okB_iff.2 ?_)
  unfold putCmp
  rw [act_bind, act_get]
  dsimp only
  split
  · exact ⟨_, _, rfl⟩
  · split <;> exact ⟨_, _, act_putScalar _ _ _ _ _⟩

/-- The results of a word are written, in a vector or in a register. -/
theorem resultsWritten_ok {w : Wrd} {u : Uses} {s : State} (h : xOpen w u s = true) (wide : Bool) (out : Nat → Nat)
    (flg : BitVec 5) (L : Nat) :
    (if isVector w then putVec w wide (packElems wide out) flg L else putScalar w (out 0) flg L) (xPopped w u s) =
      .ok ((), resultsWritten w wide out flg L (xPopped w u s)) := by
  unfold resultsWritten
  split
  · exact vecWritten_ok h wide out flg L
  · exact act_putScalar _ _ _ _ _

/-! ### Compares and conversions (R70, R113, R117 to R120) -/

section

variable {w : Wrd} {s : State}

theorem fncRnd_runs (ho : xOpen w (usesOf 0x10D w) s = true) :
    let t := xPopped w (usesOf 0x10D w) s
    let lane := rndLane (t.cc.csrN 0x014) (regVal t w.sa)
    Runs (.fncRnd w) w s (if isVector w then vecWritten w false lane 0 3 t
      else scalarWritten w (lane (16 * t.cluster.getD 0)) 0 3 t) := by
  intro t lane
  refine x_runs rfl ho ?_
  rw [act_bind, act_get]
  dsimp only
  split
  · exact vecWritten_ok ho false lane 0 3
  · exact act_putScalar _ _ _ _ _

theorem fcmp_runs (ho : xOpen w (usesOf 0x108 w) s = true) :
    let t := xPopped w (usesOf 0x108 w) s
    let rs := fcmpResults w s
    trapOf (ften t) (lanesAt w (isWide w) t) rs = none →
    Runs (.fcmp w) w s (cmpWritten w (isWide w) (cmpBits rs) (flagsOf w rs) 2 t) := by
  intro t rs htrap
  refine x_runs rfl ho ?_
  rw [act_bind, act_get]
  exact (act_bind_ok (trapCheck_none (rs := rs) htrap)).trans (putCmp_ok _ _ _ _ _ _)

theorem cvtElem_vector (hv : isVector w = true) (rs : List (Nat × FR)) : cvtElem w rs = fun k =>
    if (cvtWide w).2 then cvtOut (cvtKinds w).2 (valAt rs k) else cvtOut (cvtKinds w).2 (valAt rs k) % 2 ^ 32 := by
  funext k
  cases h : (cvtWide w).2 <;> simp [cvtElem, hv, h]

theorem cvtElem_scalar (hv : isVector w = false) (rs : List (Nat × FR)) (k : Nat) :
    cvtElem w rs k = cvtOut (cvtKinds w).2 (valAt rs k) := by
  simp [cvtElem, hv]

/-- The effect of `cvt` or `cvts` on the values of its sources. -/
theorem cvtRep_ok {opc : Nat} (ho : xOpen w (usesOf opc w) s = true) :
    let t := xPopped w (usesOf opc w) s
    let rs := cvtResults opc w s
    let wide := (cvtWide w).1 || (cvtWide w).2
    trapOf (ften t) (lanesAt w wide t) rs = none →
    cvtRep opc w (atSlot w s) = .ok ((), resultsWritten w wide (cvtElem w rs) (flagsOf w rs) 3 t) := by
  intro t rs wide htrap
  unfold cvtRep
  rw [xRep_ok ho, act_bind, act_get]
  refine (act_bind_ok (trapCheck_none (rs := rs) htrap)).trans ?_
  rw [← resultsWritten_ok ho]
  split
  · rename_i hv
    rw [cvtElem_vector hv]
    rfl
  · rename_i hv
    rw [cvtElem_scalar (by simpa using hv)]
    rfl

theorem cvtq_runs (ho : xOpen w (usesOf 0x112 w) s = true) (hc : (atSlot w s).cluster = none) :
    let t := xPopped w (usesOf 0x112 w) s
    let b0 := cvtqBlock w s 0
    let b1 := cvtqBlock w s 32
    let rs := (span 0 64).zip (b0.2 ++ b1.2)
    trapOf (ften t) id rs = none →
    Runs (.cvtq w) w s (afterOf (putVec w false
      (packBlocks w.imm.toNat (rs.map fun r => r.2.val) b0.1 b1.1) (flagsOf w rs) 6) t) := by
  intro t b0 b1 rs htrap
  have hgood : inCluster s = false := by simp [inCluster, ← atSlot_cluster w s, hc]
  refine x_runs (checkedWord_of_good hgood w _) ho ?_
  rw [act_bind, act_get]
  exact (act_bind_ok (trapCheck_none (rs := rs) htrap)).trans (putVec_ok (xPopped_dstReady ho) _ _ _ _)

theorem cvtd_runs (ho : xOpen w (usesOf 0x113 w) s = true) (hc : (atSlot w s).cluster = none) :
    let t := xPopped w (usesOf 0x113 w) s
    let rs := cvtdResults w s
    trapOf (ften t) id rs = none → Runs (.cvtd w) w s (vecWritten w false (valAt rs) (flagsOf w rs) 3 t) := by
  intro t rs htrap
  have hgood : inCluster s = false := by simp [inCluster, ← atSlot_cluster w s, hc]
  refine x_runs (checkedWord_of_good hgood w _) ho ?_
  rw [act_bind, act_get]
  exact (act_bind_ok (trapCheck_none (rs := rs) htrap)).trans (vecWritten_ok ho _ _ _ _)

end

/-- Settles O7: no check of these words stops their repetition, and in a forked cluster the check before the slot stops
`cvtq` and `cvtd`. -/
theorem comparesAndConversions : Obligations.ComparesAndConversions := by
  unfold Obligations.ComparesAndConversions
  refine ⟨fun w s => ⟨fncRnd_runs, fcmp_runs, fun r hr ho => ?cvt⟩,
    fun w s => ⟨cvtq_runs, cvtd_runs, fun hon hissue hforked i hi => ?forked⟩⟩
  case cvt =>
    intro t rs wide htrap
    simp only [List.mem_cons, List.not_mem_nil, or_false] at hr
    rcases hr with rfl | rfl
    · exact word_runs rfl (xOpen_slot ho) (cvtRep_ok ho htrap)
    · exact word_runs rfl (xOpen_slot ho) (cvtRep_ok ho htrap)
  case forked =>
    simp only [List.mem_cons, List.not_mem_nil, or_false] at hi
    rcases hi with rfl | rfl
    · exact checkedWord_of_bad hon hissue hforked w (cvtqRep w)
    · exact checkedWord_of_bad hon hissue hforked w (cvtdRep w)

end Sys2Proof.Machine

namespace Sys2Proof.Machine

open Sys2Proof

/-! ### Numbers packed from fields (R71, R74) -/

/-- The number that fields, each a width and a value, make side by side, the first in the low bits. -/
def packed : List (Nat × Nat) → Nat
  | [] => 0
  | f :: l => f.2 + 2 ^ f.1 * packed l

/-- Every field has bits and holds its value. -/
def FieldsFit (l : List (Nat × Nat)) : Prop := ∀ f ∈ l, 0 < f.1 ∧ f.2 < 2 ^ f.1

/-- From bit `lo` up, the bits of a word read as these fields. -/
def ReadsFields {n : Nat} (x : BitVec n) : Nat → List (Nat × Nat) → Prop
  | _, [] => True
  | lo, f :: l => bits x (lo + f.1 - 1) lo = f.2 ∧ ReadsFields x (lo + f.1) l

/-- The other fields are what is left above the first. -/
theorem packed_cons_shiftRight {f : Nat × Nat} (h : f.2 < 2 ^ f.1) (l : List (Nat × Nat)) :
    packed (f :: l) >>> f.1 = packed l := by
  rw [packed, Nat.shiftRight_eq_div_pow, Nat.add_mul_div_left _ _ (Nat.two_pow_pos _), Nat.div_eq_of_lt h, Nat.zero_add]

/-- Bits of a word lie below its width, so that they are those of the number it is made of. -/
theorem bits_ofNat {n hi : Nat} (h : hi < n) (x lo : Nat) :
    bits (BitVec.ofNat n x) hi lo = (x >>> lo) % 2 ^ (hi + 1 - lo) := by
  refine Nat.eq_of_testBit_eq fun j => ?_
  simp only [bits, BitVec.toNat_ofNat, Nat.testBit_mod_two_pow, Nat.testBit_shiftRight]
  by_cases hj : j < hi + 1 - lo
  · simp [hj, show lo + j < n by omega]
  · simp [hj]

/-- A number that is made of fields above bit `lo` reads there as these fields. -/
theorem readsFields_of_shiftRight {n x lo : Nat} {l : List (Nat × Nat)} (hfit : FieldsFit l)
    (hn : lo + (l.map Prod.fst).sum ≤ n) (hx : x >>> lo = packed l) : ReadsFields (BitVec.ofNat n x) lo l := by
  induction l generalizing lo with
  | nil => trivial
  | cons f l ih =>
    obtain ⟨⟨hpos, hf⟩, hl⟩ := List.forall_mem_cons.1 hfit
    rw [List.map_cons, List.sum_cons] at hn
    refine ⟨?_, ih hl (by omega) ?_⟩
    · rw [bits_ofNat (by omega), hx, show lo + f.1 - 1 + 1 - lo = f.1 by omega, packed, Nat.add_mul_mod_self_left,
        Nat.mod_eq_of_lt hf]
    · rw [Nat.shiftRight_add, hx, packed_cons_shiftRight hf]

/-- A packed word reads as the fields that it is made of. -/
theorem readsFields_packed {n : Nat} {l : List (Nat × Nat)} (hfit : FieldsFit l) (hn : (l.map Prod.fst).sum ≤ n) :
    ReadsFields (BitVec.ofNat n (packed l)) 0 l :=
  readsFields_of_shiftRight hfit (by rwa [Nat.zero_add]) rfl

/-- A bit is the field of one bit. -/
theorem bit_of_bits {n i : Nat} {x : BitVec n} {b : Bool} (h : bits x i i = b.toNat) : bit x i = b := by
  have hbit : bit x i = decide (bits x i i = 1) := by
    rw [bits, Nat.add_sub_cancel_left, Nat.pow_one, Nat.shiftRight_eq_div_pow]
    exact Nat.testBit_eq_decide_div_mod_eq
  rw [hbit, h]
  cases b <;> rfl

/-! ### Codes of registers and engines (R10, R13, R22) -/

theorem engineCode_lt (e : Engine) : engineCode e < 4 := by cases e <;> decide

theorem engineOf_engineCode (e : Engine) : engineOf (engineCode e) = e := by cases e <;> rfl

theorem specCode_lt (r : Spec) : specCode r < 32 := by
  cases r <;> simp only [specCode] <;> omega

theorem specOf_specCode (r : Spec) : specOf (specCode r) = some r := by
  cases r
  case ix i => revert i; decide
  case tl i => revert i; decide
  all_goals rfl

theorem regCode_lt (r : Reg) : regCode r < 256 := by
  cases r
  case sp r => exact Nat.add_lt_add_left (specCode_lt r) 224
  all_goals simp only [regCode]; omega

theorem regOf_regCode (r : Reg) : regOf (regCode r) = some r := by
  cases r
  case sp r =>
    have hlt := specCode_lt r
    have hclass : (224 + specCode r) / 32 = 7 := by omega
    have hindex : (224 + specCode r) % 32 = specCode r := by omega
    simp [regOf, regCode, hclass, hindex, specOf_specCode]
  all_goals (rename_i i; revert i; decide)

/-! ### The words that the encoder writes (R71 to R74) -/

/-- The fields of a template, from bit 0 up (R74). -/
def templateFields (o : Nat) (w : Wrd) : List (Nat × Nat) := [
  (12, 0), (16, w.off.toNat), (32, w.imm.toNat), (8, w.rep.toNat), (1, w.y.toNat), (2, w.ac.toNat),
  (8, w.mod.toNat), (8, regCode w.sc), (8, regCode w.sb), (8, regCode w.sa), (8, regCode w.dst),
  (3, w.gn.val), (1, w.gi.toNat), (1, w.ge.toNat), (2, engineCode w.eng), (10, o)]

theorem templateFields_fit {o : Nat} (ho : o < 1024) (w : Wrd) : FieldsFit (templateFields o w) := by
  simp only [FieldsFit, templateFields, List.forall_mem_cons]
  exact ⟨⟨by decide, by decide⟩, ⟨by decide, w.off.isLt⟩, ⟨by decide, w.imm.isLt⟩, ⟨by decide, w.rep.isLt⟩,
    ⟨by decide, w.y.toNat_lt⟩, ⟨by decide, w.ac.isLt⟩, ⟨by decide, w.mod.isLt⟩, ⟨by decide, regCode_lt w.sc⟩,
    ⟨by decide, regCode_lt w.sb⟩, ⟨by decide, regCode_lt w.sa⟩, ⟨by decide, regCode_lt w.dst⟩, ⟨by decide, w.gn.isLt⟩,
    ⟨by decide, w.gi.toNat_lt⟩, ⟨by decide, w.ge.toNat_lt⟩, ⟨by decide, engineCode_lt w.eng⟩, ⟨by decide, ho⟩,
    List.forall_mem_nil _⟩

theorem encodeTemplate_eq (o : Nat) (w : Wrd) :
    encodeTemplate o w = BitVec.ofNat 128 (packed (templateFields o w)) := by
  refine congrArg (BitVec.ofNat 128) ?_
  simp only [templateFields, packed, Nat.shiftLeft_eq]
  omega

/-- The fields of a patch word, from bit 0 up (R71). -/
def patchFields (w : Wrd) : List (Nat × Nat) := [
  (16, 0), (4, if w.lit2.isSome then 13 else 0), (1, w.sn.toNat), (1, w.sp.toNat), (1, w.wn.toNat), (1, w.wp.toNat),
  (6, 0), (2, engineCode w.eng)]

theorem patchFields_fit (w : Wrd) : FieldsFit (patchFields w) := by
  have hlit : (if w.lit2.isSome then 13 else 0) < 16 := by split <;> decide
  simp only [FieldsFit, patchFields, List.forall_mem_cons]
  exact ⟨⟨by decide, by decide⟩, ⟨by decide, hlit⟩, ⟨by decide, w.sn.toNat_lt⟩, ⟨by decide, w.sp.toNat_lt⟩,
    ⟨by decide, w.wn.toNat_lt⟩, ⟨by decide, w.wp.toNat_lt⟩, ⟨by decide, by decide⟩, ⟨by decide, engineCode_lt w.eng⟩,
    List.forall_mem_nil _⟩

theorem encodePatch_eq (w : Wrd) : encodePatch w = BitVec.ofNat 32 (packed (patchFields w)) := by
  refine congrArg (BitVec.ofNat 32) ?_
  simp only [patchFields, packed, Nat.shiftLeft_eq]
  omega

theorem encodeTemplate_readsFields {o : Nat} (ho : o < 1024) (w : Wrd) :
    ReadsFields (encodeTemplate o w) 0 (templateFields o w) := by
  rw [encodeTemplate_eq]
  exact readsFields_packed (templateFields_fit ho w) (by simp [templateFields])

theorem encodePatch_readsFields (w : Wrd) : ReadsFields (encodePatch w) 0 (patchFields w) := by
  rw [encodePatch_eq]
  exact readsFields_packed (patchFields_fit w) (by simp [patchFields])

/-! ### Reading a template back (R74, R80) -/

/-- The word that a template alone holds: no token bit, no literal. -/
def bareWord (w : Wrd) : Wrd := { w with wp := false, wn := false, sp := false, sn := false, lit2 := none }

theorem parseTemplate_encodeTemplate {o : Nat} (ho : o < 1024) (w : Wrd) :
    parseTemplate (encodeTemplate o w) = some (o, bareWord w) := by
  have hreads := encodeTemplate_readsFields ho w
  simp only [ReadsFields, templateFields, Nat.reduceAdd, Nat.reduceSub] at hreads
  obtain ⟨hrsv, hoff, himm, hrep, hy, hac, hmod, hsc, hsb, hsa, hdst, hgn, hgi, hge, heng, hopc, -⟩ := hreads
  simp [parseTemplate, bareWord, regOf_regCode, engineOf_engineCode, hrsv, hoff, himm, hrep, bit_of_bits hy, hac, hmod,
    hsc, hsb, hsa, hdst, hgn, bit_of_bits hgi, bit_of_bits hge, heng, hopc]

theorem unusedZero_bareWord {u : Uses} {w : Wrd} (h : unusedZero u w = true) : unusedZero u (bareWord w) = true := by
  simp only [unusedZero, Bool.and_eq_true, Bool.or_eq_true, and_assoc] at h ⊢
  obtain ⟨hdst, hsa, hsb, hsc, himm, hoff, hmod⟩ := h
  exact ⟨hdst, hsa, hsb, hsc, himm.imp_right (And.imp_right fun _ => rfl), hoff, hmod⟩

/-- A template passes the checks of R80 when the word that it issues does: no check looks at a token bit, and none asks
for a literal. -/
theorem checkWord_bareWord {o : Nat} {w : Wrd} (h : checkWord o w = true) : checkWord o (bareWord w) = true := by
  simp only [checkWord, checkCommon, Bool.and_eq_true, Bool.or_eq_true (Option.isNone _), and_assoc] at h ⊢
  obtain ⟨hunused, hguard, hclass, -, hfamily⟩ := h
  exact ⟨unusedZero_bareWord hunused, hguard, hclass, .inl rfl, hfamily⟩

/-! ### The amendment of a patch word (R72, R73) -/

/-- The two literal words of a 64-bit literal make it again (R73). -/
theorem setWidth_append_setWidth (l : Dword) : (l >>> 32).setWidth 32 ++ l.setWidth 32 = l := by
  ext i hi
  simp only [BitVec.getElem_append, BitVec.getElem_setWidth, BitVec.getLsbD_ushiftRight]
  split
  · exact BitVec.getLsbD_eq_getElem hi
  · next h => rw [show 32 + (i - 32) = i by omega]; exact BitVec.getLsbD_eq_getElem hi

theorem amend_encodePatch {o : Nat} {w : Wrd} (h : (w.lit2.isNone || o == 0x023) = true) :
    amend o (bareWord w) (if w.lit2.isSome then 13 else 0) 0 ((w.lit2.getD 0).setWidth 32)
      ((w.lit2.getD 0 >>> 32).setWidth 32) = some (o, { bareWord w with lit2 := w.lit2 }) := by
  cases hl : w.lit2 with
  | none => rfl
  | some l =>
    have ho : o = 0x023 := by simpa [hl] using h
    simp [amend, ho, setWidth_append_setWidth]

/-! ### The instruction of an opcode (R78, R80) -/

theorem findRow_opc {o : Nat} {l : List Row} {r : Row} (h : findRow o l = some r) : r ∈ l ∧ r.opc = o := by
  induction l with
  | nil => simp [findRow] at h
  | cons x l ih =>
    rw [findRow] at h
    split at h
    · next hx => exact ⟨Option.some.inj h ▸ List.mem_cons_self, Option.some.inj h ▸ hx⟩
    · obtain ⟨hmem, hopc⟩ := ih h
      exact ⟨List.mem_cons_of_mem _ hmem, hopc⟩

theorem opcodeMap_opc_lt : ∀ r ∈ opcodeMap, r.opc < 1024 := by decide +kernel

/-- An instruction comes of a row for its opcode that admits its engine and its repetitions, and its word passes
the checks (R78, R80). -/
theorem instrOf_eq_some_iff {o : Nat} {w : Wrd} {i : Instr} : instrOf o w = some i ↔
    ∃ r, findRow o opcodeMap = some r ∧ r.engines.any (· == w.eng) = true ∧ (r.rep || w.rep == 0) = true ∧
      checkWord o w = true ∧ r.make w = i := by
  unfold instrOf
  cases findRow o opcodeMap with
  | none => simp
  | some r => simp [and_assoc]

theorem opc_lt_of_instrOf {o : Nat} {w : Wrd} {i : Instr} (h : instrOf o w = some i) : o < 1024 := by
  obtain ⟨r, hr, -⟩ := instrOf_eq_some_iff.1 h
  obtain ⟨hmem, rfl⟩ := findRow_opc hr
  exact opcodeMap_opc_lt r hmem

theorem instrOf_bareWord {o : Nat} {w : Wrd} {i : Instr} (h : instrOf o w = some i) :
    ∃ j, instrOf o (bareWord w) = some j := by
  obtain ⟨r, hr, heng, hrep, hcheck, -⟩ := instrOf_eq_some_iff.1 h
  exact ⟨_, instrOf_eq_some_iff.2 ⟨r, hr, heng, hrep, checkWord_bareWord hcheck, rfl⟩⟩

/-! ### The round trip (R71 to R80) -/

/-- The template and the patch word name the same engine. -/
theorem encodeTemplate_engine_eq_encodePatch_engine {o : Nat} (ho : o < 1024) (w : Wrd) :
    bits (encodeTemplate o w) 117 116 = bits (encodePatch w) 31 30 := by
  have htemplate := encodeTemplate_readsFields ho w
  have hpatch := encodePatch_readsFields w
  simp only [ReadsFields, templateFields, patchFields, Nat.reduceAdd, Nat.reduceSub] at htemplate hpatch
  simp only [htemplate, hpatch]

theorem decodeText_encode {o : Nat} {w : Wrd} {i : Instr} (h : instrOf o w = some i)
    (hlit : (w.lit2.isNone || o == 0x023) = true) :
    decodeText (encodeTemplate o w) (encodePatch w) ((w.lit2.getD 0).setWidth 32) ((w.lit2.getD 0 >>> 32).setWidth 32) =
      some i := by
  have ho := opc_lt_of_instrOf h
  obtain ⟨j, hbare⟩ := instrOf_bareWord h
  have hpatch := encodePatch_readsFields w
  simp only [ReadsFields, patchFields, Nat.reduceAdd, Nat.reduceSub] at hpatch
  obtain ⟨hv, hf, hsn, hsp, hwn, hwp, -⟩ := hpatch
  rw [decodeText, if_pos (encodeTemplate_engine_eq_encodePatch_engine ho w), decode]
  simp only [parseTemplate_encodeTemplate ho, hbare, hf, hv, amend_encodePatch hlit, bit_of_bits hsn, bit_of_bits hsp,
    bit_of_bits hwn, bit_of_bits hwp]
  exact h

/-- Settles O54: each field of the template and of the patch word reads as what was packed there, so the template gives
the word without tokens and literal, and the patch word puts these back. -/
theorem encodedWordsDecodeBack : Obligations.EncodedWordsDecodeBack := by
  unfold Obligations.EncodedWordsDecodeBack
  intro i o w hopc hwf
  obtain ⟨hinstr, hlit⟩ : instrOf o w = some i ∧ (w.lit2.isNone || o == 0x023) = true := by
    simpa [WellFormed, hopc, wordOk] using hwf
  refine ⟨_, _, _, _, ?_, decodeText_encode hinstr hlit⟩
  simp only [encode, hopc]

/-- Settles O53: each word is closed data, from which the decoder computes: the fields of R74, the amendment of R72 with
the literals of R73, and the checks of R80 before and after it. -/
theorem specWordsDecode : Obligations.SpecWordsDecode := by
  unfold Obligations.SpecWordsDecode
  decide +kernel

end Sys2Proof.Machine

namespace Sys2Proof.Machine

open Sys2Proof

/-! ### Words that act only where their guard lets them (R18) -/

/-- The repetition of a word whose guard decides once whether it acts. -/
def actingRep (w : Wrd) (act : State → Act Unit) : Act Unit := do
  let s ← get
  if wordOff w s then pure () else act s

section

variable {i : Instr} {w : Wrd} {s t : State} {act : State → Act Unit} (ha : acts w s = true)
  (hi : exec i s = word w (actingRep w act) s)
include ha

/-- In its slot the repetition of a word that acts is its act. -/
theorem actingRep_of_acts : actingRep w act (atSlot w s) = act (atSlot w s) (atSlot w s) := by
  obtain ⟨-, hon⟩ := acts_iff.1 ha
  rw [actingRep, act_bind, act_get]
  simp only [hon, Bool.false_eq_true, if_false]

include hi

theorem acting_runs (hk : act (atSlot w s) (atSlot w s) = .ok ((), t)) : Runs i w s t :=
  word_runs hi (acts_iff.1 ha).1 ((actingRep_of_acts ha).trans hk)

theorem acting_waits {c : Nat} (hk : act (atSlot w s) (atSlot w s) = .error (.stall c t)) :
    exec i s = .next (waiting c t) :=
  word_waits hi (acts_iff.1 ha).1 ((actingRep_of_acts ha).trans hk)

/-- A fault of the slot's state is taken in the state before the slot. -/
theorem acting_faults {f : FaultInfo} (hf : f.keep = false)
    (hk : act (atSlot w s) (atSlot w s) = .error (.fault f (atSlot w s))) : exec i s = .next (takeFault f s) := by
  rw [hi, word_stops (acts_iff.1 ha).1 ((actingRep_of_acts ha).trans hk), stopped_fault_atSlot w s hf]

end

/-! ### Leases and the format table (R138, R154, R157, R182) -/

/-- Settles O30: a case for each lease that the core may hold, and the check of the entry that `fmtld` loads. -/
theorem leaseAndFormatWords : Obligations.LeaseAndFormatWords := by
  unfold Obligations.LeaseAndFormatWords
  refine ⟨fun w s ha => ⟨fun hheld => ?held, fun hheld hsingle hown hpair => ?exchange,
      fun hother hnarrow hseq => ?request, fun hother hnarrow hseq hfree hclose => ?timed, ?free⟩,
    fun w s ha => ⟨fun hvalid => ?load, fun hbad => ?bad, ?select⟩⟩
  case held =>
    refine acting_runs ha rfl ?_
    rw [if_pos hheld]
    rfl
  case exchange =>
    refine acting_runs ha rfl ?_
    rw [if_neg (by simp [hheld, hsingle]), if_pos hheld, hown, hpair]
    rfl
  case request =>
    refine acting_waits ha rfl ?_
    rw [if_neg hother, if_neg hnarrow, if_neg hseq]
    rfl
  case timed =>
    refine acting_runs ha rfl ?_
    rw [if_neg hother, if_neg hnarrow, if_pos hseq, hfree, hclose]
    rfl
  case free => exact acting_runs ha rfl rfl
  case load =>
    refine acting_runs ha rfl ?_
    rw [hvalid]
    rfl
  case bad =>
    refine acting_faults ha rfl rfl ?_
    rw [hbad]
    rfl
  case select => exact acting_runs ha rfl rfl

end Sys2Proof.Machine

namespace Sys2Proof.Machine

open Sys2Proof

/-! ### Checks that pass -/

theorem raiseIf_ok {c : Bool} (h : c = false) (n : Nat) (s : State) : raiseIf c n s = .ok ((), s) := by
  rw [h, act_raiseIf_false]

/-- The core holds the lease that a word needs (R138). -/
theorem needLease_ok {wide : Bool} {s : State} (hheld : s.cc.lease ≠ none)
    (hwide : wide = true → s.cc.lease = some true) : needLease wide s = .ok ((), s) := by
  rw [needLease, act_bind, act_get]
  refine raiseIf_ok ?_ _ _
  cases wide with
  | false => simpa [Option.isSome_iff_ne_none] using hheld
  | true => simp [hwide rfl]

/-! ### Loads of a bank (R145, R155, R156) -/

theorem bldRep_ok {w : Wrd} {t t1 t2 : State} {rows : List (List Byte)} (hon : guardOff w t = false) (hok : bldOk w t)
    (hturn : needTurn t = .ok ((), t1))
    (hrows : readRows (bit w.mod 7) (bits w.off 7 0) (bldArgs w t).base (bldArgs w t).pitch (bldArgs w t).bytes
      ((bldArgs w t).rows - t.cs.prog) t.cs.prog t1 = .ok ((rows, none), t2)) :
    bldRep w t = .ok ((), afterOf turnDone (bldDone w t rows t2)) := by
  obtain ⟨hheld, hwide, hsplit, hcols, hbase, hpitch, hbytes⟩ := hok
  unfold bldRep
  rw [act_bind, act_get]
  simp only [hon, Bool.false_eq_true, if_false, beq_iff_eq]
  refine (act_bind_ok (needLease_ok hheld fun h => hwide (of_decide_eq_true h))).trans
    ((act_bind_ok (raiseIf_ok ?split _ _)).trans ((act_bind_ok (raiseIf_ok ?cols _ _)).trans
    ((act_bind_ok (raiseIf_ok ?address _ _)).trans ((act_bind_ok hturn).trans ((act_bind_ok hrows).trans ?fill)))))
  case split => simpa using hsplit
  case cols => exact decide_eq_false (Nat.not_lt.2 hcols)
  case address => simpa [bldArgs, and_assoc] using ⟨hbase, hpitch, hbytes⟩
  case fill =>
    unfold bldDone
    cases rows with
    | nil => exact turnDone_ok _
    | cons r l => exact (act_bind_ok (act_change _ _)).trans (turnDone_ok _)

theorem sldRep_ok {w : Wrd} {blk : Bool} {t t1 t2 : State} {data : List Byte} (hon : guardOff w t = false)
    (hok : sldOk w blk t) (hturn : takeTurn t = .ok ((), t1))
    (hdata : readRow (bit w.mod 7) (bits w.off 7 0) (sldArgs w blk t).base (sldArgs w blk t).bytes t1 =
      .ok (data, t2)) :
    sldRep w blk t = .ok ((), afterOf turnDone (sldDone w blk t data t2)) := by
  obtain ⟨hheld, hwide, hcols, hgroup⟩ := hok
  unfold sldRep
  rw [act_bind, act_get]
  simp only [hon, Bool.false_eq_true, if_false, beq_iff_eq]
  refine (act_bind_ok (needLease_ok hheld fun h => hwide (of_decide_eq_true h))).trans
    ((act_bind_ok (raiseIf_ok ?cols _ _)).trans ((act_bind_ok (raiseIf_ok ?group _ _)).trans
    ((act_bind_ok hturn).trans ((act_bind_ok hdata).trans ((act_bind_ok (act_change _ _)).trans (turnDone_ok _))))))
  case cols => exact decide_eq_false (Nat.not_lt.2 hcols)
  case group => simpa [sldArgs] using hgroup

/-- Settles O31: where the checks pass and the turn has come, the rows that are read fill the bank. -/
theorem bankLoads : Obligations.BankLoads := by
  unfold Obligations.BankLoads
  intro w s hopen hon t
  refine ⟨fun t1 rows t2 hok hturn hrows => ?_, fun r hr t1 data t2 hok hturn hdata => ?_⟩
  · exact word_runs rfl hopen (bldRep_ok hon hok hturn hrows)
  · simp only [List.mem_cons, List.not_mem_nil, or_false] at hr
    rcases hr with rfl | rfl
    · exact word_runs rfl hopen (sldRep_ok hon hok hturn hdata)
    · exact word_runs rfl hopen (sldRep_ok hon hok hturn hdata)

end Sys2Proof.Machine

namespace Sys2Proof.Machine

open Sys2Proof

/-! ### Checks of a chain (R146, R147, R160 to R163) -/

/-- A part that changes nothing at any element changes nothing along a list. -/
theorem forM_ok {α : Type} {a : α → Act PUnit} {l : List α} {s : State} (h : ∀ x ∈ l, a x s = .ok ((), s)) :
    l.forM a s = .ok ((), s) := by
  induction l with
  | nil => rfl
  | cons x r ih =>
    obtain ⟨hx, hr⟩ := List.forall_mem_cons.1 h
    exact (act_bind_ok hx).trans (ih hr)

/-- A part that changes nothing where it completes is passed without effect. -/
theorem check_ok {a : Act Unit} (hleaves : Leaves id a) {s : State} (hok : okB a s = true) : a s = .ok ((), s) := by
  rw [act_of_okB hok, show afterOf a s = s from hleaves.afterOf s]

theorem leaves_linkTrap (live : Bool) (d : ChainDesc) (h : Hop) : Leaves id (linkTrap live d h) := by
  unfold linkTrap
  refine leaves_bind leaves_get fun s => ?_
  dsimp only
  split
  · exact leaves_raise _
  · exact leaves_pure _

/-- The check of a hop's owners has no effect. -/
theorem linkTrap_ok {live : Bool} {d : ChainDesc} {h : Hop} {s : State} (hok : okB (linkTrap live d h) s = true) :
    linkTrap live d h s = .ok ((), s) := check_ok (leaves_linkTrap live d h) hok

theorem frozenTrap_ok {x : Chain} (h : x.state ≠ 4) (ch hop : Nat) (s : State) :
    frozenTrap x ch hop s = .ok ((), s) := by
  rw [frozenTrap, if_neg h]
  rfl

theorem slotsFree_ok {ch : Nat} {d : ChainDesc} {hs : List Hop} {s : State}
    (h : ∀ y ∈ hs, okB (linkTrap false d y) s = true ∧
      ∀ x ∈ hopLinks s d y, slotReady s s.cc.launch ch y.die x = true) :
    slotsFree ch d hs s = .ok ((), s) := by
  refine forM_ok fun y hy => ?_
  obtain ⟨howner, hready⟩ := h y hy
  refine (act_bind_ok (linkTrap_ok howner)).trans ?_
  rw [act_bind, act_get]
  exact raiseIf_ok (by simpa using hready) _ _

/-- A command that changes the state by `f` in its turn. -/
theorem inTurn_ok {t u : State} (hturn : takeTurn t = .ok ((), u)) (f : State → State) :
    (do
      takeTurn
      change f
      turnDone : Act Unit) t = .ok ((), afterOf turnDone (f u)) :=
  (act_bind_ok hturn).trans ((act_bind_ok (act_change f u)).trans (turnDone_ok _))

section

variable {w : Wrd} {s : State} (ha : acts w s = true)
include ha

theorem chbuild_runs {d : ChainDesc} {clean : Bool} (halign : (regVal (atSlot w s) w.sa).toNat % 16 = 0)
    (hdesc : readDesc (atSlot w s).cc ((regVal (atSlot w s) w.sa).toNat % 2 ^ (atSlot w s).cc.scr) = (d, clean))
    (hfree : chainFree (bits w.imm 4 0) d clean (atSlot w s)) :
    Runs (.chbuild w) w s (chainBuilt (bits w.imm 4 0) d (atSlot w s)) := by
  obtain ⟨hvalid, hunbarred, hstreams, hslots⟩ := hfree
  refine acting_runs ha rfl ((act_bind_ok (raiseIf_ok ?align _ _)).trans ?desc)
  case align => simp [halign]
  case desc =>
    rw [hdesc]
    refine (act_bind_ok (raiseIf_ok ?valid _ _)).trans ((act_bind_ok (raiseIf_ok ?unbarred _ _)).trans
      ((act_bind_ok (raiseIf_ok ?streams _ _)).trans (act_bind_ok (slotsFree_ok hslots))))
    case valid => simp [hvalid]
    case unbarred => simpa using hunbarred
    case streams => simpa using hstreams

theorem mclose_runs {h : Hop} {runs : List Chunk} {t1 t2 : State} (hok : closeOk (bits w.imm 4 0) h (atSlot w s)) :
    let t := atSlot w s
    let d := (t.myChain (bits w.imm 4 0)).desc
    let a := (regVal t w.sa).toNat
    let pitch := (regVal t w.sb).toNat
    let n := packedBytes (bits w.mod 7 5) d.cols
    let len := d.mt * pitch + n
    pitch % 64 = 0 → n ≤ pitch → a % 64 = 0 →
    (if bit w.imm 5 then resolveRange (bits w.off 7 0) 1 (len / 65536 + 2) 0 a len t else .ok ([], t)) =
      .ok (runs, t1) →
    takeTurn t1 = .ok ((), t2) → Runs (.mclose w) w s (afterOf turnDone (closeAsked w runs t t2)) := by
  intro t d a pitch n len hpitch hroom hdest hruns hturn
  obtain ⟨hheld, hstate, hlast, hhere, howner, hwide⟩ := hok
  have hhop : d.hops[d.hops.length - 1]? = some h := List.getLast?_eq_getElem?.symm.trans hlast
  refine acting_runs ha rfl ((act_bind_ok (needLease_ok hheld (by simp))).trans
    ((act_bind_ok (frozenTrap_ok (by simp [hstate]) _ _ _)).trans ((act_bind_ok (raiseIf_ok ?state _ _)).trans ?hop)))
  case state => simp [hstate]
  case hop =>
    dsimp only
    rw [hhop]
    refine (act_bind_ok (raiseIf_ok ?here _ _)).trans ((act_bind_ok (linkTrap_ok howner)).trans
      ((act_bind_ok (needLease_ok hheld (by simpa using hwide))).trans
      ((act_bind_ok (raiseIf_ok ?address _ _)).trans ?place)))
    case here => simp [hhere]
    case address => simpa [and_assoc] using ⟨hpitch, hroom, hdest⟩
    case place =>
      split
      · rename_i hmem
        rw [if_pos hmem] at hruns
        exact (act_bind_ok hruns).trans (inTurn_ok hturn _)
      · rename_i hmem
        rw [if_neg hmem] at hruns
        obtain ⟨hnone, hsame⟩ : [] = runs ∧ t = t1 := by simpa using hruns
        rw [← hsame] at hturn
        rw [← hnone]
        exact inTurn_ok hturn _

theorem mzero_runs (hok : zeroOk (bits w.imm 4 0) (atSlot w s)) :
    Runs (.mzero w) w s (chainZeroed (bits w.imm 4 0) (atSlot w s)) := by
  obtain ⟨hstate, hflight, hhops⟩ := hok
  have hfrozen : ((atSlot w s).myChain (bits w.imm 4 0)).state ≠ 4 := by omega
  refine acting_runs ha rfl ((act_bind_ok (frozenTrap_ok hfrozen _ _ _)).trans
    ((act_bind_ok (raiseIf_ok ?state _ _)).trans ((act_bind_ok (forM_ok fun h hh => ?hop)).trans ?zero)))
  case state => rcases hstate with h | h <;> simp [h]
  case hop =>
    obtain ⟨howner, hslots, hstream⟩ := hhops h hh
    refine (act_bind_ok (linkTrap_ok howner)).trans ?_
    rw [act_bind, act_get]
    refine (act_bind_ok (raiseIf_ok ?slots _ _)).trans (raiseIf_ok ?stream _ _)
    case slots =>
      refine List.any_eq_false.2 fun y hy => ?_
      obtain ⟨hmine, halive⟩ := hslots y hy
      rcases hmine with hidle | hholds
      · simp [hidle, halive]
      · simp [hholds, halive]
    case stream => simpa using hstream
  case zero =>
    rw [if_neg (by simp [hflight])]
    rfl

theorem chstat_runs (hok : ∀ h, ((atSlot w s).myChain (bits w.imm 4 0)).desc.hops[bits w.imm 8 5]? = some h →
      ((atSlot w s).myChain (bits w.imm 4 0)).live = true →
      okB (linkTrap true ((atSlot w s).myChain (bits w.imm 4 0)).desc h) (atSlot w s) = true) :
    Runs (.chstat w) w s
      (issuedReg w.dst (chstatWord (atSlot w s) (bits w.imm 4 0) (bits w.imm 8 5)) 2 (atSlot w s)) := by
  refine acting_runs ha rfl ?_
  dsimp only
  cases hhop : ((atSlot w s).myChain (bits w.imm 4 0)).desc.hops[bits w.imm 8 5]? with
  | none => exact act_writeReg _ _ _ _
  | some h =>
    dsimp only
    split
    · rename_i hlive
      exact (act_bind_ok (linkTrap_ok (hok h hhop hlive))).trans (act_writeReg _ _ _ _)
    · exact act_writeReg _ _ _ _

end

/-- Settles O34: each word's checks pass without effect, and then it does what the statement names. -/
theorem chainWords : Obligations.ChainWords := by
  unfold Obligations.ChainWords
  intro w s ha t ch a
  refine ⟨fun d clean halign hdesc hfree => ?_, fun h runs t1 t2 hok => ?_, fun hok => ?_, fun hok => ?_⟩
  · exact chbuild_runs ha halign hdesc hfree
  · exact mclose_runs ha hok
  · exact mzero_runs ha hok
  · exact chstat_runs ha hok

end Sys2Proof.Machine

namespace Sys2Proof.Machine

open Sys2Proof

/-! ### Deadlock (R171) -/

/-- A core under slip none of whose streams can go on, and to which nothing is still to arrive, is deadlocked. -/
theorem deadlocked_of {s : State} {c : Nat} (hmode : (s.core c).mode = .running) (hslip : s.seqn c = .slip)
    (hloads : ∀ q ∈ (s.core c).lq.vals, ∀ e ∈ q.entries, e.valid = true)
    (hstores : ∀ q ∈ (s.core c).sq.vals, ∀ e ∈ q.entries, e.slices = 15 → e.valid = true)
    (hstuck : ∀ e ∈ (s.core c).inUse,
      ((s.core c).stream e).wait = 10 ∨ ((s.core c).stream e).stuck (s.core c).moves = true)
    (hlive : ∃ e ∈ (s.core c).inUse, ((s.core c).stream e).wait ≠ 10 ∧ ((s.core c).stream e).wait ≠ 6) :
    deadlocked s c = true := by
  have hwaits : ∀ e ∈ (s.core c).inUse, ((s.core c).stream e).wait ≠ 10 →
      ((s.core c).stream e).stuck (s.core c).moves = true := fun e he h10 => (hstuck e he).resolve_left h10
  have hsealed : ∀ q ∈ (s.core c).sq.vals, ∀ e ∈ q.entries, e.valid = true ∨ ¬ e.slices = 15 :=
    fun q hq e he => (Decidable.em (e.slices = 15)).imp_left (hstores q hq e he)
  obtain ⟨e, he, h10, h6⟩ := hlive
  simp only [deadlocked, Bool.and_eq_true, beq_iff_eq, Bool.not_eq_true', List.isEmpty_eq_false_iff_exists_mem,
    List.all_eq_true, List.any_eq_true, List.mem_filter, List.mem_map, bne_iff_ne, Bool.or_eq_true, ne_eq]
  refine ⟨⟨⟨⟨⟨⟨hmode, hslip⟩, ?_⟩, ?_⟩, ?_⟩, hloads⟩, hsealed⟩
  · exact ⟨_, ⟨e, he, rfl⟩, h10⟩
  · rintro _ ⟨⟨d, hd, rfl⟩, hd10⟩
    exact hwaits d hd hd10
  · exact ⟨_, ⟨⟨e, he, rfl⟩, h10⟩, h6⟩

/-! ### The delivery of a fault (R345, R346) -/

theorem csrLaunch_priv (priv win ymax : Nat) (seed : Dword) :
    (csrLaunch priv win ymax seed).get 0 0 = BitVec.ofNat 64 priv := by
  simp [csrLaunch, Tbl.get_put]

theorem csrLaunch_win (priv win ymax : Nat) (seed : Dword) :
    (csrLaunch priv win ymax seed).get 0 1 = BitVec.ofNat 64 win := by
  simp [csrLaunch, Tbl.get_put]

theorem loaded_stream_zero_pc (k : Core) (priv : Nat) (l : Launch) :
    ((k.loaded priv l).stream 0).pc = l.code.entry := by
  simp [Core.loaded, Core.stream, span, Tbl.get_put, entryStream]

/-- The core on which a handler starts runs at supervisor level from its entry, with its save area in a0 and FSTAT in
a1. -/
theorem handlerCore_values (k : Core) (f : Frame) (h : Nat) {hl : Launch} (area : Option Nat) (va : Dword) (now : Nat)
    (htt : hl.nest.tt = false) (hwin : hl.nest.win = 0) :
    let x := handlerCore k f h hl area va now
    x.mode = .running ∧ x.csrN 0 = 1 ∧ x.csrN 1 = 0 ∧ x.a.get 0 1 = BitVec.ofNat 64 (fstat f) ∧
      x.a.get 0 0 = va ∧ (x.stream 0).pc = hl.code.entry ∧ (∀ i, 2 ≤ i → x.a.get 0 i = 0) ∧
      x.served.isSome = true := by
  refine ⟨rfl, csrLaunch_priv _ _ _ _, ?win, ?a1, ?a0, ?pc, ?rest, rfl⟩
  case win =>
    refine (csrLaunch_win _ _ _ _).trans ?_
    rw [htt, hwin]
    rfl
  case a1 => exact Tbl.get_put_same _ _ _ _
  case a0 => exact (Tbl.get_put_other _ _ _ (by decide)).trans (Tbl.get_put_same _ _ _ _)
  case pc => exact loaded_stream_zero_pc _ 1 hl
  case rest =>
    intro i hi
    exact (Tbl.get_put_other _ _ _ (by omega)).trans (Tbl.get_put_other _ _ _ (by omega))

/-- A handler starts on the core whose fault is delivered. -/
theorem startHandler_values (c : Nat) (f : Frame) (sup : Sup) (s : State) :
    let k := (startHandler c f sup s).core c
    k.mode = .running ∧ k.csrN 0 = 1 ∧ k.csrN 1 = 0 ∧ k.a.get 0 1 = BitVec.ofNat 64 (fstat f) ∧
      k.a.get 0 0 = (s.ctx (s.launch (s.core c).launch).ctx).coreVa.get 0 c ∧ (k.stream 0).pc = sup.code.entry ∧
      (∀ i, 2 ≤ i → k.a.get 0 i = 0) ∧ k.served.isSome = true := by
  rw [startHandler, State.core_setCore_same]
  exact handlerCore_values _ _ _ _ _ _ rfl rfl

section

variable {s : State} {c : Nat} {f : Frame} (hmode : (s.core c).mode = .faulted) (hframe : (s.core c).frame = some f)
  (hsettled : (s.core c).settled = true)
include hmode hframe hsettled

theorem deliverFault_to_handler {sup : Sup} (hsup : s.sup = some sup) (hpriv : f.priv = 0)
    (huser : (s.launch (s.core c).launch).handler = false) (hroom : coreAreaRoom s (s.core c).launch c = true) :
    deliverFault c s = startHandler c f sup s := by
  simp [deliverFault, hmode, hframe, hsettled, hsup, hpriv, huser, hroom]

/-- A fault of supervisor level, or of a device without a supervisor, ends the launch (log 5). -/
theorem deliverFault_ends_launch (hend : s.sup = none ∨ f.priv ≠ 0 ∨ (s.launch (s.core c).launch).handler = true) :
    deliverFault c s = stopFault c f s := by
  cases hsup : s.sup with
  | none => simp [deliverFault, hmode, hframe, hsettled, hsup]
  | some sup =>
    have hlevel : f.priv ≠ 0 ∨ (s.launch (s.core c).launch).handler = true := hend.resolve_left (by simp [hsup])
    simp [deliverFault, hmode, hframe, hsettled, hsup, hlevel]

end

/-! ### Waits that end (R306, R324) -/

theorem staleHalo_expired {s : State} {c n : Nat} {w : Wrd} (hhold : ((s.core c).stream 0).hold = .halo n)
    (hmode : (s.core c).mode = .running)
    (hword : fetchAt (s.at c 0).cl.code (s.at c 0).cs.bank (s.at c 0).cs.pc = some (.ldgs w))
    (hwait : ((s.core c).csrN 0x030).toNat ≤ n) (htag : tagHeld w (s.at c 0) = false) :
    staleHalo c s = takeFault { code := 0x1A } (s.at c 0) := by
  have hexpired : haloExpired (s.at c 0) = true := by
    have hcs : (s.at c 0).cs.hold = .halo n := hhold
    have hcc : ((s.at c 0).cc.csrN 0x030).toNat ≤ n := hwait
    simp [haloExpired, hcs, hcc]
  simp [staleHalo, hword, hmode, hexpired, htag]

theorem exec_waitcTargetReached (c e : Nat) (s : State) :
    exec (.waitcTargetReached c e) s = execWaitcTargetReached c e s := rfl

/-! ### Closes (R150, R152) -/

/-- The state after a close of chain entry `x`: the tile written, the chain closed, its slots and streams given back,
and the number of the close completed (R150, R152). -/
def closeDone (l ch : Nat) (q : CloseReq) (h : Hop) (x : Chain) (s : State) : State :=
  let t := closeTile s x.desc h q
  let u := (t.1.zipIdx.map fun r => (r.2, r.1)).foldl (closeRow l q) s
  completeNumber l q.core 3 q.num (noteClose l q.core q.num (unbind l x.desc (idleLinks l (ch % 32) x.desc
    (setChain l (ch % 32) { x with state := 3, close := none, flags := BitVec.ofNat 5 t.2 } u))))

/-- A close whose tail is ready, whose number comes next and whose writes have room is performed. -/
theorem doClose_due {s : State} {l ch : Nat} {x : Chain} {q : CloseReq} {h : Hop} {y : Link} {r : List Link}
    (hx : s.chain l (ch / 32) (ch % 32) = x) (hstate : x.state = 2) (hclose : x.close = some q)
    (hlast : x.desc.hops[x.desc.hops.length - 1]? = some h) (hlinks : hopLinks s x.desc h = y :: r)
    (hready : y.state = 4) (hheld : hopHeld s l (ch % 32) (x.desc.hops.length - 1) x.desc h = true)
    (hnum : q.num = (s.ctxCore l q.core).closeNum + 1) (hclock : s.clk.hold = false) (hctx : ctxRoom s l q.core = true)
    (hmem : q.mem = true → opRoom s q.runs = true ∧ runsMove s q.runs = false) :
    doClose l ch s = closeDone l ch q h x s := by
  have hroom : (!q.mem || (opRoom s q.runs && !runsMove s q.runs)) = true := by
    cases hq : q.mem with
    | false => rfl
    | true => simp [hmem hq]
  unfold doClose
  simp only [hx, hstate, hclose, hlast, beq_self_eq_true]
  rw [if_pos (by simp [hlinks, hready, hheld, hnum, hclock, hctx, hroom])]
  rfl

/-- Settles O43: each step finds its conditions met, and does what the statement names. -/
theorem eventsOfCoresAndChains : Obligations.EventsOfCoresAndChains := by
  unfold Obligations.EventsOfCoresAndChains
  intro s hon
  have hstep (f : State → State) : agentStep f s = .next (f s) := agentStep_on hon f
  refine ⟨?deadlock, ?delivery, ?cycle, ?halo, ?lease, ?arrival, ?close, ?failure⟩
  case deadlock =>
    intro c hmode hslip hloads hstores hstuck hlive
    refine (hstep _).trans ?_
    rw [deadlocked_of hmode hslip hloads hstores hstuck hlive]
    rfl
  case delivery =>
    intro c f hmode hframe hsettled
    refine ⟨fun sup hsup hpriv huser hroom => ⟨?_, startHandler_values c f sup s⟩, fun hend => ?_⟩
    · rw [← deliverFault_to_handler hmode hframe hsettled hsup hpriv huser hroom]
      exact hstep _
    · refine (hstep _).trans ?_
      rw [deliverFault_ends_launch hmode hframe hsettled hend]
      rfl
  case cycle =>
    intro c e target acq hhold hmode htarget
    rw [exec_waitcTargetReached, execWaitcTargetReached, hstep]
    simp [hhold, hmode, htarget]
  case halo =>
    intro c n w hhold hmode hword hwait htag
    rw [← staleHalo_expired hhold hmode hword hwait htag]
    exact hstep _
  case lease =>
    intro b c hnext
    refine (hstep _).trans ?_
    rw [grantLease, hnext]
  case arrival =>
    intro p h hp hhop hheld
    refine (hstep _).trans ?_
    simp only [arrivePartial, hp, hhop, hheld, if_true]
  case close =>
    intro l ch q h y r x last hstate hclose hlast hlinks hready hheld hnum hclock hctx hmem
    refine (hstep _).trans ?_
    rw [doClose_due rfl hstate hclose hlast hlinks hready hheld hnum hclock hctx hmem]
    rfl
  case failure =>
    intro b i hused
    refine (hstep _).trans ?_
    rw [failLink, if_neg hused]

end Sys2Proof.Machine

namespace Sys2Proof.Machine

open Sys2Proof

/-! ### Words with an end of their own (R34, R168) -/

section

variable {i : Instr} {w : Wrd} {s t : State} {body fin : Act Unit} (ho : slotOpen w s = true) (hfin : Total fin)
  (hb : body (atSlot w s) = .ok ((), t))
include ho hfin hb

/-- A word whose repetition completes goes on with its own end. -/
theorem issueWord_runsTo (hi : exec i s = issueWord (slot w body fin) s) : RunsTo i w fin s t := by
  obtain ⟨-, -, hentry, hrep⟩ := slotOpen_iff.1 ho
  exact hi.trans ((issueWord_of_open ho).trans (congrArg Host.Outcome.next (settle_slot hfin hb hentry hrep)))

/-- The same for a word after which the agreement logs are compared. -/
theorem issueWord_comparesTo (hi : exec i s = issueWord (do slot w body fin; compareAfter) s) :
    ComparesTo i w fin s t := by
  have hslot : (do slot w body fin; compareAfter) s = (do slotExit w fin; compareAfter) t := by
    rw [act_bind, act_bind, slot_at ho, act_bind_ok hb]
  have hkeeps : Keeping (do slotExit w fin; compareAfter) := by
    refine keeping_bind (keeping_slotExit w hfin) fun _ => keeping_total fun x => ?_
    rw [compareAfter, act_bind, act_get]
    dsimp only
    split <;> exact ⟨_, rfl⟩
  refine hi.trans ((issueWord_of_open ho).trans (congrArg Host.Outcome.next ?_))
  unfold settle
  rw [hslot]
  cases hx : (do slotExit w fin; compareAfter) t with
  | ok r => rfl
  | error e =>
    have hkeep := hkeeps t e hx
    cases e with
    | stall c x => rfl
    | fault f x => simp [stopped, show f.keep = true from hkeep]

end

/-! ### The end of a part of an iteration (R180, R204) -/

theorem nextWord_completes (x : State) : nextWord x = .ok ((), afterOf nextWord x) := by
  obtain ⟨t, ht⟩ := total_nextWord x
  rw [afterOf_ok ht, ht]

theorem finEndit_ok (w : Wrd) (x : State) : finEndit w x = .ok ((), enditState w x) := by
  rw [finEndit, act_bind, act_get]
  dsimp only
  rw [act_bind_ok (nextWord_completes x)]
  unfold enditState wordOff
  cases scalarOn w x with
  | false => rfl
  | true =>
    simp only [Bool.not_true, Bool.false_eq_true, if_false, if_true]
    rw [act_bind_ok (act_changeStream _ _), act_bind, act_get]
    dsimp only
    split <;> rfl

/-- The slot of `endit`: a part that ends waits for the data of pending loads, which are there. -/
theorem enditSlot_ok {w : Wrd} {t : State} (h : scalarOn w t = false ∨ t.cc.pendReady = true) :
    (do let s ← get; if wordOff w s then pure () else needPends : Act Unit) t = .ok ((), t) := by
  rw [act_bind, act_get]
  dsimp only
  unfold wordOff needPends
  cases hon : scalarOn w t with
  | false => rfl
  | true => simp [h.resolve_left (by simp [hon])]

/-! ### The event latch (R206, R207) -/

theorem wfeSlot_ok {w : Wrd} {t : State}
    (h : scalarOn w t = false ∨ t.cs.latch = true ∨ t.seqn t.cur.core ≠ .timed) :
    wfeSlot w t = .ok ((), wfeState w t) := by
  rw [wfeSlot, act_bind, act_get]
  dsimp only
  unfold wordOff wfeState
  cases hon : scalarOn w t with
  | false => rfl
  | true =>
    cases hlatch : t.cs.latch with
    | true => rfl
    | false =>
      have huntimed : (t.seqn t.cur.core == Seqn.timed) = false := by simpa [hon, hlatch] using h
      rw [huntimed]
      rfl

theorem finWfe_ok (x : State) : finWfe x = .ok ((), wfeHeld x) := by
  rw [finWfe, act_bind_ok (nextWord_completes x), act_changeStream, wfeHeld]

/-- What `sev` does in its slot. -/
theorem sevSlot_ok (w : Wrd) (t : State) :
    (do
      let s ← get
      if wordOff w s then pure ()
      else
        let msg := if bit w.mod 2 then some (regVal s w.sb) else none
        change fun s => (sevTargets w s).foldl (sendSev msg) s : Act Unit) t =
      .ok ((), if scalarOn w t then
        (sevTargets w t).foldl (sendSev (if bit w.mod 2 then some (regVal t w.sb) else none)) t else t) := by
  rw [act_bind, act_get]
  dsimp only
  unfold wordOff
  cases scalarOn w t <;> rfl

@[simp] theorem setLatches_mbx (wcyc : Nat) (msg : Option Dword) (k : Core) :
    (setLatches wcyc msg k).mbx = msg.getD k.mbx := rfl

/-- A set reaches the latch of each engine. -/
theorem setLatches_stream (wcyc : Nat) (msg : Option Dword) (k : Core) {e : Nat} (he : e < 4) :
    (setLatches wcyc msg k).stream e = (k.stream e).setLatch wcyc k.moves := by
  have hengine : e = 0 ∨ e = 1 ∨ e = 2 ∨ e = 3 := by omega
  rcases hengine with rfl | rfl | rfl | rfl <;>
    simp [setLatches, span, Core.stream, Core.setStream, Tbl.get_put]

/-- A core's own set is there with the word. -/
theorem sendSev_own (msg : Option Dword) (x : State) :
    (sendSev msg x x.cur.core).cc = setLatches x.clk.wcyc msg x.cc := by
  have hown : (x.core x.cur.core).launch = x.cc.launch := rfl
  simp [sendSev, setCtxLatches, State.onCtxCore, hown, State.cc]

/-- A set ends the wait of a held engine, and leaves its latch clear. -/
theorem setLatch_of_held {t : Stream} (wcyc moves : Nat) (h : t.hold = .latch ∨ t.hold = .wfe) :
    (t.setLatch wcyc moves).hold = .woken wcyc moves ∧ (t.setLatch wcyc moves).latch = false := by
  rcases h with h | h <;> simp [Stream.setLatch, h]

/-- A set that ends no wait, and is not the one that has just ended one, leaves the latch set. -/
theorem setLatch_of_not_held {t : Stream} {wcyc moves : Nat} (hlatch : t.hold ≠ .latch) (hwfe : t.hold ≠ .wfe)
    (hwoken : t.hold ≠ .woken wcyc moves) : (t.setLatch wcyc moves).latch = true := by
  unfold Stream.setLatch
  split
  · exact absurd ‹_› hlatch
  · exact absurd ‹_› hwfe
  · rename_i c m hold
    have hother : (c == wcyc && m == moves) = false := by simpa using fun hc hm => hwoken (by rw [hold, hc, hm])
    simp [hother]
  · rfl

/-- Settles O16: each word's slot completes and its end is total, and a core's own set is `setLatch` of each engine. -/
theorem endsAndEvents : Obligations.EndsAndEvents := by
  unfold Obligations.EndsAndEvents
  intro w s hopen t
  refine ⟨fun hpend => ⟨?endit, finEndit_ok w⟩, fun hset => ⟨?wfe, finWfe_ok⟩, ?sev, fun msg x e he => ?own⟩
  case endit => exact issueWord_comparesTo hopen (fun x => ⟨_, finEndit_ok w x⟩) (enditSlot_ok hpend) rfl
  case wfe => exact issueWord_runsTo hopen (fun x => ⟨_, finWfe_ok x⟩) (wfeSlot_ok hset) rfl
  case sev => exact word_runs rfl hopen (sevSlot_ok w t)
  case own =>
    intro y
    have hy : y = setLatches x.clk.wcyc msg x.cc := sendSev_own msg x
    have hstream : y.stream e = (x.cc.stream e).setLatch x.clk.wcyc x.cc.moves := by rw [hy, setLatches_stream _ _ _ he]
    rw [hstream]
    exact ⟨by rw [hy, setLatches_mbx], setLatch_of_held _ _, setLatch_of_not_held⟩

end Sys2Proof.Machine

namespace Sys2Proof.Tbl

/-- An entry of a table whose values are changed. -/
theorem get?_mapVals {α β : Type} (t : Tbl α) (f : Nat → α → β) (k : Nat) :
    (t.mapVals f).get? k = (t.get? k).map (f k) := by
  obtain ⟨l⟩ := t
  unfold mapVals get?
  dsimp only
  induction l with
  | nil => rfl
  | cons e r ih =>
    simp only [List.map_cons, findIn]
    split
    · next h => rw [h, Option.map_some]
    · exact ih

end Sys2Proof.Tbl

namespace Sys2Proof.Machine

open Sys2Proof

/-! ### The rake (R178, R179, R187) -/

/-- A core that an iteration is loaded into runs it, from its launch values. -/
theorem loaded_values (k : Core) (priv : Nat) (l : Launch) {i : Nat} (hi : i < 4) :
    ((k.loaded priv l).stream i).pc = l.code.entry ∧ ((k.loaded priv l).stream i).valid = true := by
  have hengine : i = 0 ∨ i = 1 ∨ i = 2 ∨ i = 3 := by omega
  rcases hengine with rfl | rfl | rfl | rfl <;> simp [Core.loaded, Core.stream, span, Tbl.get_put, entryStream]

/-- The ix registers of an iteration of a raked launch (R178). -/
theorem ixTable_get {n : Nest} (htt : n.tt = false) (i : Nat) {l : Nat} (hl : l < 4) :
    (ixTable n i).get 0 l = ixValue n i l := by
  have hlevel : l = 0 ∨ l = 1 ∨ l = 2 ∨ l = 3 := by omega
  rcases hlevel with rfl | rfl | rfl | rfl <;> simp [ixTable, span, Tbl.get_put, htt]

/-- The core that an iteration is handed to stays in its launch, and runs from the launch values. -/
theorem loadIteration_values {n : Nat} {s : State} {l : Launch} (hl : s.launch n = l) (htt : l.nest.tt = false)
    (i c : Nat) :
    let k := (loadIteration n i s c).core c
    k.mode = .running ∧ k.launch = (s.core c).launch ∧ k.iter = i ∧
      ∀ j, j < 4 → k.ix.get 0 j = ixValue l.nest i j ∧ (k.stream j).pc = l.code.entry ∧
        (k.stream j).valid = true := by
  intro k
  have hk : k = { ((s.core c).loaded 0 l) with ix := ixTable l.nest i, iter := i, iterStart := s.clk.scyc } := by
    rw [← hl]
    exact State.core_setCore_same _ _ _
  rw [hk]
  exact ⟨rfl, rfl, rfl, fun j hj => ⟨ixTable_get htt i hj, loaded_values (s.core c) 0 l hj⟩⟩

@[simp] theorem loadIteration_launch (n i : Nat) (s : State) (c m : Nat) :
    (loadIteration n i s c).launch m = s.launch m := rfl

/-- The core that is served next is one of the launch's own. -/
theorem nextFree_launch {s : State} {n : Nat} {l : Launch} {c : Nat} (h : nextFree s n l = some c) :
    (s.core c).launch = n := by
  have hfree : c ∈ l.cores.filter (freeFor s n) := by
    unfold nextFree at h
    dsimp only at h
    split at h
    · exact List.min?_mem h
    · split at h
      · cases h
        exact (List.mem_filter.1 (List.min?_mem ‹_›)).1
      · exact List.min?_mem h
  have hfor := (List.mem_filter.1 hfree).2
  simp only [freeFor, Bool.and_eq_true, beq_iff_eq] at hfor
  exact hfor.1.2

/-- The state in which the rake chooses a core: before its first iteration the launch has started (R179, R215). -/
def raked (n : Nat) (s : State) : State := if (s.launch n).handed = 0 then startLaunch n s else s

section

variable {n : Nat} {s : State} (hrun : (s.launch n).status = .running) (huser : (s.launch n).handler = false)
  (hleft : (s.launch n).handed < (s.launch n).total) (hseal : sealing s = false)
  (hbeds : (s.launch n).handed = 0 → bedsFree s n (s.launch n) = true)
include hrun huser hleft hseal hbeds

/-- The rake hands out what is left of a launch whose beds are free. -/
theorem handOut_due : handOut n s =
    let l := s.launch n
    if l.nest.tt then
      l.cores.foldl (loadIteration n 0)
        ((raked n s).setLaunch n { l with handed := l.total, startCycle := (raked n s).clk.scyc })
    else match nextFree (raked n s) n l with
      | none => raked n s
      | some c => loadIteration n l.handed
          ((raked n s).setLaunch n { l with handed := l.handed + 1, lastServed := some c }) c := by
  unfold handOut
  dsimp only
  rw [if_neg]
  · rfl
  · rintro (h | h | h | h | ⟨h0, h⟩)
    · exact h hrun
    · simp [huser] at h
    · omega
    · simp [hseal] at h
    · simp [hbeds h0] at h

theorem handOut_timed (htt : (s.launch n).nest.tt = true) : handOut n s =
    (s.launch n).cores.foldl (loadIteration n 0) ((raked n s).setLaunch n
      { s.launch n with handed := (s.launch n).total, startCycle := (raked n s).clk.scyc }) := by
  rw [handOut_due hrun huser hleft hseal hbeds]
  exact if_pos htt

theorem handOut_next (htt : (s.launch n).nest.tt = false) {c : Nat}
    (hnext : nextFree (raked n s) n (s.launch n) = some c) : handOut n s =
    loadIteration n (s.launch n).handed ((raked n s).setLaunch n
      { s.launch n with handed := (s.launch n).handed + 1, lastServed := some c }) c := by
  rw [handOut_due hrun huser hleft hseal hbeds]
  dsimp only
  rw [htt, if_neg Bool.false_ne_true, hnext]

end

/-! ### The end of a launch (R180, R193) -/

section

variable {n : Nat} {s : State} (hopen : (s.launch n).closed = false) (huser : (s.launch n).handler = false)
  (hops : opsOpen s n = false)
include hopen huser hops

theorem endLaunch_running (hrun : (s.launch n).status = .running)
    (hended : (s.launch n).total ≤ (s.launch n).ended) (hfaults : faultsOpen s n (s.launch n) = false)
    (hviews : ∀ c ∈ (s.launch n).cores, coreViewsDone s n c = true) :
    endLaunch n s =
      if !(s.launch n).lastRelease then (heldCores s n (s.launch n)).foldl endRelease
        (s.setLaunch n { s.launch n with lastRelease := true })
      else if (heldCores s n (s.launch n)).all fun c => (s.core c).releases.isEmpty then
        closeLaunch n (s.setLaunch n { s.launch n with status := .completed })
      else s := by
  have hall : (s.launch n).cores.all (coreViewsDone s n) = true := List.all_eq_true.2 hviews
  unfold endLaunch
  simp [hopen, huser, hrun, hops, hfaults, hall, Nat.not_lt.2 hended]

theorem endLaunch_stopped {code cause : Nat} {sup : Bool} {info : List Nat}
    (hstop : (s.launch n).status = .stopped code cause sup info)
    (hquiet : ∀ c ∈ heldCores s n (s.launch n), (s.core c).releases = []) : endLaunch n s = closeLaunch n s := by
  have hall : (heldCores s n (s.launch n)).all (fun c => (s.core c).releases.isEmpty) = true :=
    List.all_eq_true.2 fun c hc => List.isEmpty_iff.2 (hquiet c hc)
  unfold endLaunch
  simp [hopen, huser, hstop, hops, hall]

end

/-! ### Pre-emption (R362) -/

section

variable {s : State} {c : Nat} {p : Preempt} (hp : (s.core c).preempt = some p) (hseal : sealing s = false)
  (huser : (s.launch (s.core c).launch).handler = false)
include hp hseal huser

/-- What an attempt on a running core comes to. -/
theorem tryPreempt_running (hmode : (s.core c).mode = .running) : tryPreempt c s =
    if !newAttempt (s.seqn c == .joint) (s.core c) p then s
    else if s.quiet c false then
      if !tokensZero (s.core c) then failAttempt c p.failed s
      else if (s.core c).settled && saveRoom s c then saveCore c s
      else s
    else if waitsInside (s.core c) then failAttempt c p.failed s
    else s := by
  simp [tryPreempt, hp, hseal, huser, hmode]

theorem tryPreempt_resting (hmode : (s.core c).mode = .free ∨ (s.core c).mode = .halted) :
    tryPreempt c s = saveResting c s := by
  rcases hmode with hmode | hmode <;> simp [tryPreempt, hp, hseal, huser, hmode]

end

theorem saveResting_saves {s : State} {c : Nat} (hclose : closeComing s c = false) (hroom : saveRoom s c = true) :
    saveResting c s = saveCore c s := by
  simp [saveResting, hclose, hroom]

theorem saveResting_waits {s : State} {c : Nat} (h : closeComing s c = true ∨ saveRoom s c = false) :
    saveResting c s = s := by
  rcases h with h | h <;> simp [saveResting, h]

/-- That a stream has not yet reached a yield is no part of its mark. -/
theorem wordMarks_unyielded (k : Core) :
    wordMarks { k with streams := k.streams.mapVals fun _ t => { t with yielded := false } } = wordMarks k := by
  have hwords (e : Nat) :
      wordsOf { k with streams := k.streams.mapVals fun _ t => { t with yielded := false } } e = wordsOf k e := by
    simp only [wordsOf, Core.stream, Tbl.get, Tbl.get?_mapVals]
    cases k.streams.get? e <;> rfl
  exact List.map_congr_left fun e _ => by rw [hwords]

theorem failAttempt_core_first {i : Nat} (hi : i < 2) (c : Nat) (s : State) :
    ((failAttempt c i s).core c).preempt = some ⟨i + 1, (s.core c).moves, wordMarks (s.core c)⟩ ∧
      ((failAttempt c i s).core c).mode = (s.core c).mode := by
  rw [failAttempt, if_neg (Nat.not_le.2 hi), State.core_setCore_same]
  exact ⟨by rw [wordMarks_unyielded], rfl⟩

theorem failAttempt_core_third {i : Nat} (hi : 2 ≤ i) (c : Nat) (s : State) :
    ((failAttempt c i s).core c).mode = .faulted ∧ ((failAttempt c i s).core c).frame.map (·.fcode) = some 0x1F := by
  rw [failAttempt, if_pos hi, State.core_setCore_same]
  exact ⟨rfl, rfl⟩

/-! ### Resumption (R364) -/

theorem resumeSaved_next {s : State} {c m : Nat} (hnext : nextSaved s c = some m) (hidle : (s.core c).mode = .idle)
    (hseal : sealing s = false) (hbeds : bedsFree s m (s.launch m) = true) (hlease : leaseWaits s m c = false) :
    resumeSaved c s =
      let u := restoreBed m (s.bedOf c) s
      let k := restoredCore u m c (u.areaOf m c) 15
      takeKept c (resumeCore m c { k with launch := m, preempt := none, iterStart := u.clk.scyc - k.iterStart } u) := by
  unfold resumeSaved
  rw [hnext]
  dsimp only
  rw [if_neg (by simp [hidle, hseal, hbeds, hlease])]

/-! ### Stalls and bounds (R188, R193) -/

@[simp] theorem chargeStall_scyc (n : Nat) (s : State) : (chargeStall n s).clk.scyc = s.clk.scyc := rfl

@[simp] theorem chargeStall_wcyc (n : Nat) (s : State) : (chargeStall n s).clk.wcyc = s.clk.wcyc := rfl

/-- SCYC stands still while stall cycles are still to pass. -/
theorem passTime_in_stall {s : State} {i : Nat} (hhold : s.clk.hold = false) (hstall : i ≤ s.clk.stall)
    (hlimit : scycLimit s = none) :
    (passTime i s).clk.scyc = s.clk.scyc ∧ (passTime i s).clk.wcyc = s.clk.wcyc + i := by
  have hheld : Nat.min s.clk.stall i = i := Nat.min_eq_right hstall
  unfold passTime
  simp only [hhold, hlimit, hheld, Bool.false_eq_true, if_false, Bool.false_or, Nat.sub_self, Nat.add_zero]
  split
  · exact ⟨rfl, rfl⟩
  · simp

theorem expireBound_stalls {n : Nat} {s : State} (hrun : (s.launch n).status = .running)
    (huser : (s.launch n).handler = false) (hstalls : stallsOver (s.launch n) = true) :
    expireBound n s = stopLaunch n 0x40 2 s := by
  simp [expireBound, hrun, huser, hstalls]

/-- A bound that has elapsed plainly, or whose margin has gone to faults (log 95). -/
theorem expireBound_elapsed {n : Nat} {s : State} (hrun : (s.launch n).status = .running)
    (huser : (s.launch n).handler = false) (hstalls : stallsOver (s.launch n) = false)
    (hlate : (s.launch n).accepted + (s.launch n).bound ≤ s.clk.wcyc ∨ faultsOver (s.launch n) = true) :
    expireBound n s = stopLaunch n 0x40 3 s := by
  simp [expireBound, hrun, huser, hstalls, hlate]

/-- An iteration that has run longer than its bound stops its launch. -/
theorem expireIter_over {s : State} {c : Nat}
    (hrun : (s.launch (((s.core c).served.map (·.launch)).getD (s.core c).launch)).status = .running)
    (htt : (s.launch (((s.core c).served.map (·.launch)).getD (s.core c).launch)).nest.tt = false)
    (hmode : (s.core c).mode = .running ∨ (s.core c).mode = .faulted)
    (hlate : (s.launch (((s.core c).served.map (·.launch)).getD (s.core c).launch)).nest.itb <
      s.clk.scyc - (s.ctxCore (((s.core c).served.map (·.launch)).getD (s.core c).launch) c).iterStart) :
    expireIter c s = stopLaunch (((s.core c).served.map (·.launch)).getD (s.core c).launch) 0x40 1 s := by
  unfold expireIter
  exact if_pos ⟨hrun, by simp [htt], hmode, hlate⟩

/-- Settles O44: each step finds its conditions met, and does what the statement names. -/
theorem launchSteps : Obligations.LaunchSteps := by
  unfold Obligations.LaunchSteps
  intro s hon n l held
  have hstep (f : State → State) : agentStep f s = .next (f s) := agentStep_on hon f
  refine ⟨fun hrun huser hleft hseal hbeds => ⟨fun htt => ?timed, fun c htt hnext => ?raked⟩,
    fun hopen huser hops => ⟨fun hrun hended hfaults hviews => ?running,
      fun code cause sup info hstop hquiet => ?stopped⟩,
    fun c p hp hseal huser => ?preempt,
    fun c i => ⟨fun hi => failAttempt_core_first hi c s, fun hi => failAttempt_core_third hi c s⟩,
    fun c m hnext hidle hseal hbeds hlease => ?resume, fun i => ?stall, fun i => passTime_in_stall,
    fun hrun huser => ⟨fun hstalls => ?stalls, fun hstalls hlate => ?late⟩,
    fun c m hm hrun htt hmode hlate => ?iteration⟩
  case timed =>
    refine (hstep _).trans ?_
    rw [handOut_timed hrun huser hleft hseal hbeds htt]
    rfl
  case raked =>
    intro v
    have hhanded : handOut n s = v := handOut_next hrun huser hleft hseal hbeds htt hnext
    have hlaunch : v.launch n = { l with handed := l.handed + 1, lastServed := some c } :=
      State.launch_setLaunch_same _ _ _
    obtain ⟨hmode, hstays, hiter, hvalues⟩ := loadIteration_values
      (s := (raked n s).setLaunch n { l with handed := l.handed + 1, lastServed := some c })
      (State.launch_setLaunch_same _ _ _) htt l.handed c
    exact ⟨(hstep _).trans (by rw [hhanded]), hmode, hstays.trans (nextFree_launch (s := raked n s) hnext), hiter,
      by rw [hlaunch], hvalues⟩
  case running =>
    have hend := endLaunch_running hopen huser hops hrun hended hfaults hviews
    refine ⟨fun hfirst => (hstep _).trans ?_, fun hlast hquiet => (hstep _).trans ?_⟩
    · rw [hend, if_pos (by simp [l, hfirst])]
    · rw [hend, if_neg (by simp [l, hlast]), if_pos (List.all_eq_true.2 fun c hc => List.isEmpty_iff.2 (hquiet c hc))]
  case stopped =>
    refine (hstep _).trans ?_
    rw [endLaunch_stopped hopen huser hops hstop hquiet]
  case preempt =>
    refine ⟨fun hmode hnew hquiet => ⟨fun hzero hsettled hroom => (hstep _).trans ?_, fun hzero => (hstep _).trans ?_⟩,
      fun hmode hnew hquiet hinside => (hstep _).trans ?_, fun hmode hold => (hstep _).trans ?_,
      fun hmode hclose hroom => (hstep _).trans ?_, fun hmode hwait => (hstep _).trans ?_⟩
    · simp [tryPreempt_running hp hseal huser hmode, hnew, hquiet, hzero, hsettled, hroom]
    · simp [tryPreempt_running hp hseal huser hmode, hnew, hquiet, hzero]
    · simp [tryPreempt_running hp hseal huser hmode, hnew, hquiet, hinside]
    · simp [tryPreempt_running hp hseal huser hmode, hold]
    · rw [tryPreempt_resting hp hseal huser hmode, saveResting_saves hclose hroom]
    · rw [tryPreempt_resting hp hseal huser hmode, saveResting_waits hwait]
  case resume =>
    refine (hstep _).trans ?_
    rw [resumeSaved_next hnext hidle hseal hbeds hlease]
  case stall => exact hstep fun s => { s with clk := { s.clk with stall := s.clk.stall + i } }
  case stalls =>
    refine (hstep _).trans ?_
    rw [expireBound_stalls hrun huser hstalls]
  case late =>
    refine (hstep _).trans ?_
    rw [expireBound_elapsed hrun huser hstalls hlate]
  case iteration =>
    refine (hstep _).trans ?_
    subst hm
    rw [expireIter_over hrun htt hmode hlate]

end Sys2Proof.Machine

namespace Sys2Proof.Machine

open Sys2Proof

/-! ### What the command processor computes -/

theorem cp_bind_ok {α β : Type} {x : Cp α} {a : α} (h : x = .ok a) (f : α → Cp β) : (x >>= f) = f a := by
  rw [h]
  rfl

@[simp] theorem drawN_one (s : State) : s.drawN 1 = (0, s) := rfl

@[simp] theorem drawN_zero (s : State) : s.drawN 0 = (0, s) := rfl

theorem drawN_lt (s : State) {n : Nat} (h : 0 < n) : (s.drawN n).1 < n := by
  unfold State.drawN
  split
  · exact h
  · exact Nat.mod_lt _ h

@[simp] theorem queue_setQueue_same (s : State) (key : Nat) (x : TQueue) : (s.setQueue key x).queue key = x :=
  Tbl.get_put_same _ _ _ _

@[simp] theorem setQueue_launch (s : State) (key : Nat) (x : TQueue) (n : Nat) :
    (s.setQueue key x).launch n = s.launch n := rfl

/-! ### Graphs that go on (R184, R185, R193) -/

theorem liveGraph_eq_some {s : State} {key : Nat} {g : Graph} :
    liveGraph s key = some g ↔ (s.queue key).graph = some g ∧ stoppedLaunch s g = none := by
  unfold liveGraph
  cases (s.queue key).graph with
  | none => simp
  | some x =>
    cases hx : stoppedLaunch s x with
    | none =>
      simp only [Option.bind_some, hx, Option.isSome_none, Bool.false_eq_true, if_false, Option.some.injEq,
        iff_self_and]
      rintro rfl
      exact hx
    | some r =>
      simp only [Option.bind_some, hx, Option.isSome_some, if_true, reduceCtorEq, Option.some.injEq, false_iff]
      rintro ⟨rfl, h⟩
      simp [hx] at h

/-- A graph none of whose launches has been stopped goes on. -/
theorem settleGraph_of_live {s : State} {key : Nat} {g : Graph} (h : liveGraph s key = some g) :
    settleGraph key s = s := by
  obtain ⟨hg, hnone⟩ := liveGraph_eq_some.1 h
  simp [settleGraph, hg, hnone]

/-- A queue without a graph has none that goes on. -/
theorem liveGraph_of_none {s : State} {key : Nat} (h : (s.queue key).graph = none) : liveGraph s key = none := by
  simp [liveGraph, h]

theorem settleGraph_of_none {s : State} {key : Nat} (h : (s.queue key).graph = none) : settleGraph key s = s := by
  simp [settleGraph, h]

@[simp] theorem setGraph_graph (key : Nat) (g : Graph) (s : State) :
    ((setGraph key g s).queue key).graph = some g := by
  simp [setGraph]

@[simp] theorem endGraph_graph (key : Nat) (g : Graph) (r : Refused) (node : Nat) (s : State) :
    ((endGraph key g r node s).queue key).graph = none := by
  simp [endGraph]

/-- A graph that goes on past its wait still goes on. -/
theorem liveGraph_goTo {s : State} {key : Nat} {g : Graph} (h : liveGraph s key = some g) (next : Option Nat) :
    liveGraph (goTo key g next s) key = some { g with wait := .none, cur := next } := by
  obtain ⟨-, hnone⟩ := liveGraph_eq_some.1 h
  refine liveGraph_eq_some.2 ⟨by simp [goTo, setGraph], ?_⟩
  unfold stoppedLaunch at hnone ⊢
  rw [List.findSome?_append, Option.or_eq_none_iff] at hnone
  exact hnone.2

/-! ### Nodes that a graph comes to (R184, R185) -/

section

variable {kind tid q : Nat} {g : Graph} {b : List Byte} {s : State}

/-- The graph of a queue that stands at a node. -/
theorem nodeAt_live (h : nodeAt kind tid q g b s) : ∃ x a, liveGraph s (16 * tid + q) = some x ∧ x.wait = .none ∧
    x.cur = some a ∧ g = { x with node := a } := by
  obtain ⟨-, x, a, hlive, hwait, hcur, hg, -⟩ := h
  exact ⟨x, a, hlive, hwait, hcur, hg⟩

/-- A node that the graph has come to has its effect, and one free value is drawn. -/
theorem runNode_nodeAt (h : nodeAt kind tid q g b s) {f : Graph → List Byte → State → Cp State} {t : State}
    (hf : f g b s = .ok t) : runNode kind tid q f s = oneDraw t := by
  obtain ⟨hrun, x, a, hlive, hwait, hcur, hg, hb, hok, hkind, hasync⟩ := h
  have hopen : ((fieldOf b 1 1).testBit 1 && outstanding s g) = false := by simpa using hasync
  unfold runNode
  dsimp only
  rw [settleGraph_of_live hlive, hlive]
  dsimp only
  split
  · next hnode =>
    obtain rfl := Option.some.inj (hcur.symm.trans hnode)
    rw [if_neg (not_not_intro hrun), hb, ← hg]
    dsimp only
    rw [if_neg (by simp [hok]), if_neg (by simp [hkind, hopen]), hf]
    rfl
  · next hnone => exact absurd hcur (hnone a hwait)

/-- A graph that waits, or has no node to reach, comes to none. -/
theorem runNode_of_rest (hlive : liveGraph s (16 * tid + q) = some g) (hrest : g.wait ≠ .none ∨ g.cur = none)
    (f : Graph → List Byte → State → Cp State) : runNode kind tid q f s = s := by
  unfold runNode
  dsimp only
  rw [settleGraph_of_live hlive, hlive]
  dsimp only
  split
  · rename_i hwait hcur
    simp [hwait, hcur] at hrest
  · rfl

/-- A malformed node stops the graph, of whatever kind it is. -/
theorem runNode_malformed {a : Nat} (hlive : liveGraph s (16 * tid + q) = some g) (hwait : g.wait = .none)
    (hcur : g.cur = some a) (hrun : s.tsm tid = .run) (hb : cpRead s (tenantCtx s tid) a 0 64 = .ok b)
    (hbad : nodeOk b = false) (f : Graph → List Byte → State → Cp State) :
    runNode kind tid q f s = endGraph (16 * tid + q) { g with node := a } { code := 0x32 } a s := by
  unfold runNode
  dsimp only
  rw [settleGraph_of_live hlive, hlive]
  simp [hwait, hcur, hrun, hb, hbad, badGraph]

end

/-! ### Entries of a queue (R445, R446) -/

theorem takeEntry_read {s : State} {tid q : Nat} {b : List Byte} (hrun : s.tsm tid = .run)
    (hq : queueExists s tid q = true) (hgoing : (s.queue (16 * tid + q)).stopped = false)
    (hsize : ringSize (s.queue (16 * tid + q)).qsize = true)
    (hentry : (s.queue (16 * tid + q)).qrptr ≠ (s.queue (16 * tid + q)).qwptr)
    (hgraph : (s.queue (16 * tid + q)).graph = none) (hdue : (s.queue (16 * tid + q)).due = [])
    (hroom : ringFull s (16 * tid + q) = false)
    (hb : cpRead s (tenantCtx s tid) (((s.queue (16 * tid + q)).qbase + 64 * ((s.queue (16 * tid + q)).qrptr.toNat %
      (s.queue (16 * tid + q)).qsize)) % 2 ^ 64) 0 64 = .ok b) :
    takeEntry tid q s =
      let x := s.queue (16 * tid + q)
      match entryGraph b with
      | some g => s.setQueue (16 * tid + q) { x with qrptr := x.qrptr + 1, graph := some g }
      | none => s.setQueue (16 * tid + q)
          { x with qrptr := x.qrptr + 1, due := [graphRecord (BitVec.ofNat 64 (fieldOf b 0x10 8))] } := by
  unfold takeEntry
  dsimp only
  rw [if_neg (by simp [hrun, hq, hgoing, hsize, hentry, hgraph, hdue, hroom]), hb]
  dsimp only
  rw [hdue]
  cases entryGraph b <;> rfl

/-! ### Waits of a graph (R185) -/

section

variable {key : Nat} {g : Graph} {s : State} (hlive : liveGraph s key = some g)
include hlive

theorem launchWait_closed {n : Nat} (hwait : g.wait = .launch n) (hclosed : (s.launch n).closed = true) :
    launchWait key s = goTo key g g.next s := by
  simp [launchWait, hlive, hwait, hclosed]

theorem launchWait_of_none (hwait : g.wait = .none) : launchWait key s = s := by
  simp [launchWait, hlive, hwait]

theorem sealWait_committed {n : Nat} (hwait : g.wait = .seal n) (hcommit : n ≤ s.recov.k) :
    sealWait key s = goTo key g g.next s := by
  simp [sealWait, hlive, hwait, hcommit]

theorem sealWait_of_none (hwait : g.wait = .none) : sealWait key s = s := by
  simp [sealWait, hlive, hwait]

theorem eventWait_set {tid n : Nat} (hwait : g.wait = .event n) (hset : bit (s.dom.events.get 0 tid) n = true) :
    eventWait key tid s = goTo key g g.next { s with dom := { s.dom with
      events := s.dom.events.put tid (s.dom.events.get 0 tid &&& ~~~(BitVec.ofNat 64 (2 ^ n))) } } := by
  unfold eventWait
  rw [hlive]
  dsimp only
  rw [hwait]
  exact if_pos hset

end

/-- A graph that waits for a bit that is clear goes on waiting. -/
theorem eventWait_clear {key tid : Nat} {g : Graph} {s : State} {n : Nat} (hgraph : (s.queue key).graph = some g)
    (hwait : g.wait = .event n) (hclear : bit (s.dom.events.get 0 tid) n = false) : eventWait key tid s = s := by
  unfold eventWait
  cases hlive : liveGraph s key with
  | none => rfl
  | some x =>
    obtain ⟨hx, -⟩ := liveGraph_eq_some.1 hlive
    obtain rfl : g = x := Option.some.inj (hgraph.symm.trans hx)
    dsimp only
    rw [hwait]
    exact if_neg (by simp only [hclear, Bool.false_eq_true, not_false_eq_true])

theorem eventWait_of_none {key tid : Nat} {s : State} (hgraph : (s.queue key).graph = none) :
    eventWait key tid s = s := by
  simp [eventWait, liveGraph_of_none hgraph]

/-! ### The effect of each kind of node (R184) -/

section

variable {key tid : Nat} {g : Graph} {b : List Byte} {s : State} {next : Option Nat}
  (hnext : successor (fieldOf b 8 8) = .ok next)
include hnext

theorem kernelNode_ok {l : List Byte} {n : Nat} {u : State}
    (hl : cpRead s (tenantCtx s tid) (fieldOf b 0x10 8) 0 256 = .ok l)
    (hadmit : admitRecord s tid g.cls (fieldOf b 0x18 8) (g.cls != 3 || poolTurn s tid)
      ⟨key, (s.queue key).qrptr.toNat, g.node, g.kernels + 1⟩ l = .ok (n, u)) :
    kernelNode key tid g b s = .ok
      (let y := { g with kernels := g.kernels + 1, bound := (u.launch n).bound, var := (u.launch n).var }
       if (fieldOf b 1 1).testBit 0 then goTo key { y with async := (n, g.node) :: g.async } next u
       else setGraph key { y with wait := .launch n, next := next } u) := by
  rw [kernelNode, cp_bind_ok hnext]
  dsimp only
  rw [cp_bind_ok hl, cp_bind_ok hadmit]
  dsimp only
  split <;> rfl

theorem copyNode_ok (hcopies : g.copies = []) (halign : fieldOf b 0x20 8 % 64 = 0) (hlen : fieldOf b 0x20 8 < 2 ^ 40) :
    copyNode key g b s = .ok
      (let c : GCopy := ⟨s.dom.nextId, g.node, fieldOf b 0x10 8, fieldOf b 0x18 8, fieldOf b 0x20 8, s.now, []⟩
       let u : State := { s with dom := { s.dom with nextId := s.dom.nextId + 1 } }
       if (fieldOf b 1 1).testBit 0 then goTo key { g with copies := [c] } next u
       else setGraph key { g with copies := [c], wait := .copy c.id, next := next } u) := by
  rw [copyNode, cp_bind_ok hnext]
  dsimp only
  rw [if_neg (by omega), hcopies]
  split <;> rfl

theorem condNode_ok {v : Nat} {alt : Option Nat} (hv : cpWord s tid (fieldOf b 0x10 8) = .ok v)
    (halt : successor (fieldOf b 0x28 8) = .ok alt) : condNode key tid g b s = .ok
      (goTo key g (if Nat.land v (fieldOf b 0x18 8) = fieldOf b 0x20 8 then next else alt) s) := by
  rw [condNode, cp_bind_ok hv, cp_bind_ok hnext, cp_bind_ok halt]
  rfl

/-- The next pass of a LOOP, or its end: by the passes left, or by a word in memory. -/
theorem loopTest_ok {node left : Nat} {rest : List (Nat × Nat)} {body : Option Nat} {again : Bool}
    (hok : nodeOk b = true) (hkind : fieldOf b 0 1 = 3) (hbody : successor (fieldOf b 0x10 8) = .ok body)
    (hagain : (if fieldOf b 0x18 8 = 0 then pure (decide (0 < left))
      else (cpWord s tid (fieldOf b 0x18 8)).map (· != 0) : Cp Bool) = .ok again) :
    loopTest key tid node left rest g b s = .ok (if again then
        goTo key { g with loops := (node, if fieldOf b 0x18 8 = 0 then left - 1 else left) :: rest } body s
      else goTo key { g with loops := rest } next s) := by
  have hwell : (!nodeOk b || fieldOf b 0 1 != 3) = false := by simp [hok, hkind]
  rw [loopTest, hwell]
  simp only [Bool.false_eq_true, if_false]
  rw [cp_bind_ok hagain, cp_bind_ok hbody, cp_bind_ok hnext]
  split <;> rfl

section

variable {i : Nat} (hi : cpWord s tid (fieldOf b 0x10 8) = .ok i) (hpos : 1 ≤ fieldOf b 0x20 8)
  (hmax : fieldOf b 0x20 8 ≤ 16)
include hi hpos hmax

theorem switchNode_default (hover : fieldOf b 0x20 8 ≤ i) : switchNode key tid g b s = .ok (goTo key g next s) := by
  rw [switchNode, cp_bind_ok hi, cp_bind_ok hnext, if_neg (by omega), if_neg (by omega)]
  rfl

theorem switchNode_case {v : Nat} {dest : Option Nat} (hlt : i < fieldOf b 0x20 8)
    (hv : cpWord s tid ((fieldOf b 0x18 8 + 8 * i) % 2 ^ 64) = .ok v) (hdest : successor v = .ok dest) :
    switchNode key tid g b s = .ok (goTo key g dest s) := by
  rw [switchNode, cp_bind_ok hi, cp_bind_ok hnext, if_neg (by omega), if_pos hlt, cp_bind_ok hv, cp_bind_ok hdest]
  rfl

end

theorem sealAsk_ok (q : Nat) : sealAsk key tid q g b s = .ok
    (setGraph key { g with wait := .seal (sealNumber s), next := next } (requestSeal (.node tid q) s)) := by
  rw [sealAsk, cp_bind_ok hnext]
  rfl

theorem signalNode_event (hty : fieldOf b 0x10 1 = 1) (hnum : fieldOf b 0x11 1 ≤ 63) :
    signalNode key tid g b s =
      .ok (goTo key g next (setEvents tid (BitVec.ofNat 64 (2 ^ fieldOf b 0x11 1)) s)) := by
  rw [signalNode, cp_bind_ok hnext]
  simp only [hty]
  rw [if_neg (by omega), if_neg (by simp)]
  rfl

theorem signalNode_vector (hty : fieldOf b 0x10 1 = 0) (hnum : fieldOf b 0x11 1 ≤ 63)
    (hvec : fieldOf b 0x11 1 < (s.host.confs.get .init tid).vn) (hroom : egressRoom s 1 = true) :
    signalNode key tid g b s = .ok (goTo key g next (pushEgress tid 4 (fieldOf b 0x11 1) [] s)) := by
  rw [signalNode, cp_bind_ok hnext]
  simp only [hty, hroom]
  rw [if_neg (by omega), if_neg (by simp)]
  rfl

theorem waitNode_ok (hnum : fieldOf b 0x10 1 ≤ 63) : waitNode key g b s =
    .ok (setGraph key { g with wait := .event (fieldOf b 0x10 1), next := next } s) := by
  rw [waitNode, cp_bind_ok hnext]
  dsimp only
  rw [if_neg (by omega)]
  rfl

end

theorem loopEnter_ok {key : Nat} {g : Graph} {b : List Byte} {s : State} (h : g.loops.length < 8) :
    loopEnter key g b s = .ok (goTo key { g with loops := (g.node, fieldOf b 0x20 8) :: g.loops } none s) :=
  if_neg (Nat.not_le.2 h)

/-- A graph at the end of a pass comes back to its innermost LOOP. -/
theorem loopAgain_ok {s : State} {tid q : Nat} {g : Graph} {node left : Nat} {rest : List (Nat × Nat)} {b : List Byte}
    {t : State} (hlive : liveGraph s (16 * tid + q) = some g) (hwait : g.wait = .none) (hcur : g.cur = none)
    (hloops : g.loops = (node, left) :: rest) (hrun : s.tsm tid = .run)
    (hb : cpRead s (tenantCtx s tid) node 0 64 = .ok b)
    (ht : loopTest (16 * tid + q) tid node left rest { g with node := node } b s = .ok t) :
    loopAgain tid q s = oneDraw t := by
  unfold loopAgain
  dsimp only
  rw [hlive]
  simp only [hwait, hcur, hloops] at ht
  simp only [hwait, hcur, hloops, hrun, ne_eq, not_true_eq_false, if_false]
  rw [cp_bind_ok hb, ht]
  rfl

/-! ### Copies under way (R185) -/

section

variable {s : State} {key tid : Nat} {g : Graph} {c : GCopy} (hlive : liveGraph s key = some g) (hcopies : g.copies = [c])
include hlive hcopies

/-- The blocks of a copy that are still to move. -/
def blocksLeft (c : GCopy) : List Nat := (span 0 (c.len / 64)).filter fun i => !c.copied.any (· == i)

theorem moveCopy_done (hleft : blocksLeft c = []) : moveCopy key tid s = copyMoved key g c s := by
  unfold blocksLeft at hleft
  unfold moveCopy
  rw [hlive]
  simp [hcopies, hleft]

theorem moveCopy_block {i : Nat} (hi : (blocksLeft c)[(s.drawN (blocksLeft c).length).1]? = some i) :
    moveCopy key tid s = finishNode key { g with node := c.node }
      ((copyOne tid i c (s.drawN (blocksLeft c).length).2).map (copyMoved key g { c with copied := i :: c.copied })) s := by
  unfold blocksLeft at hi ⊢
  unfold moveCopy
  rw [hlive]
  simp only [hcopies, List.length_singleton, drawN_one, List.getElem?_cons_zero]
  rw [hi]

end

/-! ### Completion records (R445, R447) -/

theorem finishGraph_ends {s : State} {key : Nat} {g : Graph} (hlive : liveGraph s key = some g) (hwait : g.wait = .none)
    (hcur : g.cur = none) (hloops : g.loops = []) (hdone : outstanding s g = false) :
    finishGraph key s = endGraph key g { code := 0 } 0 s := by
  simp [finishGraph, hlive, hwait, hcur, hloops, hdone]

theorem finishGraph_of_none {s : State} {key : Nat} (h : (s.queue key).graph = none) : finishGraph key s = s := by
  simp [finishGraph, liveGraph_of_none h]

theorem writeRecord_due {s : State} {tid q : Nat} {r : CRec} {rest : List CRec} {ba : Nat} {c : Chunk}
    (hdue : (s.queue (16 * tid + q)).due = r :: rest) (hsize : ringSize (s.queue (16 * tid + q)).csize = true)
    (hroom : ringFull s (16 * tid + q) = false) (hegress : egressRoom s 32 = true)
    (hc : cpRange s (tenantCtx s tid) 1 (((s.queue (16 * tid + q)).cbase + 32 *
      (((s.queue (16 * tid + q)).cwptr.toNat + pendingRecords s (16 * tid + q)) % (s.queue (16 * tid + q)).csize)) %
        2 ^ 64) 0 32 = .ok [c]) (hplace : c.place = .host ba) :
    writeRecord tid q s = pushEgress (16 * tid + q) 3 ba (recordBytes r)
      (s.setQueue (16 * tid + q) { s.queue (16 * tid + q) with due := rest, last := some r }) := by
  obtain ⟨off, len, level, place⟩ := c
  obtain rfl : place = .host ba := hplace
  unfold writeRecord
  dsimp only
  rw [hdue]
  dsimp only
  rw [if_neg (by simp [hsize, hroom, hegress]), hc]

/-! ### The steps of the command processor -/

theorem exec_kernel (tid q : Nat) (s : State) : exec (.kernel tid q) s = execKernel tid q s := rfl

theorem exec_copy (tid q : Nat) (s : State) : exec (.copy tid q) s = execCopy tid q s := rfl

theorem exec_loopNode (tid q : Nat) (s : State) : exec (.loopNode tid q) s = execLoopNode tid q s := rfl

theorem exec_sealNode (tid q : Nat) (s : State) : exec (.sealNode tid q) s = execSealNode tid q s := rfl

theorem exec_waitev (tid q : Nat) (s : State) : exec (.waitev tid q) s = execWaitev tid q s := rfl

theorem exec_completionRecordWrite (tid q : Nat) (s : State) :
    exec (.completionRecordWrite tid q) s = execCompletionRecordWrite tid q s := rfl

section

variable {s : State} {tid q : Nat} {g : Graph} (hon : s.power = .on) (hlive : liveGraph s (16 * tid + q) = some g)
include hon hlive

theorem exec_kernel_idle (hwait : g.wait = .none) :
    exec (.kernel tid q) s = .next (runNode 0 tid q (kernelNode (16 * tid + q) tid) s) := by
  rw [exec_kernel, execKernel, agentStep_on hon]
  dsimp only
  rw [settleGraph_of_live hlive, launchWait_of_none hlive hwait]

/-- A graph that has started no copy may come to one. -/
theorem exec_copy_idle (hcopies : g.copies = []) :
    exec (.copy tid q) s = .next (runNode 1 tid q (copyNode (16 * tid + q)) s) := by
  rw [exec_copy, execCopy, agentStep_on hon]
  dsimp only
  rw [settleGraph_of_live hlive, hlive]
  simp [hcopies]

/-- A graph that waits for its one copy has it moved on. -/
theorem exec_copy_moves {c : GCopy} (hwait : g.wait = .copy c.id) (hcopies : g.copies = [c]) :
    exec (.copy tid q) s = .next (moveCopy (16 * tid + q) tid s) := by
  rw [exec_copy, execCopy, agentStep_on hon]
  dsimp only
  rw [settleGraph_of_live hlive, hlive]
  simp [hwait, hcopies]

theorem exec_loopNode_forward {a : Nat} (hcur : g.cur = some a) :
    exec (.loopNode tid q) s = .next (runNode 3 tid q (loopEnter (16 * tid + q)) s) := by
  obtain ⟨hgraph, -⟩ := liveGraph_eq_some.1 hlive
  rw [exec_loopNode, execLoopNode, agentStep_on hon]
  dsimp only
  rw [settleGraph_of_live hlive, hgraph, Option.bind_some, hcur]

/-- At the end of a pass the graph returns to its LOOP. -/
theorem exec_loopNode_back (hcur : g.cur = none) : exec (.loopNode tid q) s = .next (loopAgain tid q s) := by
  obtain ⟨hgraph, -⟩ := liveGraph_eq_some.1 hlive
  rw [exec_loopNode, execLoopNode, agentStep_on hon]
  dsimp only
  rw [settleGraph_of_live hlive, hgraph, Option.bind_some, hcur]

theorem exec_sealNode_idle (hwait : g.wait = .none) :
    exec (.sealNode tid q) s = .next (runNode 5 tid q (sealAsk (16 * tid + q) tid q) s) := by
  rw [exec_sealNode, execSealNode, agentStep_on hon]
  dsimp only
  rw [settleGraph_of_live hlive, sealWait_of_none hlive hwait]

theorem exec_waitev_live : exec (.waitev tid q) s =
    .next (eventWait (16 * tid + q) tid (runNode 7 tid q (waitNode (16 * tid + q)) s)) := by
  rw [exec_waitev, execWaitev, agentStep_on hon]
  dsimp only
  rw [settleGraph_of_live hlive]

end

/-- Settles O48: a node that the graph has come to computes its effect; waits, entries and records find their
conditions met. -/
theorem graphNodes : Obligations.GraphNodes := by
  unfold Obligations.GraphNodes
  intro s hon tid q key x
  have hstep (f : State → State) : agentStep f s = .next (f s) := agentStep_on hon f
  refine ⟨?entry, ?kernel, ?launched, ?copy, ?moves, ?cond, ?loop, ?again, ?switch, ?askSeal, ?sealed, ?signal,
    ?waitev, ?event, ?malformed, ?record, ?finish⟩
  case entry =>
    intro b g hrun hq hgoing hsize hentry hgraph hdue hroom hb
    have htake := takeEntry_read hrun hq hgoing hsize hentry hgraph hdue hroom hb
    refine ⟨fun h => (hstep _).trans ?_, fun h => (hstep _).trans ?_⟩
    · rw [htake, h]
    · rw [htake, h]
      rfl
  case kernel =>
    intro g b next l n u hat hnext hl hadmit
    obtain ⟨_, _, hlive, hwait, -⟩ := nodeAt_live hat
    rw [exec_kernel_idle hon hlive hwait, runNode_nodeAt hat (kernelNode_ok hnext hl hadmit)]
  case launched =>
    intro g n hlive hwait hclosed hend
    rw [exec_kernel, execKernel, hstep]
    dsimp only
    rw [settleGraph_of_live hlive, launchWait_closed hlive hwait hclosed, hend,
      runNode_of_rest (liveGraph_goTo hlive none) (.inr rfl)]
  case copy =>
    intro g b next hat hcopies hnext halign hlen
    obtain ⟨x, _, hlive, -, -, hx⟩ := nodeAt_live hat
    have hnone : x.copies = [] := by rw [← hcopies, hx]
    rw [exec_copy_idle hon hlive hnone, runNode_nodeAt hat (copyNode_ok hnext hcopies halign hlen)]
  case moves =>
    intro g c hlive hwait hcopies left
    rw [exec_copy_moves hon hlive hwait hcopies]
    refine ⟨fun hleft => by rw [moveCopy_done hlive hcopies hleft], fun hleft => ?_⟩
    have hblock := List.getElem?_eq_getElem (drawN_lt s (List.length_pos_iff.2 hleft))
    exact ⟨_, hblock, congrArg Host.Outcome.next (moveCopy_block hlive hcopies hblock)⟩
  case cond =>
    intro g b v next alt hat hv hnext halt
    refine (hstep _).trans ?_
    rw [runNode_nodeAt hat (condNode_ok hnext hv halt)]
  case loop =>
    intro g b hat hdepth
    obtain ⟨_, _, hlive, -, hcur, -⟩ := nodeAt_live hat
    rw [exec_loopNode_forward hon hlive hcur, runNode_nodeAt hat (loopEnter_ok hdepth)]
  case again =>
    intro g node left rest b body next hlive hwait hcur hloops hrun hb hok hkind hbody hnext
    rw [exec_loopNode_back hon hlive hcur]
    have hpass {again : Bool} (hagain : (if fieldOf b 0x18 8 = 0 then pure (decide (0 < left))
        else (cpWord s tid (fieldOf b 0x18 8)).map (· != 0) : Cp Bool) = .ok again) :=
      loopAgain_ok hlive hwait hcur hloops hrun hb (loopTest_ok hnext hok hkind hbody hagain)
    refine ⟨fun hcount hleft => ?_, fun hcount hleft => ?_, fun v hword hv => ?_⟩
    · rw [hpass (again := true) (by rw [if_pos hcount, decide_eq_true hleft]; rfl), if_pos rfl, if_pos hcount]
    · rw [hpass (again := false) (by rw [if_pos hcount, hleft]; rfl), if_neg Bool.false_ne_true]
    · rw [hpass (again := v != 0) (by rw [if_neg hword, hv]; rfl), if_neg hword]
      simp only [bne_iff_ne]
      rfl
  case switch =>
    intro g b i next hat hi hnext hpos hmax
    refine ⟨fun hover => (hstep _).trans ?_, fun v dest hlt hv hdest => (hstep _).trans ?_⟩
    · rw [runNode_nodeAt hat (switchNode_default hnext hi hpos hmax hover)]
    · rw [runNode_nodeAt hat (switchNode_case hnext hi hpos hmax hlt hv hdest)]
  case askSeal =>
    intro g b next hat hnext
    obtain ⟨_, _, hlive, hwait, -⟩ := nodeAt_live hat
    rw [exec_sealNode_idle hon hlive hwait, runNode_nodeAt hat (sealAsk_ok hnext q)]
  case sealed =>
    intro g n hlive hwait hcommit hend
    rw [exec_sealNode, execSealNode, hstep]
    dsimp only
    rw [settleGraph_of_live hlive, sealWait_committed hlive hwait hcommit, hend,
      runNode_of_rest (liveGraph_goTo hlive none) (.inr rfl)]
  case signal =>
    intro g b next hat hnext num
    refine ⟨fun hty hnum => (hstep _).trans ?_, fun hty hnum hvec hroom => (hstep _).trans ?_⟩
    · rw [runNode_nodeAt hat (signalNode_event hnext hty hnum)]
    · rw [runNode_nodeAt hat (signalNode_vector hnext hty hnum hvec hroom)]
  case waitev =>
    intro g b next hat hnext hnum hclear
    obtain ⟨_, _, hlive, -⟩ := nodeAt_live hat
    have hgraph := setGraph_graph key { g with wait := .event (fieldOf b 0x10 1), next := next } s
    rw [exec_waitev_live hon hlive, runNode_nodeAt hat (waitNode_ok hnext hnum)]
    exact congrArg Host.Outcome.next (eventWait_clear hgraph rfl hclear)
  case event =>
    intro g n hlive hwait hset
    rw [exec_waitev_live hon hlive, runNode_of_rest hlive (.inl (by simp [hwait])), eventWait_set hlive hwait hset]
  case malformed =>
    intro g a b hlive hwait hcur hcopies hrun hb hbad
    have hstop {kind : Nat} (f : Graph → List Byte → State → Cp State) :
        runNode kind tid q f s = endGraph key { g with node := a } { code := 0x32 } a s :=
      runNode_malformed hlive hwait hcur hrun hb hbad f
    simp only [List.forall_mem_cons, List.not_mem_nil, false_imp_iff, implies_true, and_true]
    refine ⟨?_, ?_, (hstep _).trans (by rw [hstop]), ?_, (hstep _).trans (by rw [hstop]), ?_,
      (hstep _).trans (by rw [hstop]), ?_⟩
    · rw [exec_kernel_idle hon hlive hwait, hstop]
    · rw [exec_copy_idle hon hlive hcopies, hstop]
    · rw [exec_loopNode_forward hon hlive hcur, hstop]
    · rw [exec_sealNode_idle hon hlive hwait, hstop]
    · rw [exec_waitev_live hon hlive, hstop, eventWait_of_none (endGraph_graph _ _ _ _ _)]
  case record =>
    intro r rest ba c hgraph hdue hsize hroom hegress hc hplace
    rw [exec_completionRecordWrite, execCompletionRecordWrite, hstep]
    dsimp only
    rw [settleGraph_of_none hgraph, finishGraph_of_none hgraph, writeRecord_due hdue hsize hroom hegress hc hplace]
  case finish =>
    intro g hlive hwait hcur hloops hdone
    rw [exec_completionRecordWrite, execCompletionRecordWrite, hstep]
    dsimp only
    rw [settleGraph_of_live hlive, finishGraph_ends hlive hwait hcur hloops hdone]

end Sys2Proof.Machine

namespace Sys2Proof.Machine

open Sys2Proof

/-! ### Doorbells (R445) -/

section

variable {s : State} {tid q : Nat} {v : Word} (hrun : s.tsm tid = .run) (hq : queueExists s tid q = true)
include hrun hq

/-- A count of entries that the ring holds is taken. -/
theorem writeQwptr_within (hlen : (v - (s.queue (16 * tid + q)).qrptr).toNat ≤ (s.queue (16 * tid + q)).qsize) :
    writeQwptr tid q v s = s.setQueue (16 * tid + q) { s.queue (16 * tid + q) with qwptr := v } := by
  unfold writeQwptr
  rw [if_neg (by simp [hrun, hq])]
  dsimp only
  rw [decide_eq_false (Nat.not_lt.2 hlen), Bool.and_false, Bool.false_and, if_neg Bool.false_ne_true]

/-- A count beyond the ring stops the queue. -/
theorem writeQwptr_beyond (hsize : ringSize (s.queue (16 * tid + q)).qsize = true)
    (hlen : (s.queue (16 * tid + q)).qsize < (v - (s.queue (16 * tid + q)).qrptr).toNat)
    (hgoing : (s.queue (16 * tid + q)).stopped = false) :
    writeQwptr tid q v s = s.setQueue (16 * tid + q) { s.queue (16 * tid + q) with
      qwptr := v, stopped := true, due := (s.queue (16 * tid + q)).due ++ [graphRecord 0] } := by
  unfold writeQwptr
  rw [if_neg (by simp [hrun, hq])]
  dsimp only
  rw [hsize, decide_eq_true hlen, hgoing]
  rfl

theorem writeCrptr_within (hlen : ((s.queue (16 * tid + q)).cwptr - v).toNat ≤ (s.queue (16 * tid + q)).csize) :
    writeCrptr tid q v s = s.setQueue (16 * tid + q) { s.queue (16 * tid + q) with crptr := v } := by
  refine if_neg ?_
  rintro (h | h | h)
  · exact h hrun
  · simp [hq] at h
  · omega

end

/-- A write that would overrun the ring is discarded. -/
theorem writeCrptr_beyond {s : State} {tid q : Nat} {v : Word}
    (hlen : (s.queue (16 * tid + q)).csize < ((s.queue (16 * tid + q)).cwptr - v).toNat) : writeCrptr tid q v s = s :=
  if_pos (.inr (.inr hlen))

/-! ### The aperture (R388, R441) -/

section

variable {s : State} {a : Aperture} (htid : a.tid < 16) (hopen : s.tsm a.tid ≠ .error) (hend : a.va + a.len ≤ 2 ^ 36)
  {l : List Chunk}
include htid hopen hend

/-- An access within an open aperture is not dropped. -/
theorem not_aperture_closed : ¬ (16 ≤ a.tid ∨ s.tsm a.tid = .error ∨ 2 ^ 36 < a.va + a.len) := by
  rintro (h | h | h)
  · omega
  · exact hopen h
  · omega

theorem aperture_read (hdata : a.data = none) (hl : cpRange s (tenantCtx s a.tid) 0 a.va 0 a.len = .ok l) :
    aperture a s = State.toHost { s with draws := s.draws + 1 } (.data (l.flatMap (outsideChunk s))) := by
  unfold aperture
  rw [if_neg (not_aperture_closed htid hopen hend), hdata]
  dsimp only
  rw [hl]

theorem aperture_write {data : List Byte} (hdata : a.data = some data)
    (hl : cpRange s (tenantCtx s a.tid) 1 a.va 0 a.len = .ok l) (hroom : ∀ x ∈ l, cpRoom s x = true) :
    aperture a s = (cutData data l).foldl hostWrite s := by
  unfold aperture
  rw [if_neg (not_aperture_closed htid hopen hend), hdata]
  dsimp only
  rw [hl]
  exact if_pos (List.all_eq_true.2 hroom)

end

/-! ### The frozen fields of a queue (R442, R445) -/

/-- A field that LOCK freezes is no doorbell: it is written in CONFIG_UNLOCKED, and else the interface enters ERROR. -/
theorem writeQueue_frozen {s : State} {tid q off : Nat} (hq : queueExists s tid q = true)
    (hoff : off ∈ [0x00, 0x08, 0x18, 0x20, 0x2C]) (v : Dword) :
    writeQueue tid q off v s = if s.tsm tid = .unlocked then s.setQueue (16 * tid + q)
        (queueField (s.host.confs.get .init tid).vn off v.toNat (s.queue (16 * tid + q)))
      else enterError tid s := by
  simp only [List.mem_cons, List.not_mem_nil, or_false] at hoff
  rcases hoff with rfl | rfl | rfl | rfl | rfl <;> simp [writeQueue, hq]

/-! ### The counters (R450) -/

theorem counterByte_version (l : Life) : counterByte l 0 = 1 := rfl

theorem counterByte_header (l : Life) {a : Nat} (hpos : 1 ≤ a) (hlt : a < 0x20) : counterByte l a = 0 := by
  rw [counterByte, if_pos hlt, if_neg (by omega)]

/-- The corrections of a unit other than an HBM channel are counted by its number. -/
theorem correctedOther {x : CountSite} (h : ∀ d c, x ≠ .hbm d c) (s : State) :
    execCorrectableError x s =
      agentStep (fun s => { s with life := { s.life with ecc2 := s.life.ecc2.upd 0 (siteKey x) satInc } }) s := by
  cases x with
  | hbm d c => exact absurd rfl (h d c)
  | _ => rfl

/-! ### The steps of the host -/

theorem exec_evset (tid : Nat) (b : Dword) (s : State) : exec (.evset tid b) s = execEvset tid b s := rfl

theorem exec_conntabApply (s : State) : exec .conntabApply s = execConntabApply s := rfl

theorem exec_getCounters (off len : Nat) (s : State) : exec (.getCounters off len) s = execGetCounters off len s := rfl

theorem exec_correctableError (x : CountSite) (s : State) :
    exec (.correctableError x) s = execCorrectableError x s := rfl

theorem exec_shutdown (s : State) : exec .shutdown s = execShutdown s := rfl

/-- A write to a register of the windows. -/
theorem exec_registerWrite {s : State} (hon : s.power = .on) (r : MgmtReg) (v : Dword) :
    exec (.registerWrite r v) s = .next (writeMgmt r v s) := agentStep_on hon _

/-! ### Starts (R448, R449) -/

theorem exec_coldStart (x : ColdStart) (s : State) : exec (.coldStart x) s = .next (coldStart x s) := rfl

theorem exec_warmStart (x : WarmStart) (s : State) : exec (.warmStart x) s = .next (warmStart x s) := rfl

/-- Settles O50: each access finds its conditions met, and each start leaves the state that it builds. -/
theorem hostAccesses : Obligations.HostAccesses := by
  unfold Obligations.HostAccesses
  refine ⟨fun s hon => ?accesses, fun s => ⟨fun x hx => ?cold, fun x hx hd => ?warm, fun x hx hd => ?fallback,
    fun x y hx hy => ?refused⟩⟩
  case accesses =>
    have hstep (f : State → State) : agentStep f s = .next (f s) := agentStep_on hon f
    refine ⟨fun tid q v hrun hq => ?doorbells, fun tid b htid => ?evset, fun a htid hopen hend => ?aperture,
      fun hvalid hidle => ?applied, fun hbad => ?invalid, fun hvalid hbusy => ?busy, fun v => ?registers,
      fun off len hlen hend => ?counters, ⟨counterByte_version _, fun a => counterByte_header _⟩,
      fun d c hd hc => ?hbm, fun x hx => ?other, ?shutdown⟩
    case doorbells =>
      intro key x
      refine ⟨fun _ hlen => (hstep _).trans ?_, fun hsize hlen hgoing => (hstep _).trans ?_,
        fun hlen => (hstep _).trans ?_, fun hlen => (hstep _).trans ?_⟩
      · rw [writeQwptr_within hrun hq hlen]
      · rw [writeQwptr_beyond hrun hq hsize hlen hgoing]
        rfl
      · rw [writeCrptr_within hrun hq hlen]
      · rw [writeCrptr_beyond hlen]
    case evset =>
      rw [exec_evset, execEvset, hstep, if_pos htid]
      rfl
    case aperture =>
      refine ⟨fun l hdata hl => (hstep _).trans ?_, fun data l hdata hl hroom => (hstep _).trans ?_⟩
      · rw [aperture_read htid hopen hend hdata hl]
      · rw [aperture_write htid hopen hend hdata hl hroom]
    case applied =>
      rw [exec_conntabApply, execConntabApply, hstep]
      simp [hvalid, hidle]
    case invalid =>
      rw [exec_conntabApply, execConntabApply, hstep]
      simp [hbad]
    case busy =>
      rw [exec_conntabApply, execConntabApply, hstep]
      simp [hvalid, hbusy]
    case registers =>
      simp only [exec_registerWrite hon]
      refine ⟨fun i hi => ?_, rfl, fun hmin hmax => ?_, fun i hi => ?_, rfl, fun tid i htid hi => ?_, fun i hi => ?_,
        fun tid q off hq hoff => ⟨fun hunlocked => ?_, fun hlocked => ?_⟩⟩
      · rw [writeMgmt, if_pos hi]
      · rw [writeMgmt, if_pos ⟨hmin, hmax⟩]
      · rw [writeMgmt, if_pos hi]
      · rw [writeMgmt, if_pos ⟨htid, hi⟩]
      · rw [writeMgmt, if_pos hi]
      · rw [writeMgmt, writeQueue_frozen hq hoff, if_pos hunlocked]
      · rw [writeMgmt, writeQueue_frozen hq hoff, if_neg hlocked]
        rfl
    case counters =>
      rw [exec_getCounters, execGetCounters, hstep, if_neg (by omega)]
    case hbm =>
      rw [exec_correctableError, execCorrectableError, hstep]
      dsimp only
      rw [if_pos ⟨hd, hc⟩]
      rfl
    case other => rw [exec_correctableError, correctedOther hx, hstep]
    case shutdown => rw [exec_shutdown, execShutdown, hstep]
  case cold =>
    refine ⟨_, exec_coldStart x s, ?_⟩
    rw [coldStart, if_neg (not_not_intro hx)]
    exact ⟨rfl, rfl, rfl, rfl, rfl, rfl, rfl, rfl⟩
  case warm =>
    refine ⟨_, exec_warmStart x s, ?_⟩
    rw [warmStart, if_neg (not_not_intro hx), if_pos hd]
    exact ⟨rfl, rfl, rfl, rfl, rfl, rfl, rfl⟩
  case fallback =>
    refine ⟨_, exec_warmStart x s, ?_⟩
    rw [warmStart, if_neg (not_not_intro hx), if_neg (by simp [hd])]
    exact ⟨rfl, rfl, rfl, rfl⟩
  case refused =>
    rw [exec_coldStart, exec_warmStart, coldStart, warmStart, if_pos hx, if_pos hy]
    exact ⟨rfl, rfl⟩

end Sys2Proof.Machine

namespace Sys2Proof.Machine

open Sys2Proof

/-! ### Token words (R198) -/

/-- The queue that a `tkw` names by its action (R198). -/
def tkwQueue (w : Wrd) : Nat :=
  let a := bits w.mod 1 0
  if a = 0 then takeQ w.eng true else if a = 1 then takeQ w.eng false
    else if a = 2 then tokQ w.eng false else tokQ w.eng true

/-- What `tkw` does on an engine's own stream: actions 0 and 1 take, 2 and 3 give (R198). -/
def tkwAction (w : Wrd) : Act Unit :=
  if bits w.mod 1 0 < 2 then takeN (tkwQueue w) (bits w.imm 3 0) else giveN (tkwQueue w) (bits w.imm 3 0)

theorem takeN_enough {q n : Nat} {t : State} (h : n ≤ (t.cc.tokens q).length) :
    takeN q n t = .ok ((), tokensTaken q n t) := if_neg (Nat.not_lt.2 h)

theorem takeN_short {q n : Nat} {t : State} (h : (t.cc.tokens q).length < n) : takeN q n t = cannot 0x03 1 t :=
  if_pos h

theorem giveN_room {q n : Nat} {t : State} (h : (t.cc.tokens q).length + n ≤ 15) :
    giveN q n t = .ok ((), tokensGiven q n t) := if_neg (Nat.not_lt.2 h)

theorem giveN_full {q n : Nat} {t : State} (h : 15 < (t.cc.tokens q).length + n) : giveN q n t = cannot 0x04 1 t :=
  if_pos h

theorem cannot_joint {α : Type} {c k : Nat} {t : State} (h : t.seqn t.cur.core = .joint) :
    (cannot c k : Act α) t = .error (.fault { code := c } t) := by
  simp [cannot, h]

theorem cannot_slip {α : Type} {c k : Nat} {t : State} (h : t.seqn t.cur.core = .slip) :
    (cannot c k : Act α) t = .error (.stall k t) := by
  simp [cannot, h]

section

variable {w : Wrd} {s : State} {body : Act Unit} (ho : slotOpen w s = true)
include ho

/-- Of a word's body, only what it does in the slot's state counts. -/
theorem word_congr {body' : Act Unit} (h : body (atSlot w s) = body' (atSlot w s)) :
    word w body s = word w body' s := by
  have hslot : slot w body nextWord s = slot w body' nextWord s := by
    rw [slot_at ho, slot_at ho, act_bind, act_bind, h]
  rw [word, word, issueWord_of_open ho, issueWord_of_open ho, settle, settle, hslot]

/-- In joint sequencing, a word that cannot proceed takes its fault in the state before its slot. -/
theorem word_cannot_joint {c k : Nat} (hseq : (atSlot w s).seqn (atSlot w s).cur.core = .joint)
    (hb : body (atSlot w s) = cannot c k (atSlot w s)) : word w body s = .next (takeFault { code := c } s) := by
  rw [word_stops ho (hb.trans (cannot_joint hseq)), stopped_fault_atSlot w s rfl]

/-- Under slip, a word that cannot proceed records its wait in the slot's state. -/
theorem word_cannot_slip {c k : Nat} (hseq : (atSlot w s).seqn (atSlot w s).cur.core = .slip)
    (hb : body (atSlot w s) = cannot c k (atSlot w s)) :
    word w body s = .next ((atSlot w s).modStream fun x => { x with wait := k, waitAt := (atSlot w s).cc.moves }) :=
  word_stops ho (hb.trans (cannot_slip hseq))

end

/-- On an engine's own stream `tkw` is an ordinary word of its action. -/
theorem exec_tkw {w : Wrd} {s : State} (ho : slotOpen w s = true) (hstream : s.cur.stream < 4) :
    exec (.tkw w) s = word w (tkwAction w) s := by
  have hcur : (atSlot w s).cur = s.cur := atSlot_offCore offCore_cur w s
  have hengine : decide (4 ≤ (atSlot w s).cur.stream) = false := by simpa [hcur] using hstream
  refine word_congr ho ?_
  rw [act_bind, act_get]
  dsimp only
  rw [hengine, act_bind_ok (act_raiseIf_false _ _)]
  unfold tkwAction tkwQueue
  generalize bits w.mod 1 0 = a
  match a with
  | 0 => rfl
  | 1 => rfl
  | 2 => rfl
  | n + 3 => rfl

/-- Settles O14: on an engine's own stream `tkw` is a take or a give of its queue, which completes where the count
allows it, and else stops as the sequencing of the core says. -/
theorem tokenWords : Obligations.TokenWords := by
  unfold Obligations.TokenWords
  intro w s hopen hstream t n a q
  have hexec : exec (.tkw w) s = word w (tkwAction w) s := exec_tkw hopen hstream
  have htake (ha : a < 2) : tkwAction w t = takeN q n t := congrFun (if_pos ha) t
  have hgive (ha : 2 ≤ a) : tkwAction w t = giveN q n t := congrFun (if_neg (Nat.not_lt.2 ha)) t
  have hshort (ha : a < 2) (hn : (t.cc.tokens q).length < n) : tkwAction w t = cannot 0x03 1 t :=
    (htake ha).trans (takeN_short hn)
  have hfull (ha : 2 ≤ a) (hn : 15 < (t.cc.tokens q).length + n) : tkwAction w t = cannot 0x04 1 t :=
    (hgive ha).trans (giveN_full hn)
  refine ⟨fun ha hn => ?takes, fun ha hn => ?gives, fun hseq => ⟨fun ha hn => ?empty, fun ha hn => ?full⟩,
    fun hseq hstops => ?waits⟩
  case takes => exact word_runs hexec hopen ((htake ha).trans (takeN_enough hn))
  case gives => exact word_runs hexec hopen ((hgive ha).trans (giveN_room hn))
  case empty => exact hexec.trans (word_cannot_joint hopen hseq (hshort ha hn))
  case full => exact hexec.trans (word_cannot_joint hopen hseq (hfull ha hn))
  case waits =>
    rcases hstops with ⟨ha, hn⟩ | ⟨ha, hn⟩
    · exact hexec.trans (word_cannot_slip hopen hseq (hshort ha hn))
    · exact hexec.trans (word_cannot_slip hopen hseq (hfull ha hn))

end Sys2Proof.Machine

namespace Sys2Proof.Tbl

/-- What an erasure leaves of another entry. -/
theorem get_erase_other {α : Type} (d : α) (t : Tbl α) {k j : Nat} (h : j ≠ k) :
    (t.erase k).get d j = t.get d j := by
  obtain ⟨l⟩ := t
  suffices hfind : findIn (l.filter fun e => e.1 != k) j = findIn l j from congrArg (·.getD d) hfind
  induction l with
  | nil => rfl
  | cons e r ih =>
    by_cases he : e.1 = k
    · simp [he, findIn, h.symm, ih]
    · simp [he, findIn, ih]

/-- An entry that has the value put has it still. -/
theorem get_put_of_get {α : Type} {d : α} {t : Tbl α} {k j : Nat} {x : α} (h : t.get d j = x) :
    (t.put k x).get d j = x := by
  rw [get_put, h, ite_self]

end Sys2Proof.Tbl

namespace Sys2Proof.Machine

open Sys2Proof

theorem span_eq_range' (a n : Nat) : span a n = List.range' a n := by
  induction n generalizing a with
  | zero => rfl
  | succ n ih => rw [span, ih, List.range'_succ]

theorem mem_span {x a n : Nat} : x ∈ span a n ↔ a ≤ x ∧ x < a + n := by
  rw [span_eq_range', List.mem_range'_1]

theorem mem_span_zero {x n : Nat} : x ∈ span 0 n ↔ x < n := by
  rw [mem_span, Nat.zero_add, and_iff_right x.zero_le]

/-! ### Words with a part of their own after the slot (R200, R202) -/

/-- A word that passes its own check runs its slot. -/
theorem checkedSlot_of_good {w : Wrd} {bad : State → Bool} {body fin : Act Unit} {s : State} (h : bad s = false) :
    checkedSlot w bad body fin s = slot w body fin s := if_neg (by simp [h])

/-- A part that stops only with what is done kept settles the same, whatever state the word began in. -/
theorem settle_of_keeping {a b : Act Unit} {s t : State} (hb : Keeping b) (h : a s = b t) :
    settle a s = settle b t := by
  unfold settle
  rw [h]
  cases hx : b t with
  | ok r => rfl
  | error e =>
    have hkeep := hb t e hx
    cases e with
    | stall c x => rfl
    | fault f x => simp [stopped, show f.keep = true from hkeep]

/-- A checked word whose repetition completes goes on with its own end and then with the part after its slot. -/
theorem issueChecked_then {w : Wrd} {s t : State} {bad : State → Bool} {body fin rest : Act Unit}
    (ho : slotOpen w s = true) (hgood : bad s = false) (hb : body (atSlot w s) = .ok ((), t)) (hfin : Total fin)
    (hrest : Total rest) :
    issueWord (do checkedSlot w bad body fin; rest) s = .next (settle (do slotExit w fin; rest) t) := by
  rw [issueWord_of_open ho]
  refine congrArg Host.Outcome.next (settle_of_keeping ?_ ?_)
  · exact keeping_bind (keeping_slotExit w hfin) fun _ => keeping_total hrest
  · rw [act_bind, checkedSlot_of_good hgood, slot_at ho, act_bind_ok hb, act_bind]

/-! ### The start of the clusters (R173, R200) -/

/-- Cluster `c` at its start, after a `fork` at word `f` (R200). -/
def clusterStarted (w : Wrd) (f : Nat) (s : State) (c : Nat) : Stream :=
  let lits := litsAt s.cl.code f
  { s.cs with
    progress := s.cs.progress + 1 + lits, valid := true, pc := clusterStart w s.cs.base (f + 1 + lits) c, lit := 0
    joinb := false, pend := s.cs.pend.map (clusterPend c), latch := if c = 0 then s.cs.latch else false }

/-- The core after a `fork` that starts region `r` (R200). -/
def forkedCore (w : Wrd) (f : Nat) (s : State) (r : Nat × Nat) : Core :=
  { (span 0 4).foldl (fun k c => k.setStream (clusterStream c) (clusterStarted w f s c)) s.cc with fork := some r }

theorem clusterStream_injective {c d : Nat} (h : clusterStream c = clusterStream d) : c = d := by
  cases c <;> cases d <;> simp_all [clusterStream]

theorem foldl_clusterStream_stream (t : Nat → Stream) {c : Nat} {l : List Nat} {k : Core}
    (h : c ∈ l ∨ k.stream (clusterStream c) = t c) :
    (l.foldl (fun k c => k.setStream (clusterStream c) (t c)) k).stream (clusterStream c) = t c := by
  induction l generalizing k with
  | nil => simpa using h
  | cons d r ih =>
    refine ih ?_
    by_cases hd : c = d
    · subst hd
      exact .inr (Core.stream_setStream_same _ _ _)
    · rw [Core.stream_setStream_other _ _ (mt clusterStream_injective hd)]
      exact h.imp_left fun hmem => (List.mem_cons.1 hmem).resolve_left hd

theorem forkedCore_stream (w : Wrd) (f : Nat) (s : State) (r : Nat × Nat) {c : Nat} (hc : c < 4) :
    (forkedCore w f s r).stream (clusterStream c) = clusterStarted w f s c :=
  foldl_clusterStream_stream (k := s.cc) _ (.inl (mem_span_zero.2 hc))

/-- At the start of a region `forkAll` starts the clusters, and elsewhere it does nothing. -/
theorem forkAll_eq (w : Wrd) (f : Nat) (s : State) :
    forkAll w f s = .ok ((), (s.cl.code.regions.find? fun x => x.1 = f).elim s fun r =>
      s.modCore fun _ => forkedCore w f s r) := by
  unfold forkAll
  cases s.cl.code.regions.find? fun x => x.1 = f <;> rfl

/-- A `fork` that may start its clusters passes its check. -/
theorem badFork_of_forkHere {w : Wrd} {s : State} {r : Nat × Nat} (h : forkHere w s = some r) :
    badFork w s.cs.pc s = false := by
  unfold forkHere at h
  unfold badFork
  cases hr : s.cl.code.regions.find? fun x => x.1 = s.cs.pc with
  | none => simp [hr] at h
  | some x =>
    simp only [hr] at h ⊢
    split at h
    · next hmay =>
      simp only [Bool.and_eq_true, Bool.not_eq_true', Bool.or_eq_true] at hmay
      obtain ⟨hfork, htarget⟩ := hmay
      rcases htarget with hz | htarget
      · simp [hfork, hz]
      · simp [hfork, htarget]
    · cases h

/-! ### The end of a fork region (R174, R202) -/

/-- The core with every pending write of the clusters committed (R202). -/
def clustersCommitted (k : Core) : Core := (clusterPends k).foldl (fun k x => applyPend x.1 x.2 k) k

/-- X as it goes on after the `join` at word `j` of the region from `f`: the stream of cluster 0 once every write is
committed, with the largest slot count (R202). -/
def joinedX (code : Code) (f j : Nat) (k : Core) : Stream :=
  let t := (copyBanks (clustersCommitted k)).stream 1
  { t with
    slot := (span 0 4).foldl (fun m c => Nat.max m (k.stream (clusterStream c)).slot) 0, pend := [], joinb := false
    wait := 0, clock := (span 0 4).foldl (fun m c => m.max (k.stream (clusterStream c)).clock) Clk.zero, pc := j + 1
    progress := t.progress + (j - f - litsAt code f) }

/-- The core with its clusters reunited (R202). -/
def reunited (code : Code) (f j : Nat) (k : Core) : Core :=
  let x := (copyBanks (clustersCommitted k)).setStream 1 (joinedX code f j k)
  { x with fork := none, streams := ((x.streams.erase 4).erase 5).erase 6 }

theorem copyBanks_stream (k : Core) (e : Nat) : (copyBanks k).stream e = k.stream e := by
  simp only [copyBanks, Core.stream]

theorem joinedX_rs (code : Code) (f j : Nat) (k : Core) :
    (joinedX code f j k).rs = ((clustersCommitted k).stream 1).rs := by
  rw [← copyBanks_stream, joinedX]

theorem joinedX_lc (code : Code) (f j : Nat) (k : Core) :
    (joinedX code f j k).lc = ((clustersCommitted k).stream 1).lc := by
  rw [← copyBanks_stream, joinedX]

theorem reunited_v (code : Code) (f j : Nat) (k : Core) : (reunited code f j k).v = (clustersCommitted k).v := by
  simp only [reunited, Core.setStream, copyBanks]

theorem reunited_g (code : Code) (f j : Nat) (k : Core) : (reunited code f j k).g = (clustersCommitted k).g := by
  simp only [reunited, Core.setStream, copyBanks]

theorem reunited_stream_one (code : Code) (f j : Nat) (k : Core) :
    (reunited code f j k).stream 1 = joinedX code f j k := by
  simp [reunited, Core.stream, Core.setStream, Tbl.get_erase_other]

/-! ### The copy of s bank 0 (R174) -/

/-- Register `i` of bank 0 of `src`, written to banks 1 to 3. -/
def copyBank (src t : Tbl Dword) (i : Nat) : Tbl Dword :=
  let x := src.get 0 i
  ((t.put (32 + i) x).put (64 + i) x).put (96 + i) x

/-- A copy of register `n` gives its value to each bank above 0, and leaves every other register that has bank 0's. -/
theorem copyBank_copies {src t : Tbl Dword} {c i n : Nat} (hc : c < 4) (hi : i < 32) (hn : n < 32)
    (h : (1 ≤ c ∧ i = n) ∨ t.get 0 (32 * c + i) = src.get 0 i) :
    (copyBank src t n).get 0 (32 * c + i) = src.get 0 i := by
  unfold copyBank
  by_cases hsame : i = n
  · subst hsame
    rcases c with _ | _ | _ | _ | c
    · have hbank : t.get 0 (32 * 0 + i) = src.get 0 i := h.resolve_left fun hcopied => absurd hcopied.1 (by decide)
      exact Tbl.get_put_of_get (Tbl.get_put_of_get (Tbl.get_put_of_get hbank))
    · exact Tbl.get_put_of_get (Tbl.get_put_of_get (Tbl.get_put_same _ _ _ _))
    · exact Tbl.get_put_of_get (Tbl.get_put_same _ _ _ _)
    · exact Tbl.get_put_same _ _ _ _
    · exact absurd hc (Nat.not_lt.2 (Nat.le_add_left 4 c))
  · have hother (b : Nat) : 32 * c + i ≠ 32 * b + n := fun heq => hsame <| by
      have hmod : (32 * c + i) % 32 = (32 * b + n) % 32 := congrArg (· % 32) heq
      rwa [Nat.mul_add_mod, Nat.mul_add_mod, Nat.mod_eq_of_lt hi, Nat.mod_eq_of_lt hn] at hmod
    dsimp only
    rw [Tbl.get_put_other _ _ _ (hother 3), Tbl.get_put_other _ _ _ (hother 2), Tbl.get_put_other _ _ _ (hother 1)]
    exact h.resolve_left fun hcopied => hsame hcopied.2

theorem foldl_copyBank_copies {src : Tbl Dword} {c i : Nat} (hc : c < 4) (hi : i < 32) {l : List Nat}
    (hl : ∀ n ∈ l, n < 32) {t : Tbl Dword} (h : (1 ≤ c ∧ i ∈ l) ∨ t.get 0 (32 * c + i) = src.get 0 i) :
    (l.foldl (copyBank src) t).get 0 (32 * c + i) = src.get 0 i := by
  induction l generalizing t with
  | nil => simpa using h
  | cons n r ih =>
    rw [List.foldl_cons]
    refine ih (fun m hm => hl m (List.mem_cons_of_mem n hm)) ?_
    have hn : n < 32 := hl n List.mem_cons_self
    rcases h with ⟨hc0, hmem⟩ | h
    · rcases List.mem_cons.1 hmem with rfl | hmem
      · exact .inr (copyBank_copies hc hi hn (.inl ⟨hc0, rfl⟩))
      · exact .inl ⟨hc0, hmem⟩
    · exact .inr (copyBank_copies hc hi hn (.inr h))

/-- After the copy, every bank holds bank 0. -/
theorem copyBanks_get (k : Core) {c i : Nat} (hc : c < 4) (hi : i < 32) :
    (copyBanks k).s.get 0 (32 * c + i) = k.s.get 0 i := by
  have hspan : ∀ n ∈ span 0 32, n < 32 := fun n hn => mem_span_zero.1 hn
  refine foldl_copyBank_copies hc hi hspan ?_
  rcases Nat.eq_zero_or_pos c with rfl | hc0
  · exact .inr (by rw [Nat.mul_zero, Nat.zero_add])
  · exact .inl ⟨hc0, mem_span_zero.2 hi⟩

/-! ### A join of the four clusters (R202) -/

theorem setPc_fork (k : Core) (pc : Nat) : (k.setPc pc).fork = k.fork := by
  simp [Core.setPc]

theorem setPc_s (k : Core) (pc : Nat) : (k.setPc pc).s = k.s := by
  simp [Core.setPc]

theorem setPc_v (k : Core) (pc : Nat) : (k.setPc pc).v = k.v := by
  simp [Core.setPc]

theorem setPc_g (k : Core) (pc : Nat) : (k.setPc pc).g = k.g := by
  simp [Core.setPc]

/-- The one program counter that stands where X does leaves the stream of X as it is. -/
theorem setPc_stream_one {k : Core} {pc : Nat} (h : (k.stream 1).pc = pc) : (k.setPc pc).stream 1 = k.stream 1 := by
  have hset (l : List Nat) {x : Core} (hx : (x.stream 1).pc = pc) :
      (l.foldl (fun k e => k.setStream e { k.stream e with pc := pc }) x).stream 1 = x.stream 1 := by
    induction l generalizing x with
    | nil => rfl
    | cons e r ih =>
      have hstep : (x.setStream e { x.stream e with pc := pc }).stream 1 = x.stream 1 := by
        by_cases he : 1 = e
        · rw [← he, Core.stream_setStream_same, ← hx]
        · exact Core.stream_setStream_other _ _ he
      exact (ih (by rw [hstep, hx])).trans hstep
  exact hset _ h

/-- The synchronisation bits of the four clusters are set (R202). -/
def allJoined (k : Core) : Bool := (span 0 4).all fun c => (k.stream (clusterStream c)).joinb

theorem allJoined_iff {k : Core} :
    allJoined k = true ↔ ∀ c, c < 4 → (k.stream (clusterStream c)).joinb = true := by
  simp only [allJoined, List.all_eq_true, mem_span_zero]

/-- The core after the fourth synchronisation bit: in joint sequencing the one program counter goes on after
the `join`. -/
def joinedCore (f j : Nat) (s : State) : Core :=
  let k := reunited s.cl.code f j s.cc
  if s.seqn s.cur.core == .joint then k.setPc (j + 1) else k

/-- In a fork region the clusters reunite once all four have joined; else `joinAll` does nothing. -/
theorem joinAll_eq (s : State) :
    joinAll s = .ok ((), s.cc.fork.elim s fun r =>
      if allJoined s.cc then s.modCore fun _ => joinedCore r.1 r.2 s else s) := by
  unfold joinAll
  dsimp only
  cases s.cc.fork with
  | none => rfl
  | some r => exact (apply_ite (fun t => Except.ok ((), t)) _ _ _).symm

/-- What the reunited core holds, whether or not the one program counter moves. -/
theorem joinedCore_holds (f j : Nat) (s : State) :
    (joinedCore f j s).fork = none ∧ (joinedCore f j s).stream 1 = joinedX s.cl.code f j s.cc ∧
    (joinedCore f j s).v = (clustersCommitted s.cc).v ∧ (joinedCore f j s).g = (clustersCommitted s.cc).g ∧
    (joinedCore f j s).s = (copyBanks (clustersCommitted s.cc)).s := by
  have hone := reunited_stream_one s.cl.code f j s.cc
  unfold joinedCore
  dsimp only
  split
  · rw [setPc_fork, setPc_v, setPc_g, setPc_s, setPc_stream_one (by rw [hone, joinedX])]
    exact ⟨rfl, hone, reunited_v _ _ _ _, reunited_g _ _ _ _, rfl⟩
  · exact ⟨rfl, hone, reunited_v _ _ _ _, reunited_g _ _ _ _, rfl⟩

/-- Settles O15: the checks of `fork` and `join` pass, what follows their slots is total, and the streams and registers
that it leaves are read off `clusterStarted` and `joinedCore`. -/
theorem forkAndJoin : Obligations.ForkAndJoin := by
  unfold Obligations.ForkAndJoin
  refine ⟨fun w s r hopen hhere => ⟨?fork, fun t hregion => ?started⟩,
    fun w s f j hopen hfork hpc => ⟨?join, fun t hfork =>
      ⟨fun ⟨c, hc, hclear⟩ => ?waits, fun hall => ?joined⟩⟩⟩
  case fork =>
    exact issueChecked_then hopen (badFork_of_forkHere hhere) rfl total_pure fun t => ⟨_, forkAll_eq w s.cs.pc t⟩
  case started =>
    refine ⟨t.modCore fun _ => forkedCore w s.cs.pc t r,
      by rw [forkAll_eq, hregion, Option.elim_some], ?_, fun c hc => ?_⟩
    · rw [State.cc_modCore, forkedCore]
    · rw [State.cc_modCore, forkedCore_stream _ _ _ _ hc]
      exact ⟨rfl, rfl, rfl, rfl, rfl, rfl, rfl⟩
  case join =>
    have hgood : (s.cc.fork.map (·.2) != some s.cs.pc) = false := by simp [hfork, hpc]
    exact issueChecked_then hopen hgood rfl (fun x => ⟨_, rfl⟩) fun t => ⟨_, joinAll_eq t⟩
  case waits =>
    have hmissing : ¬ allJoined t.cc = true := fun hall => by simp [allJoined_iff.1 hall c hc] at hclear
    rw [joinAll_eq, hfork, Option.elim_some, if_neg hmissing]
  case joined =>
    refine ⟨t.modCore fun _ => joinedCore f j t,
      by rw [joinAll_eq, hfork, Option.elim_some, if_pos (allJoined_iff.2 hall)], ?_⟩
    rw [State.cc_modCore]
    obtain ⟨hnone, hone, hv, hg, hs⟩ := joinedCore_holds f j t
    have hbanks (i c : Nat) (hi : i < 32) (hc : c < 4) :
        (joinedCore f j t).s.get 0 (32 * c + i) = (clustersCommitted t.cc).s.get 0 i := by
      rw [hs]
      exact copyBanks_get (clustersCommitted t.cc) hc hi
    exact ⟨hnone, congrArg Stream.pc hone, congrArg Stream.joinb hone, congrArg Stream.pend hone,
      congrArg Stream.slot hone, (congrArg Stream.rs hone).trans (joinedX_rs _ _ _ _),
      (congrArg Stream.lc hone).trans (joinedX_lc _ _ _ _), hv, hg, hbanks⟩

end Sys2Proof.Machine
